-- ==== Sys2Proof/Word.lean ====
section
/-! DEFINITION. The word types of the Phicen (R2, R24, R33): bytes, 32-bit registers, 64-bit words and
lane masks, and one value per lane of a gang. -/

namespace Sys2Proof

/-- One byte. -/
abbrev Byte := BitVec 8

/-- One lane of a register: every register holds 32 bits per lane (R33). -/
abbrev Word := BitVec 32

/-- A 64-bit value: an instruction word (R24), an address (R78), a register pair (R35). -/
abbrev DWord := BitVec 64

/-- One bit per lane of a gang (R128), lane `l` at bit `l`. -/
abbrev Mask := BitVec 64

/-- One value per lane of a gang; a gang has at most 64 lanes (R10). -/
abbrev LaneVec (α : Type) := Vector α 64

end Sys2Proof
end

