-- ==== Sys2Proof/Syntax.lean ====
section
/-! DEFINITION. The steps of the machine as data: one constructor of `Instr` per row of the opcode table.
Rows that are instruction words carry the fields of the word (R24 to R30, R41); the other rows are steps of the
device, the host or the environment, and carry what the step is about. -/

namespace Sys2Proof

/-- A register field code of R33. -/
abbrev Reg := BitVec 8

/-- A predicate number, p0..p31. -/
abbrev PReg := BitVec 5

/-- The two kinds of core (R19, R20). -/
inductive CoreKind where
  | banner | pennant
  deriving DecidableEq, Repr, Inhabited

/-- The three kinds of image (R45, R69). -/
inductive ImageKind where
  | banner | pennant | tamut
  deriving DecidableEq, Repr, Inhabited

/-- The fault causes of R324. -/
inductive Cause where
  | illegal | reservedMajor | window | scratch | barrier | pageFault | protection | bufferBounds
  | unknownFlag | checkWord | overflow | dispatch | partialColl | troupe | nested | policy | absent
  | misaligned | stream | uncorrectable | compute | firmware | syscall
  deriving DecidableEq, Repr, Inhabited

/-- The type codes of R32. -/
inductive Ty where
  | i8 | i16 | i32 | i64 | n8 | n16 | n32 | n64 | b32 | f32 | f16 | bf16 | f16x2 | bf16x2 | h2
  deriving DecidableEq, Repr, Inhabited

/-- The integer comparisons of R156. -/
inductive Cc where
  | eq | ne | lt | le | gt | ge
  deriving DecidableEq, Repr, Inhabited

/-- The float comparisons of R164. -/
inductive Fcc where
  | eq | ne | lt | le | gt | ge | un | ord
  deriving DecidableEq, Repr, Inhabited

/-- Rounding modes (R149). -/
inductive Rm where
  | rne | rz | rdn | rup
  deriving DecidableEq, Repr, Inhabited

/-- Overflow policies (R150). -/
inductive Ov where
  | sat | inf | nan | trap
  deriving DecidableEq, Repr, Inhabited

/-- Element types of the matrix engine (R30). -/
inductive Et where
  | i8 | e4m3 | e5m2 | ln6 | bf16 | f16
  deriving DecidableEq, Repr, Inhabited

/-- Scale modes of `mma` (R263). -/
inductive Sm where
  | unit | lane | bcst | flag
  deriving DecidableEq, Repr, Inhabited

/-- Modes of `shfl` (R174). -/
inductive ShflMode where
  | at | lag | lead | mirror
  deriving DecidableEq, Repr, Inhabited

/-- Scopes (R28). -/
inductive Scope where
  | core | cluster | device | system
  deriving DecidableEq, Repr, Inhabited

/-- Directions of `cp` (R210). -/
inductive CopyDir where
  | g2s | s2g | g2g | s2s
  deriving DecidableEq, Repr, Inhabited

/-- Register classes of `orr` and `orw` (R326). -/
inductive OrClass where
  | v | s | p | sr
  deriving DecidableEq, Repr, Inhabited

/-- The guard of a full word (R25): GE = 0, or GE = 1 with GP and GN. -/
inductive Guard where
  | always
  | on (p : PReg) (neg : Bool)
  deriving DecidableEq, Repr, Inhabited

/-- The fields every full word has beside its opcode and body: guard and LA (R24). -/
structure Hdr where
  guard : Guard
  la : BitVec 4
  deriving DecidableEq, Repr, Inhabited

/-- The ordering fields of format M (R28, R29). -/
structure Ord where
  sn : BitVec 3
  pm : BitVec 8
  sc : Scope
  deriving DecidableEq, Repr, Inhabited

/-- The address layout of format M, less D and Q (R28). -/
structure Addr where
  base : BitVec 6
  x : Reg
  ofs : BitVec 6
  ord : Ord
  deriving DecidableEq, Repr, Inhabited

/-- The paired operations of R42. -/
inductive PairOp where
  | add | sub | and | or | xor | shl | shr | sar | mini | maxi | minn | maxn | mov | fadd | fmul | fmin | fmax
  deriving DecidableEq, Repr, Inhabited

/-- One slot of a paired word (R41). -/
inductive Slot where
  | empty
  | reg (op : PairOp) (d s : Reg)
  | imm (op : PairOp) (d s : Reg) (k : BitVec 8)
  deriving DecidableEq, Repr, Inhabited

/-- The units whose errors are counted and which are tested and fenced (R341). -/
inductive HwUnit where
  | lanes (core quad pos : Nat)
  | matrix (core : Nat)
  | copy (core : Nat)
  | engine (die eng : Nat)
  | l2slice (die n : Nat)
  | hbm (die n : Nat)
  | walker (die : Nat)
  deriving DecidableEq, Repr, Inhabited

/-- A register that carries ECC (R339): vector, handler vector, scalar, handler scalar of a unit, predicate, tile
record. -/
inductive ErrReg where
  | v (n : Nat)
  | hv (n : Nat)
  | s (n : Nat)
  | hs (unit n : Nat)
  | p (n : Nat)
  | t (n : Nat)
  deriving DecidableEq, Repr, Inhabited

/-- Where an uncorrectable error stands (R271, R339, R343). -/
inductive ErrLoc where
  | sector (home pa : Nat)
  | scratch (team sector : Nat)
  | reg (gang : Nat) (reg : ErrReg) (lane : Nat)
  | slot (core slot : Nat)
  | unpinned (die : Nat)
  deriving DecidableEq, Repr, Inhabited

/-- The atomic operations of R48 and R115. -/
inductive AtmOp where
  | add | sub | min | max | and | or | xor | xchg | fadd | cas | minu | maxu
  deriving DecidableEq, Repr, Inhabited

/-- The transfer operations of R227. -/
inductive XgoOp where
  | copy | addF32 | addBf16x2 | addI32 | maxF32 | minF32
  deriving DecidableEq, Repr, Inhabited

/-- What a peer's access does when it arrives (R81, R227). -/
inductive PeerAccess where
  | load (size : Nat)
  | store (bytes : List Byte)
  | atomic (op : AtmOp) (wide : Bool) (x y : DWord)
  | element (op : XgoOp) (src : Word)
  deriving DecidableEq, Repr, Inhabited

/-- Why firmware faults (R230), less the timeout, which is a step of its own. -/
inductive FwReason where
  | exception (code : Nat)
  | access (addr : Nat)
  | badXgo (code : Nat)
  | badCommand
  | missing
  | status (v : Nat)
  deriving DecidableEq, Repr, Inhabited

/-- One constructor per row of the opcode table; each docstring names the rule that gives the step. -/
inductive Instr where
  /-- `ADD` (R153). -/
  | add (h : Hdr) (ty : Ty) (d a b : Reg)
  /-- `ADD_IMM` (R153). -/
  | addImm (h : Hdr) (ty : Ty) (d a : Reg) (imm : BitVec 18)
  /-- `SUB` (R153). -/
  | sub (h : Hdr) (ty : Ty) (d a b : Reg)
  /-- `SUB_IMM` (R153). -/
  | subImm (h : Hdr) (ty : Ty) (d a : Reg) (imm : BitVec 18)
  /-- `MUL` (R153). -/
  | mul (h : Hdr) (ty : Ty) (d a b : Reg)
  /-- `MUL_IMM` (R153). -/
  | mulImm (h : Hdr) (ty : Ty) (d a : Reg) (imm : BitVec 18)
  /-- `MULH` (R153). -/
  | mulh (h : Hdr) (ty : Ty) (d a b : Reg)
  /-- `MULH_IMM` (R153). -/
  | mulhImm (h : Hdr) (ty : Ty) (d a : Reg) (imm : BitVec 18)
  /-- `MAD` (R153). -/
  | mad (h : Hdr) (ty : Ty) (d a b c : Reg)
  /-- `MAD_IMM` (R153). -/
  | madImm (h : Hdr) (ty : Ty) (d a : Reg) (imm : BitVec 18)
  /-- `DIV` (R155). -/
  | div (h : Hdr) (ty : Ty) (d a b : Reg)
  /-- `DIV_IMM` (R155). -/
  | divImm (h : Hdr) (ty : Ty) (d a : Reg) (imm : BitVec 18)
  /-- `REM` (R155). -/
  | rem (h : Hdr) (ty : Ty) (d a b : Reg)
  /-- `REM_IMM` (R155). -/
  | remImm (h : Hdr) (ty : Ty) (d a : Reg) (imm : BitVec 18)
  /-- `MIN` (R153). -/
  | min (h : Hdr) (ty : Ty) (d a b : Reg)
  /-- `MIN_IMM` (R153). -/
  | minImm (h : Hdr) (ty : Ty) (d a : Reg) (imm : BitVec 18)
  /-- `MAX` (R153). -/
  | max (h : Hdr) (ty : Ty) (d a b : Reg)
  /-- `MAX_IMM` (R153). -/
  | maxImm (h : Hdr) (ty : Ty) (d a : Reg) (imm : BitVec 18)
  /-- `ABS` (R153). -/
  | abs (h : Hdr) (ty : Ty) (d a : Reg)
  /-- `NEG` (R153). -/
  | neg (h : Hdr) (ty : Ty) (d a : Reg)
  /-- `AND` (R153). -/
  | and (h : Hdr) (ty : Ty) (d a b : Reg)
  /-- `AND_IMM` (R153). -/
  | andImm (h : Hdr) (ty : Ty) (d a : Reg) (imm : BitVec 18)
  /-- `OR` (R153). -/
  | or (h : Hdr) (ty : Ty) (d a b : Reg)
  /-- `OR_IMM` (R153). -/
  | orImm (h : Hdr) (ty : Ty) (d a : Reg) (imm : BitVec 18)
  /-- `XOR` (R153). -/
  | xor (h : Hdr) (ty : Ty) (d a b : Reg)
  /-- `XOR_IMM` (R153). -/
  | xorImm (h : Hdr) (ty : Ty) (d a : Reg) (imm : BitVec 18)
  /-- `ANDN` (R153). -/
  | andn (h : Hdr) (ty : Ty) (d a b : Reg)
  /-- `ANDN_IMM` (R153). -/
  | andnImm (h : Hdr) (ty : Ty) (d a : Reg) (imm : BitVec 18)
  /-- `SHL` (R154). -/
  | shl (h : Hdr) (ty : Ty) (d a b : Reg)
  /-- `SHL_IMM` (R154). -/
  | shlImm (h : Hdr) (ty : Ty) (d a : Reg) (imm : BitVec 18)
  /-- `SHR` (R154). -/
  | shr (h : Hdr) (ty : Ty) (d a b : Reg)
  /-- `SHR_IMM` (R154). -/
  | shrImm (h : Hdr) (ty : Ty) (d a : Reg) (imm : BitVec 18)
  /-- `SAR` (R154). -/
  | sar (h : Hdr) (ty : Ty) (d a b : Reg)
  /-- `SAR_IMM` (R154). -/
  | sarImm (h : Hdr) (ty : Ty) (d a : Reg) (imm : BitVec 18)
  /-- `ROT` (R154). -/
  | rot (h : Hdr) (ty : Ty) (d a b : Reg)
  /-- `ROT_IMM` (R154). -/
  | rotImm (h : Hdr) (ty : Ty) (d a : Reg) (imm : BitVec 18)
  /-- `CLZ` (R153). -/
  | clz (h : Hdr) (ty : Ty) (d a : Reg)
  /-- `POPC` (R153). -/
  | popc (h : Hdr) (ty : Ty) (d a : Reg)
  /-- `BREV` (R153). -/
  | brev (h : Hdr) (ty : Ty) (d a : Reg)
  /-- `BFX` (R157). -/
  | bfx (h : Hdr) (ty : Ty) (d a b : Reg)
  /-- `BFX_IMM` (R157). -/
  | bfxImm (h : Hdr) (ty : Ty) (d a : Reg) (imm : BitVec 18)
  /-- `BFI` (R157). -/
  | bfi (h : Hdr) (ty : Ty) (d a b c : Reg)
  /-- `BFI_IMM` (R157). -/
  | bfiImm (h : Hdr) (ty : Ty) (d a : Reg) (imm : BitVec 18)
  /-- `SEL` (R153). -/
  | sel (h : Hdr) (ty : Ty) (q : BitVec 4) (d a b : Reg)
  /-- `SEL_IMM` (R153). -/
  | selImm (h : Hdr) (ty : Ty) (q : BitVec 4) (d a : Reg) (imm : BitVec 18)
  /-- `CMP` (R156). -/
  | cmp (h : Hdr) (cc : Cc) (ty : Ty) (pd : PReg) (a b : Reg)
  /-- `CMP_IMM` (R156). -/
  | cmpImm (h : Hdr) (cc : Cc) (ty : Ty) (pd : PReg) (a : Reg) (imm : BitVec 18)
  /-- `ADDC` (R153). -/
  | addc (h : Hdr) (ty : Ty) (q : BitVec 4) (d a b : Reg)
  /-- `ADDC_IMM` (R153). -/
  | addcImm (h : Hdr) (ty : Ty) (q : BitVec 4) (d a : Reg) (imm : BitVec 18)
  /-- `SUBC` (R153). -/
  | subc (h : Hdr) (ty : Ty) (q : BitVec 4) (d a b : Reg)
  /-- `SUBC_IMM` (R153). -/
  | subcImm (h : Hdr) (ty : Ty) (q : BitVec 4) (d a : Reg) (imm : BitVec 18)
  /-- `LEA` (R158). -/
  | lea (h : Hdr) (ty : Ty) (sh : BitVec 3) (d a b : Reg)
  /-- `LEA_IMM` (R158). -/
  | leaImm (h : Hdr) (ty : Ty) (sh : BitVec 3) (d a : Reg) (imm : BitVec 18)
  /-- `ACS` (R159). -/
  | acs (h : Hdr) (n : BitVec 4) (d a b c : Reg)
  /-- `ACS_IMM` (R159). -/
  | acsImm (h : Hdr) (n : BitVec 4) (d a : Reg) (imm : BitVec 18)
  /-- `FADD` (R160). -/
  | fadd (h : Hdr) (ty : Ty) (rm : Rm) (ov : Ov) (d a b : Reg)
  /-- `FSUB` (R160). -/
  | fsub (h : Hdr) (ty : Ty) (rm : Rm) (ov : Ov) (d a b : Reg)
  /-- `FMUL` (R160). -/
  | fmul (h : Hdr) (ty : Ty) (rm : Rm) (ov : Ov) (d a b : Reg)
  /-- `FFMA` (R160). -/
  | ffma (h : Hdr) (ty : Ty) (rm : Rm) (ov : Ov) (d a b c : Reg)
  /-- `FMIN` (R163). -/
  | fmin (h : Hdr) (ty : Ty) (d a b : Reg)
  /-- `FMAX` (R163). -/
  | fmax (h : Hdr) (ty : Ty) (d a b : Reg)
  /-- `FCMP` (R164). -/
  | fcmp (h : Hdr) (cc : Fcc) (ty : Ty) (pd : PReg) (a b : Reg)
  /-- `FRCP` (R162). -/
  | frcp (h : Hdr) (ty : Ty) (rm : Rm) (ov : Ov) (d a : Reg)
  /-- `FRSQ` (R162). -/
  | frsq (h : Hdr) (ty : Ty) (rm : Rm) (d a : Reg)
  /-- `FSQRT` (R162). -/
  | fsqrt (h : Hdr) (ty : Ty) (rm : Rm) (d a : Reg)
  /-- `FEX2` (R162). -/
  | fex2 (h : Hdr) (ty : Ty) (rm : Rm) (ov : Ov) (d a : Reg)
  /-- `FLG2` (R162). -/
  | flg2 (h : Hdr) (ty : Ty) (rm : Rm) (d a : Reg)
  /-- `FDIV` (R161). -/
  | fdiv (h : Hdr) (ty : Ty) (rm : Rm) (ov : Ov) (d a b : Reg)
  /-- `FRND` (R160). -/
  | frnd (h : Hdr) (ty : Ty) (rm : Rm) (d a : Reg)
  /-- `FCLASS` (R166). -/
  | fclass (h : Hdr) (ty : Ty) (d a : Reg)
  /-- `CVT` (R169). -/
  | cvt (h : Hdr) (dt st : Ty) (rm : Rm) (ov : Ov) (d a c : Reg)
  /-- `MOV` (R172). -/
  | mov (h : Hdr) (ty : Ty) (d a : Reg)
  /-- `BCST` (R173). -/
  | bcst (h : Hdr) (ty : Ty) (d a b : Reg)
  /-- `SHFL` (R174). -/
  | shfl (h : Hdr) (mode : ShflMode) (seg : BitVec 2) (ty : Ty) (d a b : Reg)
  /-- `RDSR` (R175). -/
  | rdsr (h : Hdr) (d : Reg) (sr : BitVec 8)
  /-- `WRSR` (R135). -/
  | wrsr (h : Hdr) (sr : BitVec 8) (a : Reg)
  /-- `PAND` (R170). -/
  | pand (h : Hdr) (na nb : Bool) (pd pa pb : PReg)
  /-- `POR` (R170). -/
  | por (h : Hdr) (na nb : Bool) (pd pa pb : PReg)
  /-- `PXOR` (R170). -/
  | pxor (h : Hdr) (na nb : Bool) (pd pa pb : PReg)
  /-- `PNOT` (R170). -/
  | pnot (h : Hdr) (pd pa : PReg)
  /-- `PMOV` (R170). -/
  | pmov (h : Hdr) (pd pa : PReg)
  /-- `PMOV_NZ` (R170). -/
  | pmovNz (h : Hdr) (pd : PReg) (a : Reg)
  /-- `PMOV_ALL` (R170). -/
  | pmovAll (h : Hdr) (a : Reg)
  /-- `PGET` (R170). -/
  | pget (h : Hdr) (d : Reg)
  /-- `VOTE_OR` (R171). -/
  | voteOr (h : Hdr) (inv : Bool) (pd pa : PReg)
  /-- `VOTE_AND` (R171). -/
  | voteAnd (h : Hdr) (inv : Bool) (pd pa : PReg)
  /-- `VOTE_SAME` (R171). -/
  | voteSame (h : Hdr) (inv : Bool) (pd pa : PReg)
  /-- `VOTE_MASK` (R171). -/
  | voteMask (h : Hdr) (inv : Bool) (d : Reg) (pa : PReg)
  /-- `BRA` (R180). -/
  | bra (h : Hdr) (ofs : BitVec 26)
  /-- `BRX` (R181). -/
  | brx (h : Hdr) (a : Reg)
  /-- `CALL` (R180). -/
  | call (h : Hdr) (d : Reg) (ofs : BitVec 26)
  /-- `CALLX` (R180). -/
  | callx (h : Hdr) (d a : Reg)
  /-- `RET` (R180). -/
  | ret (h : Hdr) (a : Reg)
  /-- `EXIT` (R183). -/
  | exit (h : Hdr)
  /-- `NOP` (R183). -/
  | nop (h : Hdr)
  /-- `JOIN` (R183). -/
  | join (h : Hdr)
  /-- `PARK` (R183). -/
  | park (h : Hdr) (ofs : BitVec 26)
  /-- `WPARK` (R202). -/
  | wpark (h : Hdr)
  /-- `DRET` (R192). -/
  | dret (h : Hdr) (d a : Reg)
  /-- `DMIN` (R194). -/
  | dmin (h : Hdr) (d a : Reg)
  /-- `DMAJ` (R194). -/
  | dmaj (h : Hdr) (d a : Reg)
  /-- `DSEL` (R194). -/
  | dsel (h : Hdr) (d a b : Reg)
  /-- `SPLIT` (R196). -/
  | split (h : Hdr) (d a : Reg)
  /-- `REGANG` (R197). -/
  | regang (h : Hdr)
  /-- `LD_N8` (R107). -/
  | ldN8 (h : Hdr) (d : Reg) (ad : Addr) (ro : Bool)
  /-- `LD_N16` (R107). -/
  | ldN16 (h : Hdr) (d : Reg) (ad : Addr) (ro : Bool)
  /-- `LD_32` (R107). -/
  | ld32 (h : Hdr) (d : Reg) (ad : Addr) (ro : Bool)
  /-- `LD_64` (R107). -/
  | ld64 (h : Hdr) (d : Reg) (ad : Addr) (ro : Bool)
  /-- `LD_128` (R107). -/
  | ld128 (h : Hdr) (d : Reg) (ad : Addr) (ro : Bool)
  /-- `LD_I8` (R107). -/
  | ldI8 (h : Hdr) (d : Reg) (ad : Addr) (ro : Bool)
  /-- `LD_I16` (R107). -/
  | ldI16 (h : Hdr) (d : Reg) (ad : Addr) (ro : Bool)
  /-- `ST_8` (R108). -/
  | st8 (h : Hdr) (d : Reg) (ad : Addr)
  /-- `ST_16` (R108). -/
  | st16 (h : Hdr) (d : Reg) (ad : Addr)
  /-- `ST_32` (R108). -/
  | st32 (h : Hdr) (d : Reg) (ad : Addr)
  /-- `ST_64` (R108). -/
  | st64 (h : Hdr) (d : Reg) (ad : Addr)
  /-- `ST_128` (R108). -/
  | st128 (h : Hdr) (d : Reg) (ad : Addr)
  /-- `LDC_32` (R109). -/
  | ldc32 (h : Hdr) (d : Reg) (ad : Addr)
  /-- `LDC_64` (R109). -/
  | ldc64 (h : Hdr) (d : Reg) (ad : Addr)
  /-- `LDC_128` (R109). -/
  | ldc128 (h : Hdr) (d : Reg) (ad : Addr)
  /-- `LDT` (R112). -/
  | ldt (h : Hdr) (d : Reg) (ad : Addr)
  /-- `STT` (R112). -/
  | stt (h : Hdr) (d : Reg) (ad : Addr)
  /-- `TREC` (R111). -/
  | trec (h : Hdr) (t : BitVec 4) (ad : Addr)
  /-- `PF` (R113). -/
  | pf (h : Hdr) (ad : Addr)
  /-- `LDK` (R120). -/
  | ldk (h : Hdr) (d : Reg) (ad : Addr)
  /-- `STF` (R120). -/
  | stf (h : Hdr) (d : Reg) (ad : Addr)
  /-- `FES` (R121). -/
  | fes (h : Hdr) (ad : Addr)
  /-- `FEC` (R121). -/
  | fec (h : Hdr) (ad : Addr)
  /-- `FET` (R121). -/
  | fet (h : Hdr) (pd : PReg) (ad : Addr)
  /-- `LDR_32` (R116). -/
  | ldr32 (h : Hdr) (d : Reg) (ad : Addr)
  /-- `LDR_64` (R116). -/
  | ldr64 (h : Hdr) (d : Reg) (ad : Addr)
  /-- `STC_32` (R116). -/
  | stc32 (h : Hdr) (d : Reg) (ad : Addr)
  /-- `STC_64` (R116). -/
  | stc64 (h : Hdr) (d : Reg) (ad : Addr)
  /-- `ATM_ADD_32` (R115). -/
  | atmAdd32 (h : Hdr) (d : Reg) (ad : Addr)
  /-- `ATM_SUB_32` (R115). -/
  | atmSub32 (h : Hdr) (d : Reg) (ad : Addr)
  /-- `ATM_MIN_32` (R115). -/
  | atmMin32 (h : Hdr) (d : Reg) (ad : Addr)
  /-- `ATM_MAX_32` (R115). -/
  | atmMax32 (h : Hdr) (d : Reg) (ad : Addr)
  /-- `ATM_AND_32` (R115). -/
  | atmAnd32 (h : Hdr) (d : Reg) (ad : Addr)
  /-- `ATM_OR_32` (R115). -/
  | atmOr32 (h : Hdr) (d : Reg) (ad : Addr)
  /-- `ATM_XOR_32` (R115). -/
  | atmXor32 (h : Hdr) (d : Reg) (ad : Addr)
  /-- `ATM_XCHG_32` (R115). -/
  | atmXchg32 (h : Hdr) (d : Reg) (ad : Addr)
  /-- `ATM_FADD_32` (R115). -/
  | atmFadd32 (h : Hdr) (d : Reg) (ad : Addr)
  /-- `ATM_CAS_32` (R115). -/
  | atmCas32 (h : Hdr) (d : Reg) (ad : Addr)
  /-- `ATM_MINU_32` (R115). -/
  | atmMinu32 (h : Hdr) (d : Reg) (ad : Addr)
  /-- `ATM_MAXU_32` (R115). -/
  | atmMaxu32 (h : Hdr) (d : Reg) (ad : Addr)
  /-- `ATM_ADD_64` (R115). -/
  | atmAdd64 (h : Hdr) (d : Reg) (ad : Addr)
  /-- `ATM_SUB_64` (R115). -/
  | atmSub64 (h : Hdr) (d : Reg) (ad : Addr)
  /-- `ATM_MIN_64` (R115). -/
  | atmMin64 (h : Hdr) (d : Reg) (ad : Addr)
  /-- `ATM_MAX_64` (R115). -/
  | atmMax64 (h : Hdr) (d : Reg) (ad : Addr)
  /-- `ATM_AND_64` (R115). -/
  | atmAnd64 (h : Hdr) (d : Reg) (ad : Addr)
  /-- `ATM_OR_64` (R115). -/
  | atmOr64 (h : Hdr) (d : Reg) (ad : Addr)
  /-- `ATM_XOR_64` (R115). -/
  | atmXor64 (h : Hdr) (d : Reg) (ad : Addr)
  /-- `ATM_XCHG_64` (R115). -/
  | atmXchg64 (h : Hdr) (d : Reg) (ad : Addr)
  /-- `ATM_CAS_64` (R115). -/
  | atmCas64 (h : Hdr) (d : Reg) (ad : Addr)
  /-- `ATM_MINU_64` (R115). -/
  | atmMinu64 (h : Hdr) (d : Reg) (ad : Addr)
  /-- `ATM_MAXU_64` (R115). -/
  | atmMaxu64 (h : Hdr) (d : Reg) (ad : Addr)
  /-- `BAR_INI` (R123). -/
  | barIni (h : Hdr) (id : BitVec 4) (a : Reg) (o : Ord)
  /-- `BAR_ARV` (R123). -/
  | barArv (h : Hdr) (d : Reg) (id : BitVec 4) (a : Reg) (o : Ord)
  /-- `BAR_AWT` (R123). -/
  | barAwt (h : Hdr) (d : Reg) (id : BitVec 4) (a : Reg) (o : Ord)
  /-- `BAR_WT` (R123). -/
  | barWt (h : Hdr) (id : BitVec 4) (a : Reg) (o : Ord)
  /-- `BAR_EXP` (R123). -/
  | barExp (h : Hdr) (id : BitVec 4) (a : Reg) (nxt : Bool) (o : Ord)
  /-- `BAR_TST` (R123). -/
  | barTst (h : Hdr) (d : Reg) (id : BitVec 4) (o : Ord)
  /-- `SQRY` (R127). -/
  | sqry (h : Hdr) (d : Reg) (n : BitVec 3) (o : Ord)
  /-- `CP` (R212). -/
  | cp (h : Hdr) (dir : CopyDir) (fill : Bool) (d a b : Reg) (o : Ord)
  /-- `CPM` (R220). -/
  | cpm (h : Hdr) (n : BitVec 4) (d a b : Reg) (o : Ord)
  /-- `CPC` (R222). -/
  | cpc (h : Hdr) (d a b : Reg) (o : Ord)
  /-- `TRP` (R260). -/
  | trp (h : Hdr) (a : Reg)
  /-- `MMA` (R261). -/
  | mma (h : Hdr) (et : Et) (sm : Sm) (sel : BitVec 2) (ov : Ov) (z : Bool) (a b c s : Reg)
  /-- `QNT` (R276). -/
  | qnt (h : Hdr) (et : Et) (ov : Ov) (d a : Reg)
  /-- `CVTN` (R277). -/
  | cvtn (h : Hdr) (et : Et) (ov : Ov) (d a : Reg)
  /-- `CVTW` (R277). -/
  | cvtw (h : Hdr) (et : Et) (d a : Reg)
  /-- `FLG` (R278). -/
  | flg (h : Hdr) (d a : Reg)
  /-- `CHK` (R279). -/
  | chk (h : Hdr) (pd : PReg) (a : Reg)
  /-- `LAUNCH` (R291). -/
  | launch (h : Hdr) (a : Reg) (o : Ord)
  /-- `SPAWN` (R296). -/
  | spawn (h : Hdr) (idx : BitVec 4) (d : Reg) (o : Ord)
  /-- `BIN_CFG` (R295). -/
  | binCfg (h : Hdr) (idx : BitVec 4) (d a b : Reg)
  /-- `BIN_FL` (R295). -/
  | binFl (h : Hdr) (idx : BitVec 4)
  /-- `BIN_REL` (R295). -/
  | binRel (h : Hdr) (idx : BitVec 4)
  /-- `BIN_Q` (R295). -/
  | binQ (h : Hdr) (idx : BitVec 4) (d : Reg)
  /-- `EQP` (R306). -/
  | eqp (h : Hdr) (n : BitVec 16)
  /-- `MIGR` (R311). -/
  | migr (h : Hdr) (pd : PReg) (kind : CoreKind) (a : Reg)
  /-- `VQRY` (R315). -/
  | vqry (h : Hdr) (k : BitVec 4) (d a : Reg)
  /-- `TRAP` (R327). -/
  | trap (h : Hdr) (code : BitVec 16) (d a : Reg)
  /-- `TRES` (R333). -/
  | tres (h : Hdr) (a b : Reg)
  /-- `TKILL` (R333). -/
  | tkill (h : Hdr) (a : Reg)
  /-- `ORR` (R333). -/
  | orr (h : Hdr) (cls : OrClass) (r : BitVec 8) (d a : Reg)
  /-- `ORW` (R333). -/
  | orw (h : Hdr) (cls : OrClass) (r : BitVec 8) (a b : Reg)
  /-- `COPEN` (R335). -/
  | copen (h : Hdr) (d a : Reg) (ofs : BitVec 26)
  /-- `CCLOSE` (R338). -/
  | cclose (h : Hdr)
  /-- `HALT` (R346). -/
  | halt (h : Hdr) (a : Reg)
  /-- `CTXRD` (R347). -/
  | ctxrd (h : Hdr) (d a : Reg)
  /-- `CTXWR` (R347). -/
  | ctxwr (h : Hdr) (a b : Reg)
  /-- `BRK` (R364). -/
  | brk (h : Hdr) (code : BitVec 16)
  /-- `TRC` (R364). -/
  | trc (h : Hdr) (code : BitVec 16) (a : Reg)
  /-- `CLK` (R364). -/
  | clk (h : Hdr) (d : Reg)
  /-- `PMK` (R364). -/
  | pmk (h : Hdr) (clr : Bool) (d a : Reg)
  /-- `MOVI` (R167). -/
  | movi (h : Hdr) (d : Reg) (imm : BitVec 32)
  /-- `MOVI_S64` (R167). -/
  | moviS64 (h : Hdr) (d : Reg) (imm : BitVec 32)
  /-- `MOVI_Z64` (R167). -/
  | moviZ64 (h : Hdr) (d : Reg) (imm : BitVec 32)
  /-- `MOVH` (R167). -/
  | movh (h : Hdr) (d : Reg) (imm : BitVec 32)
  /-- `ADD_L` (R167). -/
  | addL (h : Hdr) (d : Reg) (imm : BitVec 32)
  /-- `AND_L` (R167). -/
  | andL (h : Hdr) (d : Reg) (imm : BitVec 32)
  /-- `OR_L` (R167). -/
  | orL (h : Hdr) (d : Reg) (imm : BitVec 32)
  /-- `XOR_L` (R167). -/
  | xorL (h : Hdr) (d : Reg) (imm : BitVec 32)
  /-- `FADD_L` (R167). -/
  | faddL (h : Hdr) (d : Reg) (imm : BitVec 32)
  /-- `FMUL_L` (R167). -/
  | fmulL (h : Hdr) (d : Reg) (imm : BitVec 32)
  /-- `PAIRED_WORD` (R43). -/
  | pairedWord (s0 s1 : Slot)
  /-- `ILLEGAL_ENCODING` (R50). -/
  | illegalEncoding (c : Cause)
  /-- `HANDLER_ENTRY` (R186). -/
  | handlerEntry
  /-- `DEFAULT_DECISION` (R189). -/
  | defaultDecision
  /-- `FORCED_ROTATION` (R200). -/
  | forcedRotation
  /-- `POLICY_FAULT` (R193). -/
  | policyFault
  /-- `OPERATION_PERFORM` (R96). -/
  | operationPerform (op grp : Nat)
  /-- `OPERATION_COMPLETE` (R97). -/
  | operationComplete (op grp : Nat) (which : BitVec 128)
  /-- `WINDOWED_COMPLETE` (R38). -/
  | windowedComplete (gang res : Nat)
  /-- `GATHER_LINE_WRITEBACK` (R83). -/
  | gatherLineWriteback (core sector : Nat)
  /-- `GATHER_LINE_TIMEOUT` (R83). -/
  | gatherLineTimeout (core sector : Nat)
  /-- `FAULT_RING_RECORD` (R375). -/
  | faultRingRecord (ctx : Nat)
  /-- `LINE_CLAIM` (R120). -/
  | lineClaim (op : Nat)
  /-- `RESERVATION_HOLD_EXPIRY` (R118). -/
  | reservationHoldExpiry (granule : Nat)
  /-- `LEAVE_GRANT` (R379). -/
  | leaveGrant (die : Nat)
  /-- `TRANSFER_UNIT_LAND` (R213). -/
  | transferUnitLand (op unit : Nat)
  /-- `MULTICAST_CLAIM` (R220). -/
  | multicastClaim (op : Nat)
  /-- `MULTICAST_LINE_LAND` (R220). -/
  | multicastLineLand (op rank line : Nat)
  /-- `COMMAND_START` (R225). -/
  | commandStart (die eng : Nat)
  /-- `FIRMWARE_CONTEXT_SWITCH` (R223). -/
  | firmwareContextSwitch (die eng : Nat)
  /-- `XGO_COPY` (R227). -/
  | xgoCopy (die eng : Nat)
  /-- `XGO_ADD_F32` (R227). -/
  | xgoAddF32 (die eng : Nat)
  /-- `XGO_ADD_BF16X2` (R227). -/
  | xgoAddBf16x2 (die eng : Nat)
  /-- `XGO_ADD_I32` (R227). -/
  | xgoAddI32 (die eng : Nat)
  /-- `XGO_MAX_F32` (R227). -/
  | xgoMaxF32 (die eng : Nat)
  /-- `XGO_MIN_F32` (R227). -/
  | xgoMinF32 (die eng : Nat)
  /-- `COLLECTIVE_TRANSFER_LAND` (R227). -/
  | collectiveTransferLand (die eng tag elem : Nat)
  /-- `DONE` (R230). -/
  | done (die eng : Nat) (status : DWord)
  /-- `COMMAND_COMPLETE` (R230). -/
  | commandComplete (die eng : Nat)
  /-- `FIRMWARE_FAULT` (R230). -/
  | firmwareFault (die eng : Nat) (why : FwReason)
  /-- `FIRMWARE_TIMEOUT` (R230). -/
  | firmwareTimeout (die eng : Nat)
  /-- `FLIT_CRC_FAIL` (R380). -/
  | flitCrcFail (link : Nat)
  /-- `TROUPE_RELEASE` (R261). -/
  | troupeRelease (core idx : Nat)
  /-- `MMA_BLOCK_STEP` (R272). -/
  | mmaBlockStep (core : Nat)
  /-- `MMA_COMPLETE` (R273). -/
  | mmaComplete (core slot : Nat)
  /-- `GRID_RETIRE` (R292). -/
  | gridRetire (grid : Nat)
  /-- `PLACEMENT_DECISION` (R300). -/
  | placementDecision (die ctx : Nat)
  /-- `TEAM_SAVE` (R303). -/
  | teamSave (team : Nat)
  /-- `QUEUE_HEAD_STARVATION` (R300). -/
  | queueHeadStarvation (die ctx cls : Nat)
  /-- `BIN_TIMER_EXPIRY` (R297). -/
  | binTimerExpiry (team idx : Nat)
  /-- `TRAP_BIN_TIMER` (R330). -/
  | trapBinTimer (core : Nat)
  /-- `MIGRATION_BUDGET_EXPIRY` (R311). -/
  | migrationBudgetExpiry (team : Nat)
  /-- `MIGRATION_MOVE` (R312). -/
  | migrationMove (team : Nat)
  /-- `MIGRATION_RESUME` (R313). -/
  | migrationResume (team : Nat)
  /-- `SYSCALL_RING_RECORD` (R327). -/
  | syscallRingRecord (ctx : Nat)
  /-- `SYSCALL_RETURN` (R329). -/
  | syscallReturn (ctx id : Nat)
  /-- `SYSCALL_RESTART` (R329). -/
  | syscallRestart (ctx id : Nat)
  /-- `SYSCALL_EXIT` (R329). -/
  | syscallExit (ctx id : Nat)
  /-- `REGION_ENTRY` (R337). -/
  | regionEntry (team : Nat)
  /-- `FLAG_DOWN` (R345). -/
  | flagDown (ctx : Nat)
  /-- `CONTEXT_HALTED` (R344). -/
  | contextHalted (ctx : Nat)
  /-- `UNCORRECTABLE_ERROR` (R339). -/
  | uncorrectableError (loc : ErrLoc)
  /-- `CORRECTED_ERROR` (R339). -/
  | correctedError (u : HwUnit)
  /-- `TEST_SLICE` (R341). -/
  | testSlice (u : HwUnit) (passed : Bool)
  /-- `BREAKPOINT_STOP` (R361). -/
  | breakpointStop
  /-- `SAMPLE_RECORD` (R368). -/
  | sampleRecord (ctx : Nat)
  /-- `CTX_CREATE` (R374). -/
  | ctxCreate (ctx : Nat)
  /-- `CTX_RESUME` (R374). -/
  | ctxResume (ctx : Nat)
  /-- `CTX_END` (R344). -/
  | ctxEnd (ctx : Nat)
  /-- `CTX_STEP` (R362). -/
  | ctxStep (ctx : Nat)
  /-- `DIRSTART` (R287). -/
  | dirstart (ctx : Nat) (va : DWord)
  /-- `RESUME` (R329). -/
  | resume (ctx id : Nat)
  /-- `PGRES` (R93). -/
  | pgres (ctx : Nat) (va : DWord)
  /-- `INVAL` (R376). -/
  | inval (ctx : Nat) (v : DWord)
  /-- `INVAL_COMPLETE` (R376). -/
  | invalComplete (ctx : Nat)
  /-- `RESYNC` (R377). -/
  | resync (v : DWord)
  /-- `RESYNC_DONE` (R377). -/
  | resyncDone
  /-- `FWLOAD` (R379). -/
  | fwload (v : DWord)
  /-- `FWLOAD_DONE` (R379). -/
  | fwloadDone (result : BitVec 2) (version : Word)
  /-- `ATTEST` (R379). -/
  | attest (v : DWord)
  /-- `ATTEST_DONE` (R379). -/
  | attestDone
  /-- `COUNTER_CLEAR` (R367). -/
  | counterClear (core : Nat)
  /-- `BAR2_WRITE` (R372). -/
  | bar2Write (ofs : Nat) (bytes : List Byte)
  /-- `BAR2_READ` (R372). -/
  | bar2Read (ofs len : Nat)
  /-- `REGISTER_WRITE` (R372). -/
  | registerWrite (ofs : Nat) (v : DWord)
  /-- `DEVICE_RESET` (R377). -/
  | deviceReset (fwOk hbmOk linksOk : Bool) (num : BitVec 21)
  /-- `SYSTEM_WINDOW_ACCESS_FROM_PEER` (R81). -/
  | systemWindowAccessFromPeer (home pa : Nat) (acc : PeerAccess)
  /-- `XERR_READ` (R226). -/
  | xerrRead (die eng : Nat)
  deriving DecidableEq, Repr, Inhabited

end Sys2Proof
end

