-- ==== Sys2Proof/Machine/Info.lean ====
section
/-! DEFINITION. What every instruction word reads, writes and requires: the operand tables of R104, R153, R160,
R169 to R175, R177, R210 to R221, R257, R264, R290 to R315, R326 and R363 as one table. Legality (R31, R34, R35),
the register window (R36), the bank extra (R37), the scoreboard (R143) and poison (R339) all read this table. -/

namespace Sys2Proof

/-! ### Register codes (R33) -/

/-- v0..v191. -/
def Reg.isV (r : Reg) : Bool := decide (r.toNat < 0xC0)

/-- s0..s47. -/
def Reg.isS (r : Reg) : Bool := decide (0xC0 ≤ r.toNat ∧ r.toNat < 0xF0)

/-- The code of `zero`. -/
def Reg.isZero (r : Reg) : Bool := r == 0xF0#8

/-- A source that reads the same in every lane: a scalar, `zero` or 0xF5..0xFF (R146). -/
def Reg.isUniform (r : Reg) : Bool := r.isS || r.isZero || decide (0xF5 ≤ r.toNat)

/-- A scalar or `zero`. -/
def Reg.isSZ (r : Reg) : Bool := r.isS || r.isZero

/-- Even numbered (R35). -/
def Reg.isEven (r : Reg) : Bool := r.toNat % 2 == 0

/-- `hv0`..`hv3` in handler mode (R36). -/
def Reg.isHv (r : Reg) : Bool := decide (0xBC ≤ r.toNat ∧ r.toNat < 0xC0)

/-- `hs0`..`hs3` in handler mode (R36). -/
def Reg.isHs (r : Reg) : Bool := decide (0xEC ≤ r.toNat ∧ r.toNat < 0xF0)

/-! ### Types (R32, R147, R148) -/

/-- A 64-bit type occupies a pair (R35). -/
def Ty.wide : Ty → Bool
  | .i64 | .n64 => true
  | _ => false

/-- Registers an operand of the type occupies. -/
def Ty.regs (t : Ty) : Nat := if t.wide then 2 else 1

/-- The set N of R153. -/
def Ty.isInt : Ty → Bool
  | .i8 | .i16 | .i32 | .i64 | .n8 | .n16 | .n32 | .n64 => true
  | _ => false

/-- The set S of R153. -/
def Ty.isSigned : Ty → Bool
  | .i8 | .i16 | .i32 | .i64 => true
  | _ => false

/-- The set L of R153. -/
def Ty.isLogic : Ty → Bool
  | .b32 | .i64 | .n64 => true
  | _ => false

/-- The float types of R148. -/
def Ty.isFloat : Ty → Bool
  | .f32 | .f16 | .bf16 | .f16x2 | .bf16x2 => true
  | _ => false

/-- The scalar float types. -/
def Ty.isFloat1 : Ty → Bool
  | .f32 | .f16 | .bf16 => true
  | _ => false

/-- The latency classes of R143 and R165. -/
inductive Lat where
  | none | alu | mul | xch | div32 | div64 | trans | fdiv | matrix | quant | far
  deriving DecidableEq, Repr, Inhabited

/-- Where a word is legal with respect to handler mode (R177). -/
inductive HmRule where
  | any | never | only
  deriving DecidableEq, Repr, Inhabited

/-- A run of registers: first code and count. -/
abbrev Span := Reg × Nat

/-- What a word reads, writes and requires. -/
structure Info where
  /-- guard and LA -/
  hdr : Hdr := ⟨.always, 0⟩
  /-- the operand rules of the word hold (R31, R34, R35 and the chapter's own) -/
  ok : Bool := true
  /-- marked W in R46 -/
  windowed : Bool := false
  /-- marked U in R46 -/
  unguarded : Bool := false
  rd : List Span := []
  wr : List Span := []
  prd : List PReg := []
  pwr : List PReg := []
  trd : Option (BitVec 4) := none
  twr : Option (BitVec 4) := none
  lat : Lat := .alu
  /-- a collective of R187 -/
  coll : Bool := false
  hm : HmRule := .any
  /-- the ordering fields of a memory-touching word (R29) -/
  ord : Option Ord := none
  /-- a full word of major 0x8, which pays no bank extra (R258) -/
  matrix : Bool := false
  /-- an instruction word at all (a row with an encoding) -/
  word : Bool := true
  deriving DecidableEq, Repr, Inhabited

namespace Operand

/-- A source of `n` registers: any code for one register; an even pair, or `zero`, for more (R35, R146). -/
def src (s : Span) : Bool :=
  if s.2 ≤ 1 then true else s.1.isZero || ((s.1.isV || s.1.isS) && s.1.isEven)

/-- A destination of `n` registers (R34, R35). -/
def dst (s : Span) : Bool :=
  if s.2 ≤ 1 then decide (s.1.toNat ≤ 0xF0) else s.1.isZero || ((s.1.isV || s.1.isS) && s.1.isEven)

/-- The registers a span names for reading: identity registers and `zero` occupy none. -/
def spans (l : List Span) : List Span := l.filter fun s => s.1.isV || s.1.isS

/-- A lane-engine word with a register destination (R146). `uni` allows a scalar destination. -/
def lane (h : Hdr) (tyOk uni : Bool) (d : Span) (srcs : List Span) (lat : Lat) (w : Bool := false)
    (prd : List PReg := []) (pwr : List PReg := []) : Info :=
  { hdr := h
    ok := tyOk && dst d && srcs.all src && (!d.1.isS || (uni && srcs.all fun s => s.1.isUniform))
    windowed := w
    rd := spans srcs
    wr := spans [d]
    prd := prd
    pwr := pwr
    lat := lat }

/-- A lane-engine word with a predicate destination. -/
def pred (h : Hdr) (tyOk : Bool) (srcs : List Span) (prd pwr : List PReg) (lat : Lat := .alu) : Info :=
  { hdr := h, ok := tyOk && srcs.all src, rd := spans srcs, prd := prd, pwr := pwr, lat := lat }

/-- A control word of major 0x4: illegal in handler mode or not, guardable or not. -/
def ctl (h : Hdr) (ok : Bool) (u : Bool) (hm : HmRule) (rd wr : List Span) (lat : Lat := .alu)
    (coll : Bool := false) : Info :=
  { hdr := h, ok := ok, unguarded := u, hm := hm, rd := spans rd, wr := spans wr, lat := lat, coll := coll }

/-- The BASE field of an address (R28): an odd scalar is illegal; `tile` instructions take a record only (R104),
every other instruction a record (as the word printed after R58 does) or a scalar pair. -/
def baseOk (tile : Bool) (a : Addr) : Bool :=
  if tile then decide (a.base.toNat < 16) else decide (a.base.toNat < 16) || a.base.toNat % 2 == 0

/-- The registers an address reads. -/
def addrRd (a : Addr) : List Span :=
  (if 16 ≤ a.base.toNat then [(BitVec.ofNat 8 (0xC0 + a.base.toNat - 16), 2)] else []) ++ [(a.x, 1)]

/-- The tile record an address reads. -/
def addrTile (a : Addr) : Option (BitVec 4) :=
  if a.base.toNat < 16 then some (a.base.setWidth 4) else none

/-- A memory word in the address layout. -/
def mem (h : Hdr) (ok tile : Bool) (a : Addr) (rd wr : List Span) (w : Bool)
    (pwr : List PReg := []) (twr : Option (BitVec 4) := none) : Info :=
  { hdr := h, ok := ok && baseOk tile a, windowed := w, rd := spans (rd ++ addrRd a), wr := spans wr,
    pwr := pwr, trd := addrTile a, twr := twr, lat := .far, hm := .never, ord := some a.ord }

/-- A load's destination: `n` registers, vector, scalar or `zero`; a scalar needs a uniform X (R104). -/
def ldDst (d : Reg) (n : Nat) (a : Addr) : Bool :=
  dst (d, n) && (!d.isS || a.x.isSZ)

/-- A memory word in the operand layout. -/
def memO (h : Hdr) (ok : Bool) (o : Ord) (rd wr : List Span) (coll : Bool) : Info :=
  { hdr := h, ok := ok, rd := spans rd, wr := spans wr, lat := .far, coll := coll, hm := .never, ord := some o }

/-- A word of major 0xA below minor 0x0A: illegal in handler mode (R326). -/
def sys (h : Hdr) (ok : Bool) (rd wr : List Span) (w : Bool := false) : Info :=
  { hdr := h, ok := ok, windowed := w, rd := spans rd, wr := spans wr, hm := .never, lat := if w then .far else .xch }

/-- An even vector or even scalar pair. -/
def pairVS (r : Reg) : Bool := (r.isV || r.isS) && r.isEven

/-- An even scalar. -/
def evenS (r : Reg) : Bool := r.isS && r.isEven

/-- An even vector. -/
def evenV (r : Reg) : Bool := r.isV && r.isEven

/-- Every predicate. -/
def allPreds : List PReg := (List.range 32).map (BitVec.ofNat 5)

/-- Shift, `and` and the other paired operations that have an immediate form (R42). -/
def pairImmOk (op : PairOp) (k : BitVec 8) : Bool :=
  match op with
  | .shl | .shr | .sar => decide (k.toNat < 32)
  | .mov | .fadd | .fmul | .fmin | .fmax => false
  | _ => true

/-- The registers a slot reads (R43: `mov` does not read D). -/
def slotRd : Slot → List Reg
  | .empty => []
  | .reg .mov _ s => [s]
  | .reg _ d s => [d, s]
  | .imm _ _ s _ => [s]

/-- The register a slot writes. -/
def slotWr : Slot → List Reg
  | .empty => []
  | .reg _ d _ => [d]
  | .imm _ d _ _ => [d]

/-- The static rules of a slot (R41, R42, R44). -/
def slotOk : Slot → Bool
  | .empty => true
  | .reg _ d _ => d.isV
  | .imm op d _ k => d.isV && pairImmOk op k

/-- A float slot has the float latency (R143). -/
def slotLat : Slot → Lat
  | .reg .fadd _ _ | .reg .fmul _ _ | .reg .fmin _ _ | .reg .fmax _ _ => .mul
  | _ => .alu

/-- Numbers of special registers that exist, with their width in registers (R132). -/
def srWidth (sr : BitVec 8) : Nat :=
  match sr.toNat with
  | 0x00 | 0x02 | 0x04 | 0x06 | 0x08 | 0x0C | 0x12 => 2
  | 0x0A | 0x0B | 0x0E | 0x0F | 0x10 | 0x11 | 0x14 | 0x15 | 0x16 | 0x17 | 0x18 => 1
  | _ => 0

/-- `lpc` and `lag` are held per lane. -/
def srLane (sr : BitVec 8) : Bool := sr == 0x10#8 || sr == 0x11#8

/-- The special registers `wrsr` may name (R132). -/
def srWritable (sr : BitVec 8) : Bool :=
  sr == 0x0E#8 || sr == 0x10#8 || sr == 0x11#8 || sr == 0x12#8 || sr == 0x14#8

/-- The pairs of R169. -/
def cvtOk (dt st : Ty) : Bool :=
  dt != st &&
    ((dt.isFloat1 && st.isFloat1) ||
     (dt == .f16x2 && st == .bf16x2) || (dt == .bf16x2 && st == .f16x2) ||
     ((dt == .f16x2 || dt == .bf16x2) && st == .f32) ||
     (dt.isInt && st.isFloat1) || (dt.isFloat1 && st.isInt) || (dt.isInt && st.isInt))

/-- A packing conversion reads element 1 from C (R169). -/
def cvtPacks (dt st : Ty) : Bool := (dt == .f16x2 || dt == .bf16x2) && st == .f32

/-- Element types the quantiser and the narrow conversions take (R276, R277). -/
def narrowEt : Et → Bool
  | .i8 | .e4m3 | .e5m2 | .ln6 => true
  | _ => false

/-- Rules of `mma` (R264). -/
def mmaOk (et : Et) (sm : Sm) (sel : BitVec 2) (ov : Ov) (a b c s : Reg) : Bool :=
  (sm != .flag || et == .i8 || et == .ln6) &&
  ((sm != .unit && sm != .flag) || (sel == 0 && s == 0)) &&
  ((sm != .lane && sm != .bcst) || decide (s.toNat < 191)) &&
  decide (a.toNat ≤ 128) && decide (b.toNat ≤ 128) && c.isV &&
  !(et == .i8 && sm == .unit && ov != .sat)

/-- Values an `orr` or `orw` code may take in its class (R326). -/
def orCodeOk (c : OrClass) (r : BitVec 8) : Bool :=
  match c with
  | .v => decide (r.toNat < 0xC0)
  | .s => decide (0xC0 ≤ r.toNat ∧ r.toNat < 0xF0)
  | .p => r == 0
  | .sr => srWidth r != 0

/-- Registers an owner-register access moves: 2 for a 64-bit special register. -/
def orRegs (c : OrClass) (r : BitVec 8) : Nat := if c == .sr && srWidth r == 2 then 2 else 1

end Operand

open Operand

/-- A `.h2` immediate has bits [17:16] zero (R152). -/
def immTy (ty : Ty) (imm : BitVec 18) : Bool := ty != .h2 || imm.toNat < 0x10000

/-- One integer operation of two sources. -/
def Info.int2 (h : Hdr) (ok : Bool) (ty : Ty) (d a b : Reg) (lat : Lat) (w : Bool := false) : Info :=
  lane h ok true (d, ty.regs) [(a, ty.regs), (b, ty.regs)] lat w

/-- Its immediate form. -/
def Info.int1i (h : Hdr) (ok : Bool) (ty : Ty) (d a : Reg) (imm : BitVec 18) (lat : Lat) (w : Bool := false) : Info :=
  lane h (ok && immTy ty imm) true (d, ty.regs) [(a, ty.regs)] lat w

/-- A float operation. -/
def Info.flt (h : Hdr) (ty : Ty) (d : Reg) (srcs : List Reg) (lat : Lat) (w : Bool := false) : Info :=
  lane h ty.isFloat true (d, 1) (srcs.map fun r => (r, 1)) lat w

/-- A load of `n` registers. -/
def Info.load (h : Hdr) (d : Reg) (n : Nat) (a : Addr) : Info :=
  mem h (ldDst d n a) false a [] [(d, n)] true

/-- A store of `n` registers. -/
def Info.store (h : Hdr) (d : Reg) (n : Nat) (a : Addr) : Info :=
  mem h ((d.isV || d.isS) && (decide (n ≤ 1) || d.isEven)) false a [(d, n)] [] false

/-- An atomic: `n` registers read, `w` written. -/
def Info.atm (h : Hdr) (d : Reg) (n w : Nat) (a : Addr) : Info :=
  mem h (d.isV && (decide (n ≤ 1) || d.isEven)) false a [(d, n)] [(d, w)] true

/-- Latency of integer divide (R165). -/
def divLat (ty : Ty) : Lat := if ty.wide then .div64 else .div32

/-- A step that is not an instruction word. -/
def Info.event : Info := { ok := false, word := false }

/-- The table. The four registers of `ctxrd` and `ctxwr` may start at an odd one (log entry 128); the link of `call` and
`callx`, and D of `copen`, `bin.cfg`, `bin.q` and `split`, have the latencies of log entry 122. -/
def info : Instr → Info
  | .add h ty d a b => .int2 h (ty.isInt || ty == .h2) ty d a b .alu
  | .addImm h ty d a i => .int1i h (ty.isInt || ty == .h2) ty d a i .alu
  | .sub h ty d a b => .int2 h (ty.isInt || ty == .h2) ty d a b .alu
  | .subImm h ty d a i => .int1i h (ty.isInt || ty == .h2) ty d a i .alu
  | .mul h ty d a b => .int2 h (ty.isInt || ty == .h2) ty d a b .mul
  | .mulImm h ty d a i => .int1i h (ty.isInt || ty == .h2) ty d a i .mul
  | .mulh h ty d a b => .int2 h ty.isInt ty d a b .mul
  | .mulhImm h ty d a i => .int1i h ty.isInt ty d a i .mul
  | .mad h ty d a b c =>
      lane h (ty.isInt || ty == .h2) true (d, ty.regs) [(a, ty.regs), (b, ty.regs), (c, ty.regs)] .mul
  | .madImm h ty d a i =>
      lane h ((ty.isInt || ty == .h2) && immTy ty i) true (d, ty.regs) [(a, ty.regs), (d, ty.regs)] .mul
  | .div h ty d a b => .int2 h ty.isInt ty d a b (divLat ty) true
  | .divImm h ty d a i => .int1i h ty.isInt ty d a i (divLat ty) true
  | .rem h ty d a b => .int2 h ty.isInt ty d a b (divLat ty) true
  | .remImm h ty d a i => .int1i h ty.isInt ty d a i (divLat ty) true
  | .min h ty d a b => .int2 h (ty.isInt || ty == .h2) ty d a b .alu
  | .minImm h ty d a i => .int1i h (ty.isInt || ty == .h2) ty d a i .alu
  | .max h ty d a b => .int2 h (ty.isInt || ty == .h2) ty d a b .alu
  | .maxImm h ty d a i => .int1i h (ty.isInt || ty == .h2) ty d a i .alu
  | .abs h ty d a => lane h (ty.isSigned || ty == .h2) true (d, ty.regs) [(a, ty.regs)] .alu
  | .neg h ty d a => lane h (ty.isInt || ty == .h2) true (d, ty.regs) [(a, ty.regs)] .alu
  | .and h ty d a b => .int2 h ty.isLogic ty d a b .alu
  | .andImm h ty d a i => .int1i h ty.isLogic ty d a i .alu
  | .or h ty d a b => .int2 h ty.isLogic ty d a b .alu
  | .orImm h ty d a i => .int1i h ty.isLogic ty d a i .alu
  | .xor h ty d a b => .int2 h ty.isLogic ty d a b .alu
  | .xorImm h ty d a i => .int1i h ty.isLogic ty d a i .alu
  | .andn h ty d a b => .int2 h ty.isLogic ty d a b .alu
  | .andnImm h ty d a i => .int1i h ty.isLogic ty d a i .alu
  | .shl h ty d a b => lane h (ty.isLogic || ty == .h2) true (d, ty.regs) [(a, ty.regs), (b, 1)] .alu
  | .shlImm h ty d a i => .int1i h (ty.isLogic || ty == .h2) ty d a i .alu
  | .shr h ty d a b => lane h (ty.isLogic || ty == .h2) true (d, ty.regs) [(a, ty.regs), (b, 1)] .alu
  | .shrImm h ty d a i => .int1i h (ty.isLogic || ty == .h2) ty d a i .alu
  | .sar h ty d a b => lane h (ty.isLogic || ty == .h2) true (d, ty.regs) [(a, ty.regs), (b, 1)] .alu
  | .sarImm h ty d a i => .int1i h (ty.isLogic || ty == .h2) ty d a i .alu
  | .rot h ty d a b => lane h ty.isLogic true (d, ty.regs) [(a, ty.regs), (b, 1)] .alu
  | .rotImm h ty d a i => .int1i h ty.isLogic ty d a i .alu
  | .clz h ty d a => lane h ty.isLogic true (d, 1) [(a, ty.regs)] .alu
  | .popc h ty d a => lane h ty.isLogic true (d, 1) [(a, ty.regs)] .alu
  | .brev h ty d a => lane h ty.isLogic true (d, ty.regs) [(a, ty.regs)] .alu
  | .bfx h ty d a b =>
      lane h (ty == .i32 || ty == .n32 || ty.wide) true (d, ty.regs) [(a, ty.regs), (b, 1)] .alu
  | .bfxImm h ty d a i =>
      lane h ((ty == .i32 || ty == .n32 || ty.wide) && i.toNat < 0x10000) true (d, ty.regs) [(a, ty.regs)] .alu
  | .bfi h ty d a b c =>
      lane h (ty == .b32 || ty == .n64) true (d, ty.regs) [(a, ty.regs), (b, ty.regs), (c, 1)] .alu
  | .bfiImm h ty d a i =>
      lane h ((ty == .b32 || ty == .n64) && i.toNat < 0x10000) true (d, ty.regs) [(d, ty.regs), (a, ty.regs)] .alu
  | .sel h ty q d a b =>
      lane h (ty == .b32 || ty == .n64) false (d, ty.regs) [(a, ty.regs), (b, ty.regs)] .alu false [q.setWidth 5]
  | .selImm h ty q d a _ =>
      lane h (ty == .b32 || ty == .n64) false (d, ty.regs) [(a, ty.regs)] .alu false [q.setWidth 5]
  | .cmp h cc ty pd a b =>
      pred h (ty.isInt || (ty == .b32 && (cc == .eq || cc == .ne))) [(a, ty.regs), (b, ty.regs)] [] [pd]
  | .cmpImm h cc ty pd a _ =>
      pred h (ty.isInt || (ty == .b32 && (cc == .eq || cc == .ne))) [(a, ty.regs)] [] [pd]
  | .addc h ty q d a b =>
      lane h (ty == .n32 || ty == .n64) false (d, ty.regs) [(a, ty.regs), (b, ty.regs)] .alu false
        [q.setWidth 5] [q.setWidth 5]
  | .addcImm h ty q d a _ =>
      lane h (ty == .n32 || ty == .n64) false (d, ty.regs) [(a, ty.regs)] .alu false [q.setWidth 5] [q.setWidth 5]
  | .subc h ty q d a b =>
      lane h (ty == .n32 || ty == .n64) false (d, ty.regs) [(a, ty.regs), (b, ty.regs)] .alu false
        [q.setWidth 5] [q.setWidth 5]
  | .subcImm h ty q d a _ =>
      lane h (ty == .n32 || ty == .n64) false (d, ty.regs) [(a, ty.regs)] .alu false [q.setWidth 5] [q.setWidth 5]
  | .lea h ty _ d a b =>
      lane h (ty == .i32 || ty == .n32 || ty == .i64) true (d, 2) [(a, 2), (b, ty.regs)] .alu
  | .leaImm h ty _ d a _ => lane h (ty == .i32 || ty == .n32 || ty == .i64) true (d, 2) [(a, 2)] .alu
  | .acs h n d a b c =>
      lane h true false (d, 1) [(a, 1), (b, 1), (c, 1)] .alu false [] [n ++ 0#1, n ++ 1#1]
  | .acsImm h n d a i =>
      lane h (decide (i.toNat < 0x10000)) false (d, 1) [(a, 1), (d, 1)] .alu false [] [n ++ 0#1, n ++ 1#1]
  | .fadd h ty _ _ d a b => .flt h ty d [a, b] .mul
  | .fsub h ty _ _ d a b => .flt h ty d [a, b] .mul
  | .fmul h ty _ _ d a b => .flt h ty d [a, b] .mul
  | .ffma h ty _ _ d a b c => .flt h ty d [a, b, c] .mul
  | .fmin h ty d a b => .flt h ty d [a, b] .mul
  | .fmax h ty d a b => .flt h ty d [a, b] .mul
  | .fcmp h _ ty pd a b => pred h ty.isFloat1 [(a, 1), (b, 1)] [] [pd] .mul
  | .frcp h ty _ _ d a => .flt h ty d [a] .trans true
  | .frsq h ty _ d a => .flt h ty d [a] .trans true
  | .fsqrt h ty _ d a => .flt h ty d [a] .trans true
  | .fex2 h ty _ _ d a => .flt h ty d [a] .trans true
  | .flg2 h ty _ d a => .flt h ty d [a] .trans true
  | .fdiv h ty _ _ d a b => .flt h ty d [a, b] .fdiv true
  | .frnd h ty _ d a => .flt h ty d [a] .mul
  | .fclass h ty d a => .flt h ty d [a] .mul
  | .cvt h dt st _ _ d a c =>
      lane h (cvtOk dt st && (cvtPacks dt st || c == 0)) true (d, dt.regs)
        ((a, st.regs) :: (if cvtPacks dt st then [(c, 1)] else [])) .mul
  | .mov h ty d a => lane h ty.isLogic true (d, ty.regs) [(a, ty.regs)] .alu
  | .bcst h ty d a b =>
      { lane h ty.isLogic true (d, ty.regs) [(b, 1)] .xch with
        ok := ty.isLogic && dst (d, ty.regs) && src (a, ty.regs) && b.isUniform
        rd := spans [(a, ty.regs), (b, 1)] }
  | .shfl h _ _ ty d a b => lane h (ty.isLogic && d.isV) false (d, ty.regs) [(a, ty.regs), (b, 1)] .xch
  | .rdsr h d sr =>
      { lane h (srWidth sr != 0 && (!srLane sr || d.isV)) true (d, srWidth sr) [] .xch with hdr := h }
  | .wrsr h sr a =>
      { hdr := h, ok := srWritable sr && (!srLane sr || a.isV) && src (a, srWidth sr),
        rd := spans [(a, srWidth sr)], lat := .none }
  | .pand h _ _ pd pa pb => pred h true [] [pa, pb] [pd]
  | .por h _ _ pd pa pb => pred h true [] [pa, pb] [pd]
  | .pxor h _ _ pd pa pb => pred h true [] [pa, pb] [pd]
  | .pnot h pd pa => pred h true [] [pa] [pd]
  | .pmov h pd pa => pred h true [] [pa] [pd]
  | .pmovNz h pd a => pred h true [(a, 1)] [] [pd]
  | .pmovAll h a => pred h true [(a, 1)] [] allPreds
  | .pget h d => lane h d.isV false (d, 1) [] .alu false allPreds
  | .voteOr h _ pd pa => pred h true [] [pa] [pd] .xch
  | .voteAnd h _ pd pa => pred h true [] [pa] [pd] .xch
  | .voteSame h _ pd pa => pred h true [] [pa] [pd] .xch
  | .voteMask h _ d pa => lane h true true (d, 2) [] .xch false [pa]
  | .bra h _ => ctl h true false .any [] []
  | .brx h a => ctl h (a.isV || a.isS) false .any [(a, 1)] []
  | .call h d _ => ctl h (d.isV || d.isSZ) false .any [] [(d, 1)]
  | .callx h d a => ctl h ((d.isV || d.isSZ) && (a.isV || a.isS)) false .any [(a, 1)] [(d, 1)]
  | .ret h a => ctl h (a.isV || a.isS) false .any [(a, 1)] []
  | .exit h => ctl h true false .never [] []
  | .nop h => ctl h true false .any [] []
  | .join h => ctl h true true .never [] []
  | .park h _ => ctl h true false .never [] []
  | .wpark h => ctl h true true .any [] []
  | .dret h d a => ctl h (d.isS && evenS a) true .only [(d, 1), (a, 2)] []
  | .dmin h d a => ctl h (d.isS && evenS a) true .any [(a, 2)] [(d, 1)] .xch
  | .dmaj h d a => ctl h (d.isS && evenS a) true .any [(a, 2)] [(d, 1)] .xch
  | .dsel h d a b => ctl h (evenS d && evenS a && b.isS) true .any [(a, 2), (b, 1)] [(d, 2)] .xch
  | .split h d a => ctl h ((d.isHs || d.isZero) && evenS a) true .only [(a, 2)] [(d, 1)]
  | .regang h => ctl h true true .never [] [] .alu true
  | .ldN8 h d ad _ => .load h d 1 ad
  | .ldN16 h d ad _ => .load h d 1 ad
  | .ld32 h d ad _ => .load h d 1 ad
  | .ld64 h d ad _ => .load h d 2 ad
  | .ld128 h d ad _ => .load h d 4 ad
  | .ldI8 h d ad _ => .load h d 1 ad
  | .ldI16 h d ad _ => .load h d 1 ad
  | .st8 h d ad => .store h d 1 ad
  | .st16 h d ad => .store h d 1 ad
  | .st32 h d ad => .store h d 1 ad
  | .st64 h d ad => .store h d 2 ad
  | .st128 h d ad => .store h d 4 ad
  | .ldc32 h d ad => mem h (ldDst d 1 ad && ad.x.isSZ) false ad [] [(d, 1)] true
  | .ldc64 h d ad => mem h (ldDst d 2 ad && ad.x.isSZ) false ad [] [(d, 2)] true
  | .ldc128 h d ad => mem h (ldDst d 4 ad && ad.x.isSZ) false ad [] [(d, 4)] true
  | .ldt h d ad => mem h (ldDst d 1 ad) true ad [] [(d, 1)] true
  | .stt h d ad => mem h (d.isV || d.isS) true ad [(d, 1)] [] false
  | .trec h t ad => mem h (ad.x.isSZ && decide (16 ≤ ad.base.toNat)) false ad [] [] true [] (some t)
  | .pf h ad => mem h true false ad [] [] false
  | .ldk h d ad => mem h (evenV d) false ad [] [(d, 4)] true
  | .stf h d ad => mem h (pairVS d) false ad [(d, 4)] [] false
  | .fes h ad => mem h true false ad [] [] false
  | .fec h ad => mem h true false ad [] [] false
  | .fet h pd ad => mem h true false ad [] [] false [pd]
  | .ldr32 h d ad => mem h d.isV false ad [] [(d, 1)] true
  | .ldr64 h d ad => mem h (evenV d) false ad [] [(d, 2)] true
  | .stc32 h d ad => .atm h d 1 1 ad
  | .stc64 h d ad => .atm h d 2 2 ad
  | .atmAdd32 h d ad => .atm h d 1 1 ad
  | .atmSub32 h d ad => .atm h d 1 1 ad
  | .atmMin32 h d ad => .atm h d 1 1 ad
  | .atmMax32 h d ad => .atm h d 1 1 ad
  | .atmAnd32 h d ad => .atm h d 1 1 ad
  | .atmOr32 h d ad => .atm h d 1 1 ad
  | .atmXor32 h d ad => .atm h d 1 1 ad
  | .atmXchg32 h d ad => .atm h d 1 1 ad
  | .atmFadd32 h d ad => .atm h d 1 1 ad
  | .atmCas32 h d ad => .atm h d 2 1 ad
  | .atmMinu32 h d ad => .atm h d 1 1 ad
  | .atmMaxu32 h d ad => .atm h d 1 1 ad
  | .atmAdd64 h d ad => .atm h d 2 2 ad
  | .atmSub64 h d ad => .atm h d 2 2 ad
  | .atmMin64 h d ad => .atm h d 2 2 ad
  | .atmMax64 h d ad => .atm h d 2 2 ad
  | .atmAnd64 h d ad => .atm h d 2 2 ad
  | .atmOr64 h d ad => .atm h d 2 2 ad
  | .atmXor64 h d ad => .atm h d 2 2 ad
  | .atmXchg64 h d ad => .atm h d 2 2 ad
  | .atmCas64 h d ad => .atm h d 4 2 ad
  | .atmMinu64 h d ad => .atm h d 2 2 ad
  | .atmMaxu64 h d ad => .atm h d 2 2 ad
  | .barIni h _ a o => memO h (a.isSZ && o.sc == .core) o [(a, 1)] [] true
  | .barArv h d _ a o => memO h (d.isSZ && a.isSZ && o.sc == .core) o [(a, 1)] [(d, 1)] true
  | .barAwt h d _ a o => memO h (d.isSZ && a.isSZ && o.sc == .core) o [(a, 1)] [(d, 1)] true
  | .barWt h _ a o => memO h (a.isSZ && o.sc == .core) o [(a, 1)] [] true
  | .barExp h _ a _ o => memO h (a.isSZ && o.sc == .core) o [(a, 1)] [] true
  | .barTst h d _ o => memO h (evenS d && o.sc == .core) o [] [(d, 4)] true
  | .sqry h d _ o => memO h (evenV d && o.sc == .core) o [] [(d, 2)] false
  | .cp h dir fill d a b o =>
      memO h (pairVS d && pairVS a && (b.isV || b.isSZ) && (!fill || dir == .g2s || dir == .s2s)) o
        [(d, 2), (a, 2), (b, 1)] [] true
  | .cpm h _ d a b o => memO h (d.isSZ && evenS a && b.isS) o [(d, 1), (a, 2), (b, 1)] [] true
  | .cpc h d a b o =>
      memO h (evenS d && evenS a && b.isS && (o.sc == .device || o.sc == .system)) o [(d, 4), (a, 4), (b, 1)] [] true
  | .trp h a =>
      { hdr := h, ok := a.isSZ, unguarded := true, rd := spans [(a, 1)], lat := .none, coll := true, hm := .never,
        matrix := true }
  | .mma h et sm sel ov _ a b c s =>
      { hdr := h, ok := mmaOk et sm sel ov a b c s, windowed := true, unguarded := true,
        rd := [(a, 64), (b, 64)] ++ (if sm == .lane || sm == .bcst then [(s, 2)] else []), wr := [(c, 1)],
        lat := .far, coll := true, hm := .never, matrix := true }
  | .qnt h et _ d a =>
      { hdr := h, ok := narrowEt et && decide (d.toNat + 16 ≤ 192) &&
          decide (a.toNat + (if et == .ln6 then 80 else 60) ≤ 192), windowed := true,
        rd := [(a, if et == .ln6 then 80 else 60)], wr := [(d, 16)], lat := .quant, hm := .never, matrix := true }
  | .cvtn h et _ d a =>
      { hdr := h, ok := narrowEt et && d.isV && decide (a.toNat + 4 ≤ 192), rd := [(a, 4)], wr := [(d, 1)],
        lat := .matrix, hm := .never, matrix := true }
  | .cvtw h et d a =>
      { hdr := h, ok := narrowEt et && a.isV && decide (d.toNat + 4 ≤ 192), rd := [(a, 1)], wr := [(d, 4)],
        lat := .matrix, hm := .never, matrix := true }
  | .flg h d a =>
      { hdr := h, ok := decide (d.toNat + 16 ≤ 192) && (a.isV || a.isS), rd := spans [(d, 16), (a, 1)],
        wr := [(d, 1), (d + 15, 1)], lat := .matrix, hm := .never, matrix := true }
  | .chk h pd a =>
      { hdr := h, ok := decide (a.toNat + 16 ≤ 192), rd := [(a, 16)], pwr := [pd], lat := .matrix, hm := .never,
        matrix := true }
  | .launch h a o => memO h (evenS a && (o.sc == .device || o.sc == .system)) o [(a, 2)] [] false
  | .spawn h idx d o =>
      memO h (idx != 15 && decide (d.toNat ≤ 184) && o.sc == .core) o [(d, 8)] [] false
  | .binCfg h idx d a b =>
      { hdr := h, ok := idx != 15 && d.isSZ && a.isS && b.isS, rd := spans [(a, 1), (b, 1)], wr := spans [(d, 1)],
        lat := .xch, hm := .never }
  | .binFl h idx => { hdr := h, ok := idx != 15, lat := .none, hm := .never }
  | .binRel h idx => { hdr := h, ok := idx != 15, lat := .none, hm := .never }
  | .binQ h idx d => { hdr := h, ok := idx != 15 && d.isS, wr := spans [(d, 1)], lat := .xch, hm := .never }
  | .eqp h _ => { hdr := h, unguarded := true, lat := .none, hm := .never }
  | .migr h pd _ a =>
      { hdr := h, ok := a.isSZ, unguarded := true, rd := spans [(a, 1)], pwr := [pd], lat := .far, coll := true,
        hm := .never, ord := some ⟨0, 0, .core⟩ }
  | .vqry h k d a =>
      { hdr := h, ok := decide (k.toNat ≤ 2) && evenS d && a.isSZ, windowed := true, rd := spans [(a, 1)],
        wr := spans [(d, 2)], lat := .far, hm := .never }
  | .trap h _ d a =>
      { sys h ((evenS d || d.isZero) && (evenS a || a.isZero)) [(a, 8)] [(d, 2)] with lat := .none }
  | .tres h a b => { sys h (evenV a && b.isV) [(a, 2), (b, 1)] [] with lat := .none }
  | .tkill h a => { sys h (evenV a) [(a, 2)] [] with lat := .none }
  | .orr h c r d a =>
      sys h (evenV a && orCodeOk c r && d.isV && (orRegs c r == 1 || d.isEven)) [(a, 2)] [(d, orRegs c r)] true
  | .orw h c r a b =>
      { sys h (evenV a && orCodeOk c r && c != .sr && b.isV) [(a, 2), (b, 1)] [] with lat := .none }
  | .copen h d a _ => sys h (d.isSZ && a.isSZ) [(a, 1)] [(d, 1)]
  | .cclose h => { sys h true [] [] with lat := .none }
  | .halt h a => { sys h a.isSZ [(a, 1)] [] with lat := .none }
  | .ctxrd h d a => sys h (decide (d.toNat ≤ 188) && evenV a) [(a, 2)] [(d, 4)] true
  | .ctxwr h a b => { sys h (evenV a && decide (b.toNat ≤ 188)) [(a, 2), (b, 4)] [] with lat := .none }
  | .brk h _ => { hdr := h, lat := .none }
  | .trc h _ a => { hdr := h, ok := a.isSZ, rd := spans [(a, 1)], lat := .none }
  | .clk h d => { hdr := h, ok := evenS d, wr := spans [(d, 2)], lat := .xch }
  | .pmk h _ d a => { hdr := h, ok := evenS d && a.isS, rd := spans [(a, 1)], wr := spans [(d, 2)], lat := .xch }
  | .movi h d _ => { hdr := h, ok := d.isV || d.isS, wr := spans [(d, 1)] }
  | .moviS64 h d _ => { hdr := h, ok := pairVS d, wr := spans [(d, 2)] }
  | .moviZ64 h d _ => { hdr := h, ok := pairVS d, wr := spans [(d, 2)] }
  | .movh h d _ => { hdr := h, ok := pairVS d, wr := spans [(d + 1, 1)] }
  | .addL h d _ => { hdr := h, ok := d.isV || d.isS, rd := spans [(d, 1)], wr := spans [(d, 1)] }
  | .andL h d _ => { hdr := h, ok := d.isV || d.isS, rd := spans [(d, 1)], wr := spans [(d, 1)] }
  | .orL h d _ => { hdr := h, ok := d.isV || d.isS, rd := spans [(d, 1)], wr := spans [(d, 1)] }
  | .xorL h d _ => { hdr := h, ok := d.isV || d.isS, rd := spans [(d, 1)], wr := spans [(d, 1)] }
  | .faddL h d _ => { hdr := h, ok := d.isV || d.isS, rd := spans [(d, 1)], wr := spans [(d, 1)], lat := .mul }
  | .fmulL h d _ => { hdr := h, ok := d.isV || d.isS, rd := spans [(d, 1)], wr := spans [(d, 1)], lat := .mul }
  | .pairedWord s0 s1 =>
      { ok := slotOk s0 && slotOk s1 && (slotWr s0).all (fun d => !(slotWr s1).contains d)
        rd := spans ((slotRd s0 ++ slotRd s1).map fun r => (r, 1))
        wr := spans ((slotWr s0 ++ slotWr s1).map fun r => (r, 1))
        lat := if slotLat s0 == .mul || slotLat s1 == .mul then .mul else .alu }
  | .illegalEncoding _ | .handlerEntry | .defaultDecision | .forcedRotation | .policyFault
  | .operationPerform .. | .operationComplete .. | .windowedComplete .. | .gatherLineWriteback ..
  | .gatherLineTimeout .. | .faultRingRecord .. | .lineClaim .. | .reservationHoldExpiry .. | .leaveGrant ..
  | .transferUnitLand .. | .multicastClaim .. | .multicastLineLand .. | .commandStart ..
  | .firmwareContextSwitch .. | .xgoCopy .. | .xgoAddF32 .. | .xgoAddBf16x2 .. | .xgoAddI32 .. | .xgoMaxF32 ..
  | .xgoMinF32 .. | .collectiveTransferLand .. | .done .. | .commandComplete .. | .firmwareFault ..
  | .firmwareTimeout .. | .flitCrcFail .. | .troupeRelease .. | .mmaBlockStep .. | .mmaComplete ..
  | .gridRetire .. | .placementDecision .. | .teamSave .. | .queueHeadStarvation .. | .binTimerExpiry ..
  | .trapBinTimer .. | .migrationBudgetExpiry .. | .migrationMove .. | .migrationResume ..
  | .syscallRingRecord .. | .syscallReturn .. | .syscallRestart .. | .syscallExit .. | .regionEntry ..
  | .flagDown .. | .contextHalted .. | .uncorrectableError .. | .correctedError .. | .testSlice ..
  | .breakpointStop | .sampleRecord .. | .ctxCreate .. | .ctxResume .. | .ctxEnd .. | .ctxStep .. | .dirstart ..
  | .resume .. | .pgres .. | .inval .. | .invalComplete .. | .resync .. | .resyncDone | .fwload ..
  | .fwloadDone .. | .attest .. | .attestDone | .counterClear .. | .bar2Write .. | .bar2Read ..
  | .registerWrite .. | .deviceReset .. | .systemWindowAccessFromPeer .. | .xerrRead .. => .event

/-- A word marked U is unguarded (R25). -/
def Info.guardOk (f : Info) : Bool := !f.unguarded || f.hdr.guard == .always

/-- LA may be non-zero only on a windowed word (R26). -/
def Info.laOk (f : Info) : Bool := f.windowed || f.hdr.la == 0

/-- A well-formed instruction word: R26, R25 (U), R31, R34, R35 and the rules of its chapter. -/
def wf (i : Instr) : Bool :=
  let f := info i
  f.word && f.ok && f.guardOk && f.laOk

end Sys2Proof
end

