-- ==== Sys2Proof/Machine/Flags.lean ====
section
/-! DEFINITION. Integer arithmetic of major 0x0 and of the paired word (R42, R147, R153 to R159): operands become
integers, the result is computed exactly and narrowed; comparisons, carries and the predicates of `acs` come from
the exact values. A 64-bit value stands for a pair, a single register for its zero extension. -/

namespace Sys2Proof.Machine

/-- Operation width (R147). -/
def Ty.width : Ty → Nat
  | .i8 | .n8 => 8
  | .i16 | .n16 | .h2 => 16
  | .i64 | .n64 => 64
  | _ => 32

/-- A source as the integer its type takes it as (R147). -/
def srcInt (ty : Ty) (x : DWord) : Int :=
  let w := Ty.width ty
  if ty.isSigned || ty == .h2 then (x.setWidth w).toInt else (x.setWidth w).toNat

/-- A result wrapped modulo 2^w and extended into its register (R147). -/
def ofInt (ty : Ty) (i : Int) : DWord :=
  let w := Ty.width ty
  if ty.isSigned && decide (w < 32) then ((BitVec.ofInt w i).signExtend 32).setWidth 64
  else (BitVec.ofInt w i).setWidth 64

/-- Half k of a register. -/
def half (x : DWord) (k : Nat) : DWord := ((x.setWidth 32).extractLsb' (16 * k) 16).setWidth 64

/-- A register from its halves. -/
def halves (f : Nat → DWord) : DWord := (((f 1).setWidth 16) ++ ((f 0).setWidth 16)).setWidth 64

/-- Apply a lane operation, on each half on its own for `.h2` (R147). -/
def perHalf1 (ty : Ty) (f : DWord → DWord) (a : DWord) : DWord :=
  if ty == .h2 then halves fun k => f (half a k) else f a

/-- As `perHalf1`, of two operands. -/
def perHalf2 (ty : Ty) (f : DWord → DWord → DWord) (a b : DWord) : DWord :=
  if ty == .h2 then halves fun k => f (half a k) (half b k) else f a b

/-- As `perHalf1`, of three operands. -/
def perHalf3 (ty : Ty) (f : DWord → DWord → DWord → DWord) (a b c : DWord) : DWord :=
  if ty == .h2 then halves fun k => f (half a k) (half b k) (half c k) else f a b c

/-- A two-operand integer function of R153. -/
def int2 (f : Int → Int → Int) (ty : Ty) (a b : DWord) : DWord :=
  perHalf2 ty (fun x y => ofInt ty (f (srcInt ty x) (srcInt ty y))) a b

/-- `add`. -/
def aluAdd (ty : Ty) (a b : DWord) : DWord := int2 (fun x y => x + y) ty a b
/-- `sub`. -/
def aluSub (ty : Ty) (a b : DWord) : DWord := int2 (fun x y => x - y) ty a b
/-- `mul`. -/
def aluMul (ty : Ty) (a b : DWord) : DWord := int2 (fun x y => x * y) ty a b
/-- `mulh`: the high w bits of the exact product. -/
def aluMulh (ty : Ty) (a b : DWord) : DWord := int2 (fun x y => (x * y) / 2 ^ Ty.width ty) ty a b
/-- `min`. -/
def aluMin (ty : Ty) (a b : DWord) : DWord := int2 (fun x y => if y < x then y else x) ty a b
/-- `max`. -/
def aluMax (ty : Ty) (a b : DWord) : DWord := int2 (fun x y => if x < y then y else x) ty a b
/-- `mad`. -/
def aluMad (ty : Ty) (a b c : DWord) : DWord :=
  perHalf3 ty (fun x y z => ofInt ty (srcInt ty x * srcInt ty y + srcInt ty z)) a b c
/-- `div`, with the cases of R155: a zero divisor gives all ones; minimum / −1 wraps to minimum. -/
def aluDiv (ty : Ty) (a b : DWord) : DWord :=
  int2 (fun x y => if y = 0 then -1 else Int.tdiv x y) ty a b
/-- `rem` (R155). -/
def aluRem (ty : Ty) (a b : DWord) : DWord :=
  int2 (fun x y => if y = 0 then x else Int.tmod x y) ty a b
/-- `abs`, wrapping. -/
def aluAbs (ty : Ty) (a : DWord) : DWord :=
  perHalf1 ty (fun x => ofInt ty (if srcInt ty x < 0 then - srcInt ty x else srcInt ty x)) a
/-- `neg`. -/
def aluNeg (ty : Ty) (a : DWord) : DWord := perHalf1 ty (fun x => ofInt ty (0 - srcInt ty x)) a
/-- `and`, on 32 bits or a pair. -/
def aluAnd (_ : Ty) (a b : DWord) : DWord := a &&& b
/-- `or`. -/
def aluOr (_ : Ty) (a b : DWord) : DWord := a ||| b
/-- `xor`. -/
def aluXor (_ : Ty) (a b : DWord) : DWord := a ^^^ b
/-- `andn`. -/
def aluAndn (_ : Ty) (a b : DWord) : DWord := a &&& ~~~b

/-- `shl`: 0 for counts of the width or more (R154). -/
def aluShl (ty : Ty) (a b : DWord) : DWord :=
  perHalf2 ty (fun x c => ((x.setWidth (Ty.width ty)) <<< (c.setWidth 32).toNat).setWidth 64) a b
/-- `shr`. -/
def aluShr (ty : Ty) (a b : DWord) : DWord :=
  perHalf2 ty (fun x c => ((x.setWidth (Ty.width ty)) >>> (c.setWidth 32).toNat).setWidth 64) a b
/-- `sar`: copies of the sign bit for counts of the width or more. -/
def aluSar (ty : Ty) (a b : DWord) : DWord :=
  perHalf2 ty (fun x c => ((x.setWidth (Ty.width ty)).sshiftRight (c.setWidth 32).toNat).setWidth 64) a b
/-- `rot`, left, by the count modulo w. -/
def aluRot (ty : Ty) (a b : DWord) : DWord :=
  ((a.setWidth (Ty.width ty)).rotateLeft ((b.setWidth 32).toNat % Ty.width ty)).setWidth 64

/-- `clz` over w bits. -/
def aluClz (ty : Ty) (a : DWord) : DWord :=
  let w := Ty.width ty
  let x := (a.setWidth w).toNat
  BitVec.ofNat 64 (if x = 0 then w else w - 1 - Nat.log2 x)
/-- `popc`. -/
def aluPopc (ty : Ty) (a : DWord) : DWord :=
  BitVec.ofNat 64 ((List.range (Ty.width ty)).filter fun k => a.getLsbD k).length
/-- `brev`. -/
def aluBrev (ty : Ty) (a : DWord) : DWord := ((a.setWidth (Ty.width ty)).reverse).setWidth 64

/-- Position and length of a field, clipped (R157). -/
def fieldPos (w : Nat) (k : DWord) : Nat × Nat :=
  let pos := Nat.min (k.extractLsb' 0 8).toNat w
  (pos, Nat.min (k.extractLsb' 8 8).toNat (w - pos))

/-- `bfx` (R157). -/
def aluBfx (ty : Ty) (a k : DWord) : DWord :=
  let w := Ty.width ty
  let (pos, len) := fieldPos w k
  let f := ((a.setWidth w).toNat / 2 ^ pos) % 2 ^ len
  if len = 0 then 0
  else if ty.isSigned && decide (2 ^ (len - 1) ≤ f) then ofInt ty ((f : Int) - 2 ^ len)
  else ofInt ty f

/-- `bfi` (R157). -/
def aluBfi (ty : Ty) (base val k : DWord) : DWord :=
  let w := Ty.width ty
  let (pos, len) := fieldPos w k
  let m : DWord := BitVec.ofNat 64 (2 ^ len - 1)
  ((base &&& ~~~(m <<< pos)) ||| ((val &&& m) <<< pos)).setWidth w |>.setWidth 64

/-- `lea` (R158): the second operand extended by type, shifted and added modulo 2^64. -/
def aluLea (ty : Ty) (sh : Nat) (a b : DWord) : DWord :=
  let e : DWord := match ty with
    | .i32 => (b.setWidth 32).signExtend 64
    | .n32 => (b.setWidth 32).setWidth 64
    | _ => b
  a + (e <<< sh)

/-- `addc`: result and carry out. -/
def aluAddc (ty : Ty) (a b : DWord) (c : Bool) : DWord × Bool :=
  let w := Ty.width ty
  let t := (a.setWidth w).toNat + (b.setWidth w).toNat + c.toNat
  (BitVec.ofNat 64 (t % 2 ^ w), decide (2 ^ w ≤ t))

/-- `subc`: result and borrow out. -/
def aluSubc (ty : Ty) (a b : DWord) (c : Bool) : DWord × Bool :=
  let w := Ty.width ty
  let x := (a.setWidth w).toNat
  let y := (b.setWidth w).toNat + c.toNat
  (ofInt ty ((x : Int) - y), decide (x < y))

/-- `cmp` (R156). -/
def aluCmp (cc : Cc) (ty : Ty) (a b : DWord) : Bool :=
  let x := srcInt ty a
  let y := srcInt ty b
  match cc with
  | .eq => decide (x = y)
  | .ne => decide (x ≠ y)
  | .lt => decide (x < y)
  | .le => decide (x ≤ y)
  | .gt => decide (y < x)
  | .ge => decide (y ≤ x)

/-- One half of `acs` (R159): the metric and whether B was selected. -/
def acsHalf (a b c : DWord) (k : Nat) : DWord × Bool :=
  let x := (half a k).toNat + (c.extractLsb' (16 * k) 8).toNat
  let y := (half b k).toNat + (c.extractLsb' (16 * k + 8) 8).toNat
  (BitVec.ofNat 64 (Nat.min (Nat.min x y) 0xFFFF), decide (y < x))

/-- `acs`: the register. -/
def aluAcs (a b c : DWord) : DWord := halves fun k => (acsHalf a b c k).1

/-- An immediate as operand B (R47, R152): sign-extended, or IMM18[15:0] in each half. -/
def immS (ty : Ty) (i : BitVec 18) : DWord :=
  if ty == .h2 then halves fun _ => (i.setWidth 16).setWidth 64 else i.signExtend 64

/-- An immediate count or field control: zero-extended (R152). -/
def immZ (ty : Ty) (i : BitVec 18) : DWord :=
  if ty == .h2 then halves fun _ => (i.setWidth 16).setWidth 64 else i.setWidth 64

end Sys2Proof.Machine
end

