-- ==== Sys2Proof/Machine/Float.lean ====
section
/-! DEFINITION. Floating point (R148 to R151, R160 to R166, R168, R169): a float is a sign and an exact dyadic
magnitude; every result is formed exactly, or as a truncated magnitude with a sticky mark, and rounded once. -/

namespace Sys2Proof.Machine

/-- A binary format: precision with the hidden bit, exponent range, exponent field width. -/
structure Fmt where
  p : Nat
  emin : Int
  emax : Int
  ebits : Nat
  deriving DecidableEq, Repr, Inhabited

/-- binary32 (R148). -/
def fmt32 : Fmt := ⟨24, -126, 127, 8⟩
/-- binary16. -/
def fmt16 : Fmt := ⟨11, -14, 15, 5⟩
/-- BF16. -/
def fmtB16 : Fmt := ⟨8, -126, 127, 8⟩

/-- A value: NaN (signalling or quiet), an infinity, or sign and magnitude m·2^e. -/
inductive FVal where
  | nan (signalling : Bool)
  | inf (neg : Bool)
  | num (neg : Bool) (m : Nat) (e : Int)
  deriving DecidableEq, Repr, Inhabited

/-- Width of a format. -/
def Fmt.width (f : Fmt) : Nat := f.p + f.ebits

/-- Read a float. -/
def Fmt.read (f : Fmt) (x : Nat) : FVal :=
  let frac := x % 2 ^ (f.p - 1)
  let ex := x / 2 ^ (f.p - 1) % 2 ^ f.ebits
  let neg := x / 2 ^ (f.p - 1 + f.ebits) % 2 == 1
  if ex = 2 ^ f.ebits - 1 then
    if frac = 0 then .inf neg else .nan (decide (frac < 2 ^ (f.p - 2)))
  else if ex = 0 then .num neg frac (f.emin - (f.p - 1))
  else .num neg (frac + 2 ^ (f.p - 1)) (f.emin + ex - 1 - (f.p - 1))

/-- The sign bit. -/
def Fmt.sign (f : Fmt) (neg : Bool) : Nat := if neg then 2 ^ (f.p - 1 + f.ebits) else 0

/-- An infinity. -/
def Fmt.infty (f : Fmt) (neg : Bool) : Nat := f.sign neg + (2 ^ f.ebits - 1) * 2 ^ (f.p - 1)

/-- The canonical NaN. -/
def Fmt.canon (f : Fmt) : Nat := f.infty false + 2 ^ (f.p - 2)

/-- The largest finite value. -/
def Fmt.maxFin (f : Fmt) (neg : Bool) : Nat := f.infty neg - 1

/-- Number of bits of a number. -/
def bitLen (n : Nat) : Nat := if n = 0 then 0 else Nat.log2 n + 1

/-- Round m·2^e (and a little more, where `sticky`) to a multiple of 2^q: the multiple, by rounding mode. -/
def roundTo (rm : Rm) (neg : Bool) (m : Nat) (e q : Int) (sticky : Bool) : Nat :=
  if q ≤ e then
    let n := m * 2 ^ (e - q).toNat
    if sticky && ((rm == .rup && !neg) || (rm == .rdn && neg)) then n + 1 else n
  else
    let k := (q - e).toNat
    let n := m / 2 ^ k
    let r := m % 2 ^ k
    let h := 2 ^ (k - 1)
    let up := match rm with
      | .rne => decide (h < r) || (r == h && (sticky || n % 2 == 1))
      | .rz => false
      | .rdn => neg && (r != 0 || sticky)
      | .rup => !neg && (r != 0 || sticky)
    if up then n + 1 else n

/-- A result: the bits and whether it traps (R150). -/
abbrev FRes := Nat × Bool

/-- Round a magnitude to a format, overflow by policy (R149, R150). A sticky magnitude must carry at least two bits
beyond the precision. -/
def Fmt.round (f : Fmt) (rm : Rm) (ov : Ov) (neg : Bool) (m : Nat) (e : Int) (sticky : Bool := false) : FRes :=
  if m = 0 && !sticky then (f.sign neg, false)
  else
    let q0 := max (f.emin - (f.p - 1)) (e + bitLen m - f.p)
    let n0 := roundTo rm neg m e q0 sticky
    let (n, q) := if n0 = 2 ^ f.p then (2 ^ (f.p - 1), q0 + 1) else (n0, q0)
    if n < 2 ^ (f.p - 1) then (f.sign neg + n, false)
    else if f.emax < q + (f.p - 1) then
      match ov with
      | .sat => (f.maxFin neg, false)
      | .inf => (f.infty neg, false)
      | .nan => (f.canon, false)
      | .trap => (f.canon, true)
    else (f.sign neg + (q + (f.p - 1) - f.emin + 1).toNat * 2 ^ (f.p - 1) + (n - 2 ^ (f.p - 1)), false)

/-- Round an exact signed dyadic; an exact zero takes `zneg`. -/
def Fmt.roundInt (f : Fmt) (rm : Rm) (ov : Ov) (zneg : Bool) (i : Int) (e : Int) : FRes :=
  if i = 0 then (f.sign zneg, false) else f.round rm ov (decide (i < 0)) i.natAbs e

/-- The exact sum of two finite values as a signed dyadic. -/
def sumDyadic (s1 : Bool) (m1 : Nat) (e1 : Int) (s2 : Bool) (m2 : Nat) (e2 : Int) : Int × Int :=
  let e := min e1 e2
  let a : Int := m1 * 2 ^ (e1 - e).toNat
  let b : Int := m2 * 2 ^ (e2 - e).toNat
  ((if s1 then -a else a) + (if s2 then -b else b), e)

/-- Sum of two values (R161); opposite zeros and exact cancellations give +0, or −0 under `.rdn`. -/
def Fmt.addV (f : Fmt) (rm : Rm) (ov : Ov) : FVal → FVal → FRes
  | .nan _, _ => (f.canon, false)
  | _, .nan _ => (f.canon, false)
  | .inf a, .inf b => if a == b then (f.infty a, false) else (f.canon, false)
  | .inf a, .num .. => (f.infty a, false)
  | .num .., .inf b => (f.infty b, false)
  | .num s1 m1 e1, .num s2 m2 e2 =>
    let (i, e) := sumDyadic s1 m1 e1 s2 m2 e2
    f.roundInt rm ov (if m1 = 0 && m2 = 0 && s1 == s2 then s1 else rm == .rdn) i e

/-- The exact product, or what R161 gives for special operands. -/
def mulV : FVal → FVal → FVal
  | .nan _, _ => .nan false
  | _, .nan _ => .nan false
  | .inf a, .inf b => .inf (a != b)
  | .inf a, .num s m _ => if m = 0 then .nan false else .inf (a != s)
  | .num s m _, .inf b => if m = 0 then .nan false else .inf (s != b)
  | .num s1 m1 e1, .num s2 m2 e2 => .num (s1 != s2) (m1 * m2) (e1 + e2)

/-- Round a value. -/
def Fmt.roundV (f : Fmt) (rm : Rm) (ov : Ov) : FVal → FRes
  | .nan _ => (f.canon, false)
  | .inf a => (f.infty a, false)
  | .num s m e => f.round rm ov s m e

/-- Negate. -/
def negV : FVal → FVal
  | .nan s => .nan s
  | .inf a => .inf (!a)
  | .num s m e => .num (!s) m e

/-- Quotient of two values (R161). -/
def Fmt.divV (f : Fmt) (rm : Rm) (ov : Ov) : FVal → FVal → FRes
  | .nan _, _ => (f.canon, false)
  | _, .nan _ => (f.canon, false)
  | .inf _, .inf _ => (f.canon, false)
  | .inf a, .num s _ _ => (f.infty (a != s), false)
  | .num s _ _, .inf b => (f.sign (s != b), false)
  | .num s1 m1 e1, .num s2 m2 e2 =>
    if m2 = 0 then (if m1 = 0 then (f.canon, false) else (f.infty (s1 != s2), false))
    else if m1 = 0 then (f.sign (s1 != s2), false)
    else f.round rm ov (s1 != s2) (m1 * 2 ^ 64 / m2) (e1 - 64 - e2) (m1 * 2 ^ 64 % m2 != 0)

/-- Integer square root by bits, from bit `k` down. -/
def isqrtFrom : Nat → Nat → Nat → Nat
  | 0, _, r => r
  | k + 1, n, r => let t := r + 2 ^ k; if t * t ≤ n then isqrtFrom k n t else isqrtFrom k n r

/-- The largest r with r² ≤ n. -/
def isqrt (n : Nat) : Nat := isqrtFrom (bitLen n / 2 + 1) n 0

/-- A magnitude with an even exponent. -/
def evenExp (m : Nat) (e : Int) : Nat × Int := if e % 2 = 0 then (m, e) else (2 * m, e - 1)

/-- `fsqrt` (R162). -/
def Fmt.sqrtV (f : Fmt) (rm : Rm) : FVal → FRes
  | .nan _ => (f.canon, false)
  | .inf a => if a then (f.canon, false) else (f.infty false, false)
  | .num s m e =>
    if m = 0 then (f.sign s, false) else if s then (f.canon, false)
    else
      let (m', e') := evenExp m e
      let r := isqrt (m' * 2 ^ 64)
      f.round rm .sat false r ((e' - 64) / 2) (r * r != m' * 2 ^ 64)

/-- `frsq` (R162). -/
def Fmt.rsqV (f : Fmt) (rm : Rm) : FVal → FRes
  | .nan _ => (f.canon, false)
  | .inf a => if a then (f.canon, false) else (f.sign false, false)
  | .num s m e =>
    if m = 0 then (f.infty s, false) else if s then (f.canon, false)
    else
      let (m', e') := evenExp m e
      let r := isqrt (2 ^ 160 / m')
      f.round rm .sat false r (-80 - e' / 2) (r * r * m' != 2 ^ 160)

/-- Bits of the fixed point in which `fex2` and `flg2` are evaluated. -/
def fxBits : Nat := 160

/-- The product over the bits of a fraction of 2^(2^-i) (i = 1, 2, …), in fixed point; `root` is 2^(2^-(i-1)). -/
def exp2Frac : Nat → Nat → Nat → Nat → Nat
  | 0, _, _, acc => acc
  | k + 1, frac, root, acc =>
    let r := isqrt (root * 2 ^ fxBits)
    exp2Frac k frac r (if frac / 2 ^ k % 2 = 1 then acc * r / 2 ^ fxBits else acc)

/-- `fex2` (R162): 2^A. An integral A is exact; a tiny A gives a value next to 1; a large one overflows or rounds
to nothing. -/
def Fmt.exp2V (f : Fmt) (rm : Rm) (ov : Ov) : FVal → FRes
  | .nan _ => (f.canon, false)
  | .inf a => if a then (f.sign false, false) else (f.infty false, false)
  | .num s m e =>
    if m = 0 then f.round rm ov false 1 0
    else
      -- the integral and fractional parts of A, with 60 bits of fraction
      let fr : Nat := if 0 ≤ e then 0 else if e < -60 then (if m / 2 ^ (-e - 60).toNat = 0 then 0 else m / 2 ^ (-e - 60).toNat) else m * 2 ^ (60 + e).toNat
      let whole : Nat := if 0 ≤ e then m * 2 ^ (Nat.min e.toNat 40) else fr / 2 ^ 60
      let tiny := decide (e + bitLen m < -34)
      if tiny then
        if s then f.round rm ov false (2 ^ 64 - 1) (-64) true else f.round rm ov false (2 ^ 64) (-64) true
      else if 300 < whole then
        if s then f.round rm ov false 1 (-400) true else f.round rm ov false 1 400
      else
        let fbits := fr % 2 ^ 60
        if fbits = 0 then f.round rm ov false 1 (if s then -(whole : Int) else whole)
        else
          -- a negative A takes the next integer down and the complement of the fraction
          let (n, g) : Int × Nat := if s then (-(whole : Int) - 1, 2 ^ 60 - fbits) else (whole, fbits)
          f.round rm ov false (exp2Frac 60 g (2 * 2 ^ fxBits) (2 ^ fxBits)) (n - fxBits) true

/-- Bits of log2 of a fixed-point number in [1, 2), by repeated squaring. -/
def log2Bits : Nat → Nat → Nat → Nat
  | 0, _, acc => acc
  | k + 1, x, acc =>
    let y := x * x / 2 ^ 300
    if 2 * 2 ^ 300 ≤ y then log2Bits k (y / 2) (2 * acc + 1) else log2Bits k y (2 * acc)

/-- `flg2` (R162): log2 A; a power of two is exact. -/
def Fmt.log2V (f : Fmt) (rm : Rm) : FVal → FRes
  | .nan _ => (f.canon, false)
  | .inf a => if a then (f.canon, false) else (f.infty false, false)
  | .num s m e =>
    if m = 0 then (f.infty true, false) else if s then (f.canon, false)
    else
      let n : Int := e + (bitLen m - 1 : Nat)
      if m = 2 ^ (bitLen m - 1) then f.roundInt rm .sat false n 0
      else
        let frac := log2Bits 120 (m * 2 ^ 300 / 2 ^ (bitLen m - 1)) 0
        let t : Int := n * 2 ^ 120 + frac
        -- the true logarithm lies strictly above t·2^-120
        if 0 ≤ t then f.round rm .sat false t.natAbs (-120) true
        else f.round rm .sat true (t.natAbs - 1) (-120) true

/-- `frnd` (R162): the nearest integral value by RM, with the sign kept. -/
def Fmt.rndV (f : Fmt) (rm : Rm) : FVal → FRes
  | .nan _ => (f.canon, false)
  | .inf a => (f.infty a, false)
  | .num s m e => if 0 ≤ e then f.round rm .sat s m e else f.round rm .sat s (roundTo rm s m e 0 false) 0

/-- Order of two values that are not NaN, as signed dyadics; infinities beyond every number. -/
def ltV : FVal → FVal → Bool
  | .inf a, .inf b => a && !b
  | .inf a, .num .. => a
  | .num .., .inf b => !b
  | .num s1 m1 e1, .num s2 m2 e2 => decide ((sumDyadic s1 m1 e1 (!s2) m2 e2).1 < 0)
  | _, _ => false

/-- The sign of a value. -/
def FVal.neg : FVal → Bool
  | .nan _ => false
  | .inf a => a
  | .num s _ _ => s

/-- A NaN. -/
def FVal.isNan : FVal → Bool
  | .nan _ => true
  | _ => false

/-- `fmin` and `fmax` (R163), on the bits: −0 is less than +0; one NaN yields the other source. -/
def Fmt.minmax (f : Fmt) (max : Bool) (x y : Nat) : Nat :=
  let a := f.read x
  let b := f.read y
  if a.isNan && b.isNan then f.canon
  else if a.isNan then y
  else if b.isNan then x
  else
    let less := ltV a b || (!ltV b a && a.neg && !b.neg)
    if less != max then x else y

/-- `fcmp` (R164). -/
def Fmt.cmp (f : Fmt) (cc : Fcc) (x y : Nat) : Bool :=
  let a := f.read x
  let b := f.read y
  let un := a.isNan || b.isNan
  match cc with
  | .eq => !un && !ltV a b && !ltV b a
  | .ne => un || ltV a b || ltV b a
  | .lt => !un && ltV a b
  | .le => !un && !ltV b a
  | .gt => !un && ltV b a
  | .ge => !un && !ltV a b
  | .un => un
  | .ord => !un

/-- `fclass` (R166). -/
def Fmt.cls (f : Fmt) (x : Nat) : Nat :=
  match f.read x with
  | .nan s => if s then 2 ^ 8 else 2 ^ 9
  | .inf a => if a then 2 ^ 0 else 2 ^ 7
  | .num s m _ =>
    if m = 0 then (if s then 2 ^ 3 else 2 ^ 4)
    else if m < 2 ^ (f.p - 1) then (if s then 2 ^ 2 else 2 ^ 5)
    else (if s then 2 ^ 1 else 2 ^ 6)

/-- The format of a float type's element. -/
def Ty.fmt : Ty → Fmt
  | .f16 | .f16x2 => fmt16
  | .bf16 | .bf16x2 => fmtB16
  | _ => fmt32

/-- A type of two halves. -/
def Ty.isX2 (t : Ty) : Bool := t == .f16x2 || t == .bf16x2

/-- Element k of a register of a float type. -/
def felem (t : Ty) (x : DWord) (k : Nat) : Nat :=
  if Ty.isX2 t then (x.extractLsb' (16 * k) 16).toNat else (x.setWidth (Fmt.width (Ty.fmt t))).toNat

/-- A register of a float type from its elements; a trap in either half traps (R148). -/
def felems (t : Ty) (g : Nat → FRes) : DWord × Bool :=
  if Ty.isX2 t then
    (((BitVec.ofNat 16 (g 1).1) ++ (BitVec.ofNat 16 (g 0).1)).setWidth 64, (g 0).2 || (g 1).2)
  else (BitVec.ofNat 64 ((g 0).1 % 2 ^ Fmt.width (Ty.fmt t)), (g 0).2)

/-- A one-operand float function per element. -/
def fun1 (t : Ty) (g : Fmt → FVal → FRes) (a : DWord) : DWord × Bool :=
  felems t fun k => g (Ty.fmt t) ((Ty.fmt t).read (felem t a k))

/-- A two-operand float function per element. -/
def fun2 (t : Ty) (g : Fmt → FVal → FVal → FRes) (a b : DWord) : DWord × Bool :=
  felems t fun k => g (Ty.fmt t) ((Ty.fmt t).read (felem t a k)) ((Ty.fmt t).read (felem t b k))

/-- `fadd`. -/
def fltAdd (t : Ty) (rm : Rm) (ov : Ov) (a b : DWord) : DWord × Bool := fun2 t (fun f x y => f.addV rm ov x y) a b
/-- `fsub`. -/
def fltSub (t : Ty) (rm : Rm) (ov : Ov) (a b : DWord) : DWord × Bool :=
  fun2 t (fun f x y => f.addV rm ov x (negV y)) a b
/-- `fmul`. -/
def fltMul (t : Ty) (rm : Rm) (ov : Ov) (a b : DWord) : DWord × Bool :=
  fun2 t (fun f x y => f.roundV rm ov (mulV x y)) a b
/-- `ffma`: one rounding. -/
def fltFma (t : Ty) (rm : Rm) (ov : Ov) (a b c : DWord) : DWord × Bool :=
  felems t fun k =>
    let f := Ty.fmt t
    f.addV rm ov (mulV (f.read (felem t a k)) (f.read (felem t b k))) (f.read (felem t c k))
/-- `fmin`. -/
def fltMin (t : Ty) (a b : DWord) : DWord × Bool :=
  felems t fun k => ((Ty.fmt t).minmax false (felem t a k) (felem t b k), false)
/-- `fmax`. -/
def fltMax (t : Ty) (a b : DWord) : DWord × Bool :=
  felems t fun k => ((Ty.fmt t).minmax true (felem t a k) (felem t b k), false)
/-- `fdiv`. -/
def fltDiv (t : Ty) (rm : Rm) (ov : Ov) (a b : DWord) : DWord × Bool := fun2 t (fun f x y => f.divV rm ov x y) a b
/-- `frcp`. -/
def fltRcp (t : Ty) (rm : Rm) (ov : Ov) (a : DWord) : DWord × Bool :=
  fun1 t (fun f x => f.divV rm ov (.num false 1 0) x) a
/-- `frsq`. -/
def fltRsq (t : Ty) (rm : Rm) (a : DWord) : DWord × Bool := fun1 t (fun f x => f.rsqV rm x) a
/-- `fsqrt`. -/
def fltSqrt (t : Ty) (rm : Rm) (a : DWord) : DWord × Bool := fun1 t (fun f x => f.sqrtV rm x) a
/-- `fex2`. -/
def fltEx2 (t : Ty) (rm : Rm) (ov : Ov) (a : DWord) : DWord × Bool := fun1 t (fun f x => f.exp2V rm ov x) a
/-- `flg2`. -/
def fltLg2 (t : Ty) (rm : Rm) (a : DWord) : DWord × Bool := fun1 t (fun f x => f.log2V rm x) a
/-- `frnd`. -/
def fltRnd (t : Ty) (rm : Rm) (a : DWord) : DWord × Bool := fun1 t (fun f x => f.rndV rm x) a

/-- `fclass`: one mask, or one per half at bits 0 and 16 (R166). -/
def fltClass (t : Ty) (a : DWord) : DWord :=
  if Ty.isX2 t then BitVec.ofNat 64 ((Ty.fmt t).cls (felem t a 0) + 2 ^ 16 * (Ty.fmt t).cls (felem t a 1))
  else BitVec.ofNat 64 ((Ty.fmt t).cls (felem t a 0))

/-- `fcmp`. -/
def fltCmp (cc : Fcc) (t : Ty) (a b : DWord) : Bool := (Ty.fmt t).cmp cc (felem t a 0) (felem t b 0)

/-! ### Conversion (R169) -/

/-- The range of an integer type. -/
def Ty.minInt (t : Ty) : Int := if t.isSigned then -(2 ^ (Ty.width t - 1)) else 0
/-- The largest value. -/
def Ty.maxInt (t : Ty) : Int := if t.isSigned then 2 ^ (Ty.width t - 1) - 1 else 2 ^ Ty.width t - 1

/-- An integer out of range, or a NaN (`none`), by the integer column of R150; `exact` is the value of an integer
source, whose low bits INF and NAN keep. -/
def intOv (t : Ty) (ov : Ov) (v : Option Int) (negInf posInf : Bool) (exact : Bool) : DWord × Bool :=
  match ov with
  | .sat =>
    (ofInt t (match v with
      | none => if posInf then Ty.maxInt t else if negInf then Ty.minInt t else 0
      | some i => if i < Ty.minInt t then Ty.minInt t else Ty.maxInt t), false)
  | .trap => (0, true)
  | _ =>
    if exact then (ofInt t (v.getD 0), false)
    else (ofInt t (if t.isSigned then Ty.minInt t else -1), false)

/-- An integer into a type, by policy where it does not fit. -/
def intFit (t : Ty) (ov : Ov) (i : Int) (exact : Bool) : DWord × Bool :=
  if Ty.minInt t ≤ i ∧ i ≤ Ty.maxInt t then (ofInt t i, false) else intOv t ov (some i) false false exact

/-- A float into an integer type. -/
def fltToInt (t : Ty) (rm : Rm) (ov : Ov) : FVal → DWord × Bool
  | .nan _ => intOv t ov none false false false
  | .inf a => intOv t ov none a (!a) false
  | .num s m e =>
    let n : Int := roundTo rm s m e 0 false
    intFit t ov (if s then -n else n) false

/-- `cvt` (R169). -/
def cvtVal (dt st : Ty) (rm : Rm) (ov : Ov) (a c : DWord) : DWord × Bool :=
  if Operand.cvtPacks dt st then
    felems dt fun k => (Ty.fmt dt).roundV rm ov (fmt32.read (felem .f32 (if k = 0 then a else c) 0))
  else if dt.isFloat && st.isFloat then
    felems dt fun k => (Ty.fmt dt).roundV rm ov ((Ty.fmt st).read (felem st a k))
  else if dt.isInt && st.isFloat then fltToInt dt rm ov ((Ty.fmt st).read (felem st a 0))
  else if dt.isFloat then felems dt fun _ => (Ty.fmt dt).roundInt rm ov false (srcInt st a) 0
  else intFit dt ov (srcInt st a) true

end Sys2Proof.Machine
end

