-- ==== Sys2Proof/Config.lean ====
section
/-! DEFINITION. What one Phicen fixes (sizes and rates of R4, R8, R13, R14) and the free values: choices the
spec leaves open, each an opaque constant without a body. -/

namespace Sys2Proof.Config

/-! ### Figures of the device -/

/-- Base ticks per banner clock: the tick is 1/70.5 GHz, the common multiple of the clocks of R4. -/
def bannerTicks : Nat := 75

/-- Base ticks per pennant clock (2.35 GHz, R4). -/
def pennantTicks : Nat := 30

/-- Base ticks per collective-engine clock (1.5 GHz, R4). -/
def engineTicks : Nat := 47

/-- Core sites per die: a 12 by 12 mesh (R8). -/
def sitesPerDie : Nat := 144

/-- Cores per package (R9). -/
def coreCount : Nat := 576

/-- Installed memory, 512 GiB (R8): physical addresses have 39 bits (R89). -/
def installedBits : Nat := 39

/-- A code page and the alignment of a placed image: 64 KiB (R51, R76). -/
def codePage : Nat := 0x10000

/-- Lines of a gather buffer (R82). -/
def gatherLines : Nat := 32

/-- Latest clock, counted from allocation, at which a gather line leaves (R83). -/
def gatherLimit : Nat := 8192

/-- Entries of a group's held queue (R96). -/
def heldQueue : Nat := 8

/-- Outstanding operations a stream may hold (R95): a count of 64 is never reached. -/
def streamLimit : Nat := 64

/-- Clocks after which a home L2 hold on a reserved granule ends (R118). -/
def holdClocks : Nat := 256

/-- TLB entries per core (R92). -/
def tlbEntries : Nat := 64

/-- Translation-cache entries per die (R92). -/
def dieCacheEntries : Nat := 4096

/-- Accumulator slots of a matrix unit (R272). -/
def matrixSlots : Nat := 8

/-- Entries of a collective engine's command queue (R222). -/
def engineQueue : Nat := 64

/-- Transfers one engine may have outstanding (R226). -/
def engineTransfers : Nat := 64

/-- Engine clocks after which a running command is a firmware fault (R230). -/
def commandLimit : Nat := 2 ^ 31

/-- Words one handler invocation may issue (R193). -/
def handlerWords : Nat := 256

/-- Threads a spawn bin holds (R294). -/
def binThreads : Nat := 64

/-- Spawn bins per core (R294). -/
def spawnBins : Nat := 15

/-- The trap bin's timer, in clocks (R330). -/
def trapTimer : Nat := 1024

/-- Clocks after which a waiting queue head blocks lower classes (R300). -/
def starvationClocks : Nat := 2 ^ 20

/-- Clocks of one period of context sharing (R305). -/
def sharePeriod : Nat := 2 ^ 24

/-- Grids a context may have queued or running (R291). -/
def gridLimit : Nat := 65536

/-- Features the device has: bits 0 to 13 (R373). -/
def featureCount : Nat := 14

/-! ### Free values (log entry 1): nothing constrains them -/

/-- Free number number `n`: a choice the spec leaves open (which victim leaves a TLB, R92; which value a
read-only load binds among those R85 allows; which of two values an overlapped copy byte takes, R214). -/
opaque freeNat : Nat → Nat

/-- BAR0 offset of entry `k` of the capability list, k = 1, 2, 3: the spec chains the entries without placing them
(R373). -/
opaque capOffset : Nat → Nat

/-- Bytes of a context's save area (R303): the spec names the area and gives no size. -/
opaque saveArea : Nat → Nat

/-- Free byte number `n`: what a peer device's memory returns (R81), bytes of an attestation signature
(R379), bytes of a summary the spec does not lay out (R377). -/
opaque freeByte : Nat → Byte

end Sys2Proof.Config
end

