-- ==== Sys2Proof/Decode.lean ====
section
/-! DEFINITION. The encoding of the instruction word (R24 to R32, R41, R46): `decodeWord` reads a word, `encode`
writes one, and `decodeIn` makes the checks of R49 in their order. A word decodes only where encoding what was read
gives the word back, so every unused bit is zero (R31). -/

namespace Sys2Proof

open Operand

/-! ### Field codes -/

/-- TY (R32). -/
def tyOfCode (c : BitVec 4) : Option Ty :=
  match c.toNat with
  | 1 => some .i8 | 2 => some .i16 | 3 => some .i32 | 4 => some .i64
  | 5 => some .n8 | 6 => some .n16 | 7 => some .n32 | 8 => some .n64
  | 9 => some .b32 | 10 => some .f32 | 11 => some .f16 | 12 => some .bf16
  | 13 => some .f16x2 | 14 => some .bf16x2 | 15 => some .h2
  | _ => none

/-- The code of a type. -/
def tyCode : Ty → BitVec 4
  | .i8 => 1 | .i16 => 2 | .i32 => 3 | .i64 => 4 | .n8 => 5 | .n16 => 6 | .n32 => 7 | .n64 => 8
  | .b32 => 9 | .f32 => 10 | .f16 => 11 | .bf16 => 12 | .f16x2 => 13 | .bf16x2 => 14 | .h2 => 15

/-- CC of `cmp` (R156). -/
def ccOf (c : BitVec 4) : Option Cc :=
  match c.toNat with
  | 0 => some .eq | 1 => some .ne | 2 => some .lt | 3 => some .le | 4 => some .gt | 5 => some .ge
  | _ => none

/-- The code of a comparison. -/
def ccCode : Cc → BitVec 4
  | .eq => 0 | .ne => 1 | .lt => 2 | .le => 3 | .gt => 4 | .ge => 5

/-- CC of `fcmp` (R164). -/
def fccOf (c : BitVec 3) : Fcc :=
  match c.toNat with
  | 0 => .eq | 1 => .ne | 2 => .lt | 3 => .le | 4 => .gt | 5 => .ge | 6 => .un | _ => .ord

/-- The code of a float comparison. -/
def fccCode : Fcc → BitVec 3
  | .eq => 0 | .ne => 1 | .lt => 2 | .le => 3 | .gt => 4 | .ge => 5 | .un => 6 | .ord => 7

/-- RM (R149). -/
def rmOf (c : BitVec 2) : Rm :=
  match c.toNat with
  | 0 => .rne | 1 => .rz | 2 => .rdn | _ => .rup

/-- The code of a rounding mode. -/
def rmCode : Rm → BitVec 2
  | .rne => 0 | .rz => 1 | .rdn => 2 | .rup => 3

/-- OV (R150). -/
def ovOf (c : BitVec 2) : Ov :=
  match c.toNat with
  | 0 => .sat | 1 => .inf | 2 => .nan | _ => .trap

/-- The code of an overflow policy. -/
def ovCode : Ov → BitVec 2
  | .sat => 0 | .inf => 1 | .nan => 2 | .trap => 3

/-- SC (R28). -/
def scOf (c : BitVec 2) : Scope :=
  match c.toNat with
  | 0 => .core | 1 => .cluster | 2 => .device | _ => .system

/-- The code of a scope. -/
def scCode : Scope → BitVec 2
  | .core => 0 | .cluster => 1 | .device => 2 | .system => 3

/-- ET (R30). -/
def etOf (c : BitVec 3) : Option Et :=
  match c.toNat with
  | 0 => some .i8 | 1 => some .e4m3 | 2 => some .e5m2 | 3 => some .ln6 | 4 => some .bf16 | 5 => some .f16
  | _ => none

/-- The code of an element type. -/
def etCode : Et → BitVec 3
  | .i8 => 0 | .e4m3 => 1 | .e5m2 => 2 | .ln6 => 3 | .bf16 => 4 | .f16 => 5

/-- SM (R263). -/
def smOf (c : BitVec 2) : Sm :=
  match c.toNat with
  | 0 => .unit | 1 => .lane | 2 => .bcst | _ => .flag

/-- The code of a scale mode. -/
def smCode : Sm → BitVec 2
  | .unit => 0 | .lane => 1 | .bcst => 2 | .flag => 3

/-- The mode of `shfl` (R174). -/
def shflOf (c : BitVec 2) : ShflMode :=
  match c.toNat with
  | 0 => .at | 1 => .lag | 2 => .lead | _ => .mirror

/-- The code of an exchange mode. -/
def shflCode : ShflMode → BitVec 2
  | .at => 0 | .lag => 1 | .lead => 2 | .mirror => 3

/-- The direction of `cp` (R210). -/
def dirOf (c : BitVec 2) : CopyDir :=
  match c.toNat with
  | 0 => .g2s | 1 => .s2g | 2 => .g2g | _ => .s2s

/-- The code of a direction. -/
def dirCode : CopyDir → BitVec 2
  | .g2s => 0 | .s2g => 1 | .g2g => 2 | .s2s => 3

/-- The class of `orr` and `orw` (R326). -/
def orClassOf (c : BitVec 2) : OrClass :=
  match c.toNat with
  | 0 => .v | 1 => .s | 2 => .p | _ => .sr

/-- The code of a class. -/
def orClassCode : OrClass → BitVec 2
  | .v => 0 | .s => 1 | .p => 2 | .sr => 3

/-- OPP[5:0] (R42). -/
def pairOpOf (c : BitVec 6) : Option PairOp :=
  match c.toNat with
  | 0x01 => some .add | 0x02 => some .sub | 0x03 => some .and | 0x04 => some .or | 0x05 => some .xor
  | 0x06 => some .shl | 0x07 => some .shr | 0x08 => some .sar | 0x09 => some .mini | 0x0A => some .maxi
  | 0x0B => some .minn | 0x0C => some .maxn | 0x0D => some .mov | 0x10 => some .fadd | 0x11 => some .fmul
  | 0x12 => some .fmin | 0x13 => some .fmax
  | _ => none

/-- The code of a paired operation. -/
def pairOpCode : PairOp → BitVec 6
  | .add => 0x01 | .sub => 0x02 | .and => 0x03 | .or => 0x04 | .xor => 0x05 | .shl => 0x06 | .shr => 0x07
  | .sar => 0x08 | .mini => 0x09 | .maxi => 0x0A | .minn => 0x0B | .maxn => 0x0C | .mov => 0x0D
  | .fadd => 0x10 | .fmul => 0x11 | .fmin => 0x12 | .fmax => 0x13

/-! ### Reading the fields of a word (R24, R27 to R30) -/

/-- The guard (R25) and LA. -/
def hdrOf (w : BitVec 64) : Hdr :=
  ⟨if w.getLsbD 52 then .on (w.extractLsb' 47 5) (w.getLsbD 46) else .always, w.extractLsb' 42 4⟩

/-- D. -/
def fD (w : BitVec 64) : Reg := w.extractLsb' 34 8
/-- A. -/
def fA (w : BitVec 64) : Reg := w.extractLsb' 26 8
/-- B. -/
def fB (w : BitVec 64) : Reg := w.extractLsb' 18 8
/-- C. -/
def fC (w : BitVec 64) : Reg := w.extractLsb' 10 8
/-- D as a predicate number. -/
def fPd (w : BitVec 64) : PReg := w.extractLsb' 34 5
/-- A as a predicate number. -/
def fPa (w : BitVec 64) : PReg := w.extractLsb' 26 5
/-- B as a predicate number. -/
def fPb (w : BitVec 64) : PReg := w.extractLsb' 18 5
/-- IMM18. -/
def fImm18 (w : BitVec 64) : BitVec 18 := w.extractLsb' 8 18
/-- X4, modifier bits [7:4]. -/
def fX4 (w : BitVec 64) : BitVec 4 := w.extractLsb' 4 4
/-- Modifier bits [9:8]. -/
def fM98 (w : BitVec 64) : BitVec 2 := w.extractLsb' 8 2
/-- Modifier bits [7:0]. -/
def fM8 (w : BitVec 64) : BitVec 8 := w.extractLsb' 0 8
/-- RM of major 0x1. -/
def fRm (w : BitVec 64) : BitVec 2 := w.extractLsb' 4 2
/-- OV of major 0x1. -/
def fOv (w : BitVec 64) : BitVec 2 := w.extractLsb' 6 2
/-- CC of `fcmp`. -/
def fFcc (w : BitVec 64) : BitVec 3 := w.extractLsb' 4 3
/-- OFS26. -/
def fOfs (w : BitVec 64) : BitVec 26 := w.extractLsb' 0 26
/-- K. -/
def fK (w : BitVec 64) : BitVec 4 := w.extractLsb' 14 4
/-- TY. -/
def tyOf (w : BitVec 64) : Option Ty := tyOfCode (w.extractLsb' 0 4)
/-- SN, PM and SC. -/
def fOrd (w : BitVec 64) : Ord := ⟨w.extractLsb' 11 3, w.extractLsb' 3 8, scOf (w.extractLsb' 1 2)⟩
/-- The address layout. -/
def fAddr (w : BitVec 64) : Addr := ⟨w.extractLsb' 28 6, w.extractLsb' 20 8, w.extractLsb' 14 6, fOrd w⟩

/-! ### Building a word -/

/-- One bit. -/
def bit (b : Bool) : BitVec 1 := BitVec.ofBool b

/-- A predicate number in a register field. -/
def preg (p : PReg) : Reg := 0#3 ++ p

/-- GE, GP and GN. -/
def guardBits : Guard → BitVec 7
  | .always => 0
  | .on p n => (1#1 ++ p) ++ bit n

/-- A full word. -/
def full (maj : BitVec 4) (min : BitVec 6) (h : Hdr) (body : BitVec 42) : BitVec 64 :=
  ((((0#1 ++ maj) ++ min) ++ guardBits h.guard) ++ h.la) ++ body

/-- Modifier of major 0x0: X4 and TY. -/
def m4 (ty : Ty) (x : BitVec 4) : BitVec 10 := (0#2 ++ x) ++ tyCode ty

/-- Format A. -/
def bodyA (d a b c : Reg) (m : BitVec 10) : BitVec 42 := (((d ++ a) ++ b) ++ c) ++ m

/-- Format I. -/
def bodyI (d a : Reg) (imm : BitVec 18) (m : BitVec 8) : BitVec 42 := ((d ++ a) ++ imm) ++ m

/-- Format B. -/
def bodyB (d a : Reg) (ofs : BitVec 26) : BitVec 42 := (d ++ a) ++ ofs

/-- SN, PM and SC at body bits [13:1]. -/
def ordBits (o : Ord) : BitVec 13 := (o.sn ++ o.pm) ++ scCode o.sc

/-- Format M, address layout. -/
def bodyM (d : Reg) (a : Addr) (q : BitVec 1) : BitVec 42 :=
  ((((d ++ a.base) ++ a.x) ++ a.ofs) ++ ordBits a.ord) ++ q

/-- Format M, operand layout. -/
def bodyO (d a b : Reg) (k : BitVec 4) (k0 : BitVec 1) (o : Ord) : BitVec 42 :=
  ((((d ++ a) ++ b) ++ k) ++ ordBits o) ++ k0

/-- One slot of a paired word (R41). -/
def slotBits : Slot → BitVec 31
  | .empty => 0
  | .reg op d s => (((0#1 ++ pairOpCode op) ++ d) ++ s) ++ 0#8
  | .imm op d s k => (((1#1 ++ pairOpCode op) ++ d) ++ s) ++ k

/-- The word of an instruction; 0 for a step that has none. -/
def encode : Instr → BitVec 64
  | .add h ty d a b => full 0x0 0x00 h (bodyA d a b 0 (m4 ty 0))
  | .addImm h ty d a i => full 0x0 0x20 h (bodyI d a i (0#4 ++ tyCode ty))
  | .sub h ty d a b => full 0x0 0x01 h (bodyA d a b 0 (m4 ty 0))
  | .subImm h ty d a i => full 0x0 0x21 h (bodyI d a i (0#4 ++ tyCode ty))
  | .mul h ty d a b => full 0x0 0x02 h (bodyA d a b 0 (m4 ty 0))
  | .mulImm h ty d a i => full 0x0 0x22 h (bodyI d a i (0#4 ++ tyCode ty))
  | .mulh h ty d a b => full 0x0 0x03 h (bodyA d a b 0 (m4 ty 0))
  | .mulhImm h ty d a i => full 0x0 0x23 h (bodyI d a i (0#4 ++ tyCode ty))
  | .mad h ty d a b c => full 0x0 0x04 h (bodyA d a b c (m4 ty 0))
  | .madImm h ty d a i => full 0x0 0x24 h (bodyI d a i (0#4 ++ tyCode ty))
  | .div h ty d a b => full 0x0 0x05 h (bodyA d a b 0 (m4 ty 0))
  | .divImm h ty d a i => full 0x0 0x25 h (bodyI d a i (0#4 ++ tyCode ty))
  | .rem h ty d a b => full 0x0 0x06 h (bodyA d a b 0 (m4 ty 0))
  | .remImm h ty d a i => full 0x0 0x26 h (bodyI d a i (0#4 ++ tyCode ty))
  | .min h ty d a b => full 0x0 0x07 h (bodyA d a b 0 (m4 ty 0))
  | .minImm h ty d a i => full 0x0 0x27 h (bodyI d a i (0#4 ++ tyCode ty))
  | .max h ty d a b => full 0x0 0x08 h (bodyA d a b 0 (m4 ty 0))
  | .maxImm h ty d a i => full 0x0 0x28 h (bodyI d a i (0#4 ++ tyCode ty))
  | .abs h ty d a => full 0x0 0x09 h (bodyA d a 0 0 (m4 ty 0))
  | .neg h ty d a => full 0x0 0x0A h (bodyA d a 0 0 (m4 ty 0))
  | .and h ty d a b => full 0x0 0x0B h (bodyA d a b 0 (m4 ty 0))
  | .andImm h ty d a i => full 0x0 0x2B h (bodyI d a i (0#4 ++ tyCode ty))
  | .or h ty d a b => full 0x0 0x0C h (bodyA d a b 0 (m4 ty 0))
  | .orImm h ty d a i => full 0x0 0x2C h (bodyI d a i (0#4 ++ tyCode ty))
  | .xor h ty d a b => full 0x0 0x0D h (bodyA d a b 0 (m4 ty 0))
  | .xorImm h ty d a i => full 0x0 0x2D h (bodyI d a i (0#4 ++ tyCode ty))
  | .andn h ty d a b => full 0x0 0x0E h (bodyA d a b 0 (m4 ty 0))
  | .andnImm h ty d a i => full 0x0 0x2E h (bodyI d a i (0#4 ++ tyCode ty))
  | .shl h ty d a b => full 0x0 0x0F h (bodyA d a b 0 (m4 ty 0))
  | .shlImm h ty d a i => full 0x0 0x2F h (bodyI d a i (0#4 ++ tyCode ty))
  | .shr h ty d a b => full 0x0 0x10 h (bodyA d a b 0 (m4 ty 0))
  | .shrImm h ty d a i => full 0x0 0x30 h (bodyI d a i (0#4 ++ tyCode ty))
  | .sar h ty d a b => full 0x0 0x11 h (bodyA d a b 0 (m4 ty 0))
  | .sarImm h ty d a i => full 0x0 0x31 h (bodyI d a i (0#4 ++ tyCode ty))
  | .rot h ty d a b => full 0x0 0x12 h (bodyA d a b 0 (m4 ty 0))
  | .rotImm h ty d a i => full 0x0 0x32 h (bodyI d a i (0#4 ++ tyCode ty))
  | .clz h ty d a => full 0x0 0x13 h (bodyA d a 0 0 (m4 ty 0))
  | .popc h ty d a => full 0x0 0x14 h (bodyA d a 0 0 (m4 ty 0))
  | .brev h ty d a => full 0x0 0x15 h (bodyA d a 0 0 (m4 ty 0))
  | .bfx h ty d a b => full 0x0 0x16 h (bodyA d a b 0 (m4 ty 0))
  | .bfxImm h ty d a i => full 0x0 0x36 h (bodyI d a i (0#4 ++ tyCode ty))
  | .bfi h ty d a b c => full 0x0 0x17 h (bodyA d a b c (m4 ty 0))
  | .bfiImm h ty d a i => full 0x0 0x37 h (bodyI d a i (0#4 ++ tyCode ty))
  | .sel h ty q d a b => full 0x0 0x18 h (bodyA d a b 0 (m4 ty q))
  | .selImm h ty q d a i => full 0x0 0x38 h (bodyI d a i (q ++ tyCode ty))
  | .cmp h cc ty pd a b => full 0x0 0x19 h (bodyA (preg pd) a b 0 (m4 ty (ccCode cc)))
  | .cmpImm h cc ty pd a i => full 0x0 0x39 h (bodyI (preg pd) a i (ccCode cc ++ tyCode ty))
  | .addc h ty q d a b => full 0x0 0x1A h (bodyA d a b 0 (m4 ty q))
  | .addcImm h ty q d a i => full 0x0 0x3A h (bodyI d a i (q ++ tyCode ty))
  | .subc h ty q d a b => full 0x0 0x1B h (bodyA d a b 0 (m4 ty q))
  | .subcImm h ty q d a i => full 0x0 0x3B h (bodyI d a i (q ++ tyCode ty))
  | .lea h ty sh d a b => full 0x0 0x1C h (bodyA d a b 0 (m4 ty (0#1 ++ sh)))
  | .leaImm h ty sh d a i => full 0x0 0x3C h (bodyI d a i ((0#1 ++ sh) ++ tyCode ty))
  | .acs h n d a b c => full 0x0 0x1D h (bodyA d a b c (m4 .h2 n))
  | .acsImm h n d a i => full 0x0 0x3D h (bodyI d a i (n ++ tyCode .h2))
  | .fadd h ty rm ov d a b => full 0x1 0x00 h (bodyA d a b 0 (0#2 ++ ovCode ov ++ rmCode rm ++ tyCode ty))
  | .fsub h ty rm ov d a b => full 0x1 0x01 h (bodyA d a b 0 (0#2 ++ ovCode ov ++ rmCode rm ++ tyCode ty))
  | .fmul h ty rm ov d a b => full 0x1 0x02 h (bodyA d a b 0 (0#2 ++ ovCode ov ++ rmCode rm ++ tyCode ty))
  | .ffma h ty rm ov d a b c => full 0x1 0x03 h (bodyA d a b c (0#2 ++ ovCode ov ++ rmCode rm ++ tyCode ty))
  | .fmin h ty d a b => full 0x1 0x04 h (bodyA d a b 0 (0#2 ++ 0#2 ++ 0#2 ++ tyCode ty))
  | .fmax h ty d a b => full 0x1 0x05 h (bodyA d a b 0 (0#2 ++ 0#2 ++ 0#2 ++ tyCode ty))
  | .fcmp h cc ty pd a b => full 0x1 0x06 h (bodyA (preg pd) a b 0 (0#3 ++ fccCode cc ++ tyCode ty))
  | .frcp h ty rm ov d a => full 0x1 0x07 h (bodyA d a 0 0 (0#2 ++ ovCode ov ++ rmCode rm ++ tyCode ty))
  | .frsq h ty rm d a => full 0x1 0x08 h (bodyA d a 0 0 (0#2 ++ 0#2 ++ rmCode rm ++ tyCode ty))
  | .fsqrt h ty rm d a => full 0x1 0x09 h (bodyA d a 0 0 (0#2 ++ 0#2 ++ rmCode rm ++ tyCode ty))
  | .fex2 h ty rm ov d a => full 0x1 0x0A h (bodyA d a 0 0 (0#2 ++ ovCode ov ++ rmCode rm ++ tyCode ty))
  | .flg2 h ty rm d a => full 0x1 0x0B h (bodyA d a 0 0 (0#2 ++ 0#2 ++ rmCode rm ++ tyCode ty))
  | .fdiv h ty rm ov d a b => full 0x1 0x0C h (bodyA d a b 0 (0#2 ++ ovCode ov ++ rmCode rm ++ tyCode ty))
  | .frnd h ty rm d a => full 0x1 0x0D h (bodyA d a 0 0 (0#2 ++ 0#2 ++ rmCode rm ++ tyCode ty))
  | .fclass h ty d a => full 0x1 0x0E h (bodyA d a 0 0 (0#2 ++ 0#2 ++ 0#2 ++ tyCode ty))
  | .cvt h dt st rm ov d a c => full 0x2 0x00 h (bodyA d a (0#6 ++ ovCode ov) c (rmCode rm ++ tyCode st ++ tyCode dt))
  | .mov h ty d a => full 0x3 0x00 h (bodyA d a 0 0 (m4 ty 0))
  | .bcst h ty d a b => full 0x3 0x03 h (bodyA d a b 0 (m4 ty 0))
  | .shfl h mode seg ty d a b => full 0x3 0x04 h (bodyA d a b 0 (m4 ty (seg ++ shflCode mode)))
  | .rdsr h d sr => full 0x3 0x05 h (bodyA d 0 0 0 (0#2 ++ sr))
  | .wrsr h sr a => full 0x3 0x06 h (bodyA 0 a 0 0 (0#2 ++ sr))
  | .pand h na nb pd pa pb => full 0x3 0x08 h (bodyA (preg pd) (preg pa) (preg pb) 0 (0#4 ++ bit nb ++ bit na ++ 0#4))
  | .por h na nb pd pa pb => full 0x3 0x09 h (bodyA (preg pd) (preg pa) (preg pb) 0 (0#4 ++ bit nb ++ bit na ++ 0#4))
  | .pxor h na nb pd pa pb => full 0x3 0x0A h (bodyA (preg pd) (preg pa) (preg pb) 0 (0#4 ++ bit nb ++ bit na ++ 0#4))
  | .pnot h pd pa => full 0x3 0x0B h (bodyA (preg pd) (preg pa) 0 0 0)
  | .pmov h pd pa => full 0x3 0x0C h (bodyA (preg pd) (preg pa) 0 0 0)
  | .pmovNz h pd a => full 0x3 0x0C h (bodyA (preg pd) a 0 0 0x010)
  | .pmovAll h a => full 0x3 0x0C h (bodyA 0 a 0 0 0x020)
  | .pget h d => full 0x3 0x0D h (bodyA d 0 0 0 0)
  | .voteOr h inv pd pa => full 0x3 0x0E h (bodyA (preg pd) (preg pa) 0 0 (0#3 ++ bit inv ++ 0#2 ++ 0#4))
  | .voteAnd h inv pd pa => full 0x3 0x0E h (bodyA (preg pd) (preg pa) 0 0 (0#3 ++ bit inv ++ 1#2 ++ 0#4))
  | .voteSame h inv pd pa => full 0x3 0x0E h (bodyA (preg pd) (preg pa) 0 0 (0#3 ++ bit inv ++ 2#2 ++ 0#4))
  | .voteMask h inv d pa => full 0x3 0x0E h (bodyA d (preg pa) 0 0 (0#3 ++ bit inv ++ 3#2 ++ 0#4))
  | .bra h ofs => full 0x4 0x00 h (bodyB 0 0 ofs)
  | .brx h a => full 0x4 0x01 h (bodyB 0 a 0)
  | .call h d ofs => full 0x4 0x02 h (bodyB d 0 ofs)
  | .callx h d a => full 0x4 0x03 h (bodyB d a 0)
  | .ret h a => full 0x4 0x04 h (bodyB 0 a 0)
  | .exit h => full 0x4 0x05 h (bodyB 0 0 0)
  | .nop h => full 0x4 0x06 h (bodyB 0 0 0)
  | .join h => full 0x4 0x07 h (bodyB 0 0 0)
  | .park h ofs => full 0x4 0x08 h (bodyB 0 0 ofs)
  | .wpark h => full 0x4 0x09 h (bodyB 0 0 0)
  | .dret h d a => full 0x4 0x0A h (bodyB d a 0)
  | .dmin h d a => full 0x4 0x0B h (bodyA d a 0 0 0)
  | .dmaj h d a => full 0x4 0x0C h (bodyA d a 0 0 0)
  | .dsel h d a b => full 0x4 0x0D h (bodyA d a b 0 0)
  | .split h d a => full 0x4 0x0E h (bodyA d a 0 0 0)
  | .regang h => full 0x4 0x0F h (bodyB 0 0 0)
  | .ldN8 h d ad ro => full 0x5 0x00 h (bodyM d ad (bit ro))
  | .ldN16 h d ad ro => full 0x5 0x01 h (bodyM d ad (bit ro))
  | .ld32 h d ad ro => full 0x5 0x02 h (bodyM d ad (bit ro))
  | .ld64 h d ad ro => full 0x5 0x03 h (bodyM d ad (bit ro))
  | .ld128 h d ad ro => full 0x5 0x04 h (bodyM d ad (bit ro))
  | .ldI8 h d ad ro => full 0x5 0x05 h (bodyM d ad (bit ro))
  | .ldI16 h d ad ro => full 0x5 0x06 h (bodyM d ad (bit ro))
  | .st8 h d ad => full 0x5 0x08 h (bodyM d ad 0)
  | .st16 h d ad => full 0x5 0x09 h (bodyM d ad 0)
  | .st32 h d ad => full 0x5 0x0A h (bodyM d ad 0)
  | .st64 h d ad => full 0x5 0x0B h (bodyM d ad 0)
  | .st128 h d ad => full 0x5 0x0C h (bodyM d ad 0)
  | .ldc32 h d ad => full 0x5 0x10 h (bodyM d ad 0)
  | .ldc64 h d ad => full 0x5 0x11 h (bodyM d ad 0)
  | .ldc128 h d ad => full 0x5 0x12 h (bodyM d ad 0)
  | .ldt h d ad => full 0x5 0x14 h (bodyM d ad 0)
  | .stt h d ad => full 0x5 0x15 h (bodyM d ad 0)
  | .trec h t ad => full 0x5 0x16 h (bodyM (0#4 ++ t) ad 0)
  | .pf h ad => full 0x5 0x18 h (bodyM 0 ad 0)
  | .ldk h d ad => full 0x6 0x00 h (bodyM d ad 0)
  | .stf h d ad => full 0x6 0x01 h (bodyM d ad 0)
  | .fes h ad => full 0x6 0x02 h (bodyM 0 ad 0)
  | .fec h ad => full 0x6 0x03 h (bodyM 0 ad 0)
  | .fet h pd ad => full 0x6 0x04 h (bodyM (preg pd) ad 0)
  | .ldr32 h d ad => full 0x6 0x0A h (bodyM d ad 0)
  | .ldr64 h d ad => full 0x6 0x0B h (bodyM d ad 0)
  | .stc32 h d ad => full 0x6 0x0C h (bodyM d ad 0)
  | .stc64 h d ad => full 0x6 0x0D h (bodyM d ad 0)
  | .barIni h id a o => full 0x6 0x10 h (bodyO 0 a 0 id 0 o)
  | .barArv h d id a o => full 0x6 0x11 h (bodyO d a 0 id 0 o)
  | .barAwt h d id a o => full 0x6 0x12 h (bodyO d a 0 id 0 o)
  | .barWt h id a o => full 0x6 0x13 h (bodyO 0 a 0 id 0 o)
  | .barExp h id a nxt o => full 0x6 0x14 h (bodyO 0 a 0 id (bit nxt) o)
  | .barTst h d id o => full 0x6 0x15 h (bodyO d 0 0 id 0 o)
  | .sqry h d n o => full 0x6 0x18 h (bodyO d 0 0 (0#1 ++ n) 0 o)
  | .atmAdd32 h d ad => full 0x6 0x20 h (bodyM d ad 0)
  | .atmSub32 h d ad => full 0x6 0x21 h (bodyM d ad 0)
  | .atmMin32 h d ad => full 0x6 0x22 h (bodyM d ad 0)
  | .atmMax32 h d ad => full 0x6 0x23 h (bodyM d ad 0)
  | .atmAnd32 h d ad => full 0x6 0x24 h (bodyM d ad 0)
  | .atmOr32 h d ad => full 0x6 0x25 h (bodyM d ad 0)
  | .atmXor32 h d ad => full 0x6 0x26 h (bodyM d ad 0)
  | .atmXchg32 h d ad => full 0x6 0x27 h (bodyM d ad 0)
  | .atmFadd32 h d ad => full 0x6 0x28 h (bodyM d ad 0)
  | .atmCas32 h d ad => full 0x6 0x29 h (bodyM d ad 0)
  | .atmMinu32 h d ad => full 0x6 0x2A h (bodyM d ad 0)
  | .atmMaxu32 h d ad => full 0x6 0x2B h (bodyM d ad 0)
  | .atmAdd64 h d ad => full 0x6 0x30 h (bodyM d ad 0)
  | .atmSub64 h d ad => full 0x6 0x31 h (bodyM d ad 0)
  | .atmMin64 h d ad => full 0x6 0x32 h (bodyM d ad 0)
  | .atmMax64 h d ad => full 0x6 0x33 h (bodyM d ad 0)
  | .atmAnd64 h d ad => full 0x6 0x34 h (bodyM d ad 0)
  | .atmOr64 h d ad => full 0x6 0x35 h (bodyM d ad 0)
  | .atmXor64 h d ad => full 0x6 0x36 h (bodyM d ad 0)
  | .atmXchg64 h d ad => full 0x6 0x37 h (bodyM d ad 0)
  | .atmCas64 h d ad => full 0x6 0x39 h (bodyM d ad 0)
  | .atmMinu64 h d ad => full 0x6 0x3A h (bodyM d ad 0)
  | .atmMaxu64 h d ad => full 0x6 0x3B h (bodyM d ad 0)
  | .cp h dir fill d a b o => full 0x7 0x00 h (bodyO d a b (0#2 ++ dirCode dir) (bit fill) o)
  | .cpm h n d a b o => full 0x7 0x01 h (bodyO d a b n 0 o)
  | .cpc h d a b o => full 0x7 0x02 h (bodyO d a b 0 0 o)
  | .trp h a => full 0x8 0x00 h (bodyA 0 a 0 0 0)
  | .mma h et sm sel ov z a b c s => full 0x8 0x01 h (a ++ b ++ c ++ s ++ etCode et ++ bit z ++ smCode sm ++ sel ++ ovCode ov)
  | .qnt h et ov d a => full 0x8 0x02 h (bodyA d a 0 0 (0#5 ++ etCode et ++ ovCode ov))
  | .cvtn h et ov d a => full 0x8 0x03 h (bodyA d a 0 0 (0#5 ++ etCode et ++ ovCode ov))
  | .cvtw h et d a => full 0x8 0x04 h (bodyA d a 0 0 (0#5 ++ etCode et ++ 0#2))
  | .flg h d a => full 0x8 0x05 h (bodyA d a 0 0 0)
  | .chk h pd a => full 0x8 0x06 h (bodyA (preg pd) a 0 0 0)
  | .launch h a o => full 0x9 0x00 h (bodyO 0 a 0 0 0 o)
  | .spawn h idx d o => full 0x9 0x01 h (bodyO d 0 0 idx 0 o)
  | .binCfg h idx d a b => full 0x9 0x02 h (bodyA d a b 0 (0#4 ++ 0#2 ++ idx))
  | .binFl h idx => full 0x9 0x02 h (bodyA 0 0 0 0 (0#4 ++ 1#2 ++ idx))
  | .binRel h idx => full 0x9 0x02 h (bodyA 0 0 0 0 (0#4 ++ 2#2 ++ idx))
  | .binQ h idx d => full 0x9 0x02 h (bodyA d 0 0 0 (0#4 ++ 3#2 ++ idx))
  | .eqp h n => full 0x9 0x03 h (bodyI 0 0 (0#2 ++ n) 0)
  | .migr h pd kind a => full 0x9 0x04 h (bodyO (preg pd) a 0 (0#3 ++ bit (kind == .pennant)) 0 ⟨0, 0, .core⟩)
  | .vqry h k d a => full 0x9 0x05 h (bodyA d a 0 0 (0#6 ++ k))
  | .trap h code d a => full 0xA 0x00 h (bodyI d a (0#2 ++ code) 0)
  | .tres h a b => full 0xA 0x01 h (bodyA 0 a b 0 0)
  | .tkill h a => full 0xA 0x02 h (bodyA 0 a 0 0 0)
  | .orr h c r d a => full 0xA 0x03 h (bodyA d a 0 0 (orClassCode c ++ r))
  | .orw h c r a b => full 0xA 0x04 h (bodyA 0 a b 0 (orClassCode c ++ r))
  | .copen h d a ofs => full 0xA 0x05 h (bodyB d a ofs)
  | .cclose h => full 0xA 0x06 h (bodyA 0 0 0 0 0)
  | .halt h a => full 0xA 0x07 h (bodyA 0 a 0 0 0)
  | .ctxrd h d a => full 0xA 0x08 h (bodyA d a 0 0 0)
  | .ctxwr h a b => full 0xA 0x09 h (bodyA 0 a b 0 0)
  | .brk h code => full 0xA 0x10 h (bodyI 0 0 (0#2 ++ code) 0)
  | .trc h code a => full 0xA 0x11 h (bodyI 0 a (0#2 ++ code) 0)
  | .clk h d => full 0xA 0x12 h (bodyA d 0 0 0 0)
  | .pmk h clr d a => full 0xA 0x13 h (bodyA d a 0 0 (0#5 ++ bit clr ++ 0#4))
  | .movi h d imm => full 0xB 0x00 h (d ++ 0#2 ++ imm)
  | .moviS64 h d imm => full 0xB 0x00 h (d ++ 1#2 ++ imm)
  | .moviZ64 h d imm => full 0xB 0x00 h (d ++ 2#2 ++ imm)
  | .movh h d imm => full 0xB 0x01 h (d ++ 0#2 ++ imm)
  | .addL h d imm => full 0xB 0x02 h (d ++ 0#2 ++ imm)
  | .andL h d imm => full 0xB 0x03 h (d ++ 0#2 ++ imm)
  | .orL h d imm => full 0xB 0x04 h (d ++ 0#2 ++ imm)
  | .xorL h d imm => full 0xB 0x05 h (d ++ 0#2 ++ imm)
  | .faddL h d imm => full 0xB 0x06 h (d ++ 0#2 ++ imm)
  | .fmulL h d imm => full 0xB 0x07 h (d ++ 0#2 ++ imm)
  | .pairedWord s0 s1 => ((1#1 ++ slotBits s0) ++ slotBits s1) ++ 0#1
  | .illegalEncoding _ | .handlerEntry | .defaultDecision | .forcedRotation | .policyFault
  | .operationPerform .. | .operationComplete .. | .windowedComplete .. | .gatherLineWriteback ..
  | .gatherLineTimeout .. | .faultRingRecord .. | .lineClaim .. | .reservationHoldExpiry .. | .leaveGrant ..
  | .transferUnitLand .. | .multicastClaim .. | .multicastLineLand .. | .commandStart ..
  | .firmwareContextSwitch .. | .xgoCopy .. | .xgoAddF32 .. | .xgoAddBf16x2 .. | .xgoAddI32 .. | .xgoMaxF32 ..
  | .xgoMinF32 .. | .collectiveTransferLand .. | .done .. | .commandComplete .. | .firmwareFault ..
  | .firmwareTimeout .. | .flitCrcFail .. | .troupeRelease .. | .mmaBlockStep .. | .mmaComplete ..
  | .gridRetire .. | .placementDecision .. | .teamSave .. | .queueHeadStarvation .. | .binTimerExpiry ..
  | .trapBinTimer .. | .migrationBudgetExpiry .. | .migrationMove .. | .migrationResume ..
  | .syscallRingRecord .. | .syscallReturn .. | .syscallRestart .. | .syscallExit .. | .regionEntry ..
  | .flagDown .. | .contextHalted .. | .uncorrectableError .. | .correctedError .. | .testSlice ..
  | .breakpointStop | .sampleRecord .. | .ctxCreate .. | .ctxResume .. | .ctxEnd .. | .ctxStep .. | .dirstart ..
  | .resume .. | .pgres .. | .inval .. | .invalComplete .. | .resync .. | .resyncDone | .fwload ..
  | .fwloadDone .. | .attest .. | .attestDone | .counterClear .. | .bar2Write .. | .bar2Read ..
  | .registerWrite .. | .deviceReset .. | .systemWindowAccessFromPeer .. | .xerrRead .. => 0

/-! ### Reading a word -/

/-- `pmov` and its modes (R170). -/
def pmovOf (w : BitVec 64) : Option Instr :=
  match (w.extractLsb' 4 2).toNat with
  | 0 => some (.pmov (hdrOf w) (fPd w) (fPa w))
  | 1 => some (.pmovNz (hdrOf w) (fPd w) (fA w))
  | 2 => some (.pmovAll (hdrOf w) (fA w))
  | _ => none

/-- `vote` and its modes (R171). -/
def voteOf (w : BitVec 64) : Option Instr :=
  match (w.extractLsb' 4 2).toNat with
  | 0 => some (.voteOr (hdrOf w) (w.getLsbD 6) (fPd w) (fPa w))
  | 1 => some (.voteAnd (hdrOf w) (w.getLsbD 6) (fPd w) (fPa w))
  | 2 => some (.voteSame (hdrOf w) (w.getLsbD 6) (fPd w) (fPa w))
  | _ => some (.voteMask (hdrOf w) (w.getLsbD 6) (fD w) (fPa w))

/-- `bin` and its operations (R295). -/
def binOf (w : BitVec 64) : Option Instr :=
  match (w.extractLsb' 4 2).toNat with
  | 0 => some (.binCfg (hdrOf w) (w.extractLsb' 0 4) (fD w) (fA w) (fB w))
  | 1 => some (.binFl (hdrOf w) (w.extractLsb' 0 4))
  | 2 => some (.binRel (hdrOf w) (w.extractLsb' 0 4))
  | _ => some (.binQ (hdrOf w) (w.extractLsb' 0 4) (fD w))

/-- `movi` and its modes (R167). -/
def moviOf (w : BitVec 64) : Option Instr :=
  match (w.extractLsb' 32 2).toNat with
  | 0 => some (.movi (hdrOf w) (fD w) (w.extractLsb' 0 32))
  | 1 => some (.moviS64 (hdrOf w) (fD w) (w.extractLsb' 0 32))
  | 2 => some (.moviZ64 (hdrOf w) (fD w) (w.extractLsb' 0 32))
  | _ => none

/-- Minors of major 0x0 (R46). -/
def integerOf (w : BitVec 64) : Option Instr :=
  match (w.extractLsb' 53 6).toNat with
  | 0x00 => (tyOf w).map fun ty => .add (hdrOf w) ty (fD w) (fA w) (fB w)
  | 0x01 => (tyOf w).map fun ty => .sub (hdrOf w) ty (fD w) (fA w) (fB w)
  | 0x02 => (tyOf w).map fun ty => .mul (hdrOf w) ty (fD w) (fA w) (fB w)
  | 0x03 => (tyOf w).map fun ty => .mulh (hdrOf w) ty (fD w) (fA w) (fB w)
  | 0x04 => (tyOf w).map fun ty => .mad (hdrOf w) ty (fD w) (fA w) (fB w) (fC w)
  | 0x05 => (tyOf w).map fun ty => .div (hdrOf w) ty (fD w) (fA w) (fB w)
  | 0x06 => (tyOf w).map fun ty => .rem (hdrOf w) ty (fD w) (fA w) (fB w)
  | 0x07 => (tyOf w).map fun ty => .min (hdrOf w) ty (fD w) (fA w) (fB w)
  | 0x08 => (tyOf w).map fun ty => .max (hdrOf w) ty (fD w) (fA w) (fB w)
  | 0x09 => (tyOf w).map fun ty => .abs (hdrOf w) ty (fD w) (fA w)
  | 0x0A => (tyOf w).map fun ty => .neg (hdrOf w) ty (fD w) (fA w)
  | 0x0B => (tyOf w).map fun ty => .and (hdrOf w) ty (fD w) (fA w) (fB w)
  | 0x0C => (tyOf w).map fun ty => .or (hdrOf w) ty (fD w) (fA w) (fB w)
  | 0x0D => (tyOf w).map fun ty => .xor (hdrOf w) ty (fD w) (fA w) (fB w)
  | 0x0E => (tyOf w).map fun ty => .andn (hdrOf w) ty (fD w) (fA w) (fB w)
  | 0x0F => (tyOf w).map fun ty => .shl (hdrOf w) ty (fD w) (fA w) (fB w)
  | 0x10 => (tyOf w).map fun ty => .shr (hdrOf w) ty (fD w) (fA w) (fB w)
  | 0x11 => (tyOf w).map fun ty => .sar (hdrOf w) ty (fD w) (fA w) (fB w)
  | 0x12 => (tyOf w).map fun ty => .rot (hdrOf w) ty (fD w) (fA w) (fB w)
  | 0x13 => (tyOf w).map fun ty => .clz (hdrOf w) ty (fD w) (fA w)
  | 0x14 => (tyOf w).map fun ty => .popc (hdrOf w) ty (fD w) (fA w)
  | 0x15 => (tyOf w).map fun ty => .brev (hdrOf w) ty (fD w) (fA w)
  | 0x16 => (tyOf w).map fun ty => .bfx (hdrOf w) ty (fD w) (fA w) (fB w)
  | 0x17 => (tyOf w).map fun ty => .bfi (hdrOf w) ty (fD w) (fA w) (fB w) (fC w)
  | 0x18 => (tyOf w).map fun ty => .sel (hdrOf w) ty (fX4 w) (fD w) (fA w) (fB w)
  | 0x19 => (tyOf w).bind fun ty => (ccOf (fX4 w)).map fun cc => .cmp (hdrOf w) cc ty (fPd w) (fA w) (fB w)
  | 0x1A => (tyOf w).map fun ty => .addc (hdrOf w) ty (fX4 w) (fD w) (fA w) (fB w)
  | 0x1B => (tyOf w).map fun ty => .subc (hdrOf w) ty (fX4 w) (fD w) (fA w) (fB w)
  | 0x1C => (tyOf w).map fun ty => .lea (hdrOf w) ty ((fX4 w).setWidth 3) (fD w) (fA w) (fB w)
  | 0x1D => some (.acs (hdrOf w) (fX4 w) (fD w) (fA w) (fB w) (fC w))
  | 0x20 => (tyOf w).map fun ty => .addImm (hdrOf w) ty (fD w) (fA w) (fImm18 w)
  | 0x21 => (tyOf w).map fun ty => .subImm (hdrOf w) ty (fD w) (fA w) (fImm18 w)
  | 0x22 => (tyOf w).map fun ty => .mulImm (hdrOf w) ty (fD w) (fA w) (fImm18 w)
  | 0x23 => (tyOf w).map fun ty => .mulhImm (hdrOf w) ty (fD w) (fA w) (fImm18 w)
  | 0x24 => (tyOf w).map fun ty => .madImm (hdrOf w) ty (fD w) (fA w) (fImm18 w)
  | 0x25 => (tyOf w).map fun ty => .divImm (hdrOf w) ty (fD w) (fA w) (fImm18 w)
  | 0x26 => (tyOf w).map fun ty => .remImm (hdrOf w) ty (fD w) (fA w) (fImm18 w)
  | 0x27 => (tyOf w).map fun ty => .minImm (hdrOf w) ty (fD w) (fA w) (fImm18 w)
  | 0x28 => (tyOf w).map fun ty => .maxImm (hdrOf w) ty (fD w) (fA w) (fImm18 w)
  | 0x2B => (tyOf w).map fun ty => .andImm (hdrOf w) ty (fD w) (fA w) (fImm18 w)
  | 0x2C => (tyOf w).map fun ty => .orImm (hdrOf w) ty (fD w) (fA w) (fImm18 w)
  | 0x2D => (tyOf w).map fun ty => .xorImm (hdrOf w) ty (fD w) (fA w) (fImm18 w)
  | 0x2E => (tyOf w).map fun ty => .andnImm (hdrOf w) ty (fD w) (fA w) (fImm18 w)
  | 0x2F => (tyOf w).map fun ty => .shlImm (hdrOf w) ty (fD w) (fA w) (fImm18 w)
  | 0x30 => (tyOf w).map fun ty => .shrImm (hdrOf w) ty (fD w) (fA w) (fImm18 w)
  | 0x31 => (tyOf w).map fun ty => .sarImm (hdrOf w) ty (fD w) (fA w) (fImm18 w)
  | 0x32 => (tyOf w).map fun ty => .rotImm (hdrOf w) ty (fD w) (fA w) (fImm18 w)
  | 0x36 => (tyOf w).map fun ty => .bfxImm (hdrOf w) ty (fD w) (fA w) (fImm18 w)
  | 0x37 => (tyOf w).map fun ty => .bfiImm (hdrOf w) ty (fD w) (fA w) (fImm18 w)
  | 0x38 => (tyOf w).map fun ty => .selImm (hdrOf w) ty (fX4 w) (fD w) (fA w) (fImm18 w)
  | 0x39 => (tyOf w).bind fun ty => (ccOf (fX4 w)).map fun cc => .cmpImm (hdrOf w) cc ty (fPd w) (fA w) (fImm18 w)
  | 0x3A => (tyOf w).map fun ty => .addcImm (hdrOf w) ty (fX4 w) (fD w) (fA w) (fImm18 w)
  | 0x3B => (tyOf w).map fun ty => .subcImm (hdrOf w) ty (fX4 w) (fD w) (fA w) (fImm18 w)
  | 0x3C => (tyOf w).map fun ty => .leaImm (hdrOf w) ty ((fX4 w).setWidth 3) (fD w) (fA w) (fImm18 w)
  | 0x3D => some (.acsImm (hdrOf w) (fX4 w) (fD w) (fA w) (fImm18 w))
  | _ => none

/-- Minors of major 0x1 (R46). -/
def floatOf (w : BitVec 64) : Option Instr :=
  match (w.extractLsb' 53 6).toNat with
  | 0x00 => (tyOf w).map fun ty => .fadd (hdrOf w) ty (rmOf (fRm w)) (ovOf (fOv w)) (fD w) (fA w) (fB w)
  | 0x01 => (tyOf w).map fun ty => .fsub (hdrOf w) ty (rmOf (fRm w)) (ovOf (fOv w)) (fD w) (fA w) (fB w)
  | 0x02 => (tyOf w).map fun ty => .fmul (hdrOf w) ty (rmOf (fRm w)) (ovOf (fOv w)) (fD w) (fA w) (fB w)
  | 0x03 => (tyOf w).map fun ty => .ffma (hdrOf w) ty (rmOf (fRm w)) (ovOf (fOv w)) (fD w) (fA w) (fB w) (fC w)
  | 0x04 => (tyOf w).map fun ty => .fmin (hdrOf w) ty (fD w) (fA w) (fB w)
  | 0x05 => (tyOf w).map fun ty => .fmax (hdrOf w) ty (fD w) (fA w) (fB w)
  | 0x06 => (tyOf w).map fun ty => .fcmp (hdrOf w) (fccOf (fFcc w)) ty (fPd w) (fA w) (fB w)
  | 0x07 => (tyOf w).map fun ty => .frcp (hdrOf w) ty (rmOf (fRm w)) (ovOf (fOv w)) (fD w) (fA w)
  | 0x08 => (tyOf w).map fun ty => .frsq (hdrOf w) ty (rmOf (fRm w)) (fD w) (fA w)
  | 0x09 => (tyOf w).map fun ty => .fsqrt (hdrOf w) ty (rmOf (fRm w)) (fD w) (fA w)
  | 0x0A => (tyOf w).map fun ty => .fex2 (hdrOf w) ty (rmOf (fRm w)) (ovOf (fOv w)) (fD w) (fA w)
  | 0x0B => (tyOf w).map fun ty => .flg2 (hdrOf w) ty (rmOf (fRm w)) (fD w) (fA w)
  | 0x0C => (tyOf w).map fun ty => .fdiv (hdrOf w) ty (rmOf (fRm w)) (ovOf (fOv w)) (fD w) (fA w) (fB w)
  | 0x0D => (tyOf w).map fun ty => .frnd (hdrOf w) ty (rmOf (fRm w)) (fD w) (fA w)
  | 0x0E => (tyOf w).map fun ty => .fclass (hdrOf w) ty (fD w) (fA w)
  | _ => none

/-- Minors of major 0x2 (R46). -/
def convertOf (w : BitVec 64) : Option Instr :=
  match (w.extractLsb' 53 6).toNat with
  | 0x00 => (tyOf w).bind fun dt => (tyOfCode (fX4 w)).map fun st => .cvt (hdrOf w) dt st (rmOf (fM98 w)) (ovOf ((fB w).setWidth 2)) (fD w) (fA w) (fC w)
  | _ => none

/-- Minors of major 0x3 (R46). -/
def movesOf (w : BitVec 64) : Option Instr :=
  match (w.extractLsb' 53 6).toNat with
  | 0x00 => (tyOf w).map fun ty => .mov (hdrOf w) ty (fD w) (fA w)
  | 0x03 => (tyOf w).map fun ty => .bcst (hdrOf w) ty (fD w) (fA w) (fB w)
  | 0x04 => (tyOf w).map fun ty => .shfl (hdrOf w) (shflOf ((fX4 w).setWidth 2)) ((fX4 w).extractLsb' 2 2) ty (fD w) (fA w) (fB w)
  | 0x05 => some (.rdsr (hdrOf w) (fD w) (fM8 w))
  | 0x06 => some (.wrsr (hdrOf w) (fM8 w) (fA w))
  | 0x08 => some (.pand (hdrOf w) (w.getLsbD 4) (w.getLsbD 5) (fPd w) (fPa w) (fPb w))
  | 0x09 => some (.por (hdrOf w) (w.getLsbD 4) (w.getLsbD 5) (fPd w) (fPa w) (fPb w))
  | 0x0A => some (.pxor (hdrOf w) (w.getLsbD 4) (w.getLsbD 5) (fPd w) (fPa w) (fPb w))
  | 0x0B => some (.pnot (hdrOf w) (fPd w) (fPa w))
  | 0x0C => pmovOf w
  | 0x0D => some (.pget (hdrOf w) (fD w))
  | 0x0E => voteOf w
  | _ => none

/-- Minors of major 0x4 (R46). -/
def controlOf (w : BitVec 64) : Option Instr :=
  match (w.extractLsb' 53 6).toNat with
  | 0x00 => some (.bra (hdrOf w) (fOfs w))
  | 0x01 => some (.brx (hdrOf w) (fA w))
  | 0x02 => some (.call (hdrOf w) (fD w) (fOfs w))
  | 0x03 => some (.callx (hdrOf w) (fD w) (fA w))
  | 0x04 => some (.ret (hdrOf w) (fA w))
  | 0x05 => some (.exit (hdrOf w))
  | 0x06 => some (.nop (hdrOf w))
  | 0x07 => some (.join (hdrOf w))
  | 0x08 => some (.park (hdrOf w) (fOfs w))
  | 0x09 => some (.wpark (hdrOf w))
  | 0x0A => some (.dret (hdrOf w) (fD w) (fA w))
  | 0x0B => some (.dmin (hdrOf w) (fD w) (fA w))
  | 0x0C => some (.dmaj (hdrOf w) (fD w) (fA w))
  | 0x0D => some (.dsel (hdrOf w) (fD w) (fA w) (fB w))
  | 0x0E => some (.split (hdrOf w) (fD w) (fA w))
  | 0x0F => some (.regang (hdrOf w))
  | _ => none

/-- Minors of major 0x5 (R46). -/
def loadStoreOf (w : BitVec 64) : Option Instr :=
  match (w.extractLsb' 53 6).toNat with
  | 0x00 => some (.ldN8 (hdrOf w) (fD w) (fAddr w) (w.getLsbD 0))
  | 0x01 => some (.ldN16 (hdrOf w) (fD w) (fAddr w) (w.getLsbD 0))
  | 0x02 => some (.ld32 (hdrOf w) (fD w) (fAddr w) (w.getLsbD 0))
  | 0x03 => some (.ld64 (hdrOf w) (fD w) (fAddr w) (w.getLsbD 0))
  | 0x04 => some (.ld128 (hdrOf w) (fD w) (fAddr w) (w.getLsbD 0))
  | 0x05 => some (.ldI8 (hdrOf w) (fD w) (fAddr w) (w.getLsbD 0))
  | 0x06 => some (.ldI16 (hdrOf w) (fD w) (fAddr w) (w.getLsbD 0))
  | 0x08 => some (.st8 (hdrOf w) (fD w) (fAddr w))
  | 0x09 => some (.st16 (hdrOf w) (fD w) (fAddr w))
  | 0x0A => some (.st32 (hdrOf w) (fD w) (fAddr w))
  | 0x0B => some (.st64 (hdrOf w) (fD w) (fAddr w))
  | 0x0C => some (.st128 (hdrOf w) (fD w) (fAddr w))
  | 0x10 => some (.ldc32 (hdrOf w) (fD w) (fAddr w))
  | 0x11 => some (.ldc64 (hdrOf w) (fD w) (fAddr w))
  | 0x12 => some (.ldc128 (hdrOf w) (fD w) (fAddr w))
  | 0x14 => some (.ldt (hdrOf w) (fD w) (fAddr w))
  | 0x15 => some (.stt (hdrOf w) (fD w) (fAddr w))
  | 0x16 => some (.trec (hdrOf w) ((fD w).setWidth 4) (fAddr w))
  | 0x18 => some (.pf (hdrOf w) (fAddr w))
  | _ => none

/-- Minors of major 0x6 (R46). -/
def atomicOf (w : BitVec 64) : Option Instr :=
  match (w.extractLsb' 53 6).toNat with
  | 0x00 => some (.ldk (hdrOf w) (fD w) (fAddr w))
  | 0x01 => some (.stf (hdrOf w) (fD w) (fAddr w))
  | 0x02 => some (.fes (hdrOf w) (fAddr w))
  | 0x03 => some (.fec (hdrOf w) (fAddr w))
  | 0x04 => some (.fet (hdrOf w) (fPd w) (fAddr w))
  | 0x0A => some (.ldr32 (hdrOf w) (fD w) (fAddr w))
  | 0x0B => some (.ldr64 (hdrOf w) (fD w) (fAddr w))
  | 0x0C => some (.stc32 (hdrOf w) (fD w) (fAddr w))
  | 0x0D => some (.stc64 (hdrOf w) (fD w) (fAddr w))
  | 0x10 => some (.barIni (hdrOf w) (fK w) (fA w) (fOrd w))
  | 0x11 => some (.barArv (hdrOf w) (fD w) (fK w) (fA w) (fOrd w))
  | 0x12 => some (.barAwt (hdrOf w) (fD w) (fK w) (fA w) (fOrd w))
  | 0x13 => some (.barWt (hdrOf w) (fK w) (fA w) (fOrd w))
  | 0x14 => some (.barExp (hdrOf w) (fK w) (fA w) (w.getLsbD 0) (fOrd w))
  | 0x15 => some (.barTst (hdrOf w) (fD w) (fK w) (fOrd w))
  | 0x18 => some (.sqry (hdrOf w) (fD w) ((fK w).setWidth 3) (fOrd w))
  | 0x20 => some (.atmAdd32 (hdrOf w) (fD w) (fAddr w))
  | 0x21 => some (.atmSub32 (hdrOf w) (fD w) (fAddr w))
  | 0x22 => some (.atmMin32 (hdrOf w) (fD w) (fAddr w))
  | 0x23 => some (.atmMax32 (hdrOf w) (fD w) (fAddr w))
  | 0x24 => some (.atmAnd32 (hdrOf w) (fD w) (fAddr w))
  | 0x25 => some (.atmOr32 (hdrOf w) (fD w) (fAddr w))
  | 0x26 => some (.atmXor32 (hdrOf w) (fD w) (fAddr w))
  | 0x27 => some (.atmXchg32 (hdrOf w) (fD w) (fAddr w))
  | 0x28 => some (.atmFadd32 (hdrOf w) (fD w) (fAddr w))
  | 0x29 => some (.atmCas32 (hdrOf w) (fD w) (fAddr w))
  | 0x2A => some (.atmMinu32 (hdrOf w) (fD w) (fAddr w))
  | 0x2B => some (.atmMaxu32 (hdrOf w) (fD w) (fAddr w))
  | 0x30 => some (.atmAdd64 (hdrOf w) (fD w) (fAddr w))
  | 0x31 => some (.atmSub64 (hdrOf w) (fD w) (fAddr w))
  | 0x32 => some (.atmMin64 (hdrOf w) (fD w) (fAddr w))
  | 0x33 => some (.atmMax64 (hdrOf w) (fD w) (fAddr w))
  | 0x34 => some (.atmAnd64 (hdrOf w) (fD w) (fAddr w))
  | 0x35 => some (.atmOr64 (hdrOf w) (fD w) (fAddr w))
  | 0x36 => some (.atmXor64 (hdrOf w) (fD w) (fAddr w))
  | 0x37 => some (.atmXchg64 (hdrOf w) (fD w) (fAddr w))
  | 0x39 => some (.atmCas64 (hdrOf w) (fD w) (fAddr w))
  | 0x3A => some (.atmMinu64 (hdrOf w) (fD w) (fAddr w))
  | 0x3B => some (.atmMaxu64 (hdrOf w) (fD w) (fAddr w))
  | _ => none

/-- Minors of major 0x7 (R46). -/
def copyOf (w : BitVec 64) : Option Instr :=
  match (w.extractLsb' 53 6).toNat with
  | 0x00 => if (fK w).toNat < 4 then some (.cp (hdrOf w) (dirOf ((fK w).setWidth 2)) (w.getLsbD 0) (fD w) (fA w) (fB w) (fOrd w)) else none
  | 0x01 => some (.cpm (hdrOf w) (fK w) (fD w) (fA w) (fB w) (fOrd w))
  | 0x02 => some (.cpc (hdrOf w) (fD w) (fA w) (fB w) (fOrd w))
  | _ => none

/-- Minors of major 0x8 (R46). -/
def matrixOf (w : BitVec 64) : Option Instr :=
  match (w.extractLsb' 53 6).toNat with
  | 0x00 => some (.trp (hdrOf w) (fA w))
  | 0x01 => (etOf (w.extractLsb' 7 3)).map fun et => .mma (hdrOf w) et (smOf (w.extractLsb' 4 2)) (w.extractLsb' 2 2) (ovOf (w.extractLsb' 0 2)) (w.getLsbD 6) (fD w) (fA w) (fB w) (fC w)
  | 0x02 => (etOf (w.extractLsb' 2 3)).map fun et => .qnt (hdrOf w) et (ovOf (w.extractLsb' 0 2)) (fD w) (fA w)
  | 0x03 => (etOf (w.extractLsb' 2 3)).map fun et => .cvtn (hdrOf w) et (ovOf (w.extractLsb' 0 2)) (fD w) (fA w)
  | 0x04 => (etOf (w.extractLsb' 2 3)).map fun et => .cvtw (hdrOf w) et (fD w) (fA w)
  | 0x05 => some (.flg (hdrOf w) (fD w) (fA w))
  | 0x06 => some (.chk (hdrOf w) (fPd w) (fA w))
  | _ => none

/-- Minors of major 0x9 (R46). -/
def directorOf (w : BitVec 64) : Option Instr :=
  match (w.extractLsb' 53 6).toNat with
  | 0x00 => some (.launch (hdrOf w) (fA w) (fOrd w))
  | 0x01 => some (.spawn (hdrOf w) (fK w) (fD w) (fOrd w))
  | 0x02 => binOf w
  | 0x03 => some (.eqp (hdrOf w) ((fImm18 w).setWidth 16))
  | 0x04 => if (fK w).toNat < 2 then some (.migr (hdrOf w) (fPd w) (if fK w = 1 then .pennant else .banner) (fA w)) else none
  | 0x05 => some (.vqry (hdrOf w) (w.extractLsb' 0 4) (fD w) (fA w))
  | _ => none

/-- Minors of major 0xA (R46). -/
def systemOf (w : BitVec 64) : Option Instr :=
  match (w.extractLsb' 53 6).toNat with
  | 0x00 => some (.trap (hdrOf w) ((fImm18 w).setWidth 16) (fD w) (fA w))
  | 0x01 => some (.tres (hdrOf w) (fA w) (fB w))
  | 0x02 => some (.tkill (hdrOf w) (fA w))
  | 0x03 => some (.orr (hdrOf w) (orClassOf (fM98 w)) (fM8 w) (fD w) (fA w))
  | 0x04 => some (.orw (hdrOf w) (orClassOf (fM98 w)) (fM8 w) (fA w) (fB w))
  | 0x05 => some (.copen (hdrOf w) (fD w) (fA w) (fOfs w))
  | 0x06 => some (.cclose (hdrOf w))
  | 0x07 => some (.halt (hdrOf w) (fA w))
  | 0x08 => some (.ctxrd (hdrOf w) (fD w) (fA w))
  | 0x09 => some (.ctxwr (hdrOf w) (fA w) (fB w))
  | 0x10 => some (.brk (hdrOf w) ((fImm18 w).setWidth 16))
  | 0x11 => some (.trc (hdrOf w) ((fImm18 w).setWidth 16) (fA w))
  | 0x12 => some (.clk (hdrOf w) (fD w))
  | 0x13 => some (.pmk (hdrOf w) (w.getLsbD 4) (fD w) (fA w))
  | _ => none

/-- Minors of major 0xB (R46). -/
def longImmOf (w : BitVec 64) : Option Instr :=
  match (w.extractLsb' 53 6).toNat with
  | 0x00 => moviOf w
  | 0x01 => some (.movh (hdrOf w) (fD w) (w.extractLsb' 0 32))
  | 0x02 => some (.addL (hdrOf w) (fD w) (w.extractLsb' 0 32))
  | 0x03 => some (.andL (hdrOf w) (fD w) (w.extractLsb' 0 32))
  | 0x04 => some (.orL (hdrOf w) (fD w) (w.extractLsb' 0 32))
  | 0x05 => some (.xorL (hdrOf w) (fD w) (w.extractLsb' 0 32))
  | 0x06 => some (.faddL (hdrOf w) (fD w) (w.extractLsb' 0 32))
  | 0x07 => some (.fmulL (hdrOf w) (fD w) (w.extractLsb' 0 32))
  | _ => none

/-- A slot of a paired word, from its 31 bits (R41). -/
def slotOf (b : BitVec 31) : Option Slot :=
  if b.extractLsb' 24 7 = 0 then some .empty
  else (pairOpOf (b.extractLsb' 24 6)).map fun op =>
    if b.getLsbD 30 then .imm op (b.extractLsb' 16 8) (b.extractLsb' 8 8) (b.extractLsb' 0 8)
    else .reg op (b.extractLsb' 16 8) (b.extractLsb' 8 8)

/-- A paired word (R41). -/
def pairedOf (w : BitVec 64) : Option Instr :=
  (slotOf (w.extractLsb' 32 31)).bind fun s0 => (slotOf (w.extractLsb' 1 31)).map fun s1 => .pairedWord s0 s1

/-- The only instruction the word can be. -/
def candidate (w : BitVec 64) : Option Instr :=
  if w.getLsbD 63 then pairedOf w
  else match (w.extractLsb' 59 4).toNat with
    | 0x0 => integerOf w
    | 0x1 => floatOf w
    | 0x2 => convertOf w
    | 0x3 => movesOf w
    | 0x4 => controlOf w
    | 0x5 => loadStoreOf w
    | 0x6 => atomicOf w
    | 0x7 => copyOf w
    | 0x8 => matrixOf w
    | 0x9 => directorOf w
    | 0xA => systemOf w
    | 0xB => longImmOf w
    | _ => none

/-- The instruction of a word, where it is well formed; `none` is an illegal encoding, cause 0x01. -/
def decodeWord (w : BitVec 64) : Option Instr :=
  (candidate w).bind fun i => if wf i && encode i == w then some i else none

/-! ### The checks of R49 -/

/-- What decode knows besides the word: the core, the image that executes, handler mode and the kernel header's
register counts (R36, R44, R45, R177). -/
structure DecodeCtx where
  core : CoreKind
  image : ImageKind
  hm : Bool
  regs : Nat
  scalars : Nat
  deriving DecidableEq, Repr

/-- Banks of an image kind (R37); Tamut form has none (R45). -/
def banks : ImageKind → Nat
  | .banner => 4
  | .pennant => 2
  | .tamut => 0

/-- A register that lies in a bank: not the handler bank in handler mode (R37). -/
def banked (hm : Bool) (r : Reg) : Bool := r.isV && !(hm && r.isHv)

/-- No vector register read by slot 0 lies in the bank of one read by slot 1 (R44). -/
def pairBanksOk (img : ImageKind) (hm : Bool) (s0 s1 : Slot) : Bool :=
  (slotRd s0).all fun a => (slotRd s1).all fun b =>
    !(banked hm a && banked hm b && a.toNat % banks img == b.toNat % banks img)

/-- Step 3 of R49, the part that depends on where the word stands: LA in Tamut form (R26), the paired word
(R44, R45) and handler mode (R177). -/
def ctxLegal (c : DecodeCtx) (i : Instr) : Bool :=
  let f := info i
  (c.image != .tamut || f.hdr.la == 0) &&
  (match i with
   | .pairedWord s0 s1 => c.image != .tamut && pairBanksOk c.image c.hm s0 s1
   | _ => true) &&
  (match f.hm with
   | .any => true
   | .never => !c.hm
   | .only => c.hm)

/-- One register span lies within the window (R36): `hv` and `hs` codes always do in handler mode. -/
def spanInWindow (c : DecodeCtx) (s : Span) : Bool :=
  if s.2 == 0 then true
  else if s.1.isV then (c.hm && s.1.isHv) || decide (s.1.toNat + s.2 ≤ c.regs)
  else if s.1.isS then (c.hm && s.1.isHs) || decide (s.1.toNat - 0xC0 + s.2 ≤ c.scalars)
  else true

/-- Step 4 of R49. -/
def inWindow (c : DecodeCtx) (i : Instr) : Bool :=
  (info i).rd.all (spanInWindow c) && (info i).wr.all (spanInWindow c)

/-- Decode, total on every word: the instruction, or the illegal word with the cause of the first failing check
of R49. -/
def decodeIn (c : DecodeCtx) (w : BitVec 64) : Instr :=
  if !w.getLsbD 63 && decide (12 ≤ (w.extractLsb' 59 4).toNat) then .illegalEncoding .reservedMajor
  else if !w.getLsbD 63 && (w.extractLsb' 59 4) == 8#4 && c.core == .pennant then .illegalEncoding .absent
  else match decodeWord w with
    | none => .illegalEncoding .illegal
    | some i =>
      if !ctxLegal c i then .illegalEncoding .illegal
      else if !inWindow c i then .illegalEncoding .window
      else i

/-- A word from its bytes, little-endian (R2). -/
def wordOfBytes (bs : List Byte) : BitVec 64 :=
  BitVec.ofNat 64 (bs.foldr (fun b acc => b.toNat + 256 * acc) 0)

/-- The bytes of a word, lowest address first. -/
def bytesOfWord (w : BitVec 64) : List Byte :=
  (List.range 8).map fun k => w.extractLsb' (8 * k) 8

/-- The first instruction of a byte sequence and the bytes behind it; a shorter sequence holds none. -/
def decodeBytes (bs : List Byte) : Option (Instr × List Byte) :=
  if bs.length < 8 then none
  else
    let w := wordOfBytes (bs.take 8)
    let c : DecodeCtx := ⟨.banner, .banner, (decodeWord w).any fun i => (info i).hm == .only, 192, 48⟩
    some (decodeIn c w, bs.drop 8)

/-- The instruction the decoder reads from the table's bits: one 64-bit word, bits above `nbits` zero. -/
def decodeTableWord (nbits w : Nat) : Option Instr :=
  (decodeBytes (bytesOfWord (BitVec.ofNat 64 (w % 2 ^ Nat.min nbits 64)))).map fun r => r.1

end Sys2Proof
end

