-- ==== Sys2Proof/Machine/Map.lean ====
section
/-! DEFINITION. Maps from numbers to values as plain data: lists of pairs with strictly rising keys. -/

namespace Sys2Proof.Machine

/-- A map keyed by numbers; keys rise strictly. -/
abbrev FMap (α : Type) := List (Nat × α)

/-- The value at a key. -/
def FMap.get? {α : Type} : FMap α → Nat → Option α
  | [], _ => none
  | (k, v) :: m, n => if k = n then some v else FMap.get? m n

/-- The value at a key, or a default. -/
def FMap.getD {α : Type} (m : FMap α) (n : Nat) (d : α) : α := (FMap.get? m n).getD d

/-- Write a key. -/
def FMap.set {α : Type} : FMap α → Nat → α → FMap α
  | [], n, v => [(n, v)]
  | (k, w) :: m, n, v =>
    if n < k then (n, v) :: (k, w) :: m
    else if n = k then (n, v) :: m
    else (k, w) :: FMap.set m n v

/-- Remove a key. -/
def FMap.erase {α : Type} : FMap α → Nat → FMap α
  | [], _ => []
  | (k, w) :: m, n => if k = n then m else (k, w) :: FMap.erase m n

/-- Change the value at a key, where there is one. -/
def FMap.adjust {α : Type} (m : FMap α) (n : Nat) (f : α → α) : FMap α :=
  match FMap.get? m n with
  | none => m
  | some v => FMap.set m n (f v)

/-- Keys rise strictly. -/
def FMap.sorted {α : Type} : FMap α → Bool
  | [] => true
  | [_] => true
  | (k, _) :: (k', v') :: m => decide (k < k') && FMap.sorted ((k', v') :: m)

/-- The keys. -/
def FMap.keys {α : Type} (m : FMap α) : List Nat := m.map Prod.fst

/-- The values. -/
def FMap.vals {α : Type} (m : FMap α) : List α := m.map Prod.snd

/-- Insert into a list sorted by an order, after its equals. -/
def insertBy {α : Type} (le : α → α → Bool) (a : α) : List α → List α
  | [] => [a]
  | b :: bs => if le b a then b :: insertBy le a bs else a :: b :: bs

/-- Sort a list by an order; equals keep their places. -/
def sortBy {α : Type} (le : α → α → Bool) (l : List α) : List α := l.foldl (fun acc a => insertBy le a acc) []

/-- Bytes keyed by address; no entry holds 0, what an unlisted address reads as (log entries 2 and 3). -/
abbrev Memory := FMap Byte

/-- The byte at an address: 0 where nothing is listed. -/
def Memory.read (m : Memory) (a : Nat) : Byte := FMap.getD m a 0

/-- Write one byte, keeping the canonical form. -/
def Memory.write (m : Memory) (a : Nat) (b : Byte) : Memory :=
  if b = 0 then FMap.erase m a else FMap.set m a b

/-- The canonical form: addresses strictly rising and no entry equal to what an unlisted address reads as. -/
def Memory.wf (m : Memory) : Bool := FMap.sorted m && m.all fun c => c.2 != 0

/-- `n` bytes from an address. -/
def Memory.readN (m : Memory) (a n : Nat) : List Byte := (List.range n).map fun k => Memory.read m (a + k)

/-- Write bytes from an address on. -/
def Memory.writeN (m : Memory) (a : Nat) : List Byte → Memory
  | [] => m
  | b :: bs => Memory.writeN (Memory.write m a b) (a + 1) bs

/-- A little-endian number. -/
def leNat : List Byte → Nat
  | [] => 0
  | b :: bs => b.toNat + 256 * leNat bs

/-- The low `n` bytes of a number, lowest first. -/
def leBytes : Nat → Nat → List Byte
  | 0, _ => []
  | n + 1, v => BitVec.ofNat 8 v :: leBytes n (v / 256)

end Sys2Proof.Machine
end

