-- ==== Sys2Proof/Machine/State.lean ====
section
/-! DEFINITION. The state of a Phicen as plain data: everything INVENTORY.md lists under State, in that order. -/

namespace Sys2Proof.Machine

/-- Why the machine stops. -/
inductive Fault where
  /-- an instruction word was executed while no issuing unit stands at it: raised by `exec` where `cur` names no
  unit, which no step does; safe -/
  | noIssuingUnit
  deriving DecidableEq, Repr

/-- Why the model gives an instruction no meaning. -/
inductive Refusal where
  /-- an arm of `exec` that has no meaning yet: raised by `exec`; safe -/
  | notModelled (mnemonic : String)
  deriving DecidableEq, Repr

/-! ### Units and gangs (R128 to R137, R195) -/

/-- A value for every lane, all equal. -/
def uniform {α : Type} (a : α) : LaneVec α := Vector.replicate 64 a

/-- The waits that stop a unit (R21, R23): an operation that stops the gang (R103), `regang`, `wpark`, leave,
the troupe rendezvous, leave for a troupe's `mma`, the migration queue. -/
inductive Stop where
  | run
  | op (n : Nat)
  | regang
  | wpark
  | leave
  | troupe
  | mleave
  | migr
  deriving DecidableEq, Repr, Inhabited

/-- Event codes of R184. -/
inductive EvCode where
  | br | brx | empty | join | age | coll | fready
  deriving DecidableEq, Repr, Inhabited

/-- An issuing unit: the whole gang or a sub-gang (R195). -/
structure UnitState where
  groups : BitVec 8
  am : Mask
  km : Mask
  fm : Mask
  tm : Mask
  xm : Mask
  ipc : Word
  ev : DWord
  hm : Bool
  inv : Nat
  pass : Option Word
  ageFlag : Bool
  fready : Bool
  /-- lanes of `km` that have raised the age flag since they last executed (R199) -/
  aged : Mask
  /-- an instruction event due at this boundary, with its EPC (R184) -/
  due : Option (EvCode × Word)
  /-- the word that emptied `am` (R184) -/
  emptyPc : Option Word
  wait : Nat
  hs : Vector Word 4
  stop : Stop
  /-- clock of the core before which the unit does not issue (R135, R179, R258) -/
  nextIssue : Nat
  /-- it is a serialising write that holds the next word (R135) -/
  serial : Bool
  /-- PC of a matching word that issues once without matching again (R361) -/
  bpSkip : Option Word
  /-- the unit has stopped for the debugger while its context goes down (R360) -/
  stopped : Bool
  /-- leave has been granted for the word at `ipc` (R21), and the clocks the word waited for it (R231) -/
  leave : Bool
  leaveWait : Nat := 0
  /-- a policy fault asks for a forced rotation (R193) -/
  rot : Bool
  /-- the unit was rotated and has not issued a word since (R200) -/
  rotated : Bool
  /-- EPC of a COLL discarded for a forced rotation (R188, R200) -/
  collPc : Option Word
  /-- the word at a PC would open a fifth window: it waits for the window that was the oldest (R39) -/
  fifth : Option (Word × Nat) := none
  /-- the recompute of its word that it stands at (R144) -/
  redo : Option Nat := none
  /-- base tick before which its next word is not fetched (R142; log entry 113) -/
  fetchAt : Nat := 0
  /-- length of the team's `past` as its latest `ldk`, `stf`, `bar.awt` or `bar.wt` issued, while it has issued nothing but
  loads since: one with an empty mask may bind from there (R237; log entry 119) -/
  stood : Option Nat := none
  deriving DecidableEq, Repr, Inhabited

/-- A place an instruction writes in a gang. -/
inductive RegLoc where
  | v (n : Nat)
  | hv (n : Nat)
  | s (n : Nat)
  | hs (unit n : Nat)
  | p (n : Nat)
  | t (n : Nat)
  | ipc (unit : Nat)
  deriving DecidableEq, Repr, Inhabited

/-- One register write: the lanes of `mask` take `val` (bit 0 of it for a predicate; lane 0 of it for a scalar). -/
structure LaneWrite where
  loc : RegLoc
  mask : Mask
  val : LaneVec Word
  deriving DecidableEq, Repr, Inhabited

/-- When a scoreboard mark clears (R143): at a clock of the core, with a windowed instruction, or with the answer to a
system call (R329). -/
inductive MarkEnd where
  | clock (n : Nat)
  | result (id : Nat)
  | call (id : Nat)
  deriving DecidableEq, Repr, Inhabited

/-- A scoreboard mark; a `soft` one holds only words that write the place, and names its `mma` by the number of its result
(R271, R273). -/
structure Mark where
  loc : RegLoc
  till : MarkEnd
  soft : Bool := false
  mma : Option Nat := none
  deriving DecidableEq, Repr, Inhabited

/-- An open lookahead window (R38, R39). -/
structure Window where
  id : Nat
  pc : Word
  la : Nat
  count : Nat
  deriving DecidableEq, Repr, Inhabited

/-- A windowed result that is not memory (R40, R165): what it writes, and the lanes it faults. -/
structure Result where
  pc : Word
  unit : Nat
  /-- clock of the core at which it is written; none waits for a step of another engine -/
  due : Option Nat
  writes : List LaneWrite
  faults : Mask
  cause : Cause
  /-- a `vqry` binds at its completion: selector, A, D (R315) -/
  ask : Option (Nat × Word × Reg) := none
  /-- the word issued in handler mode -/
  hm : Bool := false
  deriving DecidableEq, Repr, Inhabited

/-- A containment region (R335): handler PC, mask of causes, `copen`'s D. -/
structure Region where
  pc : Word
  mask : Word
  d : Reg
  deriving DecidableEq, Repr, Inhabited

/-- The latest fault of a gang (R334), with the windows that were open as it was taken (R40). -/
structure FaultInfo where
  cause : BitVec 8 := 0
  fpc : Word := 0
  sn : BitVec 3 := 0
  pm : BitVec 8 := 0
  sc : BitVec 2 := 0
  mem : Bool := false
  windows : List Window := []
  deriving DecidableEq, Repr, Inhabited

/-- A gang (R11, R130 to R136). -/
structure Gang where
  team : Nat
  width : Nat
  grpn : Nat
  quad : Nat
  slot : Nat
  v : FMap (LaneVec Word)
  hv : Vector (LaneVec Word) 4
  s : Vector Word 48
  p : Vector Mask 32
  tile : Vector (BitVec 256) 16
  lpc : LaneVec Word
  lag : LaneVec Word
  /-- the lags as the running word found them, before its own slot counted (R198) -/
  lagSeen : LaneVec Word
  agl : Word
  /-- a value `wrsr` has given `agl`, and the clock from which it takes effect (R135) -/
  aglNext : Option (Word × Nat) := none
  trp : Word
  dtb : DWord
  dtl : Word
  polc : Word
  eqid : Word
  mpc : Word
  hpc : Word
  cls : BitVec 2
  frd : Bool
  str : Bool
  red : Bool
  /-- next-issue sequence number of group g's stream s, at 8·g + s (R95) -/
  seq : Vector (BitVec 16) 64
  /-- reservation of each lane: its granule (R116) -/
  rsv : Vector (Option Nat) 64
  windows : List Window
  marks : List Mark
  results : FMap Result
  regions : List Region
  info : FaultInfo
  trap : Bool
  /-- lanes whose origin tag is live (R331), and the PC each such tag names -/
  origins : Mask
  tagPc : LaneVec Word
  /-- places at which a lane's tag has named it since it was made: lane, core, resident slot (R332) -/
  tagPlaces : List (Nat × Nat × Nat) := []
  units : List UnitState
  deriving DecidableEq, Repr, Inhabited

/-! ### Teams, grids, code (R10, R18, R122, R288, R294, R301) -/

/-- A scratchpad line: full bit and pending count (R18, R215), with their values at the start of clock `clk`, and
whether a claim has taken it in that clock (R120). -/
structure Line where
  full : Bool := false
  pend : Nat := 0
  clk : Nat := 0
  sfull : Bool := false
  spend : Nat := 0
  taken : Bool := false
  deriving DecidableEq, Repr, Inhabited

/-- The counts of a named barrier (R122). -/
structure BarCounts where
  base : Nat := 0
  exp : Nat := 0
  arr : Nat := 0
  nxt : Nat := 0
  ph : Nat := 0
  ovr : Bool := false
  deriving DecidableEq, Repr, Inhabited

/-- One update of a barrier (R124): `bar.ini` of a slot, an arrival with its expectation, `bar.exp` for this phase
or the next. -/
inductive BarUpd where
  | ini (gslot cnt : Nat)
  | arrive (lanes exp : Nat)
  | expect (n : Nat) (next : Bool)
  deriving DecidableEq, Repr, Inhabited

/-- A barrier: counts now, and the counts and updates of clock `clk` they come from (R124). -/
structure Barrier where
  now : BarCounts := {}
  clk : Nat := 0
  start : BarCounts := {}
  upds : List BarUpd := []
  deriving DecidableEq, Repr, Inhabited

/-- A thread of a spawn bin or of the trap bin: payload, and the base tick of its arrival. -/
structure Thread where
  pay : List Word
  at_ : Nat
  deriving DecidableEq, Repr, Inhabited

/-- A spawn bin (R294); a flush waits for room (R297). -/
structure Bin where
  key : Word
  width : Nat
  timer : Nat
  threads : List Thread
  flush : Bool := false
  deriving DecidableEq, Repr, Inhabited

/-- A kernel header with its PCs relocated (R65, R76). -/
structure Header where
  func : Nat
  entry : Word
  hpc : Word
  tentry : Word
  scratch : Nat
  redundant : Bool
  strict : Bool
  fready : Bool
  regs : Nat
  scalars : Nat
  gang : Nat
  team : Nat
  barriers : Nat
  cls : BitVec 2
  deriving DecidableEq, Repr, Inhabited

/-- One entry of a state map (R71): class 0 vector, 1 scalar, 2 predicate. -/
structure MapEntry where
  src : Nat
  dst : Nat
  cls : Nat
  deriving DecidableEq, Repr, Inhabited

/-- A state map of an equivalence point (R71). -/
structure StateMap where
  n : Nat
  src : ImageKind
  dst : ImageKind
  entries : List MapEntry
  deriving DecidableEq, Repr, Inhabited

/-- An image of an object (R69): the base and code size in bytes at which it is placed (R76; both 0 where it is not), its
kernel headers, its equivalence entries (n, pc, function index), and what the choice of R77 looks at. -/
structure Image where
  kind : ImageKind
  base : Nat
  size : Nat
  headers : List Header
  equiv : List (Nat × Word × Nat)
  tune : Nat := 0
  genmask : BitVec 16 := 1
  req : DWord := 0
  opt : DWord := 0
  deriving DecidableEq, Repr, Inhabited

/-- Firmware of an object (R74, R224): `etab` is the offset of the entry table in the image. -/
structure Firmware where
  ncmd : Nat
  etab : Nat
  load : Nat
  image : List Byte
  deriving DecidableEq, Repr, Inhabited

/-- A function-table entry of the object (R70): PCs are offsets in their image's code section, 0xFFFFFFFF being none. Its
`tstate` stands in the copy that the loader makes. -/
structure Func where
  name : Word
  tpc : Word
  bpc : Word
  ppc : Word
  tsize : Word
  eq0 : Word
  neq : Word
  deriving DecidableEq, Repr, Inhabited

/-- A code version (R51, R76): words by offset / 8, the object's images in index order, the image R77 chose for each kind
of core (an index of `images`), the function table and the virtual address of its copy, and the virtual address at which
its code pages are mapped, where fetches translate. -/
structure Version where
  obj : Nat
  ver : Nat
  code : FMap DWord
  images : List Image
  chosenB : Option Nat
  chosenP : Option Nat
  funcs : List Func
  ftabVa : Nat
  maps : List StateMap
  fw : Option Firmware
  codeVa : Option Nat
  deriving DecidableEq, Repr, Inhabited

/-- Team states of R301. -/
inductive TeamLife where
  | queued | resident | blocked | saved | moving | exited
  deriving DecidableEq, Repr, Inhabited

/-- Where a team that moves resumes (R313): target image, PC of its equivalence point, predicate of its `migr`, header. -/
structure Goal where
  image : Image
  pc : Word
  pd : PReg
  header : Header
  deriving DecidableEq, Repr, Inhabited

/-- A migration rendezvous (R311): gangs that have arrived, point number, target kind, deadline in base ticks, and the
goal chosen as the move began. -/
structure Migration where
  gangs : List Nat
  n : Nat
  kind : CoreKind
  deadline : Nat
  goal : Option Goal := none
  deriving DecidableEq, Repr, Inhabited

/-- The trap bin (R330). -/
structure TrapBin where
  team : Nat
  tentry : Word
  threads : List Thread
  deriving DecidableEq, Repr, Inhabited

/-- A team (R10, R301). -/
structure Team where
  ctx : Nat
  grid : Nat
  handle : Nat
  cluster : Nat
  rank : Nat
  life : TeamLife
  core : Nat
  kind : CoreKind
  header : Header
  groups : Nat
  mem : Memory
  lines : FMap Line
  bars : FMap Barrier
  bins : FMap Bin
  mig : Option Migration
  /-- poisoned 64-byte sectors of the scratchpad (R339) -/
  poison : List Nat
  /-- the changes of its 8-byte units, latest first: unit, value before (R237; log entry 119) -/
  past : List (Nat × DWord) := []
  placedAt : Nat
  blockedAt : Nat
  /-- migration: base tick at which the team resumes, its core being taken (R312) -/
  resumeAt : Nat
  /-- regions to be entered: handler PC, depth, cause (R337) -/
  entries : List (Word × Nat × Nat)
  /-- flushed threads of a re-keyed or freed bin that wait for room: entry, width, threads (R295, R297) -/
  batches : List (Word × Nat × List Thread)
  /-- the trap bin saved with the team, and its flushed threads (R330) -/
  savedTrap : Option TrapBin
  savedWait : List TrapBin
  deriving DecidableEq, Repr, Inhabited

/-- A launch record's fields (R288). -/
structure LaunchRec where
  obj : Nat
  cver : Nat
  kind : Nat
  cls : Nat
  func : Nat
  ncl : Nat
  cw : Nat
  ch : Nat
  tsz : Nat
  red : Nat
  dmask : Nat
  zeros : Bool
  args : Nat
  deriving DecidableEq, Repr, Inhabited

/-- Where a byte stands: device memory by home die and physical address (R90), a team's scratchpad, a peer's
memory (R89), memory that is homed on a fenced die (R343). -/
inductive Loc where
  | mem (home pa : Nat)
  | scratch (team ofs : Nat)
  | peer (dev pa : Nat)
  | lost (pa : Nat)
  deriving DecidableEq, Repr, Inhabited

/-- A grid (R291 to R293): launcher PC and sequence number (R359), where its record stands, the operation of its
`launch`, clusters placed, exit status so far, the moment it began (a number of the history, R85). -/
structure Grid where
  ctx : Nat
  lr : LaunchRec
  version : Nat
  header : Header
  recLoc : Loc
  sc : Scope
  op : Option Nat
  lpc0 : Word
  lseq : Word
  launches : Nat
  placed : Nat
  status : Nat
  began : Nat
  deriving DecidableEq, Repr, Inhabited

/-! ### Operations (R95 to R97, R102, R386) -/

/-- One access of an operation: lane, offset in the lane's data, place, scope in force (R106), bytes to store (none:
not written) or the bytes bound; whether it is made, and whether it met poisoned data (R339). -/
structure Access where
  lane : Nat
  ofs : Nat
  loc : Loc
  size : Nat
  sc : Scope
  data : List (Option Byte)
  done : Bool := false
  bad : Bool := false
  /-- its effective address, and whether that names the system window (R98, R331) -/
  ea : DWord := 0
  remote : Bool := false
  deriving DecidableEq, Repr, Inhabited

/-- Barrier operations (R123). -/
inductive BarKind where
  | ini | arv | awt | wt | exp (next : Bool) | tst
  deriving DecidableEq, Repr, Inhabited

/-- A side of a copy: scratchpad of a team, with the window address that named it, or an address that is translated as
the unit lands (R211, R213). -/
inductive Side where
  | scratch (team ofs va : Nat)
  | virt (va : Nat)
  deriving DecidableEq, Repr, Inhabited

/-- A copy request of one lane (R212), with the destination bytes no higher lane of the instruction writes (R214). -/
structure CopyReq where
  lane : Nat
  src : Side
  dst : Side
  size : Nat
  own : List Bool
  deriving DecidableEq, Repr, Inhabited

/-- A transfer unit of a `cp` (R213): its group, its requests, its lines with their fill counts (team, line,
distinct 4-byte units), the page that holds it, whether it has landed or been dropped. -/
structure CopyUnit where
  grp : Nat
  reqs : List CopyReq
  fills : List (Nat × Nat × Nat)
  held : Option Nat := none
  done : Bool := false
  deriving DecidableEq, Repr, Inhabited

/-- What an operation does. -/
inductive OpKind where
  | none
  | load (d : Reg) (size : Nat) (signed ro once rsv : Bool)
  | store
  | atomic (op : AtmOp) (d : Reg)
  | stc (d : Reg)
  | pf
  | ldk (d : Reg)
  | stf
  | fes
  | fec
  | fet (pd : PReg)
  | trec (t : BitVec 4)
  | bar (k : BarKind) (id : Nat) (d : Reg) (val : Nat)
  | sqry (d : Reg) (n : Nat)
  | cp (dir : CopyDir) (fill : Bool)
  | cpm (dst : Nat) (src : Side) (n ranks : Nat)
  | cpc (idx eng : Nat) (args : List Nat)
  | launch (va : Nat)
  | spawn (idx : Nat) (threads : List (List Word))
  | migr (pd : PReg)
  deriving DecidableEq, Repr, Inhabited

/-- A group's part of an operation (R95, R386): `moment` and `order` say when it performed (R85, R118). -/
structure Part where
  grp : Nat
  seq : BitVec 16
  performed : Bool
  completed : Bool
  moment : Nat := 0
  order : Nat := 0
  /-- held, and its mask was met as the last clock ended: it performs in this one (R96, R350) -/
  due : Bool := false
  deriving DecidableEq, Repr, Inhabited

/-- An outstanding operation. -/
structure Op where
  gang : Nat
  unit : Nat
  pc : Word
  sn : BitVec 3
  pm : BitVec 8
  sc : Scope
  kind : OpKind
  lanes : Mask
  parts : List Part
  accs : List Access
  units : List CopyUnit
  /-- multicast: source bytes read at perform; lines not yet landed (rank, line) -/
  buf : List Byte
  pending : List (Nat × Nat)
  claimed : Bool
  /-- identity and depth of the innermost region open at issue (R336) -/
  region : Option (Word × Nat)
  /-- the result is ignored: region entry let it run on (R337) -/
  dropped : Bool
  /-- a windowed operation's id is its window and mark id -/
  windowed : Bool
  /-- sampled (R368), and the clocks its word waited for leave (R231) -/
  sample : Bool
  waited : Nat := 0
  /-- a load of the scratchpad that may bind from a moment of the team's `past` (R237; log entry 119) -/
  early : Option Nat := none
  /-- grid or engine command that completes it -/
  tag : Nat
  /-- barrier token; clock of the core at perform -/
  tok : Nat
  at_ : Nat
  deriving DecidableEq, Repr, Inhabited

/-! ### Cores, dies, engines -/

/-- A line of a store-gather buffer (R82, R83): sector address (home, pa / 64), bytes, base tick of its allocation,
order of its latest write, gangs that wrote it. -/
structure GLine where
  home : Nat
  sector : Nat
  bytes : Vector (Option Byte) 64
  alloc : Nat
  order : Nat
  gangs : List Nat
  deriving DecidableEq, Repr, Inhabited

/-- A translation held in a TLB or a die's cache (R92): context, page VA, log2 page size, leaf entry. -/
structure Tlb where
  ctx : Nat
  page : Nat
  bits : Nat
  leaf : Nat
  deriving DecidableEq, Repr, Inhabited

/-- A released `mma` in an accumulator slot (R265, R272): team, members (gang and group) in member order, the word,
its number in the members' results, operand rows and scale registers, running acc, next block step, the clock from
which that step may run or the result be written, poisoned operands, class, order of release, and whether the recompute
of its step, which runs until that clock, will differ too (R274). -/
structure MatSlot where
  team : Nat
  members : List (Nat × Nat)
  word : Instr
  pcs : List (Nat × Word)
  res : Nat
  a : List (List Word)
  b : List (List Word)
  sa : List Word
  sb : List Word
  acc : List (List Word)
  step : Nat
  ready : Nat
  bad : Bool
  cls : Nat
  order : Nat
  failing : Bool := false
  deriving DecidableEq, Repr, Inhabited

/-- A duplicated word whose copies differed (R144): its number, which is that of the operation or result it issued; unit,
PC, lanes that took part and mode; the clock of its issue, that from which it is recomputed, and for how many clocks; the
latency of its result; whether the recompute will differ too; and the word, where it executes only once its copies agree. -/
structure Redo where
  id : Nat
  gang : Nat
  unit : Nat
  pc : Word
  lanes : Mask
  hm : Bool
  clk : Nat
  at_ : Nat
  cost : Nat
  late : Nat
  again : Bool
  word : Option Instr := none
  deriving DecidableEq, Repr, Inhabited

/-- A quadrant's issue state (R138, R139): the slot chosen last, the clock until which it is occupied, the slots of the
units whose words occupy it, each with the clock until which it does (R142), and the recomputes that come first (R144). -/
structure QuadState where
  last : Option Nat := none
  busy : Nat := 0
  by_ : List (Nat × Nat) := []
  redo : List Redo := []
  deriving DecidableEq, Repr, Inhabited

/-- Counters and their configuration (R365 to R367): counter values, signals of the running clock, and per event for how many
clocks its G has held by now. -/
structure Counters where
  sel : Vector DWord 4 := Vector.replicate 4 0
  evA : Vector DWord 8 := Vector.replicate 8 0
  evB : Vector DWord 8 := Vector.replicate 8 0
  ctl : Bool := false
  vals : FMap Nat := []
  sig : FMap Nat := []
  run : FMap Nat := []
  deriving DecidableEq, Repr, Inhabited

/-- A core. -/
structure CoreState where
  quads : FMap QuadState := []
  gather : List GLine := []
  trapBin : Option TrapBin := none
  /-- threads of a full or flushed trap bin that wait for room, at most one gang each (R330) -/
  trapWait : List TrapBin := []
  slots : FMap MatSlot := []
  /-- clock until which the matrix unit's compute stage is occupied -/
  matBusy : Nat := 0
  tlb : List Tlb := []
  ctr : Counters := {}
  samples : FMap Nat := []
  quadsUp : BitVec 8 := 0xFF
  matrixUp : Bool := true
  copyUp : Bool := true
  /-- functions whose `tstate` has read 3 here: context, version, function (R307) -/
  ready : List (Nat × Nat × Nat) := []
  deriving DecidableEq, Repr, Inhabited

/-- A transfer in flight (R226, R227), of a command (its operation) of a context. -/
structure Transfer where
  ctx : Nat
  cmd : Nat
  tag : Nat
  op : XgoOp
  src : Nat
  dst : Nat
  len : Nat
  link : Nat
  done : List Nat
  deriving DecidableEq, Repr, Inhabited

/-- A command in an engine's queue (R222). -/
structure Command where
  op : Nat
  ctx : Nat
  version : Nat
  idx : Nat
  args : List Nat
  issuer : Nat
  lseq : Nat
  started : Nat := 0
  deriving DecidableEq, Repr, Inhabited

/-- The registers a command finds and leaves (R225): integer registers x1..x31 and local memory. -/
structure FwState where
  regs : FMap Nat := []
  mem : Memory := []
  deriving DecidableEq, Repr, Inhabited

/-- A collective engine (R222 to R226). -/
structure Engine where
  queue : List Command := []
  running : Option Command := none
  ctx : Option Nat := none
  streak : Nat := 0
  fw : FwState := {}
  saved : FMap FwState := []
  pc : Nat := 0
  cmd : Nat := 0
  args : List Nat := [0, 0, 0, 0]
  issuer : Nat := 0
  xsrc : Nat := 0
  xdst : Nat := 0
  xlen : Nat := 0
  xlnk : Nat := 0xFF
  xtag : Nat := 0
  xerr : Nat := 0
  inflight : List Transfer := []
  done : Option Nat := none
  /-- contexts whose image is loaded again before their next command (R230) -/
  reload : List Nat := []
  up : Bool := true
  deriving DecidableEq, Repr, Inhabited

/-- A cluster waiting in a class queue (R300). -/
structure Queued where
  grid : Nat
  cluster : Nat
  deriving DecidableEq, Repr, Inhabited

/-- A request for leave (R379): a gang's unit or the troupe of a gang, and the base tick of the request (R231). -/
structure LeaveReq where
  core : Nat
  gang : Nat
  unit : Nat
  troupe : Bool
  since : Nat := 0
  deriving DecidableEq, Repr, Inhabited

/-- A die. -/
structure Die where
  present : Bool := true
  fenced : Bool := false
  tcache : List Tlb := []
  /-- walks of the running base tick: tick, context, 64 KiB page (R92) -/
  walks : List (Nat × Nat × Nat) := []
  /-- class queues by 4·context + class (R300) -/
  queues : FMap (List Queued) := []
  /-- base tick from which a queue head's wait is counted, and the heads that block lower classes (R300) -/
  headAt : FMap Nat := []
  starved : List Nat := []
  leave : List LeaveReq := []
  /-- core-clocks of each context in the running period (R305) -/
  used : FMap Nat := []
  engines : Vector Engine 4 := Vector.replicate 4 {}
  powcap : Nat := 650
  /-- what its monitors show (R379): temperature, core voltage, process code -/
  dtemp : BitVec 16 := 0
  dvolt : BitVec 16 := 0
  dproc : BitVec 8 := 0
  deriving DecidableEq, Repr, Inhabited

/-! ### Contexts and the device (R372 to R380) -/

/-- A ring in host memory with the records that wait for room (R375). -/
structure Ring where
  base : DWord := 0
  n : Nat := 0
  head : Nat := 0
  tail : Nat := 0
  waiting : List (List Byte) := []
  deriving DecidableEq, Repr, Inhabited

/-- A parked system call (R329): gang, lanes, D, PC of the `trap`. -/
structure SysCall where
  gang : Nat
  lanes : Mask
  d : Reg
  pc : Word
  deriving DecidableEq, Repr, Inhabited

/-- Lanes parked on a page (R93): page VA, gang, lanes. -/
structure Parked where
  page : Nat
  gang : Nat
  lanes : Mask
  deriving DecidableEq, Repr, Inhabited

/-- Context states (R344, R374). -/
inductive CtxLife where
  | free | running | halting | halted | ended
  deriving DecidableEq, Repr, Inhabited

/-- Who a record names (R359): launcher PC, sequence number, core, slot of the lowest group. -/
structure Who where
  lpc0 : Word := 0
  lseq : Word := 0
  core : Nat := 0
  slot : Nat := 0
  deriving DecidableEq, Repr, Inhabited

/-- Where an engine's firmware failed (R232): command index, engine number, firmware PC, exception cause or `DONE`
status. -/
structure FwName where
  cmd : Nat
  eng : Nat
  pc : Nat
  status : Nat
  deriving DecidableEq, Repr, Inhabited

/-- A flag-down that is due (R345): cause (0 for `halt`), PC, code or address, lanes, the gang that caused it, the
reason `CTXSTATE` will report (R374), the base tick of the stop, and who and what the record shows. -/
structure Down where
  cause : Nat
  pc : Word := 0
  value : Nat := 0
  lanes : Mask := 0
  gang : Nat
  reason : Nat := 0
  at_ : Nat := 0
  who : Who := {}
  frame : List Byte := []
  fw : Option FwName := none
  deriving DecidableEq, Repr, Inhabited

/-- A sample that waits for its record (R368): who, PC, clock, bytes 32..63. -/
structure Sample where
  who : Who
  pc : Word
  clk : Nat
  tail : List Byte
  deriving DecidableEq, Repr, Inhabited

/-- A context (R374). -/
structure Ctx where
  life : CtxLife := .free
  reason : Nat := 0
  /-- the halt came from a fault: it cannot be resumed (R345) -/
  faulted : Bool := false
  ctl : DWord := 0
  root : DWord := 0
  weight : Nat := 1
  dirStatus : Nat := 0
  result : Nat := 0
  inval : DWord := 0
  syscall : Ring := {}
  faults : Ring := {}
  trBase : DWord := 0
  trSize : DWord := 0
  trPut : DWord := 0
  trDrop : Nat := 0
  /-- records dropped since the last one written (R370) -/
  trGap : Nat := 0
  bp : Vector DWord 4 := Vector.replicate 4 0
  sampk : Nat := 0
  stepg : DWord := 0
  /-- launches of the host (R287) -/
  launches : Nat := 0
  dirGrid : Option Nat := none
  /-- record of a launch of the host that is held at its perform (R287, R291) -/
  dirHeld : Option Loc := none
  calls : FMap SysCall := []
  /-- answers the host has named and the device has not acted on: action and value by record number (R329) -/
  answers : FMap (Nat × Nat) := []
  /-- pages the host has named as resident while the context was halted (R93, R344) -/
  resident : List Nat := []
  callId : Nat := 0
  parked : List Parked := []
  down : Option Down := none
  stepping : Bool := false
  /-- base tick at which the context began to halt (R300) -/
  haltAt : Nat := 0
  /-- bytes that its save area holds (R303), fixed at its creation -/
  saveArea : Nat := 0
  samples : List Sample := []
  versions : FMap Version := []
  /-- translations requested: version, function, kind (R307) -/
  translating : List (Nat × Nat × Nat) := []
  deriving DecidableEq, Repr, Inhabited

/-- A Pennon link (R380). -/
structure Link where
  state : Nat := 0
  peer : Nat := 0
  peerLink : Nat := 0
  crc : Nat := 0
  retries : Nat := 0
  tries : Nat := 0
  deriving DecidableEq, Repr, Inhabited

/-- A unit's entry in the test log (R341). -/
structure TestLog where
  passed : Nat := 0
  failed : Nat := 0
  state : Nat := 0
  checked : Bool := false
  deriving DecidableEq, Repr, Inhabited

/-- The device block and the capability list (R373, R378). -/
structure Dev where
  stat : DWord := 0
  num : BitVec 21 := 0
  resync : DWord := 0
  b2base : DWord := 0
  fwload : DWord := 0
  fwbusy : Bool := false
  fwstat : BitVec 2 := 0
  fwver : Word := 0
  nonce : DWord := 0
  attest : DWord := 0
  featPresent : DWord := 0x3FFF
  featEnabled : DWord := 0x3FFF
  part : Word := 0
  keyId : Word := 0
  links : Vector Link 24 := Vector.replicate 24 {}
  tests : FMap TestLog := []
  /-- corrected errors by unit (R339) -/
  corrected : FMap Nat := []
  /-- slices of these units come first (R341) -/
  testFirst : List Nat := []
  /-- temperatures of the HBM stacks (R379) -/
  htemp : Vector (BitVec 16) 8 := Vector.replicate 8 0
  hostMem : Memory := []
  /-- what the host's last read through BAR0 or BAR2 returned, and the answer to a peer's last access: none where it failed -/
  lastRead : List Byte := []
  peerReply : Option (List Byte) := none
  deriving DecidableEq, Repr, Inhabited

/-- A change of an aligned 8-byte unit of memory: key, the bytes it held before (R85, R86). -/
structure Change where
  key : Nat
  old : DWord
  deriving DecidableEq, Repr, Inhabited

/-- A mark of a sector in the gather filter (R100): owner core, order of the marking store. -/
structure Filter where
  core : Nat
  order : Nat
  deriving DecidableEq, Repr, Inhabited

/-- A reservation hold at a home L2 (R118): gang and lane that hold the granule, base tick at which it ends. -/
structure Hold where
  gang : Nat
  lane : Nat
  till : Nat
  deriving DecidableEq, Repr, Inhabited

/-- What firmware of an engine does to the state that only it sees (R225, R226): it computes a register, loads one from
local memory or the control page, stores to local memory, jumps. -/
inductive FwAct where
  | reg (n v : Nat)
  | load (n addr size : Nat)
  | mem (addr : Nat) (bytes : List Byte)
  | jump (pc : Nat)
  deriving DecidableEq, Repr, Inhabited

/-- What may happen next (log entry 1): time passes; a quadrant makes an issue decision, the accesses of its word made
in later steps or with it; a step of the opcode table that is not an instruction word; the loader or the translator
places or extends a code version, the host frees one, the translator takes the oldest request or has ended one; the host writes its own
memory, reads a register, gives a block a placement; firmware of an engine runs; a monitor changes; a link is trained
or lost, or a flit passes its check; the comparison of the next duplicated word on a core fails once or twice; a unit's
next word is not fetched for some base ticks. -/
inductive Turn where
  | tick
  | issue (core quad : Nat) (late : Bool)
  | event (i : Instr)
  | load (ctx key : Nat) (v : Version)
  | unload (ctx key : Nat)
  | translate (ctx : Nat)
  | translated (ctx key func : Nat) (kind : CoreKind)
  | hostWrite (addr : Nat) (bytes : List Byte)
  | readReg (ofs size : Nat)
  | place (block plc : Nat)
  | firmware (die eng : Nat) (a : FwAct)
  | sense (ofs : Nat) (v : BitVec 16)
  | train (link state peer peerLink : Nat)
  | flitOk (link : Nat)
  | glitch (core n : Nat)
  | fetchLate (gang unit n : Nat)
  deriving DecidableEq, Repr, Inhabited

end Sys2Proof.Machine

namespace Sys2Proof.Config

/-- Free turn number `n` (log entry 1): the order in which the agents of the device act, and what host and loader do. -/
opaque freeTurn : Nat → Sys2Proof.Machine.Turn

end Sys2Proof.Config

namespace Sys2Proof.Machine

/-- The machine. -/
structure State where
  now : Nat
  fresh : Nat
  nextId : Nat
  agenda : List Turn
  /-- the unit whose word executes: gang and unit -/
  cur : Option (Nat × Nat)
  /-- the next operation issued waits for its `OPERATION_PERFORM` step even where its PM is met -/
  defer : Bool
  /-- clocks by which the result of the word that executes is late: a matrix word's recompute (R258) -/
  slow : Nat
  /-- duplicated words of a core that will mismatch: core and count (R144) -/
  glitches : FMap Nat
  /-- device memory, keyed home · 2^39 + pa -/
  mem : Memory
  history : List Change
  /-- poisoned sectors of memory, by key / 64 -/
  poison : List Nat
  /-- poisoned registers: gang, register, lane (0 for a register that no lane holds) -/
  regPoison : List (Nat × RegLoc × Nat)
  /-- marks of the gather filter, by sector: at most one of each core -/
  filter : FMap (List Filter)
  holds : FMap Hold
  /-- placement the host's allocator gave a 2 MiB block, where it is not 0b000 -/
  placement : FMap Nat
  ctxs : FMap Ctx
  grids : FMap Grid
  teams : FMap Team
  gangs : FMap Gang
  cores : FMap CoreState
  dies : Vector Die 4
  ops : FMap Op
  dev : Dev
  deriving DecidableEq, Repr

/-- The machine after reset (R377 step 1): no context, nothing resident, memory with nothing listed. -/
def State.reset : State where
  now := 0
  fresh := 0
  nextId := 1
  agenda := []
  cur := none
  defer := false
  slow := 0
  glitches := []
  mem := []
  history := []
  poison := []
  regPoison := []
  filter := []
  holds := []
  placement := []
  ctxs := []
  grids := []
  teams := []
  gangs := []
  cores := []
  dies := Vector.replicate 4 {}
  ops := []
  dev := {}

end Sys2Proof.Machine
end

