-- ==== Sys2Proof/Machine/Operands.lean ====
section
/-! DEFINITION. Where operands stand: units and lanes, the register fields of R33 with the handler bank (R36, R131),
the lanes that take part (R25, R146, R190), special registers (R132, R134), and the one way registers are written. -/

namespace Sys2Proof.Machine

/-! ### Looking things up -/

/-- Kind of a core, from its site (R9). -/
def coreKind (core : Nat) : CoreKind :=
  let site := core % Config.sitesPerDie
  if 2 ≤ site ∧ site ≤ 9 then .pennant else .banner

/-- Die of a core (R9). -/
def coreDie (core : Nat) : Nat := core / Config.sitesPerDie

/-- Base ticks per clock of a kind of core (R4). -/
def clockTicks : CoreKind → Nat
  | .banner => Config.bannerTicks
  | .pennant => Config.pennantTicks

/-- Clocks of a core since reset, in its own clock (R364). -/
def State.clock (s : State) (core : Nat) : Nat := s.now / clockTicks (coreKind core)

/-- Clocks of a core that cover n of the clocks the spec names without a qualifier, which are banner clocks (R4). -/
def coreClocks (k : CoreKind) (n : Nat) : Nat := (n * Config.bannerTicks + clockTicks k - 1) / clockTicks k

/-- A core's state. -/
def State.core (s : State) (n : Nat) : CoreState := FMap.getD s.cores n {}

/-- A context. -/
def State.ctx (s : State) (c : Nat) : Ctx := FMap.getD s.ctxs c {}

/-- Replace a context. -/
def State.setCtx (s : State) (c : Nat) (x : Ctx) : State := { s with ctxs := FMap.set s.ctxs c x }

/-- Replace a core. -/
def State.setCore (s : State) (n : Nat) (c : CoreState) : State := { s with cores := FMap.set s.cores n c }

/-- Replace a gang. -/
def State.setGang (s : State) (n : Nat) (g : Gang) : State := { s with gangs := FMap.set s.gangs n g }

/-- Replace a team. -/
def State.setTeam (s : State) (n : Nat) (t : Team) : State := { s with teams := FMap.set s.teams n t }

/-- Replace an operation. -/
def State.setOp (s : State) (n : Nat) (o : Op) : State := { s with ops := FMap.set s.ops n o }

/-- Replace a grid. -/
def State.setGrid (s : State) (n : Nat) (g : Grid) : State := { s with grids := FMap.set s.grids n g }

/-- A die; numbers are taken modulo 4. -/
def State.die (s : State) (d : Nat) : Die := s.dies[d % 4]'(Nat.mod_lt _ (by decide))

/-- Replace a die. -/
def State.setDie (s : State) (d : Nat) (x : Die) : State :=
  { s with dies := s.dies.set (d % 4) x (Nat.mod_lt _ (by decide)) }

/-- The next free value (log entry 1). -/
def State.free (s : State) : Nat × State := (Config.freeNat s.fresh, { s with fresh := s.fresh + 1 })

/-- A new number for a gang, team, grid, operation or result. -/
def State.newId (s : State) : Nat × State := (s.nextId, { s with nextId := s.nextId + 1 })

/-- The unit whose word executes: number of the gang and of the unit, gang, unit. -/
structure Frame where
  gid : Nat
  ui : Nat
  g : Gang
  u : UnitState
  deriving DecidableEq, Repr, Inhabited

/-- A unit of a gang. -/
def State.frameOf (s : State) (gid ui : Nat) : Option Frame :=
  match FMap.get? s.gangs gid with
  | none => none
  | some g => match g.units[ui]? with
    | none => none
    | some u => some ⟨gid, ui, g, u⟩

/-- The executing unit. -/
def State.frame (s : State) : Option Frame :=
  match s.cur with
  | none => none
  | some (gid, ui) => s.frameOf gid ui

/-- Run a word of the executing unit. -/
def onUnit (s : State) (k : Frame → State) : Host.Outcome State Fault Refusal :=
  match s.frame with
  | none => .fault .noIssuingUnit
  | some f => .next (k f)

/-- Replace the unit of a frame, in a gang. -/
def Gang.setUnit (g : Gang) (ui : Nat) (u : UnitState) : Gang := { g with units := g.units.set ui u }

/-- Put a frame's gang and unit back. -/
def State.put (s : State) (f : Frame) : State := s.setGang f.gid (f.g.setUnit f.ui f.u)

/-- Team of a gang. -/
def State.teamOf (s : State) (g : Gang) : Option Team := FMap.get? s.teams g.team

/-- Core of a gang; 0 where it has no team. -/
def State.coreOf (s : State) (g : Gang) : Nat := (s.teamOf g).elim 0 (·.core)

/-- Context of a gang. -/
def State.ctxOf (s : State) (g : Gang) : Nat := (s.teamOf g).elim 0 (·.ctx)

/-- Grid of a gang. -/
def State.gridOf (s : State) (g : Gang) : Option Grid := (s.teamOf g).bind fun t => FMap.get? s.grids t.grid

/-- Code version of a gang. -/
def State.versionOf (s : State) (g : Gang) : Option Version :=
  (s.gridOf g).bind fun gr => FMap.get? (s.ctx gr.ctx).versions gr.version

/-- Kernel header in force. -/
def State.headerOf (s : State) (g : Gang) : Option Header := (s.teamOf g).map (·.header)

/-- End of an image's code pages (R51). -/
def Image.pagesEnd (i : Image) : Nat := (i.base + i.size + Config.codePage - 1) / Config.codePage * Config.codePage

/-- The image a PC lies in (R309). -/
def Version.imageAt (v : Version) (pc : Nat) : Option Image :=
  v.images.find? fun i => decide (i.base ≤ pc) && decide (pc < Image.pagesEnd i)

/-- A PC lies in the code pages (R51). -/
def Version.inCode (v : Version) (pc : Nat) : Bool := (Version.imageAt v pc).isSome

/-- The 64-bit word at a PC; code pages read 0 where nothing is written (R51). -/
def Version.word (v : Version) (pc : Nat) : DWord := FMap.getD v.code (pc / 8) 0

/-- The kind of image of a kind of core. -/
def CoreKind.image : CoreKind → ImageKind
  | .banner => .banner
  | .pennant => .pennant

/-- Kind of the image a unit executes (R309); outside every image, that of the core. -/
def State.imageKind (s : State) (f : Frame) : ImageKind :=
  ((s.versionOf f.g).bind fun v => Version.imageAt v f.u.ipc.toNat).elim
    (CoreKind.image (coreKind (s.coreOf f.g))) (·.kind)

/-! ### Lanes and masks -/

/-- Lanes 0..n−1. -/
def lowLanes (n : Nat) : Mask := BitVec.ofNat 64 (2 ^ n - 1)

/-- A mask from a predicate on lanes. -/
def maskOf (p : Nat → Bool) : Mask := BitVec.ofFnLE (n := 64) fun l => p l.val

/-- Lanes of a set of groups, below the gang's width. -/
def groupLanes (groups : BitVec 8) (width : Nat) : Mask :=
  maskOf fun l => decide (l < width) && groups.getLsbD (l / 8)

/-- A unit with a lane that has not exited. -/
def UnitState.live (u : UnitState) (width : Nat) : Bool := groupLanes u.groups width &&& ~~~u.xm != 0

/-- Lanes of a unit. -/
def Frame.lanes (f : Frame) : Mask := groupLanes f.u.groups f.g.width

/-- Lanes of a mask in ascending order. -/
def lanesOf (m : Mask) : List Nat := (List.range 64).filter fun l => m.getLsbD l

/-- The lowest lane of a mask. -/
def lowest (m : Mask) : Option Nat := (List.range 64).find? fun l => m.getLsbD l

/-- Element of a lane vector; lane numbers are below 64. -/
def LaneVec.at' {α : Type} (v : LaneVec α) (l : Nat) : α := v[l % 64]'(Nat.mod_lt _ (by decide))

/-- Number of groups of a gang. -/
def Gang.groups (g : Gang) : Nat := g.width / 8

/-- Lanes that would execute: `am`, or every lane of the unit not in `xm` in handler mode (R190). -/
def Frame.base (f : Frame) : Mask := if f.u.hm then f.lanes &&& ~~~f.u.xm else f.u.am

/-- A predicate. -/
def Gang.pred (g : Gang) (p : PReg) : Mask := g.p[p.toNat]'p.isLt

/-- The lanes whose guard holds (R25). -/
def Gang.guardMask (g : Gang) : Guard → Mask
  | .always => BitVec.allOnes 64
  | .on p neg => if neg then ~~~(Gang.pred g p) else Gang.pred g p

/-- The lanes that take part (R25, R146, R190). -/
def Frame.part (f : Frame) (h : Hdr) : Mask := Frame.base f &&& Gang.guardMask f.g h.guard

/-! ### Registers (R33) -/

/-- Resident slot of a lane's group (R129). -/
def State.gslot (s : State) (g : Gang) (grp : Nat) : Nat :=
  (match coreKind (s.coreOf g) with
   | .banner => 64
   | .pennant => 32) * g.quad + g.slot + grp

/-- Code of a kind of core. -/
def kindCode : CoreKind → Nat
  | .banner => 0
  | .pennant => 1

/-- Code of an image kind. -/
def imageCode : ImageKind → Nat
  | .banner => 0
  | .pennant => 1
  | .tamut => 2

/-- The identity registers (R33). -/
def State.identity (s : State) (f : Frame) (r : Reg) (l : Nat) : Nat :=
  match r.toNat with
  | 0xF1 => l
  | 0xF2 => l % 8
  | 0xF3 => s.gslot f.g (l / 8)
  | 0xF4 => f.g.grpn + l / 8
  | 0xF5 => f.g.width
  | 0xF6 => (s.teamOf f.g).elim 0 (·.rank)
  | 0xF7 => (s.teamOf f.g).elim 0 (·.cluster)
  | 0xF8 => s.coreOf f.g
  | 0xF9 => coreDie (s.coreOf f.g)
  | 0xFA => kindCode (coreKind (s.coreOf f.g))
  | 0xFB => imageCode (s.imageKind f)
  | 0xFC => (s.gridOf f.g).elim 0 (·.lseq.toNat)
  | 0xFD => (s.versionOf f.g).elim 0 (·.ver)
  | 0xFE => s.dev.num.toNat
  | 0xFF => f.g.quad
  | _ => 0

/-- A vector register; an unlisted one holds 0 in every lane. -/
def Gang.vreg (g : Gang) (n : Nat) : LaneVec Word := FMap.getD g.v n (uniform 0)

/-- The register a code names for a unit: the handler bank in handler mode (R36). -/
def regLoc (f : Frame) (r : Reg) : Option RegLoc :=
  if r.isV then (if f.u.hm && r.isHv then some (.hv (r.toNat - 0xBC)) else some (.v r.toNat))
  else if r.isS then (if f.u.hm && r.isHs then some (.hs f.ui (r.toNat - 0xEC)) else some (.s (r.toNat - 0xC0)))
  else none

/-- One register of one lane (R33). -/
def State.rdReg (s : State) (f : Frame) (r : Reg) (l : Nat) : Word :=
  match regLoc f r with
  | some (.v n) => LaneVec.at' (Gang.vreg f.g n) l
  | some (.hv n) => LaneVec.at' (f.g.hv[n % 4]'(Nat.mod_lt _ (by decide))) l
  | some (.s n) => f.g.s[n % 48]'(Nat.mod_lt _ (by decide))
  | some (.hs _ n) => f.u.hs[n % 4]'(Nat.mod_lt _ (by decide))
  | _ => BitVec.ofNat 32 (s.identity f r l)

/-- The register after a register. -/
def Reg.next (r : Reg) (k : Nat) : Reg := r + BitVec.ofNat 8 k

/-- An operand of `n` registers, 1 or 2, as a 64-bit value (R35); `zero` reads 0. -/
def State.rd (s : State) (f : Frame) (r : Reg) (n : Nat) (l : Nat) : DWord :=
  if n ≤ 1 || r.isZero then (s.rdReg f r l).setWidth 64
  else s.rdReg f (Reg.next r 1) l ++ s.rdReg f r l

/-- A uniform operand: its value in lane 0. -/
def State.rdU (s : State) (f : Frame) (r : Reg) (n : Nat) : DWord := s.rd f r n 0

/-- What a lane of a lane-engine word sees. -/
structure LaneIn where
  lane : Nat
  rd : Reg → Nat → DWord
  p : PReg → Bool

/-- The inputs of a lane. -/
def State.laneIn (s : State) (f : Frame) (l : Nat) : LaneIn :=
  ⟨l, fun r n => s.rd f r n l, fun p => (Gang.pred f.g p).getLsbD l⟩

/-! ### Writing registers -/

/-- Merge a value into a lane vector under a mask. -/
def mergeLanes (m : Mask) (new old : LaneVec Word) : LaneVec Word :=
  Vector.ofFn fun l : Fin 64 => if m.getLsbD l.val then new[l] else old[l]

/-- An element of a vector, and a vector with one element replaced. -/
def vget {α : Type} {n : Nat} (v : Vector α n) (i : Nat) (h : i < n) : α := v[i]'h

/-- Replace an element. -/
def vset {α : Type} {n : Nat} (v : Vector α n) (i : Nat) (a : α) (h : i < n) : Vector α n := v.set i a h

/-- Write `hsN` of a unit. -/
def UnitState.setHs (n : Nat) (h : n < 4) (w : Word) (u : UnitState) : UnitState := { u with hs := u.hs.set n w h }

/-- Write one place of a gang. -/
def Gang.write (g : Gang) (w : LaneWrite) : Gang :=
  match w.loc with
  | .v n => { g with v := FMap.set g.v n (mergeLanes w.mask w.val (Gang.vreg g n)) }
  | .hv n => { g with hv := vset g.hv (n % 4) (mergeLanes w.mask w.val (vget g.hv (n % 4) (by omega))) (by omega) }
  | .s n => if w.mask = 0 then g else { g with s := vset g.s (n % 48) (LaneVec.at' w.val 0) (by omega) }
  | .hs ui n =>
    if w.mask = 0 then g
    else { g with units := g.units.modify ui (UnitState.setHs (n % 4) (Nat.mod_lt _ (by decide)) (LaneVec.at' w.val 0)) }
  | .p n =>
    let bits := maskOf fun l => (LaneVec.at' w.val l).getLsbD 0
    { g with p := vset g.p (n % 32) ((bits &&& w.mask) ||| (vget g.p (n % 32) (by omega) &&& ~~~w.mask)) (by omega) }
  | _ => g

/-- Write several places. -/
def Gang.writes (g : Gang) (ws : List LaneWrite) : Gang := ws.foldl Gang.write g

/-- The writes of a result of `n` registers into D: a vector in the lanes of `m`, a scalar once from lane `l0`,
`zero` not at all (R34, R146). -/
def destWrites (f : Frame) (d : Reg) (n : Nat) (m : Mask) (val : LaneVec DWord) : List LaneWrite :=
  (List.range n).flatMap fun k =>
    match regLoc f (Reg.next d k) with
    | none => []
    | some loc =>
      let pick : DWord → Word := fun x => x.extractLsb' (32 * k) 32
      if d.isZero then []
      else match loc with
        | .v _ | .hv _ => [⟨loc, m, Vector.ofFn fun l : Fin 64 => pick val[l]⟩]
        | _ => [⟨loc, m, uniform (pick (LaneVec.at' val ((lowest m).getD 0)))⟩]

/-- The write of a predicate. -/
def predWrite (p : PReg) (m : Mask) (val : Nat → Bool) : LaneWrite :=
  ⟨.p p.toNat, m, Vector.ofFn fun l : Fin 64 => if val l.val then 1 else 0⟩

/-! ### Special registers (R132 to R134) -/

/-- `gmode` (R134). -/
def State.gmode (s : State) (f : Frame) : Word :=
  BitVec.ofNat 32 (f.g.cls.toNat * 64 + (if s.imageKind f == .tamut then 32 else 0) + (if f.g.frd then 16 else 0) +
    (if f.g.str then 8 else 0) + (if f.g.red then 4 else 0) + (if f.u.hm then 1 else 0))

/-- PC of a lane: an active lane's is `ipc` (R128). -/
def Frame.lpc (f : Frame) (l : Nat) : Word := if f.u.am.getLsbD l then f.u.ipc else LaneVec.at' f.g.lpc l

/-- `am` as `rdsr` reads it: 0 in handler mode (R190). -/
def Frame.amRead (f : Frame) : Mask := if f.u.hm then 0 else f.u.am

/-- A special register of a unit, for one lane (R132). -/
def State.special (s : State) (f : Frame) (sr : BitVec 8) (l : Nat) : DWord :=
  match sr.toNat with
  | 0x00 => Frame.amRead f
  | 0x02 => f.u.km
  | 0x04 => f.u.fm
  | 0x06 => f.u.tm
  | 0x08 => f.u.xm
  | 0x0A => f.u.ipc.setWidth 64
  | 0x0B => f.g.hpc.setWidth 64
  | 0x0C => f.u.ev
  | 0x0E => f.g.agl.setWidth 64
  | 0x0F => f.g.trp.setWidth 64
  | 0x10 => (Frame.lpc f l).setWidth 64
  | 0x11 => (LaneVec.at' f.g.lag l).setWidth 64
  | 0x12 => f.g.dtb
  | 0x14 => f.g.dtl.setWidth 64
  | 0x15 => (s.gmode f).setWidth 64
  | 0x16 => f.g.polc.setWidth 64
  | 0x17 => f.g.eqid.setWidth 64
  | 0x18 => f.g.mpc.setWidth 64
  | _ => 0

/-- Members of a troupe register (R259). -/
def trpCount (t : Word) : Nat := t.toNat % 8

/-- Every lane of the gang in one of the unit's masks. -/
def Gang.allOf (g : Gang) (m : UnitState → Mask) : Mask := g.units.foldl (fun acc u => acc ||| m u) 0

/-- The unit a lane belongs to. -/
def Gang.unitOf (g : Gang) (l : Nat) : Nat := (g.units.findIdx? fun u => u.groups.getLsbD (l / 8)).getD 0

end Sys2Proof.Machine
end

