-- ==== Sys2Proof/Machine/Mem.lean ====
section
/-! DEFINITION. Storage (R78 to R93, R98 to R101, R116 to R118, R339): home memory, gather buffers, promotion,
the read-only path, page walks and the checks of an address. -/

namespace Sys2Proof.Machine

/-! ### Home memory -/

/-- Key of a byte at its home die. -/
def memKey (home pa : Nat) : Nat := home * 2 ^ Config.installedBits + pa

/-- Home die of a physical address under a placement (R90). -/
def homeOf (plc pa : Nat) : Nat :=
  if 4 ≤ plc then plc % 4 else (pa / 2 ^ 12 % 4) ^^^ (pa / 2 ^ 16 % 4) ^^^ (pa / 2 ^ 20 % 4)

/-- Placement of a block for accesses that name none: page tables and the host's window (log entry 5). -/
def State.plcOf (s : State) (pa : Nat) : Nat := FMap.getD s.placement (pa / 2 ^ 21) 0

/-- An aligned 8-byte unit of home memory, by key / 8. -/
def State.unit8 (s : State) (u : Nat) : DWord := BitVec.ofNat 64 (leNat (Memory.readN s.mem (8 * u) 8))

/-- Distinct values of a list. -/
def distinct : List Nat → List Nat
  | [] => []
  | a :: l => a :: (distinct l).filter fun b => b != a

/-- Drop the reservations on some granules of the lanes a predicate on gangs selects, and the holds they had at the
home L2 (R117, R118). -/
def State.dropRsv (s : State) (granules : List Nat) (sel : Gang → Bool) : State :=
  let lost (h : Nat × Hold) : Bool := granules.contains h.1 && (FMap.get? s.gangs h.2.gang).elim true sel
  let gangs : FMap Gang := s.gangs.map fun (n, g) =>
    (n, if sel g then { g with rsv := g.rsv.map fun r => r.filter fun k => !granules.contains k } else g)
  { s with gangs := gangs, holds := s.holds.filter fun h => !lost h }

/-- Write bytes at the home L2, by key: the one way memory changes. It records what each 8-byte unit held (R85), clears
the poison mark of a sector that is written whole (R339), and drops reservations (R117): of every core, but for bytes
that leave a core's gather buffer, whose own lanes lost theirs as the bytes entered it. -/
def State.writeCells (s : State) (cells : List (Nat × Byte)) (buffered : Option Nat := none) : State :=
  let units := distinct (cells.map fun c => c.1 / 8)
  let sectors := distinct (cells.map fun c => c.1 / 64)
  let mem' := cells.foldl (fun m c => Memory.write m c.1 c.2) s.mem
  let s' : State := { s with mem := mem' }
  let changed := units.filter fun u => s.unit8 u != s'.unit8 u
  let whole := sectors.filter fun q => (List.range 64).all fun k => cells.any fun c => c.1 == 64 * q + k
  let changes : List Change := changed.map fun u => ⟨u, s.unit8 u⟩
  let s'' : State := { s' with
    history := changes ++ s.history
    poison := s.poison.filter fun q => !whole.contains q }
  s''.dropRsv sectors fun g => buffered != some (s.coreOf g)

/-- Write bytes at a place of home memory. -/
def State.writeMem (s : State) (home pa : Nat) (bytes : List Byte) : State :=
  s.writeCells (bytes.zipIdx.map fun (b, k) => (memKey home (pa + k), b))

/-- Bytes at a place of home memory. -/
def State.readMem (s : State) (home pa n : Nat) : List Byte := Memory.readN s.mem (memKey home pa) n

/-- The history's length: a moment (R85). -/
def State.moment (s : State) : Nat := s.history.length

/-- What an 8-byte unit held before its changes after a moment, latest first. -/
def State.olds (s : State) (u since : Nat) : List DWord :=
  ((s.history.take (s.moment - since)).filter fun c => c.key == u).map (·.old)

/-- Values an 8-byte unit held from one moment up to another, the latest first (R85). -/
def State.valuesIn (s : State) (u since upto : Nat) : List DWord :=
  let later := s.olds u upto
  (later.getLast?.getD (s.unit8 u)) :: (s.olds u since).drop later.length

/-! ### The gather buffer (R83) and promotion (R100) -/

/-- Key of a line's sector. -/
def GLine.key (l : GLine) : Nat := memKey l.home (64 * l.sector) / 64

/-- The written bytes of a line, by key. -/
def GLine.cells (l : GLine) : List (Nat × Byte) :=
  (List.range 64).filterMap fun k => (LaneVec.at' l.bytes k).map fun b => (64 * GLine.key l + k, b)

/-- The marks of a sector (R100). -/
def State.marksOf (s : State) (key : Nat) : List Filter := FMap.getD s.filter key []

/-- A core's mark of a sector. -/
def State.markOf (s : State) (core key : Nat) : Option Filter := (s.marksOf key).find? fun m => m.core == core

/-- Clear a core's marks of the sectors a predicate selects. -/
def State.unmark (s : State) (core : Nat) (sel : Nat → Bool) : State :=
  let left (e : Nat × List Filter) : List Filter := if sel e.1 then e.2.filter fun m => m.core != core else e.2
  { s with filter := (s.filter.map fun e => (e.1, left e)).filter fun e => !e.2.isEmpty }

/-- How far a push must go: the largest order among the marks of the lines it takes along. -/
def pushBound (s : State) (core : Nat) (lines : List GLine) : Nat → Nat → Nat
  | 0, n => n
  | k + 1, n =>
    let ls := lines.filter fun l => decide (l.order ≤ n)
    let n' := ls.foldl (fun m l => max m ((s.markOf core (GLine.key l)).elim 0 (·.order))) n
    pushBound s core lines k n'

/-- Count a raw signal of a core in the running clock (R365). -/
def State.signal (s : State) (core code n : Nat) : State :=
  let c := s.core core
  s.setCore core { c with ctr := { c.ctr with sig := FMap.set c.ctr.sig code (FMap.getD c.ctr.sig code 0 + n) } }

/-- Count requests of a core at the home L2s of some sectors: on its die, and off it (R365). -/
def State.countReq (s : State) (core : Nat) (sectors : List Nat) : State :=
  let near (q : Nat) : Bool := 64 * q / 2 ^ Config.installedBits == coreDie core
  let n := (sectors.filter near).length
  let m := sectors.length - n
  let s := if n = 0 then s else s.signal core 0x07 n
  if m = 0 then s else s.signal core 0x08 m

/-- Push a set of a core's lines to their homes, one request each, and clear their marks. -/
def State.pushLines (s : State) (core : Nat) (sel : GLine → Bool) : State :=
  let c := s.core core
  let out := c.gather.filter sel
  if out.isEmpty then s
  else
    let s' := (s.setCore core { c with gather := c.gather.filter fun l => !sel l }).writeCells (out.flatMap GLine.cells)
      (some core)
    (s'.countReq core (out.map GLine.key)).unmark core fun k => out.any fun l => GLine.key l == k

/-- Push a core's lines written up to an order, and what their own marks require (R100). -/
def State.pushUpTo (s : State) (core n : Nat) : State :=
  let lines := (s.core core).gather
  let b := pushBound s core lines 33 n
  s.pushLines core fun l => decide (l.order ≤ b)

/-- The line of a sector leaves its buffer; a marked sector takes along what was written up to its mark. -/
def State.leaveLine (s : State) (core key : Nat) : State :=
  (match s.markOf core key with
   | some m => s.pushUpTo core m.order
   | none => s).pushLines core fun l => GLine.key l == key

/-- Drain a core's buffer (R83). -/
def State.drain (s : State) (core : Nat) : State := s.pushLines core fun _ => true

/-- A device-scope access from elsewhere touches a sector: the lines of each other core that has marked it go first
(R100; log entry 80). -/
def State.promote (s : State) (core : Option Nat) (key : Nat) : State :=
  ((s.marksOf key).filter fun m => core != some m.core).foldl (fun s m =>
    (s.pushUpTo m.core m.order).unmark m.core fun k => k == key) s

/-- Merge bytes (`none`: not written) into a core's gather buffer; a new sector in a full buffer makes the oldest line leave (R83). -/
def State.gatherStore (s : State) (core gang home pa : Nat) (bytes : List (Option Byte)) (mark : Bool) : State :=
  let key := memKey home pa / 64
  let s := if (s.core core).gather.any (fun l => GLine.key l == key) then s
    else if (s.core core).gather.length < Config.gatherLines then s
    else match (s.core core).gather with
      | [] => s
      | l :: _ => s.leaveLine core (GLine.key l)
  let (ord, s) := s.newId
  let c := s.core core
  let put (l : GLine) : GLine :=
    { l with
      bytes := Vector.ofFn fun k : Fin 64 =>
        if pa % 64 ≤ k.val ∧ k.val < pa % 64 + bytes.length then ((bytes[k.val - pa % 64]?).join <|> l.bytes[k]) else l.bytes[k]
      gangs := if l.gangs.contains gang then l.gangs else gang :: l.gangs }
  let c' := if c.gather.any (fun l => GLine.key l == key) then
      { c with gather := c.gather.map fun l => if GLine.key l == key then put l else l }
    else { c with gather := c.gather ++
        [put ⟨home, pa / 64, Vector.replicate 64 none, s.now, ord, []⟩] }
  let s := s.setCore core c'
  let s := s.dropRsv [key] fun g => s.coreOf g == core
  if mark then { s with filter := FMap.set s.filter key (⟨core, ord⟩ :: (s.marksOf key).filter fun m => m.core != core) }
  else s

/-- One byte as a core's bypass load sees it: its own gather buffer, then the home L2 (R84, R98). -/
def State.byByte (s : State) (core : Option Nat) (home pa : Nat) : Byte :=
  let key := memKey home pa
  let own : Option Byte := core.bind fun c => (s.core c).gather.findSome? fun l =>
    if GLine.key l == key / 64 then LaneVec.at' l.bytes (pa % 64) else none
  own.getD (Memory.read s.mem key)

/-- Bytes of a bypass load, after the promotion its scope asks for. -/
def State.byLoad (s : State) (core : Option Nat) (dev : Bool) (home pa n : Nat) : List Byte × State :=
  let s' := if dev then s.promote core (memKey home pa / 64) else s
  ((List.range n).map fun k => s'.byByte core home (pa + k), s')

/-- Bytes of a read-only load of at most 8 aligned bytes: what their unit held at one moment from the start of the grid
to the perform, freely chosen where it held several values (R85, R86). -/
def State.roLoad (s : State) (since upto home pa n : Nat) : List Byte × State :=
  let key := memKey home pa
  let vs := s.valuesIn (key / 8) since upto
  let (v, s) := if vs.length ≤ 1 then (vs.headD 0, s) else
    let (r, s) := State.free s
    ((vs[r % vs.length]?).getD 0, s)
  ((List.range n).map fun k => v.extractLsb' (8 * ((key + k) % 8)) 8, s)

/-- A write at SC 1 or above from a core: the core's line of the sector leaves first (R83). -/
def State.thruStore (s : State) (core : Option Nat) (home pa : Nat) (bytes : List Byte) : State :=
  let s := match core with
    | none => s
    | some c => s.leaveLine c (memKey home pa / 64)
  s.writeMem home pa bytes

/-! ### Page walks (R87 to R91) -/

/-- How a walk ends. -/
inductive Walk where
  | leaf (entry bits : Nat)
  | pageFault (level : Nat)
  | fatal
  deriving DecidableEq, Repr, Inhabited

/-- A page-table entry at a physical address; a table on a fenced die cannot be read, and ends a walk as an entry with FTL
does (R343; log entry 131). -/
def State.pte (s : State) (pa : Nat) : Nat :=
  let home := homeOf (s.plcOf pa) pa
  if (s.die home).fenced then 2 ^ 63 else leNat (s.readMem home pa 8)

/-- Entry fields (R88). -/
def pteV (e : Nat) : Bool := e % 2 == 1
/-- LEAF. -/
def pteLeaf (e : Nat) : Bool := e / 2 % 2 == 1
/-- W. -/
def pteW (e : Nat) : Bool := e / 4 % 2 == 1
/-- X. -/
def pteX (e : Nat) : Bool := e / 8 % 2 == 1
/-- PLC. -/
def ptePlc (e : Nat) : Nat := e / 2 ^ 60 % 8
/-- FTL. -/
def pteFtl (e : Nat) : Bool := e / 2 ^ 63 % 2 == 1

/-- The checks of a valid entry that maps a page of 2^bits bytes (R89 to R91). -/
def leafOk (peer : Bool) (e bits : Nat) : Bool :=
  !pteFtl e && e / 16 % 256 == 0 && (ptePlc e == 0 || 4 ≤ ptePlc e) &&
  (if peer then (e / 2 ^ 12 % 2 ^ 27) * 2 ^ 12 % 2 ^ bits == 0
   else e / 2 ^ 52 % 256 == 0 && (e / 2 ^ 12 % 2 ^ 40) * 2 ^ 12 % 2 ^ bits == 0 &&
     decide ((e / 2 ^ 12 % 2 ^ 40) * 2 ^ 12 < 2 ^ Config.installedBits))

/-- The checks of a valid entry that names a table. -/
def tableOk (e : Nat) : Bool :=
  !pteFtl e && e / 16 % 256 == 0 && ptePlc e == 0 && e / 2 ^ 52 % 256 == 0 &&
    decide ((e / 2 ^ 12 % 2 ^ 40) * 2 ^ 12 < 2 ^ Config.installedBits)

/-- Walk from a table: levels as (number, lowest VA bit, index bits, leaf allowed, table allowed). -/
def walkFrom (s : State) (va : Nat) : List (Nat × Nat × Nat × Bool × Bool) → Nat → Walk
  | [], _ => .fatal
  | (lv, sh, nb, leafAllowed, tableAllowed) :: rest, table =>
    let e := s.pte (table + 8 * (va / 2 ^ sh % 2 ^ nb))
    if !pteV e then (if pteFtl e then .fatal else .pageFault lv)
    else if pteLeaf e then
      (if leafAllowed && leafOk (decide (2 ^ 56 ≤ va)) e sh then .leaf e sh else .fatal)
    else if tableAllowed && tableOk e then walkFrom s va rest ((e / 2 ^ 12 % 2 ^ 40) * 2 ^ 12)
    else .fatal

/-- The five levels of R87. -/
def walkLevels : List (Nat × Nat × Nat × Bool × Bool) :=
  [(0, 48, 9, false, true), (1, 39, 9, false, true), (2, 30, 9, true, true), (3, 21, 9, true, true),
   (4, 16, 5, true, false)]

/-- A walk of a context's tables, from the address its `ROOT` register holds now (log entry 81); a root beyond installed
memory ends it (R91). -/
def State.walk (s : State) (ctx va : Nat) : Walk :=
  let root := (s.ctx ctx).root.toNat
  if 2 ^ Config.installedBits ≤ root then .fatal else walkFrom s va walkLevels root

/-- Entries a walk reads (R365). -/
def walkReads (s : State) (va : Nat) : List (Nat × Nat × Nat × Bool × Bool) → Nat → Nat
  | [], _ => 0
  | (_, sh, nb, _, tableAllowed) :: rest, table =>
    let e := s.pte (table + 8 * (va / 2 ^ sh % 2 ^ nb))
    if pteV e && !pteLeaf e && tableAllowed && tableOk e then 1 + walkReads s va rest ((e / 2 ^ 12 % 2 ^ 40) * 2 ^ 12)
    else 1

/-- Reads of a walk of a context's tables. -/
def State.reads (s : State) (ctx va : Nat) : Nat :=
  let root := (s.ctx ctx).root.toNat
  if 2 ^ Config.installedBits ≤ root then 0 else walkReads s va walkLevels root

/-- A cached translation (R92). -/
def tlbHit (l : List Tlb) (ctx va : Nat) : Option Tlb :=
  l.find? fun t => t.ctx == ctx && va / 2 ^ t.bits == t.page

/-- Add a translation; a full store drops a victim, freely chosen. -/
def tlbAdd (cap : Nat) (r : Nat) (t : Tlb) (l : List Tlb) : List Tlb :=
  if l.length < cap then t :: l else t :: l.eraseIdx (r % cap)

/-- A walk for a page of a context: it reads the tables, unless it joins a walk for that page that runs on the die (R92;
log entry 107). -/
def State.countWalk (s : State) (core ctx va : Nat) : State :=
  let d := s.die (coreDie core)
  let w := (s.now, ctx, va / 2 ^ 16)
  if d.walks.contains w then s
  else (s.signal core 0x09 (s.reads ctx va)).setDie (coreDie core) { d with walks := w :: d.walks.filter fun x => x.1 == s.now }

/-- Translate for a core through its TLB and its die's cache (R92). -/
def State.translate (s : State) (core ctx va : Nat) : Walk × State :=
  match tlbHit (s.core core).tlb ctx va with
  | some t => (.leaf t.leaf t.bits, s)
  | none =>
    let s := s.signal core 0x0A 1
    let fill (s : State) (t : Tlb) : State :=
      let (r, s) := s.free
      let c := s.core core
      s.setCore core { c with tlb := tlbAdd Config.tlbEntries r t c.tlb }
    let d := s.die (coreDie core)
    match tlbHit d.tcache ctx va with
    | some t => (.leaf t.leaf t.bits, fill s t)
    | none =>
      let w := s.walk ctx va
      let s := s.countWalk core ctx va
      match w with
      | .leaf e bits =>
        let t : Tlb := ⟨ctx, va / 2 ^ bits, bits, e⟩
        let (r, s) := s.free
        let s := s.setDie (coreDie core) { s.die (coreDie core) with
          tcache := tlbAdd Config.dieCacheEntries r t (s.die (coreDie core)).tcache }
        (.leaf e bits, fill s t)
      | w => (w, s)

/-- Device memory at a physical address under a placement: the memory of a fenced die is unreachable (R90, R343). -/
def State.homeLoc (s : State) (plc pa : Nat) : Loc :=
  if (s.die (homeOf plc pa)).fenced then .lost pa else .mem (homeOf plc pa) pa

/-- The place a leaf gives an address (R89, R90); a peer leaf with the device's own number is its own memory. -/
def State.leafLoc (s : State) (e bits va : Nat) : Loc :=
  if 2 ^ 56 ≤ va then
    let pa := (e / 2 ^ 12 % 2 ^ 27) * 2 ^ 12 + va % 2 ^ bits
    if e / 2 ^ 39 % 2 ^ 21 = s.dev.num.toNat then s.homeLoc (ptePlc e) pa
    else .peer (e / 2 ^ 39 % 2 ^ 21) pa
  else s.homeLoc (ptePlc e) ((e / 2 ^ 12 % 2 ^ 40) * 2 ^ 12 + va % 2 ^ bits)

/-! ### The checks of an address (R78 to R80, R105) -/

/-- Regions of the generic space (R78). -/
inductive Region' where
  | global | cluster (rank ofs : Nat) | hole | local_ (ofs : Nat) | system | beyond
  deriving DecidableEq, Repr, Inhabited

/-- The region of an address (R78). -/
def regionOf (ea : Nat) : Region' :=
  if ea < 0x00FE000000000000 then .global
  else if ea < 0x00FE000000C00000 then .cluster ((ea - 0x00FE000000000000) / 2 ^ 20) (ea % 2 ^ 20)
  else if ea < 0x00FF000000000000 then .hole
  else if ea < 0x00FF000000100000 then .local_ (ea - 0x00FF000000000000)
  else if ea < 0x0100000000000000 then .hole
  else if ea < 0x0200000000000000 then .system
  else .beyond

/-- Windows an instruction may name (R105 step 2). -/
inductive WinRule where
  | any | only | never
  deriving DecidableEq, Repr, Inhabited

/-- What the checks of an address give. -/
inductive AddrRes where
  | loc (l : Loc)
  | fault (c : Cause)
  | park (page level : Nat)
  deriving DecidableEq, Repr, Inhabited

/-- The page a fault of a level names (R93). -/
def faultPage (va level : Nat) : Nat :=
  let bits := match level with
    | 0 => 48 | 1 => 39 | 2 => 30 | 3 => 21 | _ => 16
  va / 2 ^ bits * 2 ^ bits

/-- The team at a rank of a gang's cluster (R80); one that has exited keeps its scratchpad until its grid retires (log
entry 82). -/
def State.teamAt (s : State) (t : Team) (rank : Nat) : Option Nat :=
  (s.teams.find? fun x => x.2.grid == t.grid && x.2.cluster == t.cluster && x.2.rank == rank).map (·.1)

/-- A scratchpad address: bound, then alignment (R105 steps 3 and 4). -/
def scratchCheck (scratch team ofs size align : Nat) : AddrRes :=
  if scratch < ofs + size then .fault .scratch
  else if 1 < align ∧ ofs % align ≠ 0 then .fault .misaligned
  else .loc (.scratch team ofs)

/-- R105 steps 2 to 5 for one lane; `align` 1 makes no alignment check. -/
def State.resolve (s : State) (tid : Nat) (t : Team) (ea size align : Nat) (write : Bool) (win : WinRule) :
    AddrRes × State :=
  match regionOf ea with
  | .hole | .beyond => (.fault .protection, s)
  | .local_ ofs => if win == .never then (.fault .protection, s) else (scratchCheck t.header.scratch tid ofs size align, s)
  | .cluster rank ofs =>
    if win == .never then (.fault .protection, s)
    else if rank == t.rank then (scratchCheck t.header.scratch tid ofs size align, s)
    else
      let count := (FMap.get? s.grids t.grid).elim 1 fun g => g.lr.cw * g.lr.ch
      match (if rank < count then s.teamAt t rank else none) with
      | none => (.fault .protection, s)
      | some other => (scratchCheck t.header.scratch other ofs size align, s)
  | .global | .system =>
    if win == .only then (.fault .protection, s)
    else if 1 < align ∧ ea % align ≠ 0 then (.fault .misaligned, s)
    else match s.translate t.core t.ctx ea with
      | (.fatal, s') => (.fault .protection, s')
      | (.pageFault lv, s') => (.park (faultPage ea lv) lv, s')
      | (.leaf e bits, s') => if write && !pteW e then (.fault .protection, s') else (.loc (s'.leafLoc e bits ea), s')

/-! ### Reading and writing a place -/

/-- A byte of a team's scratchpad. -/
def State.scratchByte (s : State) (team ofs : Nat) : Byte := (FMap.get? s.teams team).elim 0 fun t => Memory.read t.mem ofs

/-- An 8-byte unit of a team's scratchpad. -/
def Team.unit8 (t : Team) (u : Nat) : DWord := BitVec.ofNat 64 (leNat (Memory.readN t.mem (8 * u) 8))

/-- Values a unit of the scratchpad has held since a moment, the latest first (log entry 119). -/
def Team.valuesSince (t : Team) (u since : Nat) : List DWord :=
  t.unit8 u :: ((t.past.take (t.past.length - since)).filter fun c => c.1 == u).map (·.2)

/-- A value that a unit of a team's scratchpad has held since a moment, freely chosen where there are several. -/
def State.unitSince (s : State) (team u since : Nat) : DWord × State :=
  let vs := (FMap.get? s.teams team).elim [] fun t => t.valuesSince u since
  if vs.length ≤ 1 then (vs.headD 0, s)
  else
    let (r, s) := State.free s
    ((vs[r % vs.length]?).getD 0, s)

/-- Bytes of a scratchpad that a load binds which may bind from a moment: of each of its 8-byte units (R86), what the unit
has held since (R237; log entry 119). -/
def State.earlyLoad (s : State) (team since ofs n : Nat) : List Byte × State :=
  let (a, s) := s.unitSince team (ofs / 8) since
  let (b, s) := if ofs % 8 + n ≤ 8 then (a, s) else s.unitSince team (ofs / 8 + 1) since
  ((List.range n).map fun k =>
    (if (ofs + k) / 8 = ofs / 8 then a else b).extractLsb' (8 * ((ofs + k) % 8)) 8, s)

/-- Write scratchpad bytes; a sector written whole loses its poison mark. -/
def State.writeScratch (s : State) (team : Nat) (cells : List (Nat × Byte)) : State :=
  { s with teams := FMap.adjust s.teams team fun t =>
      let sectors := distinct (cells.map fun c => c.1 / 64)
      let changed := (distinct (cells.map fun c => c.1 / 8)).map fun u => (u, t.unit8 u)
      let whole := sectors.filter fun q => (List.range 64).all fun k => cells.any fun c => c.1 == 64 * q + k
      { t with mem := cells.foldl (fun m c => Memory.write m c.1 c.2) t.mem, past := changed ++ t.past,
               poison := t.poison.filter fun q => !whole.contains q } }

/-- A place some bytes further on. -/
def Loc.add (l : Loc) (k : Nat) : Loc :=
  match l with
  | .mem h pa => .mem h (pa + k)
  | .scratch t o => .scratch t (o + k)
  | .peer d pa => .peer d (pa + k)
  | .lost pa => .lost (pa + k)

/-- The 64-byte granule of a place (R116): a reservation names the place that its address translates to, and not the
address (log entry 106). -/
def Loc.granule : Loc → Nat
  | .mem h pa => memKey h pa / 64
  | .peer d pa => (d + 1) * 2 ^ 48 + pa / 64
  | .scratch t o => (t + 1) * 2 ^ 80 + o / 64
  | .lost pa => 2 ^ 79 + pa / 64

/-- Some byte of a place is poisoned (R339). -/
def State.isPoisoned (s : State) (l : Loc) (n : Nat) : Bool :=
  match l with
  | .mem h pa => (List.range n).any fun k => s.poison.contains (memKey h (pa + k) / 64)
  | .scratch t o => (FMap.get? s.teams t).elim false fun x => (List.range n).any fun k => x.poison.contains ((o + k) / 64)
  | .peer _ _ | .lost _ => false

/-- A core's own gather line holds the whole sector of a place: its bytes replace poisoned ones (R339). -/
def State.coveredBy (s : State) (core : Option Nat) (l : Loc) : Bool :=
  match core, l with
  | some c, .mem h pa => (s.core c).gather.any fun x => GLine.key x == memKey h pa / 64 && x.bytes.toList.all (·.isSome)
  | _, _ => false

/-- The lines of a sector that must leave before a copy, an atomic or a transfer reads it at home: the core's own (R114,
R216), and with promotion those of the cores that have marked it (R100). -/
def State.clearWay (s : State) (core : Option Nat) (dev : Bool) (l : Loc) : State :=
  match l with
  | .mem h pa =>
    let key := memKey h pa / 64
    let s := core.elim s fun c => s.leaveLine c key
    if dev then s.promote core key else s
  | _ => s

/-- Bytes of a place on the bypass path; a peer's memory, and one that cannot be reached, return free bytes (R81, R343). -/
def State.loadLoc (s : State) (core : Option Nat) (dev : Bool) (l : Loc) (n : Nat) : List Byte × State :=
  match l with
  | .mem h pa => s.byLoad core dev h pa n
  | .scratch t o => ((List.range n).map fun k => s.scratchByte t (o + k), s)
  | .peer _ _ | .lost _ => ((List.range n).map fun k => Config.freeByte (s.fresh + k), { s with fresh := s.fresh + n })

/-- Write bytes to places, at the home L2 (the core's own line of a sector leaves first), the scratchpad or a peer,
whose memory is not the machine's (R83, R98, R216); bytes for a fenced die go nowhere (R343). -/
def State.storeLocs (s : State) (core : Option Nat) (cells : List (Loc × Byte)) : State :=
  let memCells := cells.filterMap fun c => match c.1 with
    | .mem h pa => some (memKey h pa, c.2)
    | _ => none
  let s := match core with
    | none => s
    | some c => (distinct (memCells.map fun x => x.1 / 64)).foldl (fun st k => st.leaveLine c k) s
  let s := if memCells.isEmpty then s else s.writeCells memCells
  let far := distinct (cells.filterMap fun c => match c.1 with
    | .peer d pa => some (Loc.granule (.peer d pa))
    | _ => none)
  let s := if far.isEmpty then s else s.dropRsv far fun _ => true
  let teams := distinct (cells.filterMap fun c => match c.1 with
    | .scratch t _ => some t
    | _ => none)
  teams.foldl (fun st t => st.writeScratch t (cells.filterMap fun c => match c.1 with
    | .scratch t' o => if t' == t then some (o, c.2) else none
    | _ => none)) s

end Sys2Proof.Machine
end

