-- ==== Sys2Proof/Machine/Place.lean ====
section
/-! DEFINITION. Where groups stand on a core (R13, R129, R298, R299, R330, R331) and how a gang is formed (R136,
R297). -/

namespace Sys2Proof.Machine

/-- Quadrants of a kind of core (R19, R20). -/
def quadCount : CoreKind → Nat
  | .banner => 8
  | .pennant => 2

/-- Resident slots of a quadrant (R129). -/
def quadSlots : CoreKind → Nat
  | .banner => 64
  | .pennant => 32

/-- Gmax (R13). -/
def maxGroups : CoreKind → Nat
  | .banner => 512
  | .pennant => 64

/-- F, register cells (R13). -/
def regCells : CoreKind → Nat
  | .banner => 262144
  | .pennant => 65536

/-- Largest scratchpad share of a core (R14). -/
def maxScratch : CoreKind → Nat
  | .banner => 917504
  | .pennant => 393216

/-- A team stands on a core. -/
def Team.placed (t : Team) : Bool := t.life == .resident || t.life == .blocked || t.life == .moving

/-- A team holds its core: it stands there, its save is not over (R302), or it has exited with operations outstanding
(R301). -/
def State.holds' (s : State) (tid : Nat) (t : Team) : Bool :=
  t.placed || (t.life == .saved && decide (s.now < t.resumeAt)) ||
    (t.life == .exited && s.gangs.any fun g => g.2.team == tid)

/-- Teams that stand on a core. -/
def State.teamsOn (s : State) (core : Nat) : List (Nat × Team) :=
  s.teams.filter fun t => t.2.core == core && s.holds' t.1 t.2

/-- Gangs that stand on a core. -/
def State.gangsOn (s : State) (core : Nat) : List (Nat × Gang) :=
  s.gangs.filter fun g => (s.teamOf g.2).elim false fun t => t.core == core && s.holds' g.2.team t

/-- Runs of slots in use: quadrant, first slot, groups. -/
abbrev Runs := List (Nat × Nat × Nat)

/-- Runs in use on a core. -/
def State.runsOn (s : State) (core : Nat) : Runs := (s.gangsOn core).map fun g => (g.2.quad, g.2.slot, g.2.groups)

/-- Slots free in a quadrant. -/
def freeIn (k : CoreKind) (r : Runs) (q : Nat) : Nat :=
  quadSlots k - ((r.filter fun x => x.1 == q).map fun x => x.2.2).sum

/-- A run of n slots overlaps none in use. -/
def runFree (r : Runs) (q i n : Nat) : Bool :=
  r.all fun x => x.1 != q || decide (i + n ≤ x.2.1) || decide (x.2.1 + x.2.2 ≤ i)

/-- The lowest aligned free run of n slots in a quadrant (R129). -/
def runIn (k : CoreKind) (r : Runs) (q n : Nat) : Option Nat :=
  ((List.range (quadSlots k / max n 1)).map fun j => j * n).find? fun i => runFree r q i n

/-- A quadrant and slot for n groups: the quadrant with the most free slots that has a run, the lowest on ties
(R299). -/
def placeRun (k : CoreKind) (up : BitVec 8) (r : Runs) (n : Nat) : Option (Nat × Nat) :=
  let qs := ((List.range (quadCount k)).filter fun q => up.getLsbD q).filterMap fun q => (runIn k r q n).map fun i => (q, i)
  qs.foldl (fun best x => match best with
    | none => some x
    | some b => if freeIn k r b.1 < freeIn k r x.1 then some x else some b) none

/-- Place runs of the given sizes one after the other. -/
def placeRuns (k : CoreKind) (up : BitVec 8) : Runs → List Nat → Option (List (Nat × Nat))
  | _, [] => some []
  | r, n :: ns =>
    match placeRun k up r n with
    | none => none
    | some (q, i) => (placeRuns k up ((q, i, n) :: r) ns).map fun l => (q, i) :: l

/-- The code version of a team's kernel: its key in the context. -/
def State.versionKey (s : State) (t : Team) : Nat := (FMap.get? s.grids t.grid).elim 0 (·.version)

/-- A kernel, which a function of a code version is, with its header in an image. -/
abbrev Kernel := Nat × Header

/-- Two teams run one kernel. -/
def Kernel.same (a b : Kernel) : Bool := a.1 == b.1 && a.2.func == b.2.func && a.2.tentry == b.2.tentry

/-- The kernel of a team. -/
def State.kernel (s : State) (t : Team) : Kernel := (s.versionKey t, t.header)

/-- The kernels with a trap entry on a core, with some more, that have no trap-handler gang there (R330). -/
def State.trapKernels (s : State) (core : Nat) (extra : List Kernel) : List Kernel :=
  let ks := ((s.teamsOn core).map fun t => s.kernel t.2) ++ extra
  let once := (ks.filter fun k => k.2.tentry != 0).foldl
    (fun acc k => if acc.any (Kernel.same k) then acc else k :: acc) ([] : List Kernel)
  once.filter fun k => !(s.gangsOn core).any fun g => g.2.trap && (s.teamOf g.2).elim false fun t => Kernel.same (s.kernel t) k

/-- Groups and registers kept free for the trap-handler gangs of some kernels, one each (R330). -/
def trapRoom (ks : List Kernel) : List (Nat × Nat) := ks.map fun k => (k.2.gang / 8, k.2.regs)

/-- Register cells of some groups, each with its declared registers (R13). -/
def cellsOf (l : List (Nat × Nat)) : Nat := (l.map fun x => 8 * x.2 * x.1).sum

/-- Groups and register cells in use on a core. -/
def State.groupsOn (s : State) (core : Nat) : Nat := ((s.gangsOn core).map fun g => g.2.groups).sum

/-- Register cells in use. -/
def State.cellsOn (s : State) (core : Nat) : Nat :=
  cellsOf ((s.gangsOn core).map fun g => (g.2.groups, (s.headerOf g.2).elim 0 (·.regs)))

/-- Scratchpad share of a core with one more kernel (R298). -/
def State.scratchOn (s : State) (core extra : Nat) : Nat :=
  (((s.teamsOn core).map fun t => t.2.header.scratch).sum + extra + 131071) / 131072 * 131072

/-- Bins owned on a core. -/
def State.binsOn (s : State) (core : Nat) : Nat := ((s.teamsOn core).map fun t => t.2.bins.length).sum

/-- Gangs of a team of `groups` groups. -/
def gangSizes (h : Header) (groups : Nat) : List Nat := List.replicate (groups / (h.gang / 8)) (h.gang / 8)

/-- The team fits the core (R298): the runs its gangs of the given sizes would take. -/
def State.fits (s : State) (core ctx ver : Nat) (h : Header) (sizes : List Nat) (bins : Nat) : Option (List (Nat × Nat)) :=
  let k := coreKind core
  let c := s.core core
  let room := trapRoom (s.trapKernels core [(ver, h)])
  let d := s.die (coreDie core)
  if d.present && !d.fenced && c.quadsUp != 0 && (k == .pennant || c.matrixUp) && c.copyUp &&
      (s.teamsOn core).all (fun t => t.2.ctx == ctx) &&
      decide (s.groupsOn core + sizes.sum + (room.map (·.1)).sum ≤ maxGroups k) &&
      decide (s.cellsOn core + cellsOf ((sizes.sum, h.regs) :: room) ≤ regCells k) &&
      decide (s.scratchOn core h.scratch ≤ maxScratch k) &&
      decide (s.binsOn core + bins ≤ Config.spawnBins)
  then (placeRuns k c.quadsUp (s.runsOn core) (sizes ++ room.map (·.1))).map fun l => l.take sizes.length
  else none

/-- A unit that starts at a PC with live lanes (R136). -/
def UnitState.start (width : Nat) (live : Mask) (pc : Word) : UnitState where
  groups := BitVec.ofNat 8 (2 ^ (width / 8) - 1)
  am := live &&& lowLanes width
  km := 0
  fm := 0
  tm := 0
  xm := lowLanes width &&& ~~~live
  ipc := pc
  ev := 0
  hm := false
  inv := 0
  pass := none
  ageFlag := false
  fready := false
  aged := 0
  due := none
  emptyPc := none
  wait := 0
  hs := Vector.replicate 4 0
  stop := .run
  nextIssue := 0
  serial := false
  bpSkip := none
  stopped := false
  leave := false
  rot := false
  rotated := false
  collPc := none
  fifth := none

/-- A gang as R136 forms it; `args` goes to s0:s1. -/
def Gang.start (team width grpn quad slot : Nat) (h : Header) (cls : BitVec 2) (red : Bool) (live : Mask) (pc : Word)
    (args : DWord) : Gang where
  team := team
  width := width
  grpn := grpn
  quad := quad
  slot := slot
  v := []
  hv := Vector.replicate 4 (uniform 0)
  s := if 2 ≤ h.scalars then
      ((Vector.replicate 48 (0 : Word)).set 0 (args.setWidth 32) (by decide)).set 1 (args.extractLsb' 32 32) (by decide)
    else Vector.replicate 48 0
  p := Vector.replicate 32 0
  tile := Vector.replicate 16 0
  lpc := uniform pc
  lag := uniform 0
  lagSeen := uniform 0
  agl := 1024
  trp := 0
  dtb := 0
  dtl := 0
  polc := 0
  eqid := 0
  mpc := 0
  hpc := h.hpc
  cls := cls
  frd := h.fready
  str := h.strict
  red := red
  seq := Vector.replicate 64 0
  rsv := Vector.replicate 64 none
  windows := []
  marks := []
  results := []
  regions := []
  info := {}
  trap := false
  origins := 0
  tagPc := uniform 0
  units := [UnitState.start width live pc]

/-- Put thread payloads into v0..v(n−1) of the lanes, n the smaller of 8 and the declared registers (R297, R331). -/
def Gang.payload (g : Gang) (regs : Nat) (ts : List Thread) : Gang :=
  (List.range (min 8 regs)).foldl (fun g k =>
    { g with v := FMap.set g.v k (Vector.ofFn fun l : Fin 64 => (((ts[l.val]?).bind fun t => t.pay[k]?).getD 0)) }) g

/-- Group numbers in use in a team, below 128. -/
def State.grpnUsed (s : State) (tid n g : Nat) : Bool :=
  s.gangs.any fun x => x.2.team == tid && !x.2.trap && decide (x.2.grpn < n + g) && decide (n < x.2.grpn + x.2.groups)

/-- Lowest free block of g group numbers at a multiple of g (R297). -/
def State.freeGrpn (s : State) (tid g : Nat) : Option Nat :=
  ((List.range (128 / max g 1)).map fun j => j * g).find? fun n => !s.grpnUsed tid n g

/-- Class and redundancy of a team's gangs (R134). -/
def State.gangMode (s : State) (t : Team) : BitVec 2 × Bool :=
  (FMap.get? s.grids t.grid).elim (t.header.cls, t.header.redundant) fun g =>
    (if g.lr.cls = 0xFF then t.header.cls else BitVec.ofNat 2 g.lr.cls, t.header.redundant || g.lr.red == 1)

/-- Argument pointer of a team's grid. -/
def State.gridArgs (s : State) (t : Team) : DWord := (FMap.get? s.grids t.grid).elim 0 fun g => BitVec.ofNat 64 g.lr.args

/-- Form one gang of threads in a team (R297, R331); `none` where its groups do not fit, or the team stands on no core. A
trap-handler gang takes the room kept for its own kernel, and leaves that of the others (R330). -/
def State.formGang (s : State) (tid width : Nat) (pc : Word) (ts : List Thread) (trap : Bool) : Option State :=
  match FMap.get? s.teams tid with
  | none => none
  | some t =>
    if t.life != .resident && t.life != .blocked then none else
    let n := width / 8
    let k := coreKind t.core
    let others := (s.trapKernels t.core []).filter fun k => !trap || !Kernel.same (s.kernel t) k
    let room := trapRoom others
    let live := lowLanes ts.length
    let (cls, red) := s.gangMode t
    match placeRuns k (s.core t.core).quadsUp (s.runsOn t.core) (n :: room.map (·.1)),
        (if trap then some 128 else s.freeGrpn tid n) with
    | some ((q, i) :: _), some grpn =>
      if s.groupsOn t.core + n + (room.map (·.1)).sum ≤ maxGroups k ∧
          s.cellsOn t.core + cellsOf ((n, t.header.regs) :: room) ≤ regCells k then
        let (gid, s) := s.newId
        let g := (Gang.start tid width grpn q i t.header cls red live pc (s.gridArgs t)).payload t.header.regs ts
        some (s.setGang gid { g with trap := trap })
      else none
    | _, _ => none

/-- A team runs again: a gang has been formed in it. -/
def State.enliven (s : State) (tid : Nat) : State :=
  { s with teams := FMap.adjust s.teams tid fun t => if t.life == .blocked then { t with life := .resident } else t }

/-- Replace a bin of a team. -/
def State.setBin (s : State) (tid idx : Nat) (b : Bin) : State :=
  { s with teams := FMap.adjust s.teams tid fun t => { t with bins := FMap.set t.bins idx b } }

/-- A spawn bin forms gangs while it holds W threads; on a flush one more from all it holds. Without room the threads
stay held, and a flush stays due (R297). -/
def State.formBin (s : State) (tid idx : Nat) (flush : Bool) : Nat → State
  | 0 => s
  | n + 1 =>
    match (FMap.get? s.teams tid).bind fun t => FMap.get? t.bins idx with
    | none => s
    | some b =>
      let due := flush || b.flush
      let take := if b.width ≤ b.threads.length then b.width else if due then b.threads.length else 0
      if take = 0 then s.setBin tid idx { b with flush := false }
      else
        match s.formGang tid b.width b.key (b.threads.take take) false with
        | none => s.setBin tid idx { b with flush := due }
        | some s' =>
          let b' := { b with threads := b.threads.drop take, flush := due }
          ((s'.setBin tid idx b').enliven tid).formBin tid idx false n

/-- Form the flushed threads of re-keyed and freed bins that fit now (R295). -/
def State.formBatches (s : State) (tid : Nat) : State :=
  match FMap.get? s.teams tid with
  | none => s
  | some t =>
    t.batches.foldl (fun s b =>
      match s.formGang tid b.2.1 b.1 b.2.2 false with
      | none => s
      | some s' => ({ s' with teams := FMap.adjust s'.teams tid fun t => { t with batches := t.batches.erase b } }).enliven tid) s

/-- Form the trap-handler gangs that wait and fit now (R330). -/
def State.formTrap (s : State) (core : Nat) : State :=
  (s.core core).trapWait.foldl (fun s b =>
    let width := (FMap.get? s.teams b.team).elim 8 fun t => t.header.gang
    match s.formGang b.team width b.tentry b.threads true with
    | none => s
    | some s' =>
      let c := s'.core core
      (s'.setCore core { c with trapWait := c.trapWait.erase b }).enliven b.team) s

/-- The trap bin of a core is flushed: its threads wait for room, and form where they fit (R330). -/
def State.flushTrap (s : State) (core : Nat) : State :=
  let c := s.core core
  match c.trapBin with
  | none => s
  | some b => (s.setCore core { c with trapBin := none, trapWait := c.trapWait ++ [b] }).formTrap core

/-- Groups have become free on a core: what waits for room is formed. -/
def State.retryForm (s : State) (core : Nat) : State :=
  let s := s.formTrap core
  (s.teamsOn core).foldl (fun s t =>
    t.2.bins.foldl (fun s b => s.formBin t.1 b.1 false 65) (s.formBatches t.1)) s

end Sys2Proof.Machine
end

