-- ==== Sys2Proof/Machine/Ops.lean ====
section
/-! DEFINITION. The shared operations: records and rings (R328, R369, R370, R375), the trap frame (R334), TAKING A
FAULT (R324, R325, R330, R337, R345) and the returns from one (R93, R192, R329, R333), the end of lanes and gangs
(R183, R301), windows and the scoreboard (R38, R143), and the shape of a lane-engine word (R146). -/

namespace Sys2Proof.Machine

/-! ### Codes -/

/-- Cause codes (R324). -/
def causeCode : Cause → Nat
  | .illegal => 0x01 | .reservedMajor => 0x02 | .window => 0x03 | .scratch => 0x04 | .barrier => 0x05
  | .pageFault => 0x06 | .protection => 0x07 | .bufferBounds => 0x08 | .unknownFlag => 0x09 | .checkWord => 0x0A
  | .overflow => 0x0B | .dispatch => 0x0C | .partialColl => 0x0D | .troupe => 0x0E | .nested => 0x0F
  | .policy => 0x10 | .absent => 0x11 | .misaligned => 0x12 | .stream => 0x13 | .uncorrectable => 0x14
  | .compute => 0x15 | .firmware => 0x16 | .syscall => 0x17

/-- Event codes (R184). -/
def evCode : EvCode → Nat
  | .br => 1 | .brx => 2 | .empty => 3 | .join => 4 | .age => 5 | .coll => 6 | .fready => 7

/-- `CTXCTL` bits (R374). -/
def Ctx.bit (c : Ctx) (k : Nat) : Bool := c.ctl.getLsbD k

/-! ### Records and rings -/

/-- Queue a record for a ring: one entry of 64 bytes or several (R375). -/
def Ring.push (r : Ring) (rec : List Byte) : Ring := { r with waiting := r.waiting ++ [rec] }

/-- Queue a fault-ring record of a context. -/
def State.faultRec (s : State) (c : Nat) (rec : List Byte) : State :=
  s.setCtx c { s.ctx c with faults := (s.ctx c).faults.push rec }

/-- Room for `n` entries in a ring. -/
def Ring.room (r : Ring) (n : Nat) : Bool :=
  let size := 2 ^ r.n
  decide (n ≤ (r.tail + 2 * size - r.head - 1) % size)

/-- The first waiting record enters the ring, where there is room: the record, then the head (R375). -/
def State.ringStep (s : State) (r : Ring) : Option (Ring × State) :=
  match r.waiting with
  | [] => none
  | rec :: rest =>
    let n := (rec.length + 63) / 64
    if !r.room n then none
    else
      let size := 2 ^ r.n
      let put (m : Memory) (k : Nat) : Memory :=
        Memory.writeN m (r.base.toNat + 64 * ((r.head + k) % size)) ((rec.drop (64 * k)).take 64)
      some ({ r with waiting := rest, head := (r.head + n) % size },
        { s with dev := { s.dev with hostMem := (List.range n).foldl put s.dev.hostMem } })

/-- Name of a gang in records (R359). -/
def State.nameOf (s : State) (g : Gang) : Who :=
  ⟨(s.gridOf g).elim 0 (·.lpc0), (s.gridOf g).elim 0 (·.lseq), s.coreOf g, s.gslot g 0⟩

/-- A 64-byte fault-ring record (R375). -/
def faultRecord (type ctx cause follow pc value : Nat) (w : Who) (lanes unit : Nat) : List Byte :=
  leBytes 1 type ++ leBytes 1 ctx ++ leBytes 1 cause ++ leBytes 1 follow ++ leBytes 4 pc ++ leBytes 8 value ++
  leBytes 4 w.lseq.toNat ++ leBytes 4 w.lpc0.toNat ++ leBytes 2 w.core ++ leBytes 2 w.slot ++ leBytes 8 lanes ++
  leBytes 4 unit ++ leBytes 24 0

/-- Write one 64-byte record at `TRBASE + TRPUT` and advance, or drop it (R370). -/
def State.traceOne (s : State) (core c : Nat) (rec : List Byte) : Bool × State :=
  let x := s.ctx c
  let size := x.trSize.toNat * Config.codePage
  if size ≤ x.trPut.toNat then (false, s)
  else
    let va := x.trBase.toNat + x.trPut.toNat
    match s.translate core c va with
    | (.leaf e bits, s) =>
      if !pteW e then (false, s)
      else match s.leafLoc e bits va with
        | .mem h pa =>
          let s := s.thruStore none h pa rec
          let x := s.ctx c
          let put := x.trPut.toNat + 64
          let put' := if size ≤ put ∧ x.bit 1 then 0 else put
          (true, s.setCtx c { x with trPut := BitVec.ofNat 64 put' })
        | _ => (false, s)
    | (_, s) => (false, s)

/-- A trace record (R369): type, breakpoint number, code, A, PC, clock, and bytes 32..63. -/
def traceBytes (w : Who) (type bp code a : Nat) (pc : Word) (clk : Nat) (tail : List Byte) : List Byte :=
  leBytes 1 type ++ leBytes 1 bp ++ leBytes 2 w.core ++ leBytes 4 w.lpc0.toNat ++ leBytes 4 w.lseq.toNat ++
    leBytes 4 pc.toNat ++ leBytes 2 w.slot ++ leBytes 2 code ++ leBytes 4 a ++ leBytes 8 clk ++
    (tail ++ leBytes 32 0).take 32

/-- A record is dropped (R370). -/
def State.traceDrop (s : State) (c : Nat) : State :=
  s.setCtx c { s.ctx c with trDrop := (s.ctx c).trDrop + 1, trGap := (s.ctx c).trGap + 1 }

/-- Write a trace record, a gap record before it where records were dropped (R370). -/
def State.trace (s : State) (c : Nat) (w : Who) (type bp code a : Nat) (pc : Word) (clk : Nat) (tail : List Byte) :
    State :=
  let gap := (s.ctx c).trGap
  let (ok, s) := if gap = 0 then (true, s) else s.traceOne w.core c (traceBytes w 5 0xFF 0 gap pc clk [])
  if !ok then s.traceDrop c
  else
    let s := if gap = 0 then s else s.setCtx c { s.ctx c with trGap := 0 }
    match s.traceOne w.core c (traceBytes w type bp code a pc clk tail) with
    | (true, s) => s
    | (false, s) => s.traceDrop c

/-! ### Streams of a group (R95) -/

/-- Operations of a group in a stream that have not completed, oldest first. -/
def State.outstanding (s : State) (gid grp sn : Nat) : List (Nat × Part) :=
  s.ops.filterMap fun (n, o) =>
    if o.gang = gid ∧ o.sn.toNat = sn then (o.parts.find? fun p => p.grp == grp && !p.completed).map fun p => (n, p)
    else none

/-- Next-issue sequence number (R95). -/
def Gang.nextSeq (g : Gang) (grp sn : Nat) : BitVec 16 := vget g.seq ((8 * grp + sn) % 64) (Nat.mod_lt _ (by decide))

/-- Oldest outstanding sequence number; the next one where none is outstanding (R127). -/
def State.oldestSeq (s : State) (gid : Nat) (g : Gang) (grp sn : Nat) : BitVec 16 :=
  match s.outstanding gid grp sn with
  | [] => g.nextSeq grp sn
  | (_, p) :: _ => p.seq

/-! ### The trap frame (R334) -/

/-- Image kind of a gang's first unit. -/
def State.gangImage (s : State) (gid : Nat) (g : Gang) : ImageKind :=
  s.imageKind ⟨gid, 0, g, g.units.headD default⟩

/-- The windows a gang's trap frame shows: those open as its latest fault was taken, else those open now (R40). -/
def Gang.frameWindows (g : Gang) : List Window := if g.info.cause == 0 then g.windows else g.info.windows

/-- A unit holds a lower group than another. -/
def lowGroup (u : UnitState) : Nat := ((List.range 8).find? fun k => u.groups.getLsbD k).getD 8

/-- The first of some units: the one with the lowest group (R197). -/
def firstUnit (us : List UnitState) : UnitState :=
  us.foldl (fun a b => if lowGroup b < lowGroup a then b else a) (us.headD default)

/-- The unit whose PC, event and mode a frame shows, which has room for one: of a split gang, the unit of the lowest group
(R197, R334; log entry 114). -/
def Gang.lead (g : Gang) : UnitState :=
  let live := g.units.filter fun u => u.live g.width
  firstUnit (if live.isEmpty then g.units else live)

/-- The 512-byte trap frame of a gang. -/
def State.frameBytes (s : State) (gid : Nat) (g : Gang) : List Byte :=
  let u := g.lead
  let f : Frame := ⟨gid, 0, g, u⟩
  let w := s.nameOf g
  let hm := g.units.any (·.hm)
  let flags := (if g.info.mem then 1 else 0) + (if hm then 2 else 0) + (if g.trap then 4 else 0) +
    (if g.regions.isEmpty then 0 else 8)
  let mask (m : UnitState → Mask) : List Byte := leBytes 8 (g.allOf m).toNat
  let win (k : Nat) : List Byte := match g.frameWindows[k]? with
    | none => leBytes 8 0
    | some w => leBytes 4 w.pc.toNat ++ leBytes 2 w.count ++ leBytes 1 w.la ++ leBytes 1 1
  let stream (grp sn : Nat) : List Byte :=
    if grp < g.groups then
      leBytes 2 (g.nextSeq grp sn).toNat ++ leBytes 2 (s.oldestSeq gid g grp sn).toNat ++
        leBytes 1 (s.outstanding gid grp sn).length ++ leBytes 1 1
    else leBytes 6 0
  leBytes 1 g.info.cause.toNat ++ leBytes 1 (imageCode (s.imageKind f)) ++ leBytes 2 g.eqid.toNat ++
  leBytes 4 g.info.fpc.toNat ++ leBytes 4 g.mpc.toNat ++ leBytes 4 u.ipc.toNat ++
  mask (fun u => if u.hm then 0 else u.am) ++ mask (·.km) ++ mask (·.fm) ++ mask (·.tm) ++ mask (·.xm) ++
  leBytes 1 g.info.sn.toNat ++ leBytes 1 g.info.pm.toNat ++ leBytes 1 g.info.sc.toNat ++ leBytes 1 flags ++
  leBytes 4 (s.gmode f).toNat ++ leBytes 4 w.lseq.toNat ++ leBytes 4 w.lpc0.toNat ++ leBytes 2 w.core ++ leBytes 2 w.slot ++
  leBytes 1 g.width ++ leBytes 1 g.regions.length ++ leBytes 2 0 ++ leBytes 8 u.ev.toNat ++ leBytes 4 g.polc.toNat ++
  leBytes 4 g.trp.toNat ++ (List.range 4).flatMap win ++
  (List.range 8).flatMap fun grp => (List.range 8).flatMap fun sn => stream grp sn

/-! ### Age (R135, R199) -/

/-- Lanes of `km` that come to `lag` ≥ `agl` and have not raised the flag since they executed (R199). -/
def agedNow (g : Gang) (u : UnitState) : Mask :=
  u.km &&& ~~~u.aged &&& maskOf fun l => decide (g.agl.toNat ≤ (LaneVec.at' g.lag l).toNat)

/-- Set the age-pending flag where a lane of `km` has come of age (R199). -/
def UnitState.age (g : Gang) (u : UnitState) : UnitState :=
  let m := agedNow g u
  if m == 0 then u else { u with ageFlag := true, aged := u.aged ||| m }

/-- A value written to `agl` takes effect: lanes of `km` may have come of age by it (R135, R199). -/
def Gang.takeAgl (g : Gang) : Gang :=
  match g.aglNext with
  | none => g
  | some (v, _) =>
    let g' := { g with agl := v, aglNext := none }
    { g' with units := g'.units.map (UnitState.age g') }

/-! ### Moving lanes between the masks (R128) -/

/-- Store `ipc` into the PCs of lanes that leave `am`. -/
def Frame.saveLpc (f : Frame) (m : Mask) (pc : Word) : Frame :=
  { f with g := { f.g with lpc := mergeLanes m (uniform pc) f.g.lpc } }

/-- Take lanes out of every mask but `xm`. -/
def UnitState.remove (u : UnitState) (m : Mask) : UnitState :=
  { u with am := u.am &&& ~~~m, km := u.km &&& ~~~m, fm := u.fm &&& ~~~m, tm := u.tm &&& ~~~m }

/-- Note the word that emptied `am` (R184). -/
def UnitState.noteEmpty (u : UnitState) (before : Mask) (pc : Word) : UnitState :=
  if before != 0 && u.am == 0 then { u with emptyPc := some pc } else u

/-- Lanes become trap-parked with their PC on a word. -/
def Frame.park (f : Frame) (m : Mask) (pc : Word) : Frame :=
  let f := f.saveLpc m pc
  let u := f.u.remove m
  { f with u := { u with tm := u.tm ||| m }.noteEmpty f.u.am pc }

/-- Lanes become ready (R93, R329, R333): parked lanes move to `km`, keeping their PC. -/
def UnitState.ready (u : UnitState) (m : Mask) : UnitState :=
  let u' := u.remove m
  { u' with km := u'.km ||| m, emptyPc := if u.am == 0 && u.km == 0 then none else u.emptyPc }

/-! ### Taking a fault -/

/-- What stands at a PC of a gang's version. -/
def State.wordAt (s : State) (g : Gang) (pc : Word) : DWord := (s.versionOf g).elim 0 fun v => Version.word v pc.toNat

/-- Fault information for the trap frame: the word's ordering fields (R334). -/
def State.faultInfo (s : State) (g : Gang) (cause : Cause) (pc : Word) : FaultInfo :=
  let o := (decodeWord (s.wordAt g pc)).bind fun i => (info i).ord
  { cause := BitVec.ofNat 8 (causeCode cause), fpc := pc, sn := o.elim 0 (·.sn), pm := o.elim 0 (·.pm),
    sc := o.elim 0 fun o => scCode o.sc, mem := o.isSome, windows := g.windows }

/-- A context fault or a stop: the flag-down becomes due, and its record shows the gang that caused it (R345, R359). -/
def State.escalateFor (s : State) (g : Gang) (d : Down) : State :=
  let c := s.ctxOf g
  let x := s.ctx c
  if x.life == .running && x.down.isNone then
    s.setCtx c { x with down := some { d with
      at_ := s.now, who := s.nameOf g, frame := if d.reason = 2 then [] else s.frameBytes d.gang g } }
  else s

/-- A context fault or `halt` of a gang. -/
def State.escalate (s : State) (d : Down) : State :=
  match FMap.get? s.gangs d.gang with
  | none => s
  | some g => s.escalateFor g d

/-- The region's mask catches a cause (R335). -/
def Region.catches (r : Region) (cause : Cause) : Bool :=
  cause == .uncorrectable ||
    (r.mask.getLsbD (causeCode cause) && cause != .pageFault && cause != .policy && cause != .syscall)

/-- Innermost catching region of a stack, with its depth; the head of the list is innermost. -/
def catching (cause : Cause) : List Region → Option (Region × Nat)
  | [] => none
  | r :: rs => if r.catches cause then some (r, rs.length + 1) else catching cause rs

/-- Ask for the entry of a region, once (R337). -/
def State.askEntry (s : State) (tid : Nat) (r : Region) (depth : Nat) (cause : Cause) : State :=
  { s with teams := FMap.adjust s.teams tid fun t =>
      if t.entries.any fun e => e.1 == r.pc && e.2.1 == depth then t
      else { t with entries := t.entries ++ [(r.pc, depth, causeCode cause)] } }

/-- The payload of a trap-handler lane (R331). -/
def State.trapPayload (s : State) (g : Gang) (l : Nat) (cause : Cause) (pc : Word) (ea : DWord) : List Word :=
  let slot := s.gslot g (l / 8)
  let tag := pc.toNat + (l % 8) * 2 ^ 32 + slot * 2 ^ 35 + s.coreOf g * 2 ^ 44 + causeCode cause * 2 ^ 54
  let hasEa := cause == .scratch || cause == .protection || cause == .bufferBounds || cause == .misaligned ||
    cause == .uncorrectable
  let e := if hasEa then ea.toNat else 0
  let w := (s.wordAt g pc).toNat
  [tag, tag / 2 ^ 32, e, e / 2 ^ 32, w, w / 2 ^ 32, 0, 0].map (BitVec.ofNat 32)

/-- One lane goes to its core's trap bin (R330): threads of another team or entry are flushed first; a full bin forms a
gang. -/
def State.compactLane (s : State) (gid : Nat) (g : Gang) (h : Header) (cause : Cause) (pc : Word) (ea : DWord) (l : Nat) :
    State :=
  let core := s.coreOf g
  let s := match (s.core core).trapBin with
    | some b => if b.team == g.team && b.tentry == h.tentry then s else s.flushTrap core
    | none => s
  let th : Thread := ⟨s.trapPayload g l cause pc ea, s.now⟩
  let c := s.core core
  let held := c.trapBin.elim [] (·.threads) ++ [th]
  let s := s.setCore core { c with trapBin := some ⟨g.team, h.tentry, held⟩ }
  let tag := maskOf fun k => k == l
  let here := (l, core, s.gslot g (l / 8))
  let s := { s with gangs := FMap.adjust s.gangs gid fun g =>
    { g with origins := g.origins ||| tag, tagPc := mergeLanes tag (uniform pc) g.tagPc
             tagPlaces := here :: g.tagPlaces.filter fun p => p.1 != l } }
  if h.gang ≤ held.length then s.flushTrap core else s

/-- One lane's fault: lane, cause, effective address. -/
structure Hit where
  lane : Nat
  cause : Cause
  ea : DWord := 0
  deriving DecidableEq, Repr, Inhabited

/-- Delivery of one lane's fault (R325): a trap-handler gang escalates; a halting context only records; then the
innermost catching region at or below a depth, the trap bin, or a context fault. -/
def State.deliver (s : State) (gid : Nat) (pc : Word) (lanes : Mask) (h : Hit) : State :=
  match FMap.get? s.gangs gid with
  | none => s
  | some g =>
    let down : Down := { cause := causeCode h.cause, pc := pc, value := h.ea.toNat, lanes := lanes, gang := gid }
    if g.trap then s.escalate down
    else if (s.ctx (s.ctxOf g)).life != .running then s
    else match catching h.cause g.regions with
      | some (r, d) => s.askEntry g.team r d h.cause
      | none =>
        match s.headerOf g with
        | none => s
        | some hd =>
          if hd.tentry != 0 then s.compactLane gid g hd h.cause pc h.ea h.lane
          else s.escalate down

/-- Lanes of some faults. -/
def hitMask (hs : List Hit) : Mask := maskOf fun l => hs.any fun h => h.lane == l

/-- The lanes of a gang that have not exited become trap-parked with their PC on a word, each in its own unit. -/
def Gang.parkTrap (g : Gang) (m : Mask) (pc : Word) : Gang :=
  let m := m &&& ~~~g.allOf (·.xm)
  let one (u : UnitState) : UnitState :=
    let h := m &&& groupLanes u.groups g.width
    if h == 0 then u else
      let u' := u.remove h
      ({ u' with tm := u'.tm ||| h }).noteEmpty u.am pc
  { g with lpc := mergeLanes m (uniform pc) g.lpc, units := g.units.map one }

/-- TAKING A FAULT: the one lane-fault operation (R324, R325, R334). The lanes become trap-parked with their PC on the
word, the trap frame's fault is set, and each lane's fault is delivered, in ascending lane order. -/
def State.takeFaults (s : State) (gid : Nat) (hs : List Hit) (pc : Word) : State :=
  match FMap.get? s.gangs gid with
  | none => s
  | some g =>
    match hs.getLast? with
    | none => s
    | some h =>
      let g' := g.parkTrap (hitMask hs) pc
      let s' := s.setGang gid { g' with info := s.faultInfo g h.cause pc }
      hs.foldl (fun s h => s.deliver gid pc (hitMask hs) h) s'

/-- A handler-mode word faults (R191): the invocation ends and the lanes of `km` become trap-parked, keeping theirs; with
no lane in `km` it is delivered to none (log entry 125). -/
def State.handlerFault (s : State) (f : Frame) (cause : Cause) (pc : Word) : State :=
  let u := { f.u with hm := false, km := 0, tm := f.u.tm ||| f.u.km }
  let s' := s.put { f with u := u, g := { f.g with info := s.faultInfo f.g cause pc } }
  (lanesOf f.u.km).foldl (fun s l => s.deliver f.gid pc f.u.km ⟨l, cause, 0⟩) s'

/-- The word of a unit faults for lanes, each with its cause (R50, R191, R325). -/
def State.laneFaults (s : State) (gid ui : Nat) (hs : List Hit) (pc : Word) : State :=
  match s.frameOf gid ui with
  | none => s
  | some f =>
    match hs.head? with
    | none => s
    | some h => if f.u.hm then s.handlerFault f h.cause pc else s.takeFaults gid hs pc

/-- The word of a unit faults for lanes with one cause; in handler mode whatever the lanes. -/
def State.laneFault (s : State) (gid ui : Nat) (lanes : Mask) (cause : Cause) (pc : Word) : State :=
  match s.frameOf gid ui with
  | none => s
  | some f =>
    if f.u.hm then s.handlerFault f cause pc
    else s.takeFaults gid ((lanesOf (lanes &&& ~~~f.u.xm)).map fun l => ⟨l, cause, 0⟩) pc

/-- The executing word faults for lanes, at its own PC. -/
def State.fault (s : State) (f : Frame) (lanes : Mask) (cause : Cause) : State :=
  if lanes == 0 && !f.u.hm then s else s.laneFault f.gid f.ui lanes cause f.u.ipc

/-- What an asynchronous fault that is raised while its context halts leaves in its gang's frame (R345; log entry 83). -/
def Op.faultInfo (o : Op) (g : Gang) (cause : Cause) : FaultInfo :=
  { cause := BitVec.ofNat 8 (causeCode cause), fpc := o.pc, sn := o.sn, pm := o.pm, sc := scCode o.sc, mem := true,
    windows := g.windows }

/-- An asynchronous fault of an operation (R325, R232): the innermost catching region the operation belongs to is entered,
or a context fault follows, whose frame describes the gang's latest lane fault (R334), but shows the SN, PM and SC of the
operation's word, which R232 names (log entry 129). In a halting context the fault joins the frame and starts nothing
further (R345; log entry 83). -/
def State.asyncFault (s : State) (o : Op) (cause : Cause) (value : Nat) (fw : Option FwName := none) : State :=
  match FMap.get? s.gangs o.gang with
  | none => s
  | some g =>
    let inner := match o.region with
      | none => []
      | some (_, d) => g.regions.drop (g.regions.length - d)
    if (s.ctx (s.ctxOf g)).life != .running then s.setGang o.gang { g with info := o.faultInfo g cause }
    else match catching cause inner with
    | some (r, d) => s.askEntry g.team r d cause
    | none => s.escalateFor { g with info := { g.info with sn := o.sn, pm := o.pm, sc := scCode o.sc, mem := true } }
        { cause := causeCode cause, pc := o.pc, value := value, lanes := o.lanes, gang := o.gang, fw := fw }

/-- Number of a unit in the test log and in records (R341, R375). -/
def unitNum : HwUnit → Nat
  | .lanes core quad pos => 64 * core + 8 * quad + pos
  | .matrix core => 0x10000 + core
  | .copy core => 0x20000 + core
  | .engine die eng => 0x30000 + 4 * die + eng
  | .l2slice die n => 0x40000 + 256 * die + n
  | .hbm die n => 0x50000 + 256 * die + n
  | .walker die => 0x60000 + die

/-- A machine check makes its unit suspect (R341). -/
def TestLog.suspect (l : TestLog) : TestLog := { l with state := max l.state 1, checked := true }

/-- A unit's slices come first in its tests, and it is suspect; a fenced one is tested no more (R341). -/
def Dev.suspect (d : Dev) (n : Nat) : Dev :=
  let l := FMap.getD d.tests n {}
  let first := d.testFirst.filter fun k => k != n
  { d with tests := FMap.set d.tests n l.suspect, testFirst := if l.state = 2 then first else n :: first }

/-- A corrected event is logged for a unit (R339, R340). -/
def State.logCorrected (s : State) (n : Nat) : State :=
  { s with dev := { s.dev with corrected := FMap.set s.dev.corrected n (FMap.getD s.dev.corrected n 0 + 1) } }

/-- A unit report goes to the fault ring of a context, and its units are tested next (R325, R340, R341, R375). `detail`
stands above the number of the first unit: the datapath positions or the K-block step (log entry 58). -/
def State.unitReport (s : State) (g : Gang) (cause : Cause) (pc : Word) (lanes : Mask) (us : List HwUnit) (detail : Nat) :
    State :=
  let n := (us.head?.elim 0 unitNum) + 2 ^ 20 * detail
  let s := s.faultRec (s.ctxOf g)
    (faultRecord 3 (s.ctxOf g) (causeCode cause) 0 pc.toNat 0 (s.nameOf g) lanes.toNat n)
  us.foldl (fun s u => { s with dev := s.dev.suspect (unitNum u) }) s

/-! ### The end of lanes, gangs and teams (R183, R297, R301) -/

/-- Every lane of a gang has exited. -/
def Gang.ended (g : Gang) : Bool := g.units.all fun u => groupLanes u.groups g.width &&& ~~~u.xm == 0

/-- Operations of a gang that are outstanding. -/
def State.opsOf (s : State) (gid : Nat) : List (Nat × Op) := s.ops.filter fun o => o.2.gang == gid

/-- A team holds threads that have not become gangs. -/
def State.holdsThreads (s : State) (tid : Nat) : Bool :=
  ((FMap.get? s.teams tid).elim false fun t =>
    !t.batches.isEmpty || t.bins.any fun b => !b.2.threads.isEmpty) ||
  s.cores.any fun c => c.2.trapBin.elim false (fun b => b.team == tid) || c.2.trapWait.any fun b => b.team == tid

/-- A context is halted: its state is frozen (R344). -/
def State.frozen (s : State) (c : Nat) : Bool := (s.ctx c).life == .halted

/-- The context of a gang is halted (R344). -/
def State.gangFrozen (s : State) (gid : Nat) : Bool := (FMap.get? s.gangs gid).elim false fun g => s.frozen (s.ctxOf g)

/-- The operation or result of a gang with a number comes of a word that waits for its recompute (R144). -/
def State.redoHeld (s : State) (gid id : Nat) : Bool :=
  s.cores.any fun c => c.2.quads.any fun q => q.2.redo.any fun r => r.gang == gid && r.id == id

/-- A duplicated word of a gang waits for its recompute (R144). -/
def State.redoing (s : State) (gid : Nat) : Bool :=
  s.cores.any fun c => c.2.quads.any fun q => q.2.redo.any fun r => r.gang == gid

/-- A `spawn` of a team is outstanding (R301). -/
def State.spawning (s : State) (tid : Nat) : Bool :=
  s.ops.any fun o => (match o.2.kind with
    | .spawn .. => true
    | _ => false) && (FMap.get? s.gangs o.2.gang).elim false fun g => g.team == tid

/-- A gang of a team runs. -/
def State.teamRuns (s : State) (tid : Nat) : Bool := s.gangs.any fun x => x.2.team == tid && !x.2.ended

/-- When the last gang of a team has ended, bins with threads flush; with no thread and no `spawn` left the team has
exited: its core's gather buffer drains (R83, R297, R301). Its bins are free once no operation of it is outstanding. -/
def State.teamOver (s : State) (tid core : Nat) : State :=
  if s.teamRuns tid then s
  else
    let bins := (FMap.get? s.teams tid).elim [] (·.bins)
    let s := bins.foldl (fun s b => s.formBin tid b.1 true 65) s
    if s.teamRuns tid || s.holdsThreads tid || s.spawning tid then s
    else
      let left := s.gangs.any fun x => x.2.team == tid
      let s := if !left || (FMap.get? s.teams tid).any (fun t => t.life != .exited) then s.drain core else s
      { s with teams := FMap.adjust s.teams tid fun t =>
          { t with life := .exited, bins := if left then t.bins else [] } }

/-- A gang has ended, or an operation of it is over: with nothing outstanding it leaves its slots, and what waited for
room is formed; its team may be over with it (R183, R297, R301). -/
def State.reap (s : State) (gid : Nat) : State :=
  match FMap.get? s.gangs gid with
  | none => s
  | some g =>
    if !g.ended then s
    else
      let core := s.coreOf g
      let quiet := (s.opsOf gid).isEmpty && g.results.isEmpty && !s.redoing gid
      let s := if quiet then ({ s with gangs := FMap.erase s.gangs gid } : State).teamOver g.team core
        else s.teamOver g.team core
      if quiet then s.retryForm core else s

/-- Lanes leave for `xm` (R183, R329, R333). -/
def State.exitLanes (s : State) (gid ui : Nat) (m : Mask) (pc : Word) : State :=
  match s.frameOf gid ui with
  | none => s
  | some f =>
    let u := f.u.remove m
    let s := s.put { f with u := { u with xm := u.xm ||| m }.noteEmpty f.u.am pc,
                            g := { f.g with origins := f.g.origins &&& ~~~m } }
    s.reap gid

/-! ### Windows, scoreboard, issue bookkeeping (R38, R135, R143, R179) -/

/-- Extra clocks of a pennant core for wide gangs: max(1, W / 16) − 1. -/
def wideExtra (k : CoreKind) (width : Nat) : Nat :=
  match k with
  | .banner => 0
  | .pennant => max 1 (width / 16) - 1

/-- Latency of a class (R143, R165, R258, R309). -/
def latency (k : CoreKind) (width : Nat) (red : Bool) : Lat → Nat
  | .none => 0
  | .far => 0
  | .matrix => 8
  | .quant => 24
  | l =>
    let n := match k, l with
      | .banner, .alu => 4 | .pennant, .alu => 2
      | .banner, .mul => 6 | .pennant, .mul => 4
      | .banner, .xch => 8 | .pennant, .xch => 4
      | .banner, .div32 => 36 | .pennant, .div32 => 24
      | .banner, .div64 => 68 | .pennant, .div64 => 44
      | .banner, .trans => 20 | .pennant, .trans => 14
      | .banner, .fdiv => 28 | .pennant, .fdiv => 18
      | _, _ => 0
    n + wideExtra k width + (if red then 2 else 0)

/-- The places a word writes (R143). -/
def writeLocs (f : Frame) (i : Info) : List RegLoc :=
  (i.wr.flatMap fun s => (List.range s.2).filterMap fun k => regLoc f (Reg.next s.1 k)) ++
    i.pwr.map (fun p => .p p.toNat) ++ (i.twr.map fun t => RegLoc.t t.toNat).toList

/-- The places a word reads, its guard included (R143). -/
def readLocs (f : Frame) (i : Info) : List RegLoc :=
  (i.rd.flatMap fun s => (List.range s.2).filterMap fun k => regLoc f (Reg.next s.1 k)) ++
    i.prd.map (fun p => .p p.toNat) ++ (i.trd.map fun t => RegLoc.t t.toNat).toList ++
    (match i.hdr.guard with
     | .always => []
     | .on p _ => [.p p.toNat])

/-- Mark what a plain word writes until its latency has passed. -/
def State.markPlain (s : State) (f : Frame) (i : Info) : State :=
  let core := s.coreOf f.g
  let till := s.clock core + latency (coreKind core) f.g.width f.g.red i.lat + (if i.matrix then s.slow else 0)
  { s with gangs := FMap.adjust s.gangs f.gid fun g =>
      { g with marks := (g.marks.filter fun m => match m.till with
          | .clock n => decide (s.clock core < n)
          | .result _ | .call _ => true) ++ (writeLocs f i).map fun l => { loc := l, till := .clock till } } }

/-- Open the window of a windowed word and mark what it writes (R38); pennant cores and Tamut form open none. -/
def State.openWindow (s : State) (f : Frame) (i : Info) (id : Nat) : State :=
  let opens := coreKind (s.coreOf f.g) == .banner && s.imageKind f != .tamut
  { s with gangs := FMap.adjust s.gangs f.gid fun g =>
      { g with
        marks := g.marks ++ (writeLocs f i).map fun l => { loc := l, till := .result id }
        windows := if opens then g.windows ++ [⟨id, f.u.ipc, i.hdr.la.toNat, 0⟩] else g.windows } }

/-- Close the window of a windowed word and clear its marks. -/
def State.closeWindow (s : State) (gid id : Nat) : State :=
  { s with gangs := FMap.adjust s.gangs gid fun g =>
      { g with marks := g.marks.filter (fun m => m.till != .result id)
               windows := g.windows.filter fun w => w.id != id } }

/-- The unit continues at the next word. -/
def State.advance (s : State) (f : Frame) : State :=
  { s with gangs := FMap.adjust s.gangs f.gid fun g =>
      { g with units := g.units.modify f.ui fun u => { u with ipc := f.u.ipc + 8 } } }

/-- No word issues before a clock so many after this one (R135, R179, R258). -/
def State.holdIssue (s : State) (f : Frame) (banner pennant : Nat) (serial : Bool) : State :=
  let core := s.coreOf f.g
  let n := match coreKind core with
    | .banner => banner
    | .pennant => pennant
  { s with gangs := FMap.adjust s.gangs f.gid fun g =>
      { g with units := g.units.modify f.ui fun u => { u with nextIssue := max u.nextIssue (s.clock core + n), serial := serial } } }

/-- No word of the gang issues before a clock so many after this one: a serialising write of what the gang holds (R135). -/
def State.holdGang (s : State) (f : Frame) (banner pennant : Nat) : State :=
  let core := s.coreOf f.g
  let n := match coreKind core with
    | .banner => banner
    | .pennant => pennant
  let hold (u : UnitState) : UnitState := { u with nextIssue := max u.nextIssue (s.clock core + n), serial := true }
  { s with gangs := FMap.adjust s.gangs f.gid fun g => { g with units := g.units.map hold } }

/-- A write replaces a register of a lane. -/
def LaneWrite.covers (w : LaneWrite) (loc : RegLoc) (lane : Nat) : Bool :=
  w.loc == loc && match loc with
    | .v _ | .hv _ | .p _ => w.mask.getLsbD lane
    | _ => w.mask != 0

/-- Apply register writes to a gang; what is written is poisoned no more (R339). -/
def State.apply (s : State) (gid : Nat) (ws : List LaneWrite) : State :=
  { s with
    gangs := FMap.adjust s.gangs gid fun g => g.writes ws
    regPoison := s.regPoison.filter fun p => !(p.1 == gid && ws.any fun w => w.covers p.2.1 p.2.2) }

/-- A plain word's effect: writes, faulting lanes, marks, and the next word for the lanes that go on. -/
def State.finish (s : State) (f : Frame) (i : Info) (ws : List LaneWrite) (faults : Mask) (cause : Cause) : State :=
  let s := ((s.apply f.gid ws).markPlain f i).advance f
  if faults == 0 then s else s.laneFault f.gid f.ui faults cause f.u.ipc

/-- A windowed word's effect: the result is formed now and written when it is due (R38, R165). -/
def State.finishWindowed (s : State) (f : Frame) (i : Info) (ws : List LaneWrite) (faults : Mask) (cause : Cause)
    (lat : Nat) : State :=
  let (id, s) := s.newId
  let due := s.clock (s.coreOf f.g) + lat + (if i.matrix then s.slow else 0)
  let s := s.openWindow f i id
  let s := { s with gangs := FMap.adjust s.gangs f.gid fun g =>
    { g with results := FMap.set g.results id ⟨f.u.ipc, f.ui, some due, ws, faults, cause, none, f.u.hm⟩ } }
  s.advance f

/-- THE LANE-ENGINE WORD (R146): every lane that takes part computes from the state before the word; a scalar is
written once where a lane takes part; a lane that traps writes nothing and faults with 0x0B, every lane of a scalar
destination does. -/
def laneWord (i : Info) (s : State) (d : Reg) (n : Nat) (val : LaneIn → DWord × Bool)
    (preds : LaneIn → List (PReg × Bool) := fun _ => []) : Host.Outcome State Fault Refusal :=
  onUnit s fun f =>
    let m := Frame.part f i.hdr
    let vals : LaneVec (DWord × Bool) := Vector.ofFn fun l : Fin 64 => val (s.laneIn f l.val)
    let trapped := maskOf fun l => (LaneVec.at' vals l).2
    let faults := if d.isS && (m &&& trapped != 0) then m else m &&& trapped
    let ok := m &&& ~~~faults
    let ws := destWrites f d n ok (vals.map Prod.fst) ++
      i.pwr.map fun p => predWrite p ok fun l => ((preds (s.laneIn f l)).find? fun x => x.1 == p).elim false (·.2)
    let core := s.coreOf f.g
    if i.windowed then
      s.finishWindowed f i ws faults .overflow (latency (coreKind core) f.g.width f.g.red i.lat)
    else s.finish f i ws faults .overflow

/-- A lane-engine word that writes one predicate. -/
def predWord (i : Info) (s : State) (p : PReg) (val : LaneIn → Bool) : Host.Outcome State Fault Refusal :=
  onUnit s fun f => s.finish f i [predWrite p (Frame.part f i.hdr) fun l => val (s.laneIn f l)] 0 .overflow

end Sys2Proof.Machine
end

