-- ==== Sys2Proof/Machine/MoveOps.lean ====
section
/-! DEFINITION. Majors 0x2, 0x3 and 0xB and the paired word: conversion (R168, R169), moves and lane exchange (R172
to R175), predicates (R170, R171), long immediates (R167), paired words (R41 to R44). -/

namespace Sys2Proof.Machine

/-- `cvt` (R169). -/
def execCvt (h : Hdr) (dt st : Ty) (rm : Rm) (ov : Ov) (d a c : Reg) (s : State) : Host.Outcome State Fault Refusal :=
  laneWord (info (.cvt h dt st rm ov d a c)) s d dt.regs fun x => cvtVal dt st rm ov (x.rd a st.regs) (x.rd c 1)

/-- `mov` (R172). -/
def execMov (h : Hdr) (ty : Ty) (d a : Reg) (s : State) : Host.Outcome State Fault Refusal :=
  laneWord (info (.mov h ty d a)) s d ty.regs fun x => (x.rd a ty.regs, false)

/-- Lane `k` of A as a lane of the unit; 0 for a lane outside the gang or the unit (R173). -/
def bcstValue (s : State) (f : Frame) (a : Reg) (n k : Nat) : DWord :=
  if (Frame.lanes f).getLsbD k then s.rd f a n k else 0

/-- `bcst` (R173). -/
def execBcst (h : Hdr) (ty : Ty) (d a b : Reg) (s : State) : Host.Outcome State Fault Refusal :=
  onUnit s fun f =>
    let v := bcstValue s f a ty.regs ((s.rdU f b 1).toNat % 64)
    s.finish f (info (.bcst h ty d a b)) (destWrites f d ty.regs (Frame.part f h) (uniform v)) 0 .overflow

/-- The source lane of `shfl` (R174): the reader itself where the segment or the unit has no such lane. -/
def shflSrc (f : Frame) (mode : ShflMode) (seg : BitVec 2) (l b : Nat) : Nat :=
  let n := 8 * 2 ^ seg.toNat
  let r := l % n
  let j : Int := match mode with
    | .at => b
    | .lag => (r : Int) - b
    | .lead => (r : Int) + b
    | .mirror => ((r ^^^ b : Nat) : Int)
  if 0 ≤ j ∧ j < n then
    let src := l - r + j.toNat
    if (Frame.lanes f).getLsbD src then src else l
  else l

/-- `shfl` (R174). -/
def execShfl (h : Hdr) (mode : ShflMode) (seg : BitVec 2) (ty : Ty) (d a b : Reg) (s : State) :
    Host.Outcome State Fault Refusal :=
  onUnit s fun f =>
    let vals : LaneVec DWord := Vector.ofFn fun l : Fin 64 =>
      s.rd f a ty.regs (shflSrc f mode seg l.val (s.rdReg f b l.val).toNat)
    s.finish f (info (.shfl h mode seg ty d a b)) (destWrites f d ty.regs (Frame.part f h) vals) 0 .overflow

/-- `rdsr` (R175); a lane's `lag` does not count the slot of the word that reads it (R198). -/
def execRdsr (h : Hdr) (d : Reg) (sr : BitVec 8) (s : State) : Host.Outcome State Fault Refusal :=
  onUnit s fun f =>
    let vals : LaneVec DWord := Vector.ofFn fun l : Fin 64 => if sr == 0x11#8 then f.g.lagSeen[l].setWidth 64 else s.special f sr l.val
    s.finish f (info (.rdsr h d sr)) (destWrites f d (Operand.srWidth sr) (Frame.part f h) vals) 0 .overflow

/-- The clock in which a `wrsr` that issues now takes effect (R135). -/
def State.wrsrClock (s : State) (f : Frame) : Nat :=
  let core := s.coreOf f.g
  s.clock core + match coreKind core with
    | .banner => 4
    | .pennant => 2

/-- The effect of `wrsr` (R135, R175); `lpc` and `lag` are written in the ready lanes that take part. What a write to `agl`
brings about at a boundary, a rotation or AGE, comes only when it takes effect; the others show in later words only, which
wait for that. -/
def wrsrEffect (s : State) (f : Frame) (m : Mask) (sr : BitVec 8) (a : Reg) : Gang :=
  let one := s.rd f a (Operand.srWidth sr) (if a.isUniform then 0 else (lowest m).getD 0)
  let vec : LaneVec Word := Vector.ofFn fun l : Fin 64 => s.rdReg f a l.val
  let ready := m &&& (f.u.am ||| f.u.km)
  match sr.toNat with
  | 0x0E => if m == 0 then f.g else
      { f.g with aglNext := some (BitVec.ofNat 32 (Nat.max 64 (one.toNat % 65536)), s.wrsrClock f) }
  | 0x10 => { f.g with lpc := mergeLanes ready vec f.g.lpc }
  | 0x11 => { f.g with lag := mergeLanes m vec f.g.lag }
  | 0x12 => if m == 0 then f.g else { f.g with dtb := one }
  | 0x14 => if m == 0 then f.g else { f.g with dtl := one.setWidth 32 }
  | _ => f.g

/-- `wrsr` (R135): a handler-mode register outside handler mode faults with 0x07, an `lpc` with low bits set in a ready
lane with 0x12, and nothing is written; the value of a lane that is not ready is not looked at (log entry 92). It is
serialising: no unit of the gang issues before the write has its effect. -/
def execWrsr (h : Hdr) (sr : BitVec 8) (a : Reg) (s : State) : Host.Outcome State Fault Refusal :=
  onUnit s fun f =>
    let m := Frame.part f h
    let bad := m &&& (f.u.am ||| f.u.km) &&& maskOf fun l => (s.rdReg f a l).toNat % 8 != 0
    if Operand.srLane sr && !f.u.hm then s.fault f f.u.am .protection
    else if sr == 0x10#8 && bad != 0 then s.fault f bad .misaligned
    else
      let g := wrsrEffect s f m sr a
      let s := s.setGang f.gid { g with units := g.units.map (UnitState.age g) }
      (s.advance f).holdGang f 4 2

/-! ### Predicates -/

/-- `pand` (R170). -/
def execPand (h : Hdr) (na nb : Bool) (pd pa pb : PReg) (s : State) : Host.Outcome State Fault Refusal :=
  predWord (info (.pand h na nb pd pa pb)) s pd fun x => (x.p pa ^^ na) && (x.p pb ^^ nb)

/-- `por` (R170). -/
def execPor (h : Hdr) (na nb : Bool) (pd pa pb : PReg) (s : State) : Host.Outcome State Fault Refusal :=
  predWord (info (.por h na nb pd pa pb)) s pd fun x => (x.p pa ^^ na) || (x.p pb ^^ nb)

/-- `pxor` (R170). -/
def execPxor (h : Hdr) (na nb : Bool) (pd pa pb : PReg) (s : State) : Host.Outcome State Fault Refusal :=
  predWord (info (.pxor h na nb pd pa pb)) s pd fun x => (x.p pa ^^ na) ^^ (x.p pb ^^ nb)

/-- `pnot` (R170). -/
def execPnot (h : Hdr) (pd pa : PReg) (s : State) : Host.Outcome State Fault Refusal :=
  predWord (info (.pnot h pd pa)) s pd fun x => !x.p pa

/-- `pmov` (R170). -/
def execPmov (h : Hdr) (pd pa : PReg) (s : State) : Host.Outcome State Fault Refusal :=
  predWord (info (.pmov h pd pa)) s pd fun x => x.p pa

/-- `pmov.nz` (R170). -/
def execPmovNz (h : Hdr) (pd : PReg) (a : Reg) (s : State) : Host.Outcome State Fault Refusal :=
  predWord (info (.pmovNz h pd a)) s pd fun x => x.rd a 1 != 0

/-- `pmov.all` (R170). -/
def execPmovAll (h : Hdr) (a : Reg) (s : State) : Host.Outcome State Fault Refusal :=
  onUnit s fun f =>
    let m := Frame.part f h
    s.finish f (info (.pmovAll h a))
      ((List.range 32).map fun k => predWrite (BitVec.ofNat 5 k) m fun l => (s.rdReg f a l).getLsbD k) 0 .overflow

/-- The predicates of a lane as one word (R170). -/
def predBits (g : Gang) (l : Nat) : Word :=
  BitVec.ofFnLE (n := 32) fun k => (Gang.pred g (BitVec.ofNat 5 k.val)).getLsbD l

/-- `pget` (R170). -/
def execPget (h : Hdr) (d : Reg) (s : State) : Host.Outcome State Fault Refusal :=
  onUnit s fun f =>
    let vals : LaneVec DWord := Vector.ofFn fun l : Fin 64 => (predBits f.g l.val).setWidth 64
    s.finish f (info (.pget h d)) (destWrites f d 1 (Frame.part f h) vals) 0 .overflow

/-- The votes of the lanes that take part: each lane's predicate, inverted where asked (R171). -/
def votes (f : Frame) (h : Hdr) (inv : Bool) (pa : PReg) : Mask :=
  Frame.part f h &&& (if inv then ~~~(Gang.pred f.g pa) else Gang.pred f.g pa)

/-- A vote that writes one predicate bit in every lane that takes part (R171). -/
def voteWord (i : Info) (s : State) (pd : PReg) (val : Mask → Mask → Bool) (inv : Bool) (pa : PReg) :
    Host.Outcome State Fault Refusal :=
  onUnit s fun f =>
    let m := Frame.part f i.hdr
    let r := val m (votes f i.hdr inv pa)
    s.finish f i [predWrite pd m fun _ => r] 0 .overflow

/-- `vote.or` (R171). -/
def execVoteOr (h : Hdr) (inv : Bool) (pd pa : PReg) (s : State) : Host.Outcome State Fault Refusal :=
  voteWord (info (.voteOr h inv pd pa)) s pd (fun _ v => v != 0) inv pa

/-- `vote.and` (R171). -/
def execVoteAnd (h : Hdr) (inv : Bool) (pd pa : PReg) (s : State) : Host.Outcome State Fault Refusal :=
  voteWord (info (.voteAnd h inv pd pa)) s pd (fun m v => v == m) inv pa

/-- `vote.same` (R171). -/
def execVoteSame (h : Hdr) (inv : Bool) (pd pa : PReg) (s : State) : Host.Outcome State Fault Refusal :=
  voteWord (info (.voteSame h inv pd pa)) s pd (fun m v => v == m || v == 0) inv pa

/-- `vote.mask` (R171). -/
def execVoteMask (h : Hdr) (inv : Bool) (d : Reg) (pa : PReg) (s : State) : Host.Outcome State Fault Refusal :=
  onUnit s fun f =>
    s.finish f (info (.voteMask h inv d pa)) (destWrites f d 2 (Frame.part f h) (uniform (votes f h inv pa))) 0 .overflow

/-! ### Long immediates (R167) -/

/-- `movi` (R167). -/
def execMovi (h : Hdr) (d : Reg) (imm : BitVec 32) (s : State) : Host.Outcome State Fault Refusal :=
  laneWord (info (.movi h d imm)) s d 1 fun _ => (imm.setWidth 64, false)

/-- `movi.s64` (R167). -/
def execMoviS64 (h : Hdr) (d : Reg) (imm : BitVec 32) (s : State) : Host.Outcome State Fault Refusal :=
  laneWord (info (.moviS64 h d imm)) s d 2 fun _ => (imm.signExtend 64, false)

/-- `movi.z64` (R167). -/
def execMoviZ64 (h : Hdr) (d : Reg) (imm : BitVec 32) (s : State) : Host.Outcome State Fault Refusal :=
  laneWord (info (.moviZ64 h d imm)) s d 2 fun _ => (imm.setWidth 64, false)

/-- `movh`: the odd register of the pair (R167). -/
def execMovh (h : Hdr) (d : Reg) (imm : BitVec 32) (s : State) : Host.Outcome State Fault Refusal :=
  laneWord (info (.movh h d imm)) s (d + 1) 1 fun _ => (imm.setWidth 64, false)

/-- `add.l` (R167). -/
def execAddL (h : Hdr) (d : Reg) (imm : BitVec 32) (s : State) : Host.Outcome State Fault Refusal :=
  laneWord (info (.addL h d imm)) s d 1 fun x => (aluAdd .n32 (x.rd d 1) (imm.setWidth 64), false)

/-- `and.l` (R167). -/
def execAndL (h : Hdr) (d : Reg) (imm : BitVec 32) (s : State) : Host.Outcome State Fault Refusal :=
  laneWord (info (.andL h d imm)) s d 1 fun x => (aluAnd .b32 (x.rd d 1) (imm.setWidth 64), false)

/-- `or.l` (R167). -/
def execOrL (h : Hdr) (d : Reg) (imm : BitVec 32) (s : State) : Host.Outcome State Fault Refusal :=
  laneWord (info (.orL h d imm)) s d 1 fun x => (aluOr .b32 (x.rd d 1) (imm.setWidth 64), false)

/-- `xor.l` (R167). -/
def execXorL (h : Hdr) (d : Reg) (imm : BitVec 32) (s : State) : Host.Outcome State Fault Refusal :=
  laneWord (info (.xorL h d imm)) s d 1 fun x => (aluXor .b32 (x.rd d 1) (imm.setWidth 64), false)

/-- `fadd.l`: RNE, INF (R167). -/
def execFaddL (h : Hdr) (d : Reg) (imm : BitVec 32) (s : State) : Host.Outcome State Fault Refusal :=
  laneWord (info (.faddL h d imm)) s d 1 fun x => fltAdd .f32 .rne .inf (x.rd d 1) (imm.setWidth 64)

/-- `fmul.l`: RNE, INF (R167). -/
def execFmulL (h : Hdr) (d : Reg) (imm : BitVec 32) (s : State) : Host.Outcome State Fault Refusal :=
  laneWord (info (.fmulL h d imm)) s d 1 fun x => fltMul .f32 .rne .inf (x.rd d 1) (imm.setWidth 64)

/-! ### The paired word (R41 to R44) -/

/-- A paired operation (R42); form 0 shifts take the count from bits [4:0]. -/
def pairVal (op : PairOp) (a b : DWord) : DWord :=
  match op with
  | .add => aluAdd .n32 a b
  | .sub => aluSub .n32 a b
  | .and => aluAnd .b32 a b
  | .or => aluOr .b32 a b
  | .xor => aluXor .b32 a b
  | .shl => aluShl .b32 a (BitVec.ofNat 64 (b.toNat % 32))
  | .shr => aluShr .b32 a (BitVec.ofNat 64 (b.toNat % 32))
  | .sar => aluSar .b32 a (BitVec.ofNat 64 (b.toNat % 32))
  | .mini => aluMin .i32 a b
  | .maxi => aluMax .i32 a b
  | .minn => aluMin .n32 a b
  | .maxn => aluMax .n32 a b
  | .mov => b
  | .fadd => (fltAdd .f32 .rne .inf a b).1
  | .fmul => (fltMul .f32 .rne .inf a b).1
  | .fmin => (fltMin .f32 a b).1
  | .fmax => (fltMax .f32 a b).1

/-- The value of a slot in a lane. -/
def slotVal (x : LaneIn) : Slot → DWord
  | .empty => 0
  | .reg op d r => pairVal op (x.rd d 1) (x.rd r 1)
  | .imm op _ r k => pairVal op (x.rd r 1) ((k.signExtend 32).setWidth 64)

/-- The writes of a slot. -/
def slotWrites (s : State) (f : Frame) (m : Mask) (sl : Slot) : List LaneWrite :=
  (Operand.slotWr sl).flatMap fun d => destWrites f d 1 m (Vector.ofFn fun l : Fin 64 => slotVal (s.laneIn f l.val) sl)

/-- The paired word: both slots read before either writes (R43). -/
def execPairedWord (s0 s1 : Slot) (s : State) : Host.Outcome State Fault Refusal :=
  onUnit s fun f =>
    let m := Frame.base f
    s.finish f (info (.pairedWord s0 s1)) (slotWrites s f m s0 ++ slotWrites s f m s1) 0 .overflow

end Sys2Proof.Machine
end

