-- ==== Sys2Proof/Machine/Control.lean ====
section
/-! DEFINITION. Major 0x4 and the puppeteer (R177 to R202): transfers, exit, park, join, handler entry and return,
the default decision, splitting and re-forming, ageing, forced rotation, policy faults. -/

namespace Sys2Proof.Machine

/-! ### Ageing (R198, R199) -/

/-- A lag grown by n slots, saturating (R135). -/
def lagPlus (x : Word) (n : Nat) : Word := BitVec.ofNat 32 (min (x.toNat + n) 0xFFFFFFFF)

/-- n gang issue slots pass for a unit: its active lanes outside handler mode execute, its other ready lanes age,
the gang's open windows count (R38, R198, R199). -/
def Frame.slots (f : Frame) (n : Nat) : Frame :=
  let act := if f.u.hm then 0 else f.u.am
  let ready := (f.u.am ||| f.u.km) &&& ~~~act
  let lag : LaneVec Word := Vector.ofFn fun l : Fin 64 =>
    if act.getLsbD l.val then 0 else if ready.getLsbD l.val then lagPlus f.g.lag[l] n else f.g.lag[l]
  let g := { f.g with lag := lag, lagSeen := f.g.lag,
                      windows := f.g.windows.map fun w => { w with count := w.count + n } }
  { f with g := g, u := UnitState.age g { f.u with aged := f.u.aged &&& ~~~act } }

/-! ### Transfers (R180 to R182) -/

/-- Next PC of each lane of a transfer: a target, or the cause it faults with. -/
abbrev Targets := Nat → Except Cause Word

/-- A target checked for its low bits (R51). -/
def checkPc (pc : Word) : Except Cause Word := if pc.toNat % 8 = 0 then .ok pc else .error .misaligned

/-- The redirect of a transfer (R179). -/
def State.redirect (s : State) (f : Frame) (pc : Word) : State :=
  if pc == f.u.ipc + 8 then s else s.holdIssue f 3 (2 + wideExtra .pennant f.g.width) false

/-- A transfer: a uniform next PC moves `ipc`; in handler mode any other outcome is nested divergence, and so is a
guard of `bra` or `call` that differs between lanes (R191); otherwise the lanes go to `km` with their PCs and the event is due (R180). A link has the latency of an integer word (log
entry 122). -/
def transfer (i : Info) (s : State) (t : State → Frame → Targets) (link : Option Reg) (ev : EvCode) :
    Host.Outcome State Fault Refusal :=
  onUnit s fun f =>
    let m := Frame.part f i.hdr
    let t := t s f
    let pc := f.u.ipc
    let bad := m &&& maskOf fun l => match t l with
      | .error _ => true
      | .ok _ => false
    let stay := Frame.base f &&& ~~~bad
    let nxt (l : Nat) : Word := if m.getLsbD l then (match t l with
      | .ok p => p
      | .error _ => pc) else pc + 8
    let first := nxt ((lowest stay).getD 0)
    let same := (lanesOf stay).all fun l => nxt l == first
    let hits : List Hit := (lanesOf m).filterMap fun l => match t l with
      | .error c => some ⟨l, c, 0⟩
      | .ok _ => none
    let faulting (s : State) : State := s.laneFaults f.gid f.ui hits pc
    let linked (s : State) : State := match link with
      | none => s
      | some d => (s.apply f.gid (destWrites f d 1 (m &&& ~~~bad) (uniform ((pc + 8).setWidth 64)))).markPlain f i
    let setU (s : State) (k : Frame → Frame) : State := match s.frameOf f.gid f.ui with
      | none => s
      | some f' => s.put (k f')
    if f.u.hm && bad != 0 then faulting s
    else if f.u.hm && ev == .br && m != 0 && m != Frame.base f then s.laneFault f.gid f.ui 0 .nested pc
    else if stay == 0 then faulting s
    else if same then
      faulting ((setU (linked s) fun f' => { f' with u := { f'.u with ipc := first } }).redirect f first)
    else if f.u.hm then s.laneFault f.gid f.ui 0 .nested pc
    else
      faulting (setU (linked s) fun f' =>
        { f' with
          g := { f'.g with lpc := mergeLanes stay (Vector.ofFn fun l : Fin 64 => nxt l.val) f'.g.lpc }
          u := { f'.u with km := f'.u.km ||| stay, am := f'.u.am &&& ~~~stay, due := some (ev, pc),
                           emptyPc := some pc } })

/-- Target of a branch (R27). -/
def branchTarget (pc : Word) (ofs : BitVec 26) : Word := pc + 8 * ofs.signExtend 32

/-- `bra` (R180). -/
def execBra (h : Hdr) (ofs : BitVec 26) (s : State) : Host.Outcome State Fault Refusal :=
  transfer (info (.bra h ofs)) s (fun _ f _ => .ok (branchTarget f.u.ipc ofs)) none .br

/-- A byte of a code version (R51). -/
def Version.byteAt (v : Version) (o : Nat) : Byte := (v.word o).extractLsb' (8 * (o % 8)) 8

/-- The table entry of `brx` (R181). -/
def brxTarget (s : State) (f : Frame) (i : Nat) : Except Cause Word :=
  let base := f.g.dtb.toNat % 2 ^ 32
  if f.g.dtl.toNat ≤ i then .error .dispatch
  else match s.versionOf f.g with
    | none => .error .protection
    | some v =>
      if v.inCode base && v.inCode (base + 4 * f.g.dtl.toNat - 1) then
        checkPc (BitVec.ofNat 32 (leNat ((List.range 4).map fun k => v.byteAt (base + 4 * i + k))))
      else .error .protection

/-- `brx` (R181). -/
def execBrx (h : Hdr) (a : Reg) (s : State) : Host.Outcome State Fault Refusal :=
  transfer (info (.brx h a)) s (fun s f l => brxTarget s f (s.rdReg f a l).toNat) none .brx

/-- `call` (R180, R182). -/
def execCall (h : Hdr) (d : Reg) (ofs : BitVec 26) (s : State) : Host.Outcome State Fault Refusal :=
  transfer (info (.call h d ofs)) s (fun _ f _ => .ok (branchTarget f.u.ipc ofs)) (some d) .br

/-- `callx` (R180, R182). -/
def execCallx (h : Hdr) (d a : Reg) (s : State) : Host.Outcome State Fault Refusal :=
  transfer (info (.callx h d a)) s (fun s f l => checkPc (s.rdReg f a l)) (some d) .brx

/-- `ret` (R180). -/
def execRet (h : Hdr) (a : Reg) (s : State) : Host.Outcome State Fault Refusal :=
  transfer (info (.ret h a)) s (fun s f l => checkPc (s.rdReg f a l)) none .brx

/-- `exit` (R183). -/
def execExit (h : Hdr) (s : State) : Host.Outcome State Fault Refusal :=
  onUnit s fun f => (s.advance f).exitLanes f.gid f.ui (Frame.part f h) f.u.ipc

/-- `nop` (R183). -/
def execNop (_ : Hdr) (s : State) : Host.Outcome State Fault Refusal := onUnit s fun f => s.advance f

/-- `join` (R183). -/
def execJoin (_ : Hdr) (s : State) : Host.Outcome State Fault Refusal :=
  onUnit s fun f =>
    if f.u.km == 0 then s.advance f
    else
      let f' := f.saveLpc f.u.am (f.u.ipc + 8)
      s.put { f' with u := { f.u with km := f.u.km ||| f.u.am, am := 0, due := some (.join, f.u.ipc),
                                      emptyPc := some f.u.ipc } }

/-- `park` (R183). -/
def execPark (h : Hdr) (ofs : BitVec 26) (s : State) : Host.Outcome State Fault Refusal :=
  onUnit s fun f =>
    let m := Frame.part f h
    let f' := f.saveLpc m (branchTarget f.u.ipc ofs)
    let u := { f.u with am := f.u.am &&& ~~~m, km := f.u.km ||| m, ipc := f.u.ipc + 8 }
    s.put { f' with u := u.noteEmpty f.u.am f.u.ipc }

/-- `wpark` (R202): with fault-parked lanes the unit stops at the word. -/
def execWpark (_ : Hdr) (s : State) : Host.Outcome State Fault Refusal :=
  onUnit s fun f => if f.u.fm == 0 then s.advance f else s.put { f with u := { f.u with stop := .wpark } }

/-! ### Events (R184 to R189) -/

/-- Every ready lane waits in `km`, active lanes with their PC. -/
def Frame.gather (f : Frame) : Frame :=
  let f' := if f.u.hm then f else f.saveLpc f.u.am f.u.ipc
  { f' with u := { f.u with km := f.u.km ||| f.u.am, am := 0, leave := false } }

/-- EPC of EMPTY (R184). -/
def UnitState.emptyEpc (u : UnitState) : Word := u.emptyPc.getD u.ipc

/-- The first due event and its EPC (R184, R185). -/
def dueEvent (f : Frame) : Option (EvCode × Word) :=
  if f.u.hm then none
  else if f.g.frd && f.u.fready then some (.fready, f.u.ipc)
  else if f.u.ageFlag then some (.age, f.u.ipc)
  else match f.u.due with
    | some e => some e
    | none => if f.u.am == 0 && f.u.km != 0 then some (.empty, f.u.emptyEpc) else none

/-- The event is raised: its flag is cleared, a due instruction event is used up, `ev` is written (R185, R186). -/
def UnitState.raise (u : UnitState) (e : EvCode × Word) : UnitState :=
  { u with
    ev := BitVec.ofNat 64 (e.2.toNat * 256 + evCode e.1)
    ageFlag := u.ageFlag && e.1 != .age
    fready := u.fready && e.1 != .fready
    due := none }

/-- HANDLER_ENTRY (R186). -/
def enterHandler (f : Frame) (e : EvCode × Word) : Frame :=
  let f := f.gather
  let f := { f with u := { f.u.raise e with hm := true, ipc := f.g.hpc, inv := 0, emptyPc := none } }
  f.slots 3

/-- The unit runs the lanes of `km` that stand at a PC. -/
def Frame.resume (f : Frame) (p : Word) : Frame :=
  let m := f.u.km &&& maskOf fun l => LaneVec.at' f.g.lpc l == p
  { f with u := { f.u with am := m, km := f.u.km &&& ~~~m, ipc := p, emptyPc := none } }

/-- Lowest PC among lanes; 0xFFFF_FFFF if there is none (R194). -/
def minPc (f : Frame) (m : Mask) : Word :=
  (lanesOf m).foldl (fun best l => if (Frame.lpc f l).toNat < best.toNat then Frame.lpc f l else best) 0xFFFFFFFF

/-- DEFAULT_DECISION (R189). -/
def defaultChoice (f : Frame) (e : EvCode × Word) : Frame :=
  let f := f.gather
  let f := { f with u := f.u.raise e }.slots 3
  let p := minPc f f.u.km
  let f := f.resume p
  { f with u := { f.u with pass := if e.1 == .coll && p == e.2 then some p else f.u.pass } }

/-- The ready lane with the largest lag, the lowest on ties. -/
def oldestLane (f : Frame) : Option Nat :=
  (lanesOf f.u.km).foldl (fun best l => match best with
    | none => some l
    | some b => if (LaneVec.at' f.g.lag b).toNat < (LaneVec.at' f.g.lag l).toNat then some l else best) none

/-- FORCED_ROTATION (R200). The unit remembers the latest COLL it discarded until a rotation resumes there (log entry
93). -/
def rotate (f : Frame) : Frame :=
  let disc := match f.u.due with
    | some (.coll, pc) => some pc
    | _ => f.u.collPc
  let f := f.gather
  let f := { f with u := { f.u with hm := false, due := none, rot := false, rotated := true } }.slots 3
  match oldestLane f with
  | none => f
  | some o =>
    let p := LaneVec.at' f.g.lpc o
    let f := f.resume p
    { f with u := { f.u with pass := if disc == some p then some p else f.u.pass,
                             collPc := if disc == some p then none else disc } }

/-- `HANDLER_ENTRY` (R186): only where an event is due. -/
def execHandlerEntry (s : State) : Host.Outcome State Fault Refusal :=
  onUnit s fun f => match dueEvent f with
    | none => s
    | some e => s.put (enterHandler f e)

/-- `DEFAULT_DECISION` (R189). -/
def execDefaultDecision (s : State) : Host.Outcome State Fault Refusal :=
  onUnit s fun f => match dueEvent f with
    | none => s
    | some e => s.put (defaultChoice f e)

/-- `FORCED_ROTATION` (R200). -/
def execForcedRotation (s : State) : Host.Outcome State Fault Refusal := onUnit s fun f => s.put (rotate f)

/-- A policy fault (R193): counted, and a forced rotation takes the unit's next decision; under `.strict` a fault. With no
lane ready the rotation stays pending (log entry 124). -/
def State.policy (s : State) (f : Frame) : State :=
  let s := s.signal (s.coreOf f.g) 0x0E 1
  if f.g.str then s.laneFault f.gid f.ui 0 .policy f.u.ipc
  else
    let n := if f.g.polc == 0xFFFFFFFF then f.g.polc else f.g.polc + 1
    s.put { f with g := { f.g with polc := n }, u := { f.u with hm := false, rot := true } }

/-- `POLICY_FAULT`: the 257th word of an invocation is about to issue (R193). -/
def execPolicyFault (s : State) : Host.Outcome State Fault Refusal :=
  onUnit s fun f => if f.u.hm then s.policy f else s

/-- `dret` (R192): the return from an event. -/
def execDret (_ : Hdr) (d a : Reg) (s : State) : Host.Outcome State Fault Refusal :=
  onUnit s fun f =>
    let pc : Word := (s.rdU f d 1).setWidth 32
    let mask := s.rdU f a 2 &&& Frame.lanes f
    let ok := (mask &&& ~~~f.u.km == 0) && (lanesOf mask).all (fun l => LaneVec.at' f.g.lpc l == pc) &&
      (mask != 0 || f.u.km == 0)
    if pc.toNat % 8 ≠ 0 then s.laneFault f.gid f.ui 0 .misaligned f.u.ipc
    else if !ok then s.policy f
    else
      let epc : Word := f.u.ev.extractLsb' 8 32
      s.put { f with u := { f.u with
        am := mask, km := f.u.km &&& ~~~mask, ipc := pc, hm := false, emptyPc := none
        pass := if f.u.ev.extractLsb' 0 8 == 6#8 && pc == epc then some pc else f.u.pass } }

/-- `dmin` (R194). -/
def execDmin (h : Hdr) (d a : Reg) (s : State) : Host.Outcome State Fault Refusal :=
  onUnit s fun f =>
    let m := s.rdU f a 2 &&& Frame.lanes f
    s.finish f (info (.dmin h d a)) (destWrites f d 1 (Frame.base f) (uniform ((minPc f m).setWidth 64))) 0 .overflow

/-- The PC most lanes hold, the lower on ties; 0xFFFF_FFFF if there is none (R194). -/
def majPc (f : Frame) (m : Mask) : Word :=
  let count (p : Word) : Nat := ((lanesOf m).filter fun l => Frame.lpc f l == p).length
  (lanesOf m).foldl (fun best l =>
    let p := Frame.lpc f l
    if count best < count p || (count best == count p && decide (p.toNat < best.toNat)) then p else best) 0xFFFFFFFF

/-- `dmaj` (R194). -/
def execDmaj (h : Hdr) (d a : Reg) (s : State) : Host.Outcome State Fault Refusal :=
  onUnit s fun f =>
    let m := s.rdU f a 2 &&& Frame.lanes f
    s.finish f (info (.dmaj h d a)) (destWrites f d 1 (Frame.base f) (uniform ((majPc f m).setWidth 64))) 0 .overflow

/-- `dsel` (R194). -/
def execDsel (h : Hdr) (d a b : Reg) (s : State) : Host.Outcome State Fault Refusal :=
  onUnit s fun f =>
    let m := s.rdU f a 2 &&& Frame.lanes f
    let pc : Word := (s.rdU f b 1).setWidth 32
    let r := m &&& maskOf fun l => Frame.lpc f l == pc
    s.finish f (info (.dsel h d a b)) (destWrites f d 2 (Frame.base f) (uniform r)) 0 .overflow

/-! ### Splitting and re-forming (R196, R197) -/

/-- A unit restricted to some of its groups. -/
def UnitState.restrict (u : UnitState) (groups : BitVec 8) (width : Nat) : UnitState :=
  let m := groupLanes groups width
  { u with groups := groups, am := u.am &&& m, km := u.km &&& m, fm := u.fm &&& m, tm := u.tm &&& m, xm := u.xm &&& m,
           aged := u.aged &&& m }

/-- Groups a split mask names: every byte 0x00 or 0xFF, and a non-empty proper subset of the unit's (R196). -/
def splitGroups (u : UnitState) (g : DWord) : Option (BitVec 8) :=
  let bytes := (List.range 8).map fun k => g.extractLsb' (8 * k) 8
  let named : BitVec 8 := BitVec.ofFnLE (n := 8) fun k => g.getLsbD (8 * k.val)
  if bytes.all (fun b => b == 0#8 || b == 0xFF#8) && named != 0 && (named &&& ~~~u.groups == 0) && named != u.groups
  then some named else none

/-- A register hs of a unit, as that of another unit. -/
def RegLoc.ofUnit (ui uj : Nat) : RegLoc → Option RegLoc
  | .hs u n => if u = ui then some (.hs uj n) else none
  | _ => none

/-- What is outstanding on hs0..hs3 of a unit is outstanding on those of the unit split off it: its scoreboard marks and the
results still to be written (R143, R196). -/
def Gang.copyHs (g : Gang) (ui uj : Nat) : Gang :=
  let mark (m : Mark) : Option Mark := (m.loc.ofUnit ui uj).map fun l => { m with loc := l }
  let write (w : LaneWrite) : Option LaneWrite := (w.loc.ofUnit ui uj).map fun l => { w with loc := l }
  let results : FMap Result := g.results.map fun r => (r.1, { r.2 with writes := r.2.writes ++ r.2.writes.filterMap write })
  { g with marks := g.marks ++ g.marks.filterMap mark, results := results }

/-- The poison of hs0..hs3 of a unit is that of the unit split off it too (R339). -/
def State.copyHsPoison (s : State) (gid ui uj : Nat) : State :=
  { s with regPoison := s.regPoison ++ s.regPoison.filterMap fun p =>
      if p.1 == gid then (p.2.1.ofUnit ui uj).map fun l => (gid, l, p.2.2) else none }

/-- A place of a gang whose units have become one: hs0..hs3 are those of its first unit (R197). -/
def RegLoc.merged (first : Nat) : RegLoc → Option RegLoc
  | .hs u n => if u = first then some (.hs 0 n) else none
  | loc => some loc

/-- What is outstanding on hs0..hs3 of the first unit is outstanding on those of the merged unit; the other units' registers
are gone (R143, R197). -/
def Gang.mergeHs (g : Gang) (first : Nat) : Gang :=
  let mark (m : Mark) : Option Mark := (m.loc.merged first).map fun l => { m with loc := l }
  let write (w : LaneWrite) : Option LaneWrite := (w.loc.merged first).map fun l => { w with loc := l }
  let results : FMap Result := g.results.map fun r => (r.1, { r.2 with unit := 0, writes := r.2.writes.filterMap write })
  { g with marks := g.marks.filterMap mark, results := results }

/-- The poison of a gang whose units have become one (R197, R339). -/
def State.mergeHsPoison (s : State) (gid first : Nat) : State :=
  { s with regPoison := s.regPoison.filterMap fun p =>
      if p.1 == gid then (p.2.1.merged first).map fun l => (gid, l, p.2.2) else some p }

/-- `split` (R196): U1 holds the named groups and reads D = 1, U0 the others; both keep the age-pending and fault-ready
flags (log entry 94). What is outstanding on the parent's hs0..hs3 is outstanding on both units'. D is written at once, with
no mark (log entry 122). -/
def execSplit (_ : Hdr) (d a : Reg) (s : State) : Host.Outcome State Fault Refusal :=
  onUnit s fun f =>
    match splitGroups f.u (s.rdU f a 2) with
    | none => s.policy f
    | some named =>
      let next := { f.u with ipc := f.u.ipc + 8 }
      let setD (u : UnitState) (v : Word) : UnitState :=
        if d.isHs then u.setHs ((d.toNat - 0xEC) % 4) (Nat.mod_lt _ (by decide)) v else u
      let u0 := setD (next.restrict (f.u.groups &&& ~~~named) f.g.width) 0
      let u1 := setD (next.restrict named f.g.width) 1
      let new := f.g.units.length
      (s.setGang f.gid ({ f.g with units := f.g.units.set f.ui u0 ++ [u1] }.copyHs f.ui new)).copyHsPoison f.gid f.ui new

/-- Merge the units of a gang (R197): masks united, the largest wait count, flags joined; units whose lanes have all exited
count for their masks only. -/
def mergeUnits (g : Gang) (first : UnitState) : UnitState :=
  let live := g.units.filter fun u => u.live g.width
  { first with
    groups := g.units.foldl (fun acc u => acc ||| u.groups) 0
    am := g.allOf (·.am), km := g.allOf (·.km), fm := g.allOf (·.fm), tm := g.allOf (·.tm), xm := g.allOf (·.xm)
    aged := g.allOf (·.aged)
    wait := live.foldl (fun m u => max m u.wait) 0
    ageFlag := live.any (·.ageFlag)
    fready := live.any (·.fready)
    pass := none, due := none, stop := .run, rot := false, redo := live.findSome? (·.redo)
    nextIssue := live.foldl (fun m u => max m u.nextIssue) 0 }

/-- The merge at `regang` (R197). -/
def regangMerge (g : Gang) : Gang :=
  let live := g.units.filter (fun u => u.live g.width)
  let first := firstUnit live
  let u := mergeUnits g first
  if live.all fun x => x.ipc == first.ipc then { g with units := [{ u with ipc := first.ipc + 8 }] }
  else
    let lpc := live.foldl (fun acc x => mergeLanes x.am (uniform (x.ipc + 8)) acc) g.lpc
    { g with
      lpc := lpc
      units := [{ u with ipc := first.ipc + 8, km := u.km ||| u.am, am := 0, emptyPc := some first.ipc }] }

/-- Every unit with a live lane stands at a `regang`: the merge is made. -/
def State.tryRegang (s : State) (gid : Nat) : State :=
  match FMap.get? s.gangs gid with
  | none => s
  | some g =>
    let live := g.units.filter (fun u => u.live g.width)
    if g.units.length ≤ 1 || live.isEmpty || !live.all (fun u => u.stop == .regang) then s
    else
      let first := firstUnit live
      let at_ := (g.units.findIdx? fun u => u == first).getD 0
      (s.setGang gid ((regangMerge g).mergeHs at_)).mergeHsPoison gid at_

/-- `regang` (R197): the whole gang goes on; a sub-gang waits for the others. -/
def execRegang (_ : Hdr) (s : State) : Host.Outcome State Fault Refusal :=
  onUnit s fun f =>
    if f.g.units.length ≤ 1 then s.advance f
    else (s.put { f with u := { f.u with stop := .regang } }).tryRegang f.gid

/-- Units of a gang whose `wpark` is satisfied go on (R202). -/
def State.wakePark (s : State) (gid : Nat) : State :=
  { s with gangs := FMap.adjust s.gangs gid fun g =>
      { g with units := g.units.map fun u =>
          if u.stop == .wpark && u.fm == 0 then { u with stop := .run, ipc := u.ipc + 8 } else u } }

/-- Lowest resident slot of a unit (R139). -/
def State.unitSlot (s : State) (g : Gang) (u : UnitState) : Nat := s.gslot g (lowGroup u)

/-- A unit occupies a quadrant until a clock; those whose time is over by another are no longer noted (R138, R142). -/
def QuadState.take (q : QuadState) (slot clk till : Nat) : QuadState :=
  { q with by_ := (slot, till) :: q.by_.filter (fun x => x.1 != slot && decide (clk < x.2)), busy := max q.busy till }

/-- The word of a unit occupies its quadrant for some clocks from a clock on (R138, R139); which unit the quadrant has
chosen last, `State.chosen` says. -/
def State.occupy (s : State) (gid ui clk busy : Nat) : State :=
  match s.frameOf gid ui with
  | none => s
  | some f =>
    let core := s.coreOf f.g
    let slot := s.unitSlot f.g f.u
    let s := s.put { f with u := { f.u with wait := 0 } }
    let c := s.core core
    let q := FMap.getD c.quads f.g.quad {}
    s.setCore core { c with quads := FMap.set c.quads f.g.quad (q.take slot clk (clk + busy)) }

/-- Count an issued word (R365). -/
def State.countWord (s : State) (f : Frame) (i : Instr) : State :=
  let core := s.coreOf f.g
  let s := (s.signal core 0x02 1).signal core (0x20 + f.g.quad) 1
  let s := if f.u.hm then s.signal core 0x03 1 else s
  if (info i).ord.isSome then s.signal core 0x06 1 else s

/-- A word of a unit issues: it counts as n gang issue slots, uses up a pass and a breakpoint's one exemption from it, waits
for no window, and occupies its quadrant (R38, R39, R138, R188, R193, R198, R361). -/
def State.spendSlot (s : State) (gid ui n clk busy : Nat) : State :=
  match s.frameOf gid ui with
  | none => s
  | some f =>
    let f' := f.slots n
    let u := { f'.u with
      pass := none
      rotated := false
      bpSkip := if f'.u.bpSkip == some f'.u.ipc then none else f'.u.bpSkip
      fifth := none
      inv := if f'.u.hm then f'.u.inv + 1 else f'.u.inv }
    (s.put { f' with u := u }).occupy gid ui clk busy

end Sys2Proof.Machine
end

