-- ==== Sys2Proof/Machine/OpBase.lean ====
section
/-! DEFINITION. Operations (R95 to R97, R386): when one may perform, how its accesses are made (R83 to R86, R98,
R114 to R118), the state of lines (R119, R120) and barriers (R122 to R126), and how its parts complete. -/

namespace Sys2Proof.Machine

/-! ### When an operation may perform -/

/-- Lanes of a group of a gang. -/
def grpMask (grp : Nat) : Mask := maskOf fun l => l / 8 == grp

/-- The instructions with one effect for the gang (R386); `migr` acts for the whole gang too (R311). -/
def OpKind.gangWide : OpKind → Bool
  | .load _ _ _ _ once _ => once
  | .ldk _ | .stf | .trec _ | .bar .. | .cpm .. | .cpc .. | .launch _ | .spawn .. | .migr _ => true
  | _ => false

/-- The predecessor mask of a group's part is met (R96). -/
def State.pmMet (s : State) (oid : Nat) (o : Op) (grp : Nat) : Bool :=
  s.ops.all fun (n, x) => decide (oid ≤ n) || x.gang != o.gang || !o.pm.getLsbD x.sn.toNat ||
    x.parts.all fun p => p.grp != grp || p.completed

/-- The masks a part waits for are met: its own, or every group's for a gang-wide effect (R96, R386). -/
def State.masksMet (s : State) (oid : Nat) (o : Op) (grp : Nat) : Bool :=
  if o.kind.gangWide then o.parts.all fun p => s.pmMet oid o p.grp else s.pmMet oid o grp

/-- An operation stands in a halted context: nothing of it goes on (R344). -/
def State.opFrozen (s : State) (o : Op) : Bool := s.gangFrozen o.gang

/-- The part may perform: its masks are met, its word waits for no recompute, and its context is not halted (R96, R144,
R344). -/
def State.mayPerform (s : State) (oid : Nat) (o : Op) (grp : Nat) : Bool :=
  !s.redoHeld o.gang oid && s.masksMet oid o grp && !s.opFrozen o

/-- A part stands in the selection of a step on a group: all parts for a gang-wide effect. -/
def Op.inStep (o : Op) (grp : Nat) (p : Part) : Bool := o.kind.gangWide || p.grp == grp

/-- An access belongs to a step on a group. -/
def Op.accIn (o : Op) (grp : Nat) (a : Access) : Bool := o.kind.gangWide || a.lane / 8 == grp

/-- Note that the parts of a step have performed, at a moment of the history and with an order of arrival (R85, R118). -/
def Op.performed (o : Op) (grp : Nat) (moment := 0) (order := 0) : Op :=
  let one (p : Part) : Part :=
    if o.inStep grp p then { p with performed := true, moment := moment, order := order } else p
  { o with parts := o.parts.map one }

/-- The part of an access. -/
def Op.partOf (o : Op) (a : Access) : Option Part := o.parts.find? fun p => o.kind.gangWide || p.grp == a.lane / 8

/-! ### Reservations (R116 to R118) -/

/-- Reservation of a lane. -/
def Gang.rsvOf (g : Gang) (l : Nat) : Option Nat := g.rsv[l % 64]'(Nat.mod_lt _ (by decide))

/-- Replace a lane's reservation. -/
def State.setRsv (s : State) (gid l : Nat) (r : Option Nat) : State :=
  { s with gangs := FMap.adjust s.gangs gid fun g => { g with rsv := vset g.rsv (l % 64) r (Nat.mod_lt _ (by decide)) } }

/-- A granule is held against an access: another lane's live reservation stands on it (R118; log entry 8). -/
def State.heldFor (s : State) (o : Op) (a : Access) : Bool :=
  match FMap.get? s.holds a.loc.granule with
  | none => false
  | some h =>
    !(h.gang == o.gang && h.lane == a.lane) &&
      (FMap.get? s.gangs h.gang).elim false fun g => g.rsvOf h.lane == some a.loc.granule

/-- `ldr` or `stc`. -/
def OpKind.reserving : OpKind → Bool
  | .load _ _ _ _ _ rsv => rsv
  | .stc _ => true
  | _ => false

/-- An `ldr` or `stc` of an operation waits at a granule, and has arrived there before some order (R118). -/
def Op.arrivedBefore (x : Op) (granule order : Nat) : Bool :=
  x.kind.reserving && x.accs.any fun b => !b.done && b.loc.granule == granule &&
    (x.partOf b).any fun p => p.performed && decide (p.order < order)

/-- The lane of an access holds the granule itself (R118). -/
def State.holdsOwn (s : State) (o : Op) (a : Access) : Bool :=
  match FMap.get? s.holds a.loc.granule with
  | none => false
  | some h => h.gang == o.gang && h.lane == a.lane &&
      (FMap.get? s.gangs h.gang).elim false fun g => g.rsvOf h.lane == some a.loc.granule

/-- An access may be made now: its team is not moving (R80), and before an `ldr` or `stc` stands no hold of another lane
and, unless its own lane holds the granule, no earlier arrival there (R118). -/
def State.accReady (s : State) (oid : Nat) (o : Op) (a : Access) : Bool :=
  (match a.loc with
   | .scratch t _ => (FMap.get? s.teams t).elim true fun x => x.life != .moving
   | _ => true) &&
  (!o.kind.reserving || s.holdsOwn o a || (!s.heldFor o a &&
    s.ops.all fun (n, x) => n == oid || !x.arrivedBefore a.loc.granule ((o.partOf a).elim 0 (·.order))))

/-! ### Making an access -/

/-- Device or system scope (R98). -/
def scopeDev : Scope → Bool
  | .device | .system => true
  | _ => false

/-- The core an operation's team stands on; a saved or moving team stands on none (R302). -/
def State.liveCore (s : State) (o : Op) : Option Nat :=
  ((FMap.get? s.gangs o.gang).bind fun g => s.teamOf g).bind fun t =>
    if t.life == .saved || t.life == .moving then none else some t.core

/-- Core of a gang's operation. -/
def State.opCore (s : State) (o : Op) : Nat := (FMap.get? s.gangs o.gang).elim 0 fun g => s.coreOf g

/-- New value of an atomic of n bytes (R115). -/
def atmNew (op : AtmOp) (n : Nat) (old x y : DWord) : DWord :=
  let w := 8 * n
  let o := old.setWidth w
  let v := x.setWidth w
  (match op with
   | .add => o + v
   | .sub => o - v
   | .min => if o.sle v then o else v
   | .max => if v.sle o then o else v
   | .and => o &&& v
   | .or => o ||| v
   | .xor => o ^^^ v
   | .xchg => v
   | .fadd => ((fltAdd .f32 .rne .inf old x).1).setWidth w
   | .cas => if o == v then y.setWidth w else o
   | .minu => if o.ule v then o else v
   | .maxu => if v.ule o then o else v).setWidth 64

/-- Bytes of a list of options, an absent one read as 0. -/
def plainBytes (l : List (Option Byte)) : List Byte := l.map fun b => b.getD 0

/-- A number of some bytes. -/
def dwordOf (l : List Byte) : DWord := BitVec.ofNat 64 (leNat l)

/-- Store the bytes of an access (R83, R98, R100, R108). A core-scope store of a team that stands on no core has no
gather buffer to enter: it is made at the home L2 (log entry 84). -/
def State.makeStore (s : State) (o : Op) (a : Access) : State :=
  let cells : List (Loc × Byte) := a.data.zipIdx.filterMap fun (b, k) => b.map fun x => (a.loc.add k, x)
  if cells.isEmpty then s
  else match a.loc, a.sc, s.liveCore o with
    | .mem h pa, .core, some core => s.gatherStore core o.gang h pa a.data (o.pm != 0)
    | _, _, core => s.storeLocs core cells

/-- Read the bytes of an access on its path (R84, R85, R98). A load of its own team's scratchpad that follows a wait may
bind what stood there before the wait was over (R237; log entry 119). -/
def State.makeLoad (s : State) (o : Op) (a : Access) (ro rsv : Bool) : List Byte × State :=
  match a.loc, ro with
  | .mem h pa, true =>
    let since := ((FMap.get? s.gangs o.gang).bind fun g => s.gridOf g).elim 0 (·.began)
    s.roLoad since ((o.partOf a).elim s.moment (·.moment)) h pa a.size
  | .scratch t ofs, _ =>
    match o.early.filter fun _ => ((FMap.get? s.gangs o.gang).map (·.team)) == some t with
    | some since => s.earlyLoad t since ofs a.size
    | none => s.loadLoc (s.liveCore o) (rsv || scopeDev a.sc) a.loc a.size
  | _, _ => s.loadLoc (if a.remote then none else s.liveCore o) (rsv || scopeDev a.sc) a.loc a.size

/-- The read-modify-write of one access, whose sector's lines have left their buffers: the value before it, and the
machine after it (R114, R115). -/
def State.makeAtomic (s : State) (op : AtmOp) (a : Access) : List Byte × State :=
  let arg := plainBytes a.data
  let x := dwordOf (arg.take a.size)
  let y := dwordOf (arg.drop a.size)
  match a.loc with
  | .mem h pa =>
    let old := s.readMem h pa a.size
    (old, s.writeMem h pa (leBytes a.size (atmNew op a.size (dwordOf old) x y).toNat))
  | .scratch t ofs =>
    let old := (List.range a.size).map fun k => s.scratchByte t (ofs + k)
    let new := leBytes a.size (atmNew op a.size (dwordOf old) x y).toNat
    (old, s.writeScratch t (new.zipIdx.map fun (b, k) => (ofs + k, b)))
  | .peer _ _ | .lost _ => (s.dropRsv [a.loc.granule] fun _ => true).loadLoc none true a.loc a.size

/-- The store-conditional of one access: its status, and the machine after it (R116). -/
def State.makeStc (s : State) (o : Op) (a : Access) : List Byte × State :=
  let valid := (FMap.get? s.gangs o.gang).elim false fun g => g.rsvOf a.lane == some a.loc.granule
  let s := if valid then s.storeLocs (s.liveCore o) (a.data.zipIdx.map fun (b, k) => (a.loc.add k, b.getD 0)) else s
  (leBytes a.size (if valid then 0 else 1), s.setRsv o.gang a.lane none)

/-- Set the reservation of a lane, and the home's hold on the granule (R116, R118). -/
def State.reserve (s : State) (o : Op) (a : Access) : State :=
  let till := s.now + Config.holdClocks * Config.bannerTicks
  let s := s.setRsv o.gang a.lane (some a.loc.granule)
  { s with holds := FMap.set s.holds a.loc.granule ⟨o.gang, a.lane, till⟩ }

/-- A peer answers an access, or fails it with cause 0x14 (R81, R343): which, is free. Memory of a fenced die fails it
likewise (R343; log entry 131). -/
def State.peerFails (s : State) (l : Loc) : Bool × State :=
  match l with
  | .peer _ _ => (s.free.1 % 2 == 1, s.free.2)
  | .lost _ => (true, s)
  | _ => (false, s)

/-- Clear the poison marks of some sectors of home memory, by key / 64, and of scratchpads. -/
def State.heal (s : State) (qs : List (Option Nat × Nat)) : State :=
  let home (q : Nat) : Bool := qs.contains (none, q)
  let clean (t : Nat × Team) : Nat × Team := (t.1, { t.2 with poison := t.2.poison.filter fun q => !qs.contains (some t.1, q) })
  let teams : FMap Team := s.teams.map clean
  { s with poison := s.poison.filter fun q => !home q, teams := teams }

/-- The sector of a place and its byte there: of home memory, or of a team's scratchpad. -/
def Loc.sector : Loc → Option ((Option Nat × Nat) × Nat)
  | .mem h pa => some ((none, memKey h pa / 64), pa % 64)
  | .scratch t o => some ((some t, o / 64), o % 64)
  | .peer _ _ | .lost _ => none

/-- The sectors that the accesses a store has made write whole, all its lanes together (R339). -/
def wholeSectors (accs : List Access) : List (Option Nat × Nat) :=
  let bytes := (accs.filter (·.done)).flatMap fun a => a.data.zipIdx.filterMap fun (b, k) => b.bind fun _ => (a.loc.add k).sector
  ((bytes.map (·.1)).dedup).filter fun q => (List.range 64).all fun k => bytes.contains (q, k)

/-- An access of a store has been made: a sector that the store has now written whole is poisoned no more (R339). One
that is still in a gather buffer clears its mark as it leaves. -/
def State.storeMade (s : State) (o : Op) (a : Access) : State :=
  if a.sc == .core && (s.liveCore o).isSome && (a.loc.sector.any fun q => q.1.1.isNone) then s
  else s.heal (wholeSectors ((a :: o.accs.filter fun b => b.done)))

/-- Make one access. What it reads is looked at once the lines that must leave first have left (R216, R339). -/
def State.makeAccess (s : State) (o : Op) (a : Access) : Access × State :=
  let (lost, s) := s.peerFails a.loc
  let core := s.liveCore o
  let bind (bad : Bool) (r : List Byte × State) : Access × State :=
    ({ a with data := r.1.map some, done := true, bad := bad }, r.2)
  match o.kind with
  | .load _ _ _ ro _ rsv =>
    let r := s.makeLoad o a ro rsv
    let bad := lost || (r.2.isPoisoned a.loc a.size && (ro || a.remote || !r.2.coveredBy core a.loc))
    let (a', s') := bind bad r
    (a', if rsv && !bad then s'.reserve o a else s')
  | .trec _ =>
    let r := s.makeLoad o a false false
    bind (lost || (r.2.isPoisoned a.loc a.size && (a.remote || !r.2.coveredBy core a.loc))) r
  | .atomic op _ =>
    let s := s.clearWay core true a.loc
    if lost || s.isPoisoned a.loc a.size then ({ a with done := true, bad := true }, s) else bind false (s.makeAtomic op a)
  | .stc _ =>
    if lost then ({ a with done := true, bad := true }, s.setRsv o.gang a.lane none)
    else
      let (r, s') := s.makeStc o a
      ({ a with data := r.map some, done := true }, s')
  | .store =>
    if lost then ({ a with done := true, bad := true }, s)
    else ({ a with done := true }, (s.makeStore o a).storeMade o { a with done := true })
  | _ => ({ a with done := true }, s)

/-- Lanes of a group are applied one at a time, in ascending order (R114, R116). -/
def OpKind.ordered : OpKind → Bool
  | .atomic .. | .stc _ => true
  | _ => false

/-- An earlier access of the group that must come first has not been made. -/
def Op.waitsFor (o : Op) (k : Nat) (a : Access) : Bool :=
  o.kind.ordered && (o.accs.take k).any fun b => !b.done && b.lane / 8 == a.lane / 8

/-- Make the accesses of an operation a predicate selects, in order, where they may be made. -/
def State.makeAccesses (s : State) (oid : Nat) (sel : Nat → Access → Bool) : State :=
  match FMap.get? s.ops oid with
  | none => s
  | some o =>
    (List.range o.accs.length).foldl (fun s k =>
      match FMap.get? s.ops oid with
      | none => s
      | some o => match o.accs[k]? with
        | none => s
        | some a =>
          if a.done || !sel k a || o.waitsFor k a || !s.accReady oid o a then s
          else
            let (a', s) := s.makeAccess o a
            match FMap.get? s.ops oid with
            | none => s
            | some o => s.setOp oid { o with accs := o.accs.set k a' }) s

/-! ### Full/empty lines (R18, R119, R120) -/

/-- A line of a team. -/
def State.lineOf (s : State) (team n : Nat) : Line := (FMap.get? s.teams team).elim {} fun t => FMap.getD t.lines n {}

/-- Clock in which a team's lines are looked at. -/
def State.teamClock (s : State) (team : Nat) : Nat := (FMap.get? s.teams team).elim 0 fun t => s.clock t.core

/-- Note the state of a line at the start of a clock (R120). -/
def Line.touch (l : Line) (clk : Nat) : Line :=
  if l.clk = clk then l else { l with clk := clk, sfull := l.full, spend := l.pend, taken := false }

/-- Change a line in the running clock. -/
def State.setLine (s : State) (team n : Nat) (k : Line → Line) : State :=
  let clk := s.teamClock team
  { s with teams := FMap.adjust s.teams team fun t =>
      { t with lines := FMap.set t.lines n (k ((FMap.getD t.lines n {}).touch clk)) } }

/-- Set the full bit of a line. -/
def State.setFull (s : State) (team n : Nat) (full : Bool) : State := s.setLine team n fun l => { l with full := full }

/-- A claim takes a line for the running clock (R120). -/
def State.takeLine (s : State) (team n : Nat) : State := s.setLine team n fun l => { l with taken := true }

/-- A line may be claimed as full: it was at the start of the clock, and no claim has taken it since (R120). -/
def State.lineFull (s : State) (team n : Nat) : Bool :=
  let l := (s.lineOf team n).touch (s.teamClock team)
  l.sfull && !l.taken

/-- A line may be claimed as empty: with no pending count, likewise (R120, R215). -/
def State.lineEmpty (s : State) (team n : Nat) : Bool :=
  let l := (s.lineOf team n).touch (s.teamClock team)
  !l.sfull && l.spend == 0 && !l.taken

/-- The lines some accesses touch (R119): team and number. -/
def touchedOf (accs : List Access) : List (Nat × Nat) :=
  (accs.filterMap fun a => match a.loc with
    | .scratch t ofs => some (t, ofs / 128)
    | _ => none).dedup

/-- The touched set of an operation (R119). -/
def Op.touched (o : Op) : List (Nat × Nat) := touchedOf o.accs

/-- The claim of an `ldk` or `stf` could be satisfied now. -/
def State.claimable (s : State) (o : Op) : Bool :=
  o.touched.all fun (t, n) => (FMap.get? s.teams t).elim true (fun x => x.life != .moving) &&
    match o.kind with
    | .ldk _ => s.lineFull t n
    | _ => s.lineEmpty t n

/-- `ldk` or `stf`. -/
def OpKind.claims : OpKind → Bool
  | .ldk _ | .stf => true
  | _ => false

/-- Resident slot of an operation's unit. -/
def State.opSlot (s : State) (o : Op) : Nat :=
  (FMap.get? s.gangs o.gang).elim 0 fun g => s.gslot g ((o.parts.map (·.grp)).foldl min 8)

/-- The claim is served: no claim of a lower resident slot that could be satisfied shares a line (R120). -/
def State.claimServed (s : State) (oid : Nat) (o : Op) : Bool :=
  s.claimable o && s.ops.all fun (n, x) =>
    n == oid || !x.kind.claims || !x.parts.all (fun p => s.pmMet n x p.grp) || !s.claimable x ||
      decide (s.opSlot o ≤ s.opSlot x) || x.touched.all fun t => !o.touched.contains t

/-- Bind or write the bytes of a claim and turn its lines (R120). -/
def State.claim (s : State) (oid : Nat) (o : Op) : State :=
  let accs := o.accs.map fun a =>
    match o.kind, a.loc with
    | .ldk _, .scratch t ofs =>
      { a with data := (List.range a.size).map fun k => some (s.scratchByte t (ofs + k)), done := true,
               bad := s.isPoisoned a.loc a.size }
    | _, _ => { a with done := true }
  let s' := match o.kind with
    | .stf => s.storeLocs none (o.accs.flatMap fun (a : Access) => a.data.zipIdx.filterMap fun (b, k) => b.map fun x => (a.loc.add k, x))
    | _ => s
  let full := match o.kind with
    | .stf => true
    | _ => false
  let turn (s : State) (l : Nat × Nat) : State := (s.setFull l.1 l.2 full).takeLine l.1 l.2
  (o.touched.foldl turn s').setOp oid { o with accs := accs }

/-! ### Named barriers (R122 to R126) -/

/-- Hold a count at 65,535. -/
def clamp16 (n : Nat) : Nat := min n 65535

/-- The last `bar.ini` in ascending slot order. -/
def lastIni (us : List BarUpd) : Option (Nat × Nat) :=
  us.foldl (fun best u => match u with
    | .ini g c => (match best with
      | some (g', c') => if g < g' then some (g', c') else some (g, c)
      | none => some (g, c))
    | _ => best) none

/-- Lanes of all arrivals, their expectations, expectations for this phase and for the next. -/
def sumUpds (us : List BarUpd) : Nat × Nat × Nat × Nat :=
  us.foldl (fun (a, e, x, y) u => match u with
    | .ini .. => (a, e, x, y)
    | .arrive n k => (a + n, e + k, x, y)
    | .expect n next => if next then (a, e, x, y + n) else (a, e, x + n, y)) (0, 0, 0, 0)

/-- The counts of a barrier after the updates of one clock (R124). -/
def BarCounts.clock (b0 : BarCounts) (us : List BarUpd) : BarCounts :=
  let b := match lastIni us with
    | some (_, c) => { b0 with base := c, exp := c, arr := 0, nxt := 0, ovr := false }
    | none => b0
  let (a, e, x, y) := sumUpds us
  let arr := clamp16 (b.arr + a)
  let exp := clamp16 (b.exp + e)
  let ovf := decide (65535 < b.arr + a) || decide (65535 < b.exp + e)
  if 1 ≤ exp ∧ exp ≤ arr then
    { base := b.base, ph := (b.ph + 1) % 65536, exp := clamp16 (b.base + b.nxt + x), arr := 0, nxt := clamp16 y
      ovr := b.ovr || ovf || decide (exp < arr) || decide (65535 < b.base + b.nxt + x) || decide (65535 < y) }
  else
    { b with arr := arr, exp := clamp16 (exp + x), nxt := clamp16 (b.nxt + y)
             ovr := b.ovr || ovf || decide (65535 < exp + x) || decide (65535 < b.nxt + y) }

/-- A barrier of a team. -/
def State.barOf (s : State) (team id : Nat) : Barrier := (FMap.get? s.teams team).elim {} fun t => FMap.getD t.bars id {}

/-- Counts of a barrier at the start of the running clock. -/
def State.barStart (s : State) (team id : Nat) : BarCounts :=
  let b := s.barOf team id
  if b.clk = s.teamClock team then b.start else b.now

/-- Apply one more update in the running clock (R124). -/
def State.barUpdate (s : State) (team id : Nat) (u : BarUpd) : State :=
  let b := s.barOf team id
  let clk := s.teamClock team
  let start := s.barStart team id
  let us := if b.clk = clk then b.upds ++ [u] else [u]
  { s with teams := FMap.adjust s.teams team fun t =>
      { t with bars := FMap.set t.bars id ⟨start.clock us, clk, start, us⟩ } }

/-! ### Completion (R97) -/

/-- Bytes of a lane's accesses, in order of offset. -/
def Op.laneData (o : Op) (l : Nat) : List Byte :=
  (o.accs.filter fun a => a.lane == l).flatMap fun a => plainBytes a.data

/-- A lane of an operation met poisoned data. -/
def Op.badLane (o : Op) (l : Nat) : Bool := o.accs.any fun a => a.lane == l && a.bad

/-- Sign- or zero-extend a loaded value of n bytes to its registers. -/
def extended (signed : Bool) (n : Nat) (bs : List Byte) : Nat :=
  let v := leNat bs
  if signed && decide (n < 4) && decide (2 ^ (8 * n - 1) ≤ v) then v + 2 ^ 32 - 2 ^ (8 * n) else v

/-- Registers of a value of n bytes. -/
def regsOf (n : Nat) : Nat := max 1 (n / 4)

/-- Writes of k registers from a number per lane. -/
def bigWrites (f : Frame) (d : Reg) (k : Nat) (m : Mask) (val : Nat → Nat) : List LaneWrite :=
  (List.range k).flatMap fun j =>
    if d.isZero then []
    else match regLoc f (Reg.next d j) with
      | none => []
      | some loc =>
        let w (l : Nat) : Word := BitVec.ofNat 32 (val l / 2 ^ (32 * j))
        match loc with
        | .v _ | .hv _ => [⟨loc, m, Vector.ofFn fun l : Fin 64 => w l.val⟩]
        | _ => [⟨loc, m, uniform (w ((lowest m).getD 0))⟩]

/-- What an operation writes into registers for the lanes of a mask (R102, R107, R115, R116, R120, R123). -/
def Op.regWrites (o : Op) (f : Frame) (m : Mask) : List LaneWrite :=
  let src := (o.accs.map (·.lane)).headD 0
  match o.kind with
  | .load d n signed _ once _ =>
    bigWrites f d (regsOf n) m fun l => extended signed n (o.laneData (if once then src else l))
  | .atomic _ d =>
    let n := (o.accs.map (·.size)).headD 4
    bigWrites f d (regsOf n) m fun l => leNat (o.laneData l)
  | .stc d =>
    let n := (o.accs.map (·.size)).headD 4
    bigWrites f d (regsOf n) m fun l => leNat (o.laneData l)
  | .ldk d => bigWrites f d 4 m fun l => leNat (o.laneData l)
  | .bar .arv _ d _ | .bar .awt _ d _ => bigWrites f d 1 m fun _ => o.tok
  | _ => []

/-- A loaded tile record is legal (R110, R111). -/
def tileOk (v : BitVec 256) : Bool :=
  v.extractLsb' 234 22 == 0 && v.extractLsb' 104 24 == 0 && decide ((v.extractLsb' 192 8).toNat < 5)

/-- The record an operation loads, at its completion: written, or a fault of every taking-part lane (R111). -/
def State.trecEnd (s : State) (o : Op) (t : BitVec 4) : State :=
  if o.accs.isEmpty || o.accs.any (·.bad) then s
  else
    let ea := (o.accs.head?).elim 0 (·.ea)
    let v := BitVec.ofNat 256 (leNat (o.laneData ((o.accs.map (·.lane)).headD 0)))
    if tileOk v then
      { s with
        gangs := FMap.adjust s.gangs o.gang fun g =>
          { g with tile := vset g.tile (t.toNat % 16) v (Nat.mod_lt _ (by decide)) }
        regPoison := s.regPoison.filter fun p => !(p.1 == o.gang && p.2.1 == .t t.toNat) }
    else s.takeFaults o.gang ((lanesOf o.lanes).map fun l => ⟨l, .bufferBounds, ea⟩) o.pc

/-- The ranks of a multicast's mask. -/
def rankList (mask : Nat) : List Nat := (List.range 12).filter fun r => mask / 2 ^ r % 2 == 1

/-- Lanes active, sectors touched and last lane of a sampled word (R231, R368); the last lane of another word than a copy
is free. A `cpm` none of whose lines was read has not multicast. -/
def Op.sampled (o : Op) (r : Nat) : Nat × Nat × Nat :=
  match o.kind with
  | .cp .. => (o.lanes.toNat, o.units.length, o.tag)
  | .cpm _ _ n ranks =>
    if o.claimed then (1, n * (rankList ranks).length, o.tag) else (0, 0, 0)
  | _ => (o.lanes.toNat, (o.accs.map fun a => a.loc.granule).dedup.length, r)

/-- `cp` or `cpm`. -/
def OpKind.copies : OpKind → Bool
  | .cp .. | .cpm .. => true
  | _ => false

/-- A sampled word completes: its record waits (R231, R368). The queue time of a copy at L1 is what it waited for leave;
the other queue times are free, and so are replays: of a copy 0 while the device has logged no corrected error, and at most
the units formed (log entry 133). -/
def State.sampleEnd (s : State) (o : Op) : State :=
  match FMap.get? s.gangs o.gang with
  | none => s
  | some g =>
    let c := s.ctxOf g
    let (r, s) := s.free
    let (active, secs, last) := o.sampled (r / 2 ^ 112)
    let l1 := if o.kind.copies then min o.waited (2 ^ 32 - 1) else r / 2 ^ 80
    let replays := if !o.kind.copies then r % 2 ^ 16 else if s.dev.corrected.isEmpty then 0 else r % 2 ^ 16 % (secs + 1)
    let tail := leBytes 8 active ++ leBytes 2 secs ++ leBytes 2 replays ++ leBytes 4 l1 ++ leBytes 8 (r / 2 ^ 16) ++
      leBytes 1 last ++ leBytes 1 o.sn.toNat
    s.setCtx c { s.ctx c with samples := (s.ctx c).samples ++ [⟨s.nameOf g, o.pc, s.clock (s.coreOf g), tail⟩] }

/-- A unit that an operation stopped goes on (R103). -/
def UnitState.wake (oid : Nat) (u : UnitState) : UnitState := if u.stop == .op oid then { u with stop := .run } else u

/-- An operation is over: it leaves its streams, its window closes, its unit goes on. -/
def State.endOp (s : State) (oid : Nat) (o : Op) : State :=
  let s := { s with ops := FMap.erase s.ops oid }
  let s := (if o.sample then s.sampleEnd o else s).closeWindow o.gang oid
  { s with gangs := FMap.adjust s.gangs o.gang fun g => { g with units := g.units.map (UnitState.wake oid) } }

/-- Parts of an operation complete: their registers are written, lanes that consumed poisoned data fault (R339), and
with the last part the operation is over. -/
def State.endParts (s : State) (oid : Nat) (sel : Part → Bool) (extra : List LaneWrite := []) : State :=
  match FMap.get? s.ops oid with
  | none => s
  | some o =>
    let m := o.lanes &&& maskOf fun l => o.parts.any fun p => p.grp == l / 8 && sel p && !p.completed
    let once := match o.kind with
      | .load _ _ _ _ b _ => b
      | .trec _ => true
      | _ => false
    let bad := if once then (if o.accs.any (·.bad) then m else 0) else m &&& maskOf o.badLane
    let s := match FMap.get? s.gangs o.gang with
      | none => s
      | some g =>
        let f : Frame := ⟨o.gang, 0, g, { g.units.headD default with hm := false }⟩
        if o.dropped then s else s.apply o.gang (o.regWrites f (m &&& ~~~bad) ++ extra)
    let s := match o.kind with
      | .trec t => if o.dropped then s else s.trecEnd o t
      | _ => s
    let ea (l : Nat) : DWord := ((o.accs.find? fun a => once || a.lane == l)).elim 0 (·.ea)
    let hits : List Hit := (lanesOf bad).map fun l => ⟨l, .uncorrectable, ea l⟩
    let s := if o.dropped then s else s.takeFaults o.gang hits o.pc
    let o' := { o with parts := o.parts.map fun p => if sel p then { p with performed := true, completed := true } else p }
    if o'.parts.all (·.completed) then (s.endOp oid o').reap o.gang else s.setOp oid o'

/-- All parts of an operation complete. -/
def State.endAll (s : State) (oid : Nat) (extra : List LaneWrite := []) : State := s.endParts oid (fun _ => true) extra

/-- The parts of a step whose accesses have all been made complete. -/
def State.endIfMade (s : State) (oid grp : Nat) : State :=
  match FMap.get? s.ops oid with
  | none => s
  | some o =>
    if o.accs.all (fun a => !o.accIn grp a || a.done) then s.endParts oid (o.inStep grp) else s

end Sys2Proof.Machine
end

