-- ==== Sys2Proof/Machine/Copy.lean ====
section
/-! DEFINITION. The copy engine (R210 to R220, R232) and the collective engines (R222 to R230, R380): what a perform
does, and the steps `TRANSFER_UNIT_LAND`, `MULTICAST_CLAIM`, `MULTICAST_LINE_LAND`, `COMMAND_START`,
`FIRMWARE_CONTEXT_SWITCH`, the `XGO` steps, `COLLECTIVE_TRANSFER_LAND`, `DONE`, `COMMAND_COMPLETE`,
`FIRMWARE_FAULT`, `FIRMWARE_TIMEOUT`, `XERR_READ`, `FLIT_CRC_FAIL`. -/

namespace Sys2Proof.Machine

/-! ### Sides -/

/-- Side line of a side (R213): 128 bytes of scratchpad or 256 bytes of memory. -/
def Side.line : Side → Nat × Nat
  | .scratch t o _ => (t + 1, o / 128)
  | .virt va => (0, va / 256)

/-- A side some bytes further on. -/
def Side.add (x : Side) (k : Nat) : Side :=
  match x with
  | .scratch t o va => .scratch t (o + k) (va + k)
  | .virt va => .virt (va + k)

/-- The address of a side, for a fault's name (R232). -/
def Side.va : Side → Nat
  | .scratch _ _ va => va
  | .virt va => va

/-- The byte a side stands at, whichever window names it. -/
def Side.place : Side → Nat × Nat
  | .scratch t o _ => (t + 1, o)
  | .virt va => (0, va)

/-- How a side resolves as a unit lands. -/
inductive SideRes where
  | at_ (l : Loc)
  | fault
  | page (page level : Nat)
  | moving
  deriving DecidableEq, Repr, Inhabited

/-- Translate a side (R211, R232). -/
def State.sideLoc (s : State) (core ctx : Nat) (write : Bool) : Side → SideRes × State
  | .scratch t o _ =>
    (if (FMap.get? s.teams t).elim false (fun x => x.life == .moving) then .moving else .at_ (.scratch t o), s)
  | .virt va =>
    match s.translate core ctx va with
    | (.fatal, s) => (.fault, s)
    | (.pageFault lv, s) => (.page (faultPage va lv) lv, s)
    | (.leaf e bits, s) => (if write && !pteW e then .fault else .at_ (s.leafLoc e bits va), s)

/-- A copy reads this side with promotion: its scope asks for it, or the address lies in the system window, which is
handled at SC 3 (R106, R216). -/
def Side.promotes (x : Side) (sc : Scope) : Bool :=
  scopeDev sc || match x with
    | .virt va => regionOf va == .system
    | .scratch .. => false

/-- The record of a page that holds a unit or a line (R232). -/
def State.unitPage (s : State) (o : Op) (page level : Nat) : State :=
  match FMap.get? s.gangs o.gang with
  | none => s
  | some g => s.faultRec (s.ctxOf g) (faultRecord 1 (s.ctxOf g) 6 0 o.pc.toNat page (s.nameOf g) 0 level)

/-! ### `cp` (R212 to R216) -/

/-- Units of a group. -/
def Op.unitsOf (o : Op) (grp : Nat) : List CopyUnit := o.units.filter fun u => u.grp == grp

/-- The fill counts of some units by line. -/
def fillSums (us : List CopyUnit) : List (Nat × Nat × Nat) :=
  (us.flatMap (·.fills)).foldl (fun acc x =>
    if acc.any fun y => y.1 == x.1 && y.2.1 == x.2.1 then
      acc.map fun y => if y.1 == x.1 && y.2.1 == x.2.1 then (y.1, y.2.1, y.2.2 + x.2.2) else y
    else acc ++ [x]) []

/-- No pending count would pass 1,023, and no team of a line is moving (R80, R215). -/
def State.fillsFit (s : State) (fs : List (Nat × Nat × Nat)) : Bool :=
  fs.all fun (t, n, k) => decide ((s.lineOf t n).pend + k ≤ 1023) &&
    (FMap.get? s.teams t).elim true fun x => x.life != .moving

/-- Add to the pending count of a line. -/
def State.addPending (s : State) (t n k : Nat) : State := s.setLine t n fun l => { l with pend := l.pend + k }

/-- Every unit of a `cp` has landed or been dropped, and every group has performed (R212). -/
def Op.copied (o : Op) : Bool := o.units.all (·.done) && o.parts.all (·.performed)

/-- A group of a `cp` performs (R212): its counts are raised, or it waits. An instruction without units completes as it
performs; another one when its last unit has landed (log entry 18). -/
def State.performCp (s : State) (oid grp : Nat) : State :=
  match FMap.get? s.ops oid with
  | none => s
  | some o =>
    if o.units.isEmpty then s.endParts oid (o.inStep grp)
    else
      let fs := fillSums (o.unitsOf grp)
      if !s.fillsFit fs then s
      else
        let o' := o.performed grp
        let s := (fs.foldl (fun (s : State) (x : Nat × Nat × Nat) => s.addPending x.1 x.2.1 x.2.2) s).setOp oid o'
        if o'.copied then s.endAll oid else s

/-- Give back or land the counts of a unit: a count that reaches 0 through a landing sets the line full (R215). -/
def State.dropFills (s : State) (u : CopyUnit) (landed : Bool) : State :=
  u.fills.foldl (fun (s : State) (x : Nat × Nat × Nat) => s.setLine x.1 x.2.1 fun l =>
    { l with pend := l.pend - x.2.2, full := l.full || (landed && l.pend - x.2.2 == 0) }) s

/-- The unit is done; one that has landed is the last so far (R231). With the last unit of the instruction the operation
completes (R212). -/
def State.unitDone (s : State) (oid k : Nat) (u : CopyUnit) (landed : Bool) : State :=
  match FMap.get? s.ops oid with
  | none => s
  | some o =>
    let lane := (u.reqs.map (·.lane)).foldl min 63
    let o' := { o with units := o.units.set k { u with done := true }, tag := if landed then lane else o.tag }
    let s := s.setOp oid o'
    if o'.copied then s.endAll oid else s

/-- The sides of a unit's requests as places, or why it cannot land: `none` for a side on a page, or moving. -/
def State.unitLocs (s : State) (core ctx : Nat) : List CopyReq → (List (CopyReq × Loc × Loc) ⊕ (SideRes × Nat)) × State
  | [] => (.inl [], s)
  | r :: rs =>
    match s.sideLoc core ctx false r.src with
    | (.at_ a, s) =>
      (match s.sideLoc core ctx true r.dst with
       | (.at_ b, s) =>
         (match s.unitLocs core ctx rs with
          | (.inl l, s) => (.inl ((r, a, b) :: l), s)
          | e => e)
       | (x, s) => (.inr (x, r.dst.va), s))
    | (x, s) => (.inr (x, r.src.va), s)

/-- The first move of a unit that meets 0x14: poisoned source bytes, or a peer that fails; its address (R232). -/
def State.badMove (s : State) : List (CopyReq × Loc × Loc) → Option Nat × State
  | [] => (none, s)
  | m :: ms =>
    let (a, s) := s.peerFails m.2.1
    let (b, s) := s.peerFails m.2.2
    if a || s.isPoisoned m.2.1 m.1.size then (some m.1.src.va, s)
    else if b then (some m.1.dst.va, s)
    else s.badMove ms

/-- Sectors of home memory that some places touch. -/
def sectorsOf (ls : List Loc) : List Nat :=
  distinct (ls.filterMap fun l => match l with
    | .mem h pa => some (memKey h pa / 64)
    | _ => none)

/-- `TRANSFER_UNIT_LAND` (R213 to R216, R232): a performed unit reads its source and writes its destination as one
piece, is dropped with an asynchronous fault, or is held by a page. -/
def execTransferUnitLand (oid k : Nat) (s : State) : Host.Outcome State Fault Refusal :=
  .next <| match FMap.get? s.ops oid with
  | none => s
  | some o => match o.units[k]? with
    | none => s
    | some u =>
      let ready := !u.done && o.parts.any fun p => p.grp == u.grp && p.performed
      if !ready then s
      else
        let core := s.opCore o
        let ctx := (FMap.get? s.gangs o.gang).elim 0 fun g => s.ctxOf g
        let drop (s : State) (cause : Cause) (va : Nat) : State :=
          ((s.dropFills u false).asyncFault o cause va).unitDone oid k u false
        match s.unitLocs core ctx u.reqs with
        | (.inr (.page p lv, _), s) =>
          if u.held == some p then s
          else (s.unitPage o p lv).setOp oid { o with units := o.units.set k { u with held := some p } }
        | (.inr (.fault, va), s) => drop s .protection va
        | (.inr _, s) => s
        | (.inl moves, s) =>
          -- every line that must leave first leaves; then the unit is looked at and read as one piece
          let s := moves.foldl (fun (s : State) (m : CopyReq × Loc × Loc) =>
            s.clearWay (some core) (m.1.src.promotes o.sc) m.2.1) s
          match s.badMove moves with
          | (some va, s) => drop s .uncorrectable va
          | (none, s) =>
            let (datas, s) := moves.foldl (fun (acc, s) m =>
              let (b, s) := State.loadLoc s (some core) false m.2.1 m.1.size
              (acc ++ [b], s)) (([] : List (List Byte)), s)
            let cells : List (Loc × Byte) := (moves.zip datas).flatMap fun (m, b) =>
              b.zipIdx.filterMap fun (x, j) => if m.1.own[j]?.getD false then some (m.2.2.add j, x) else none
            let s := (s.countReq core (sectorsOf (moves.map fun m => m.2.1))).countReq core
              (sectorsOf (moves.map fun m => m.2.2))
            (((s.storeLocs (some core) cells).dropFills u true).signal core 0x0C 1).unitDone oid k u true

/-! ### `cpm` (R218 to R220) -/

/-- The receivers' lines of a multicast: (team, line), all ranks of the mask. -/
def State.cpmLines (s : State) (o : Op) (pend : List (Nat × Nat)) : List (Nat × Nat) :=
  match o.kind, (FMap.get? s.gangs o.gang).bind fun g => s.teamOf g with
  | .cpm dst _ _ _, some t =>
    pend.filterMap fun (rank, j) =>
      (if rank == t.rank then (FMap.get? s.gangs o.gang).map (·.team) else s.teamAt t rank).map fun x => (x, dst / 128 + j)
  | _, _ => []

/-- Read the source lines of a multicast (R220): a line that fails is dropped with an asynchronous fault (R232). The
answer is `none` where a page or a move holds the read. -/
def State.cpmRead (s : State) (o : Op) (core ctx : Nat) (src : Side) (n : Nat) :
    Option (List Byte × List (Nat × Cause)) × Option (Nat × Nat) × State :=
  (List.range n).foldl (fun (r, pg, s) j =>
    match r with
    | none => (none, pg, s)
    | some (buf, bad) =>
      match s.sideLoc core ctx false (src.add (128 * j)) with
      | (.at_ l, s) =>
        let (lost, s) := s.peerFails l
        let s := s.countReq core (sectorsOf [l, l.add 64])
        let dev := src.promotes o.sc
        let s := (s.clearWay (some core) dev l).clearWay (some core) dev (l.add 64)
        if lost || s.isPoisoned l 128 then (some (buf ++ leBytes 128 0, bad ++ [(j, .uncorrectable)]), pg, s)
        else
          let (b, s) := s.loadLoc (some core) false l 64
          let (b', s) := s.loadLoc (some core) false (l.add 64) 64
          (some (buf ++ b ++ b', bad), pg, s)
      | (.page p lv, s) => (none, some (p, lv), s)
      | (.moving, s) => (none, pg, s)
      | (.fault, s) => (some (buf ++ leBytes 128 0, bad ++ [(j, .protection)]), pg, s)) (some ([], []), none, s)

/-- `cpm` performs: its source bytes enter the copy engine (R220). -/
def State.performCpm (s : State) (oid : Nat) : State :=
  match FMap.get? s.ops oid with
  | none => s
  | some o => match o.kind with
    | .cpm _ src n ranks =>
      if o.lanes == 0 then s.endAll oid
      else
        let core := s.opCore o
        let ctx := (FMap.get? s.gangs o.gang).elim 0 fun g => s.ctxOf g
        match s.cpmRead o core ctx src n with
        | (none, some (p, lv), s) => if o.tag = p + 1 then s else (s.unitPage o p lv).setOp oid { o with tag := p + 1 }
        | (none, none, s) => s
        | (some (buf, bad), _, s) =>
          let lines := (List.range n).filter fun j => !bad.any fun b => b.1 == j
          let o' := { o.performed 0 with buf := buf, pending := (rankList ranks).flatMap fun r => lines.map fun j => (r, j), at_ := s.now }
          let s := bad.foldl (fun (s : State) b => s.asyncFault o b.2 (src.add (128 * b.1)).va) (s.setOp oid o')
          if lines.isEmpty then s.endAll oid else s
    | _ => s

/-- A multicast's claim could be made: every line of every receiver empty with a pending count of 0 (R220). -/
def State.cpmClaimable (s : State) (o : Op) : Bool :=
  !o.claimed && o.parts.all (·.performed) && (s.cpmLines o o.pending).all fun (t, n) =>
    s.lineEmpty t n && (FMap.get? s.teams t).elim true fun x => x.life != .moving

/-- Order of multicasts at a tie: perform, core, slot (R220). -/
def State.cpmBefore (s : State) (x o : Op) : Bool :=
  decide (x.at_ < o.at_) || (x.at_ == o.at_ && (decide (s.opCore x < s.opCore o) ||
    (s.opCore x == s.opCore o && decide (s.opSlot x < s.opSlot o))))

/-- `MULTICAST_CLAIM` (R220): in one clock, every line's pending count becomes 32. -/
def execMulticastClaim (oid : Nat) (s : State) : Host.Outcome State Fault Refusal :=
  .next <| match FMap.get? s.ops oid with
  | none => s
  | some o => match o.kind with
    | .cpm .. =>
      let lines := s.cpmLines o o.pending
      let rival := s.ops.any fun (n, x) => n != oid && s.cpmBefore x o && s.cpmClaimable x &&
        (s.cpmLines x x.pending).any fun l => lines.contains l
      if !s.cpmClaimable o || rival then s
      else
        let take (x : Line) : Line := { x with pend := 32, taken := true }
        (lines.foldl (fun (s : State) (l : Nat × Nat) => s.setLine l.1 l.2 take) s).setOp oid { o with claimed := true }
    | _ => s

/-- `MULTICAST_LINE_LAND` (R220): one claimed line of one receiver lands. -/
def execMulticastLineLand (oid rank line : Nat) (s : State) : Host.Outcome State Fault Refusal :=
  .next <| match FMap.get? s.ops oid with
  | none => s
  | some o =>
    match s.cpmLines o [(rank, line)] with
    | [(t, n)] =>
      if !o.claimed || !o.pending.contains (rank, line) then s
      else
        let bytes := (o.buf.drop (128 * line)).take 128
        let s := s.writeScratch t (bytes.zipIdx.map fun (b, k) => (128 * n + k, b))
        let s := s.setLine t n fun l => { l with pend := 0, full := true }
        let o' := { o with pending := o.pending.filter (fun p => p != (rank, line)), tag := rank }
        let s := s.setOp oid o'
        if o'.pending.isEmpty then s.endAll oid else s
    | _ => s

/-! ### Collective engines (R222 to R230) -/

/-- An engine of a die. -/
def State.engine (s : State) (die eng : Nat) : Engine := vget (s.die die).engines (eng % 4) (Nat.mod_lt _ (by decide))

/-- Replace an engine. -/
def State.setEngine (s : State) (die eng : Nat) (e : Engine) : State :=
  s.setDie die { s.die die with engines := vset (s.die die).engines (eng % 4) e (Nat.mod_lt _ (by decide)) }

/-- Engine clock of the device (R226). -/
def State.engineClock (s : State) : Nat := s.now / Config.engineTicks

/-- The engine a command goes to (R222): the named one, or the one of the die with the fewest queued commands. -/
def State.pickEngine (s : State) (die sel : Nat) : Option Nat :=
  if sel < 4 then (if (s.engine die sel).up then some sel else none)
  else ((List.range 4).filter fun k => (s.engine die k).up).foldl (fun best k => match best with
    | none => some k
    | some b => if (s.engine die k).queue.length < (s.engine die b).queue.length then some k else some b) none

/-- A command's operation ends with a firmware fault (R230, R232). -/
def State.fwFault (s : State) (oid : Nat) (name : FwName) : State :=
  match FMap.get? s.ops oid with
  | none => s
  | some o => (s.asyncFault o .firmware name.status (some name)).endAll oid

/-- `cpc` performs (R222): its command enters the queue of an engine of the issuing die; a full queue holds it. -/
def State.performCpc (s : State) (oid : Nat) : State :=
  match FMap.get? s.ops oid with
  | none => s
  | some o => match o.kind, FMap.get? s.gangs o.gang with
    | .cpc idx sel args, some g =>
      if o.lanes == 0 then s.endAll oid
      else
        let die := coreDie (s.coreOf g)
        match s.pickEngine die sel with
        | none => s.fwFault oid ⟨idx, 4 * die + sel % 4, 0, 0⟩
        | some k =>
          let e := s.engine die k
          if Config.engineQueue ≤ e.queue.length then s
          else
            let gr := s.gridOf g
            let cmd : Command :=
              { op := oid, ctx := s.ctxOf g, version := gr.elim 0 (·.version), idx := idx, args := args
                issuer := s.coreOf g + 2 ^ 10 * s.opSlot o + 2 ^ 19 * o.sn.toNat
                lseq := (gr.elim (0 : Word) (·.lseq)).toNat }
            (s.setEngine die k { e with queue := e.queue ++ [cmd] }).setOp oid (o.performed 0)
    | _, _ => s

/-- Firmware of a command's object (R74). -/
def State.firmwareOf (s : State) (c : Command) : Option Firmware :=
  (FMap.get? (s.ctx c.ctx).versions c.version).bind (·.fw)

/-- The entry address of a command: bytes 0 to 3 of its entry in the table at `etab` of the image (R224). -/
def Firmware.entry (f : Firmware) (idx : Nat) : Nat := leNat ((f.image.drop (f.etab + 8 * idx)).take 4)

/-- A firmware image loaded at its address (R74, R223); the rest of local memory is 0, and no register has a value
(log entry 108). -/
def loadedFw (f : Firmware) : FwState := { regs := [], mem := Memory.writeN [] f.load f.image }

/-- An engine changes context before its next command (R223): after exactly 16 commands of one context, where the rule
says at most (log entry 109). -/
def Engine.mustSwitch (e : Engine) : Bool :=
  match e.queue.head?, e.ctx with
  | none, _ => false
  | some _, none => true
  | some _, some c =>
    !(e.queue.any fun x => x.ctx == c) || (decide (16 ≤ e.streak) && e.queue.any fun x => x.ctx != c)

/-- `FIRMWARE_CONTEXT_SWITCH` (R223): the outgoing context's local memory is saved, the incoming one's is taken up or
its image is loaded. -/
def execFirmwareContextSwitch (die eng : Nat) (s : State) : Host.Outcome State Fault Refusal :=
  let e := s.engine die eng
  .next <| if e.running.isSome || !e.mustSwitch || !e.up then s
  else match e.queue.find? fun x => some x.ctx != e.ctx with
    | none => s
    | some cmd =>
      let saved := match e.ctx with
        | none => e.saved
        | some c => FMap.set e.saved c e.fw
      let fw := match FMap.get? e.saved cmd.ctx with
        | some f => f
        | none => (s.firmwareOf cmd).elim {} loadedFw
      s.setEngine die eng { e with ctx := some cmd.ctx, streak := 0, saved := saved, fw := fw }

/-- `COMMAND_START` (R224, R225): the next command of the context the engine holds; a command without firmware or
beyond the table is a firmware fault. The entry is read in the image of the command's own object (log entry 110). -/
def execCommandStart (die eng : Nat) (s : State) : Host.Outcome State Fault Refusal :=
  let e := s.engine die eng
  .next <| if e.running.isSome || e.mustSwitch || !e.up then s
  else match e.queue.find? fun x => some x.ctx == e.ctx with
    | none => s
    | some cmd =>
      let e := { e with queue := e.queue.erase cmd, streak := e.streak + 1 }
      let fail (status : Nat) : State :=
        (s.setEngine die eng { e with reload := cmd.ctx :: e.reload }).fwFault cmd.op
          ⟨cmd.idx, 4 * (die % 4) + eng % 4, e.pc, status⟩
      match s.firmwareOf cmd with
      | none => fail 0
      | some f =>
        if f.ncmd ≤ cmd.idx then fail 0
        else
          let fw := if e.reload.contains cmd.ctx then { loadedFw f with regs := e.fw.regs } else e.fw
          let regs := (cmd.args.zipIdx.foldl (fun r (v, k) => FMap.set r (10 + k) v) fw.regs)
          let regs := FMap.set (FMap.set regs 14 cmd.idx) 2 0x40000
          s.setEngine die eng
            { e with running := some { cmd with started := s.engineClock }
                     fw := { fw with regs := regs }, pc := f.entry cmd.idx, cmd := cmd.idx, args := cmd.args
                     issuer := cmd.issuer + 2 ^ 32 * cmd.lseq, done := none
                     reload := e.reload.filter fun c => c != cmd.ctx }

/-- A write of `XGO` (R226, R227): a transfer reads its registers; with 64 outstanding the engine stalls. -/
def xgo (op : XgoOp) (die eng : Nat) (s : State) : Host.Outcome State Fault Refusal :=
  let e := s.engine die eng
  .next <| match e.running with
  | none => s
  | some c =>
    if e.done.isSome || Config.engineTransfers ≤ e.inflight.length then s
    else
      let tag := (e.xtag + 1) % 65536
      s.setEngine die eng
        { e with xtag := tag, inflight := e.inflight ++ [⟨c.ctx, c.op, tag, op, e.xsrc, e.xdst, e.xlen, e.xlnk, []⟩] }

/-- `XGO_COPY` (R227). -/
def execXgoCopy (die eng : Nat) (s : State) : Host.Outcome State Fault Refusal := xgo .copy die eng s
/-- `XGO_ADD_F32` (R227). -/
def execXgoAddF32 (die eng : Nat) (s : State) : Host.Outcome State Fault Refusal := xgo .addF32 die eng s
/-- `XGO_ADD_BF16X2` (R227). -/
def execXgoAddBf16x2 (die eng : Nat) (s : State) : Host.Outcome State Fault Refusal := xgo .addBf16x2 die eng s
/-- `XGO_ADD_I32` (R227). -/
def execXgoAddI32 (die eng : Nat) (s : State) : Host.Outcome State Fault Refusal := xgo .addI32 die eng s
/-- `XGO_MAX_F32` (R227). -/
def execXgoMaxF32 (die eng : Nat) (s : State) : Host.Outcome State Fault Refusal := xgo .maxF32 die eng s
/-- `XGO_MIN_F32` (R227). -/
def execXgoMinF32 (die eng : Nat) (s : State) : Host.Outcome State Fault Refusal := xgo .minF32 die eng s

/-- One element of a transfer (R227). -/
def xgoElem (op : XgoOp) (dst src : Word) : Word :=
  let d : DWord := dst.setWidth 64
  let x : DWord := src.setWidth 64
  match op with
  | .copy => src
  | .addF32 => ((fltAdd .f32 .rne .inf d x).1).setWidth 32
  | .addBf16x2 => ((fltAdd .bf16x2 .rne .inf d x).1).setWidth 32
  | .addI32 => dst + src
  | .maxF32 => ((fltMax .f32 d x).1).setWidth 32
  | .minF32 => ((fltMin .f32 d x).1).setWidth 32

/-- A transfer is dropped: it sets `XERR` unless an earlier failure stands there (R226, R227). -/
def Engine.fail (e : Engine) (tag : Nat) (cause : Cause) : Engine :=
  { e with inflight := e.inflight.filter fun t => t.tag != tag
           xerr := if e.xerr = 0 then 2 ^ 63 + 2 ^ 16 * causeCode cause + tag else e.xerr }

/-- Elements of a transfer have landed; with the last one it is over. -/
def Engine.progress (e : Engine) (tag : Nat) (done : List Nat) (n : Nat) : Engine :=
  let rest := e.inflight.filter fun x => x.tag != tag
  let more := e.inflight.map fun x => if x.tag == tag then { x with done := done } else x
  { e with inflight := if done.length = n then rest else more }

/-- Where an element of a transfer stands, or why it fails. -/
def State.xLoc (s : State) (ctx va : Nat) (write : Bool) : Loc ⊕ Option Cause :=
  match regionOf va with
  | .global | .system =>
    if va % 4 ≠ 0 then .inr (some .misaligned)
    else match s.walk ctx va with
      | .fatal => .inr (some .protection)
      | .pageFault _ => .inr none
      | .leaf e bits => if write && !pteW e then .inr (some .protection) else .inl (s.leafLoc e bits va)
  | _ => .inr (some .protection)

/-- A transfer through the system window has no link: the one it names is down, or on a route of the device's choosing
every one is (R227, R228); a link number that names none is taken as such a route (log entry 111). -/
def State.linkDown (s : State) (t : Transfer) : Bool :=
  (regionOf t.src == .system || regionOf t.dst == .system) &&
    (if t.link < 24 then (vget s.dev.links (t.link % 24) (Nat.mod_lt _ (by decide))).state != 2
     else s.dev.links.all fun l => l.state != 2)

/-- `COLLECTIVE_TRANSFER_LAND` (R227, R228): one element of a transfer, one read-modify-write at the home L2. -/
def execCollectiveTransferLand (die eng tag elem : Nat) (s : State) : Host.Outcome State Fault Refusal :=
  let e := s.engine die eng
  .next <| match e.inflight.find? fun t => t.tag == tag with
  | none => s
  | some t =>
    if t.len % 4 ≠ 0 ∨ t.len < 4 ∨ 2 ^ 24 < t.len then s.setEngine die eng (e.fail tag .misaligned)
    else if s.linkDown t then s.setEngine die eng (e.fail tag .uncorrectable)
    else if t.len / 4 ≤ elem || t.done.contains elem then s
    else match s.xLoc t.ctx (t.src + 4 * elem) false, s.xLoc t.ctx (t.dst + 4 * elem) true with
      | .inr (some c), _ => s.setEngine die eng (e.fail tag c)
      | _, .inr (some c) => s.setEngine die eng (e.fail tag c)
      | .inl a, .inl b =>
        let (lost, s) := s.peerFails a
        let (gone, s) := s.peerFails b
        let reads := t.op != .copy
        let s := s.clearWay none true a
        let s := if reads then s.clearWay none true b else s
        if lost || gone || s.isPoisoned a 4 || (reads && s.isPoisoned b 4) then s.setEngine die eng (e.fail tag .uncorrectable)
        else
          let (x, s) := s.loadLoc none false a 4
          let (y, s) := if reads then s.loadLoc none false b 4 else ([], s)
          let v := xgoElem t.op (BitVec.ofNat 32 (leNat y)) (BitVec.ofNat 32 (leNat x))
          let s := s.storeLocs none ((leBytes 4 v.toNat).zipIdx.map fun (w, k) => (b.add k, w))
          let done := elem :: t.done
          let e := s.engine die eng
          s.setEngine die eng (e.progress tag done (t.len / 4))
      | _, _ => s

/-- The running command ends with a firmware fault: its operation completes, what has started still lands, and its
context's image is loaded again before the context's next command (R230). -/
def State.endFaulty (s : State) (die eng status : Nat) : State :=
  let e := s.engine die eng
  match e.running with
  | none => s
  | some c =>
    (s.setEngine die eng { e with running := none, done := none, reload := c.ctx :: e.reload }).fwFault c.op
      ⟨c.idx, 4 * (die % 4) + eng % 4, e.pc, status⟩

/-- `DONE` (R226, R230): firmware ends its command; a status other than 0 is a firmware fault. -/
def execDone (die eng : Nat) (status : DWord) (s : State) : Host.Outcome State Fault Refusal :=
  let e := s.engine die eng
  .next <| if e.running.isNone || e.done.isSome then s
  else if status != 0 then s.endFaulty die eng status.toNat
  else s.setEngine die eng { e with done := some 0 }

/-- `COMMAND_COMPLETE` (R222, R230): `DONE` is written and every transfer has landed. -/
def execCommandComplete (die eng : Nat) (s : State) : Host.Outcome State Fault Refusal :=
  let e := s.engine die eng
  .next <| match e.running, e.done with
  | some c, some _ =>
    if e.inflight.all (fun t => t.cmd != c.op) then (s.setEngine die eng { e with running := none, done := none }).endAll c.op else s
  | _, _ => s

/-- The engine's address space (R225): local memory and the control page. -/
def fwMapped (a : Nat) : Bool := decide (a < 0x40000) || decide (0x10000000 ≤ a ∧ a < 0x10001000)

/-- A transfer operation's code exists (R227). -/
def xgoCode (c : Nat) : Bool := decide (1 ≤ c ∧ c ≤ 6)

/-- The reason of a firmware fault holds for the running command of an engine (R225, R227, R230); a bad index and missing
firmware are found as a command starts. -/
def fwArises : FwReason → Bool
  | .exception _ => true
  | .access a => !fwMapped a
  | .badXgo c => !xgoCode c
  | .badCommand | .missing => false
  | .status v => v != 0

/-- The exception cause or `DONE` status that a firmware fault's record carries (R232). -/
def fwStatus : FwReason → Nat
  | .exception c => c
  | .status v => v
  | _ => 0

/-- `FIRMWARE_FAULT` (R230). -/
def execFirmwareFault (die eng : Nat) (why : FwReason) (s : State) : Host.Outcome State Fault Refusal :=
  .next (if fwArises why then s.endFaulty die eng (fwStatus why) else s)

/-- A register of the control page as firmware reads it (R226); one that is only written, and an offset of none, reads 0
(log entry 112). -/
def State.control (s : State) (die eng ofs : Nat) : Nat :=
  let e := s.engine die eng
  match ofs with
  | 0x000 => e.cmd
  | 0x008 => e.args[0]?.getD 0
  | 0x010 => e.args[1]?.getD 0
  | 0x018 => e.args[2]?.getD 0
  | 0x020 => e.args[3]?.getD 0
  | 0x028 => e.issuer
  | 0x038 => eng % 4 + 4 * (die % 4) + 16 * s.dev.num.toNat
  | 0x040 => e.xsrc
  | 0x048 => e.xdst
  | 0x050 => e.xlen
  | 0x058 => e.xlnk
  | 0x068 => e.xtag
  | 0x070 => e.inflight.length
  | 0x078 => e.xerr
  | 0x080 => s.engineClock
  | _ => 0

/-- Firmware of a running command acts on its own state (R225, R226); an access or a jump outside its address map is a
firmware fault. What it writes to the control page are steps of their own (log entry 21); a load from that page
returns the whole register (log entry 127). -/
def State.firmwareAct (s : State) (die eng : Nat) (a : FwAct) : State :=
  let e := s.engine die eng
  if e.running.isNone || e.done.isSome then s
  else
    let set (s : State) (e : Engine) (n v : Nat) : State :=
      if n = 0 ∨ 32 ≤ n then s else s.setEngine die eng { e with fw := { e.fw with regs := FMap.set e.fw.regs n (v % 2 ^ 64) } }
    match a with
    | .reg n v => set s e n v
    | .load n addr size =>
      if addr + size ≤ 0x40000 then set s e n (leNat (Memory.readN e.fw.mem addr size))
      else if 0x10000000 ≤ addr ∧ addr + size ≤ 0x10001000 then
        let v := s.control die eng (addr % 0x1000)
        let e := if addr % 0x1000 = 0x078 then { e with xerr := 0 } else e
        set (s.setEngine die eng e) e n v
      else s.endFaulty die eng 0
    | .mem addr bytes =>
      if addr + bytes.length ≤ 0x40000 then
        s.setEngine die eng { e with fw := { e.fw with mem := Memory.writeN e.fw.mem addr bytes } }
      else if 0x10000000 ≤ addr ∧ addr + bytes.length ≤ 0x10001000 then s
      else s.endFaulty die eng 0
    | .jump pc => if fwMapped pc then s.setEngine die eng { e with pc := pc } else s.endFaulty die eng 0

/-- `FIRMWARE_TIMEOUT` (R230): a command that runs longer than 2^31 engine clocks. -/
def execFirmwareTimeout (die eng : Nat) (s : State) : Host.Outcome State Fault Refusal :=
  .next <| match (s.engine die eng).running with
  | none => s
  | some c => if Config.commandLimit < s.engineClock - c.started then s.endFaulty die eng 0 else s

/-- `XERR_READ` (R226): the read clears the register. -/
def execXerrRead (die eng : Nat) (s : State) : Host.Outcome State Fault Refusal :=
  .next (s.setEngine die eng { s.engine die eng with xerr := 0 })

/-- A link of the device. -/
def State.link (s : State) (k : Nat) : Link := vget s.dev.links (k % 24) (Nat.mod_lt _ (by decide))

/-- Replace a link. -/
def State.setLink (s : State) (k : Nat) (l : Link) : State :=
  { s with dev := { s.dev with links := vset s.dev.links (k % 24) l (Nat.mod_lt _ (by decide)) } }

/-- `FLIT_CRC_FAIL` (R380): a retry, up to 8; then the link goes down. -/
def execFlitCrcFail (link : Nat) (s : State) : Host.Outcome State Fault Refusal :=
  let l := s.link link
  .next <| if l.tries < 8 then s.setLink link { l with crc := l.crc + 1, retries := l.retries + 1, tries := l.tries + 1 }
  else s.setLink link { l with crc := l.crc + 1, tries := 0, state := 0 }

end Sys2Proof.Machine
end

