-- ==== Sys2Proof/Machine/Director.lean ====
section
/-! DEFINITION. The director (R287 to R314): grids, spawn bins, placement, saving, restoring and migrating teams, and the
steps `GRID_RETIRE`, `PLACEMENT_DECISION`, `TEAM_SAVE`, `QUEUE_HEAD_STARVATION`, `BIN_TIMER_EXPIRY`, `TRAP_BIN_TIMER`,
`MIGRATION_BUDGET_EXPIRY`, `MIGRATION_MOVE`, `MIGRATION_RESUME`, `DIRSTART`. -/

namespace Sys2Proof.Machine

/-! ### Images and headers (R65, R71, R77) -/

/-- The image R77 chose for a kind of core. -/
def Version.chosen (v : Version) (k : CoreKind) : Option Image :=
  (match k with
   | .banner => v.chosenB
   | .pennant => v.chosenP).bind fun i => v.images[i]?

/-- The native image of a kind, where one is chosen. -/
def Version.native (v : Version) (k : CoreKind) : Option Image :=
  (v.chosen k).filter fun i => i.kind == CoreKind.image k

/-- The image is placed in its version (R76). -/
def Image.placed (i : Image) : Bool := i.base != 0

/-- The Tamut image. -/
def Version.tamut (v : Version) (k : CoreKind) : Option Image :=
  match (v.chosen k).filter fun i => i.kind == .tamut with
  | some i => some i
  | none => v.images.find? fun i => i.kind == .tamut && i.placed

/-- Kernel header of a function in an image. -/
def Image.header (i : Image) (func : Nat) : Option Header := i.headers.find? fun h => h.func == func

/-- The header of a unit's function in the image it executes; the team's where that has none (R36, R66; log entry 46). -/
def State.execHeader (s : State) (f : Frame) : Option Header :=
  let team := s.headerOf f.g
  let own := ((s.versionOf f.g).bind fun v => v.imageAt f.u.ipc.toNat).bind fun x => team.bind fun t => x.header t.func
  own <|> team

/-- The equivalence entry of a point (R71). -/
def Image.point (i : Image) (n : Nat) : Option (Word × Nat) := (i.equiv.find? fun e => e.1 == n).map (·.2)

/-- The map of a point between two kinds of image. -/
def Version.mapFor (v : Version) (n : Nat) (src dst : ImageKind) : Option StateMap :=
  v.maps.find? fun m => m.n == n && m.src == src && m.dst == dst

/-- Registers pass through a map (R307, R312): those no entry names read 0, `dtb` and `dtl` become 0. -/
def Gang.mapped (g : Gang) (es : List MapEntry) : Gang :=
  let v := (es.filter fun e => e.cls == 0).foldl (fun m e => FMap.set m e.dst (g.vreg e.src)) ([] : FMap (LaneVec Word))
  let s := (es.filter fun e => e.cls == 1).foldl (fun (m : Vector Word 48) e =>
    vset m ((e.dst - 0xC0) % 48) (vget g.s ((e.src - 0xC0) % 48) (Nat.mod_lt _ (by decide))) (Nat.mod_lt _ (by decide)))
    (Vector.replicate 48 0)
  let p := (es.filter fun e => e.cls == 2).foldl (fun (m : Vector Mask 32) e =>
    vset m (e.dst % 32) (vget g.p (e.src % 32) (Nat.mod_lt _ (by decide))) (Nat.mod_lt _ (by decide)))
    (Vector.replicate 32 0)
  { g with v := v, s := s, p := p, dtb := 0, dtl := 0 }

/-- The place of a word of device memory in a context, for a device-scope access of the director; none where it does
not translate. -/
def State.vaLoc (s : State) (ctx va : Nat) (write : Bool) : Option Loc :=
  match s.walk ctx va with
  | .leaf e bits => if write && !pteW e then none else some (s.leafLoc e bits va)
  | _ => none

/-- A 4-byte word of a context's memory at device scope. -/
def State.readVa (s : State) (ctx va : Nat) : Option Nat × State :=
  match s.vaLoc ctx va false with
  | none => (none, s)
  | some l =>
    let (b, s) := s.loadLoc none true l 4
    (some (leNat b), s)

/-- Address of a function's `tstate` (R70). -/
def Version.tstateVa (v : Version) (func : Nat) : Nat := v.ftabVa + 32 * func + 16

/-- Translation state of a function for a kind of core (R70, R307); 0 where its page does not translate. -/
def State.tstate (s : State) (ctx : Nat) (v : Version) (func : Nat) (k : CoreKind) : Nat × State :=
  let (w, s) := s.readVa ctx (v.tstateVa func)
  ((w.getD 0) / (match k with
    | .banner => 1
    | .pennant => 4) % 4, s)

/-- A compare-and-swap of a function's translation state for a kind of core from a value to the next one, at device scope
(R307, R308). -/
def State.bumpTstate (s : State) (ctx : Nat) (v : Version) (func : Nat) (k : CoreKind) (old : Nat) : Bool × State :=
  match s.vaLoc ctx (v.tstateVa func) false with
  | none => (false, s)
  | some l =>
    let (b, s) := s.loadLoc none true l 4
    let unit := match k with
      | .banner => 1
      | .pennant => 4
    let w := leNat b
    if w / unit % 4 = old then (true, s.storeLocs none ((leBytes 4 (w + unit)).zipIdx.map fun (x, j) => (l.add j, x)))
    else (false, s)

/-- The translator takes the oldest request of a context: `tstate` goes from 1 to 2 (R308). -/
def State.takeRequest (s : State) (ctx : Nat) : State :=
  let x := s.ctx ctx
  match x.translating with
  | [] => s
  | (key, func, kind) :: rest =>
    let s := s.setCtx ctx { x with translating := rest }
    match FMap.get? x.versions key with
    | none => s
    | some v => (s.bumpTstate ctx v func (if kind = 0 then .banner else .pennant) 1).2

/-- The translator has appended a native image: `tstate` goes from 2 to 3 (R308). -/
def State.endRequest (s : State) (ctx key func : Nat) (k : CoreKind) : State :=
  match FMap.get? (s.ctx ctx).versions key with
  | none => s
  | some v => if (v.native k).isSome then (s.bumpTstate ctx v func k 2).2 else s

/-! ### Launch records (R288, R289) -/

/-- The fields of a launch record. -/
def LaunchRec.parse (b : List Byte) : LaunchRec :=
  let f (o n : Nat) : Nat := leNat ((b.drop o).take n)
  { obj := f 0 4, cver := f 4 2, kind := f 6 1, cls := f 7 1, func := f 8 4, ncl := f 12 4, cw := f 16 1, ch := f 17 1
    tsz := f 18 1, red := f 19 1, dmask := f 20 1, args := f 24 8
    zeros := f 21 3 == 0 && f 32 208 == 0 }

/-- Kind of core a record names. -/
def LaunchRec.core (r : LaunchRec) : CoreKind := if r.kind = 1 then .pennant else .banner

/-- The code version a record names: its key in the context. -/
def State.versionFor (s : State) (ctx : Nat) (r : LaunchRec) : Option (Nat × Version) :=
  (s.ctx ctx).versions.find? fun v => v.2.obj == r.obj && v.2.ver == r.cver

/-- Header a record's fields are checked against: that of the chosen image, else of any image. -/
def Version.anyHeader (v : Version) (k : CoreKind) (func : Nat) : Option Header :=
  match (v.chosen k).bind fun i => i.header func with
  | some h => some h
  | none => v.images.findSome? fun i => i.header func

/-- The fields lie within the limits of R288. -/
def LaunchRec.ok (r : LaunchRec) (v : Version) : Bool :=
  match v.anyHeader r.core r.func with
  | none => false
  | some h =>
    r.zeros && decide (r.kind ≤ 1) && (decide (r.cls ≤ 3) || r.cls == 0xFF) && decide (1 ≤ r.ncl ∧ r.ncl ≤ 2 ^ 24) &&
    decide (1 ≤ r.cw ∧ r.cw ≤ 12) && decide (1 ≤ r.ch ∧ r.ch ≤ 12) && decide (r.cw * r.ch ≤ 12) &&
    (r.kind != 1 || (r.cw == 1 && r.ch == 1)) && decide (r.red ≤ 1) && decide (0 < r.dmask ∧ r.dmask < 16) &&
    (r.tsz == 0 || (decide (r.tsz ≤ h.team) && r.tsz % (h.gang / 8) == 0))

/-- Some core of a kind could hold a team, were it empty (R13, R298, R330). -/
def canEver (k : CoreKind) (h : Header) (sizes : List Nat) : Bool :=
  let room := if h.tentry != 0 then [h.gang / 8] else []
  let n := sizes.sum + room.sum
  decide (n ≤ maxGroups k) && decide (8 * h.regs * n ≤ regCells k) &&
    decide ((h.scratch + 131071) / 131072 * 131072 ≤ maxScratch k) && (placeRuns k 0xFF [] (sizes ++ room)).isSome

/-- Groups of a team of a record. -/
def LaunchRec.groups (r : LaunchRec) (h : Header) : Nat := if r.tsz = 0 then h.team else r.tsz

/-- Dies a placement mask names that are there. -/
def State.diesOf (s : State) (dmask : Nat) : List Nat :=
  (List.range 4).filter fun d => dmask / 2 ^ d % 2 == 1 && (s.die d).present && !(s.die d).fenced

/-- The requests at home L2s of an access that a core makes (R365). -/
def State.countFor (s : State) (core : Option Nat) (ls : List Loc) : State :=
  core.elim s fun c => s.countReq c (sectorsOf ls)

/-- Write bytes at a place at device scope, in one sector. -/
def State.writeLoc (s : State) (core : Option Nat) (l : Loc) (ofs : Nat) (bytes : List Byte) : State :=
  (s.countFor core [l.add ofs]).storeLocs core (bytes.zipIdx.map fun (b, k) => (l.add (ofs + k), b))

/-- Write a record's status (R288). -/
def State.writeStatus (s : State) (l : Loc) (status : Nat) : State := s.writeLoc none l 248 (leBytes 4 status ++ leBytes 4 0)

/-- Key of a class queue. -/
def queueKey (ctx cls : Nat) : Nat := 4 * ctx + cls

/-- Append a cluster to a class queue (R299, R300). -/
def State.enqueue (s : State) (die ctx cls : Nat) (q : Queued) : State :=
  let d := s.die die
  let k := queueKey ctx cls
  let old := FMap.getD d.queues k []
  let headAt := if old.isEmpty then FMap.set d.headAt k s.now else d.headAt
  s.setDie die { d with queues := FMap.set d.queues k (old ++ [q]), headAt := headAt }

/-- A launch from its record (R291, R293): its status (none: the grid lives), and the machine after it. -/
def State.startGrid (s : State) (ctx : Nat) (bytes : List Byte) (l : Loc) (sc : Scope) (op : Option Nat) (lpc0 lseq : Word) :
    Option Nat × State :=
  let r := LaunchRec.parse bytes
  match s.versionFor ctx r with
  | none => (some 1, s)
  | some (key, v) =>
    if !r.ok v then (some 1, s)
    else
      let dies := s.diesOf r.dmask
      match (v.chosen r.core).bind fun i => i.header r.func with
      | none => (some 2, s)
      | some h =>
        if dies.isEmpty || !canEver r.core h (gangSizes h (r.groups h)) then (some 2, s)
        else
          let (gid, s) := s.newId
          let g : Grid :=
            { ctx := ctx, lr := r, version := key, header := h, recLoc := l, sc := sc, op := op, lpc0 := lpc0, lseq := lseq
              launches := 0, placed := 0, status := 0, began := s.moment }
          let cls := if r.cls = 0xFF then h.cls.toNat else r.cls
          let s := s.setGrid gid g
          (none, (List.range r.ncl).foldl (fun s c => s.enqueue (dies[c % dies.length]?.getD 0) ctx cls ⟨gid, c⟩) s)

/-- The next sequence number (R287, R293). -/
def nextSeqNo (n : Nat) : Nat := if n + 1 < 2 ^ 32 then n + 1 else 1

/-- Read a 256-byte record at device scope. -/
def State.readRecord (s : State) (core : Option Nat) (l : Loc) : List Byte × State :=
  (List.range 4).foldl (fun (acc, s) k =>
    let (b, s) := (s.countFor core [l.add (64 * k)]).loadLoc core true (l.add (64 * k)) 64
    (acc ++ b, s)) ([], s)

/-- A context holds as many grids as it may (R291). -/
def State.gridsFull (s : State) (ctx : Nat) : Bool :=
  decide (Config.gridLimit ≤ (s.grids.filter fun x => x.2.ctx == ctx).length)

/-- `launch` performs (R291); beyond the limit of grids it is held. -/
def State.performLaunch (s : State) (oid : Nat) : State :=
  match FMap.get? s.ops oid with
  | none => s
  | some o => match o.accs.head?, FMap.get? s.gangs o.gang with
    | some a, some g =>
      let ctx := s.ctxOf g
      if o.lanes == 0 then s.endAll oid
      else if s.gridsFull ctx then s
      else
        let (bytes, s) := s.readRecord (s.liveCore o) a.loc
        let n := nextSeqNo ((s.gridOf g).elim 0 (·.launches))
        let s := match s.teamOf g with
          | none => s
          | some t => { s with grids := FMap.adjust s.grids t.grid fun x => { x with launches := n } }
        let s := s.writeLoc (s.liveCore o) a.loc 240 (leBytes 4 n ++ leBytes 4 0)
        let s := s.setOp oid (o.performed 0)
        (match s.startGrid ctx bytes a.loc o.sc (some oid) o.pc (BitVec.ofNat 32 n) with
         | (some st, s) => (s.writeStatus a.loc st).endAll oid
         | (none, s) => s)
    | _, _ => s.endAll oid

/-- The context is running, and not for a single step (R344, R362). -/
def State.running (s : State) (ctx : Nat) : Bool := (s.ctx ctx).life == .running && !(s.ctx ctx).stepping

/-- The perform of a launch by the host (R287, R291): the record is numbered, and the grid lives or its status is
written. -/
def State.dirLaunch (s : State) (ctx : Nat) (bytes : List Byte) (l : Loc) : State :=
  let n := nextSeqNo (s.ctx ctx).launches
  let s := s.writeLoc none l 240 (leBytes 4 n ++ leBytes 4 0)
  let num (s : State) (g : Option Nat) : State := s.setCtx ctx { s.ctx ctx with launches := n, dirGrid := g }
  match s.startGrid ctx bytes l .device none 0 (BitVec.ofNat 32 n) with
  | (some st, s) => num (s.writeStatus l st) none
  | (none, s) => num s (some (s.grids.foldl (fun m e => max m e.1) 0))

/-- The host's launch that is held at its perform performs, where there is room for its grid (R287, R291). -/
def State.dirRetry (s : State) (ctx : Nat) : State :=
  match (s.ctx ctx).dirHeld with
  | none => s
  | some l =>
    if s.gridsFull ctx then s
    else
      let s := s.setCtx ctx { s.ctx ctx with dirHeld := none }
      let r := s.readRecord none l
      r.2.dirLaunch ctx r.1 l

/-- `DIRSTART` (R287): status 1 refused, 0 accepted; beyond the limit of grids the accepted launch is held. -/
def execDirstart (ctx : Nat) (va : DWord) (s : State) : Host.Outcome State Fault Refusal :=
  let x := s.ctx ctx
  let answer (s : State) (n : Nat) : State := s.setCtx ctx { s.ctx ctx with dirStatus := n }
  .next <|
    if !s.running ctx || x.dirGrid.isSome || x.dirHeld.isSome || va.toNat % 256 ≠ 0 || regionOf va.toNat != .global
    then answer s 1
    else match s.vaLoc ctx va.toNat true with
      | none => answer s 1
      | some l =>
        let (bytes, s') := s.readRecord none l
        let r := LaunchRec.parse bytes
        if r.kind ≠ 1 then answer s 1
        else match s.versionFor ctx r with
          | none => answer s 1
          | some (_, v) =>
            if !r.ok v then answer s 1
            else if s'.gridsFull ctx then answer (s'.setCtx ctx { s'.ctx ctx with dirHeld := some l }) 0
            else answer (s'.dirLaunch ctx bytes l) 0

/-- `GRID_RETIRE` (R292): every cluster placed, every team exited, every operation completed, its gather lines drained; none
while its context is halted (R344). -/
def execGridRetire (gid : Nat) (s : State) : Host.Outcome State Fault Refusal :=
  .next <| match FMap.get? s.grids gid with
  | none => s
  | some g =>
    let teams := s.teams.filter fun t => t.2.grid == gid
    let done := decide (g.placed = g.lr.ncl) && teams.all (fun t => t.2.life == .exited) &&
      !s.gangs.any fun x => teams.any fun t => t.1 == x.2.team
    if !done || s.frozen g.ctx then s
    else
      let s := s.writeStatus g.recLoc 0
      let s := { s with teams := s.teams.filter fun t => t.2.grid != gid, grids := FMap.erase s.grids gid }
      let s := if (s.ctx g.ctx).dirGrid == some gid then s.setCtx g.ctx { s.ctx g.ctx with dirGrid := none } else s
      let s := match g.op with
        | none => s
        | some oid => s.endAll oid
      s.dirRetry g.ctx

/-! ### Spawn bins (R294 to R297) -/

/-- `spawn` performs (R296): threads enter the bin one by one while it has room; the last one completes it. -/
def State.depositAll (s : State) (tid idx : Nat) : List (List Word) → List (List Word) × State
  | [] => ([], s)
  | th :: rest =>
    match (FMap.get? s.teams tid).bind fun t => (FMap.get? t.bins idx).map fun b => (t, b) with
    | none => (th :: rest, s)
    | some (_, b) =>
      if Config.binThreads ≤ b.threads.length then (th :: rest, s)
      else
        let b' := { b with threads := b.threads ++ [⟨th, s.now⟩] }
        ((s.setBin tid idx b').formBin tid idx false 65).depositAll tid idx rest

/-- The perform of a `spawn`. -/
def State.performSpawn (s : State) (oid : Nat) : State :=
  match FMap.get? s.ops oid with
  | none => s
  | some o => match o.kind, FMap.get? s.gangs o.gang with
    | .spawn idx ts, some g =>
      (match s.depositAll g.team idx ts with
       | ([], s) => s.endAll oid
       | (rest, s) => s.setOp oid { o with kind := .spawn idx rest })
    | _, _ => s

/-- `BIN_TIMER_EXPIRY` (R297). -/
def execBinTimerExpiry (tid idx : Nat) (s : State) : Host.Outcome State Fault Refusal :=
  .next <| match (FMap.get? s.teams tid).bind fun t => (FMap.get? t.bins idx).map fun b => (t, b) with
  | none => s
  | some (t, b) =>
    match b.threads.head? with
    | none => s
    | some th => if !s.frozen t.ctx && t.placed && b.timer != 0 && decide (th.at_ + 64 * b.timer * Config.bannerTicks ≤ s.now) then
        s.formBin tid idx true 65 else s

/-- A team's context is halted (R344). -/
def State.teamFrozen (s : State) (tid : Nat) : Bool := (FMap.get? s.teams tid).elim false fun t => s.frozen t.ctx

/-- `TRAP_BIN_TIMER` (R330). -/
def execTrapBinTimer (core : Nat) (s : State) : Host.Outcome State Fault Refusal :=
  .next <| match (s.core core).trapBin with
  | none => s
  | some b => match b.threads.head? with
    | none => s
    | some th =>
      if !s.teamFrozen b.team && decide (th.at_ + Config.trapTimer * Config.bannerTicks ≤ s.now) then s.flushTrap core else s

/-! ### Team life (R301, R302) -/

/-- A unit stands at a blocking point, or has no live lane (R21). -/
def State.unitBlocked (s : State) (g : Gang) (u : UnitState) : Bool :=
  !u.live g.width || match u.stop with
    | .op n => (FMap.get? s.ops n).elim false fun o => o.parts.all (·.performed)
    | .regang | .wpark | .leave | .mleave | .migr => true
    | _ => false

/-- Gangs of a team, in group order. -/
def State.teamGangs (s : State) (tid : Nat) : List (Nat × Gang) :=
  sortBy (fun a b => decide (a.2.grpn ≤ b.2.grpn)) (s.gangs.filter fun g => g.2.team == tid)

/-- Every gang of a team is blocked (R22). -/
def State.teamBlocked (s : State) (tid : Nat) : Bool :=
  (s.teamGangs tid).all fun g => g.2.units.all (s.unitBlocked g.2)

/-- A team's state follows its gangs (R301). -/
def State.settleTeam (s : State) (tid : Nat) : State :=
  match FMap.get? s.teams tid with
  | none => s
  | some t =>
    let b := s.teamBlocked tid
    if t.life == .resident && b then s.setTeam tid { t with life := .blocked, blockedAt := s.now }
    else if t.life == .blocked && !b then s.setTeam tid { t with life := .resident }
    else s

/-- A wake condition of a saved team holds (R21, R22): a unit is free to issue, or its request or lanes are there. -/
def State.teamAwake (s : State) (tid : Nat) : Bool :=
  (s.teamGangs tid).any fun g => g.2.units.any fun u => u.live g.2.width && match u.stop with
    | .run => u.hm || (u.am ||| u.km) != 0
    | .leave | .mleave => true
    | .wpark => u.fm == 0
    | _ => false

/-- Bytes of a team's state (R302), with the vector registers counted per group and the scalars per gang of each gang. -/
def State.bytesWith (s : State) (tid : Nat) (t : Team) (n : Nat × Gang → Nat × Nat) : Nat :=
  let gs := s.teamGangs tid
  (gs.map fun g => g.2.groups * (32 * (n g).1 + 32 + 64) + 4 * (n g).2 + 1536 + 24 * g.2.width).sum + t.header.scratch +
    2 * ((t.header.scratch + 127) / 128) + 16 * t.header.barriers +
    (t.bins.map fun b => 64 + 32 * b.2.threads.length).sum + (t.batches.map fun b => 32 * b.2.2.length).sum

/-- Bytes of a saved team (R302). -/
def State.teamBytes (s : State) (tid : Nat) (t : Team) : Nat := s.bytesWith tid t fun _ => (t.header.regs, t.header.scalars)

/-- Base ticks in which some bytes are saved, restored or moved: 256 in each clock (R4, R302). -/
def moveTicks (bytes : Nat) : Nat := (bytes + 255) / 256 * Config.bannerTicks

/-- Base ticks of a save or restore (R302). -/
def State.saveTicks (s : State) (tid : Nat) (t : Team) : Nat := moveTicks (s.teamBytes tid t)

/-- The context's save area has room for a team (R303; log entry 22). -/
def State.areaRoom (s : State) (tid : Nat) (t : Team) : Bool :=
  let saved := s.teams.filter fun x => x.2.ctx == t.ctx && x.2.life == .saved
  decide ((saved.map fun x => s.teamBytes x.1 x.2).sum + s.teamBytes tid t ≤ (s.ctx t.ctx).saveArea)

/-- Every window of a gang has closed, except that of the `ldk` or remote load it is blocked at (R39, R302). -/
def Gang.windowsClosed (g : Gang) : Bool :=
  g.results.isEmpty && g.windows.all fun w => g.units.any fun u => u.stop == .op w.id

/-- Units of performed copies and lines of claimed multicasts of a team have landed or failed (R217). -/
def State.copiesDone (s : State) (tid : Nat) : Bool :=
  s.ops.all fun (_, o) =>
    (FMap.get? s.gangs o.gang).elim true (fun g => g.team != tid) ||
    match o.kind with
    | .cp .. => o.units.all fun u => u.done || !o.parts.any fun p => p.grp == u.grp && p.performed
    | .cpm .. => !o.claimed
    | _ => true

/-- A team may be saved: blocked, its windows closed, its copies landed (R22, R39, R217, R302). -/
def State.savable (s : State) (tid : Nat) (t : Team) : Bool :=
  (t.life == .resident || t.life == .blocked) && decide (t.resumeAt ≤ s.now) && s.teamBlocked tid &&
    (s.teamGangs tid).all (fun g => g.2.windowsClosed && !s.redoing g.1) && s.copiesDone tid && t.entries.isEmpty

/-- Class of a team. -/
def State.teamClass (s : State) (t : Team) : Nat := (s.gangMode t).1.toNat

/-! ### Placement (R298 to R300) -/

/-- The first core of some, with the runs its gangs take. -/
def State.firstFit (s : State) (cores : List Nat) (ctx ver : Nat) (h : Header) (sizes : List Nat) (bins : Nat) :
    Option (Nat × List (Nat × Nat)) :=
  cores.findSome? fun c => (s.fits c ctx ver h sizes bins).map fun r => (c, r)

/-- Cores of a kind on a die, in site order. -/
def coresOf (die : Nat) (k : CoreKind) : List Nat :=
  ((List.range Config.sitesPerDie).map fun i => Config.sitesPerDie * die + i).filter fun c => coreKind c == k

/-- Sites of a rectangle, row by row; none where it leaves the mesh. -/
def rectSites (die x y cw ch : Nat) : List Nat :=
  if 12 < x + cw ∨ 12 < y + ch then []
  else (List.range ch).flatMap fun j => (List.range cw).map fun i => Config.sitesPerDie * die + 12 * (y + j) + x + i

/-- The first rectangle whose sites all fit a team (R299). -/
def State.firstRect (s : State) (die cw ch ctx ver : Nat) (h : Header) (sizes : List Nat) : Option (List (Nat × List (Nat × Nat))) :=
  (List.range Config.sitesPerDie).findSome? fun i =>
    let sites := rectSites die (i % 12) (i / 12) cw ch
    if sites.isEmpty || !sites.all (fun c => coreKind c == .banner) then none
    else sites.mapM fun c => (s.fits c ctx ver h sizes 0).map fun r => (c, r)

/-- Lowest free team handle of a context from a number on (R347; log entry 14): teams of launched grids count from 1,
those of grids that `DIRSTART` starts from 0x8000. -/
def State.freeHandle (s : State) (ctx from_ : Nat) : Nat :=
  ((List.range 0x8000).find? fun k =>
    !s.teams.any fun t => t.2.ctx == ctx && t.2.life != .exited && t.2.handle == from_ + k).elim 0 fun k => from_ + k

/-- Form a placed team with its gangs (R136, R299). -/
def State.formTeam (s : State) (gid : Nat) (g : Grid) (cluster rank core : Nat) (runs : List (Nat × Nat)) : State :=
  let (tid, s) := s.newId
  let h := g.header
  let groups := g.lr.groups h
  let t : Team :=
    { ctx := g.ctx, grid := gid, handle := s.freeHandle g.ctx (if g.op.isSome then 1 else 0x8000), cluster := cluster, rank := rank, life := .resident
      core := core, kind := coreKind core, header := h, groups := groups, mem := [], lines := [], bars := [], bins := []
      mig := none, poison := [], placedAt := s.now, blockedAt := 0, resumeAt := 0, entries := [], batches := []
      savedTrap := none, savedWait := [] }
  let s := s.setTeam tid t
  let (cls, red) := s.gangMode t
  runs.zipIdx.foldl (fun s (r, k) =>
    let (n, s) := s.newId
    s.setGang n (Gang.start tid h.gang (k * (h.gang / 8)) r.1 r.2 h cls red (lowLanes h.gang) h.entry (s.gridArgs t))) s

/-- The cluster at the head of a class queue, and the cores and runs its teams would take. -/
def State.headFit (s : State) (die ctx cls : Nat) : Option (Queued × Grid × List (Nat × List (Nat × Nat))) :=
  match (FMap.getD (s.die die).queues (queueKey ctx cls) []).head? with
  | none => none
  | some q =>
    match FMap.get? s.grids q.grid with
    | none => none
    | some g =>
      let sizes := gangSizes g.header (g.lr.groups g.header)
      (match g.lr.core with
       | .pennant => (s.firstFit (coresOf die .pennant) ctx g.version g.header sizes 0).map fun x => [x]
       | .banner => s.firstRect die g.lr.cw g.lr.ch ctx g.version g.header sizes).map fun l => (q, g, l)

/-- Place the head of a class queue. -/
def State.placeHead (s : State) (die ctx cls : Nat) : Option State :=
  (s.headFit die ctx cls).map fun (q, g, sites) =>
    let d := s.die die
    let k := queueKey ctx cls
    let rest := (FMap.getD d.queues k []).drop 1
    let headAt := if rest.isEmpty then FMap.erase d.headAt k else FMap.set d.headAt k s.now
    let queues := if rest.isEmpty then FMap.erase d.queues k else FMap.set d.queues k rest
    let s := s.setDie die { d with queues := queues, headAt := headAt, starved := d.starved.filter fun x => x != k }
    let s := s.setGrid q.grid { g with placed := g.placed + 1 }
    sites.zipIdx.foldl (fun s (x, rank) => s.formTeam q.grid g q.cluster rank x.1 x.2) s

/-- Sizes of a team's gangs, in group order. -/
def State.teamSizes (s : State) (tid : Nat) : List Nat := (s.teamGangs tid).map fun g => g.2.groups

/-- Where a saved team would be restored on a die: the first core of its kind it fits (R22). -/
def State.restoreFit (s : State) (die tid : Nat) (t : Team) : Option (Nat × List (Nat × Nat)) :=
  s.firstFit (coresOf die t.kind) t.ctx (s.versionKey t) t.header (s.teamSizes tid) t.bins.length

/-- A lane's tag is live and names a PC (R331). -/
def Gang.tagLive (g : Gang) (l : Nat) (pc : Nat) : Bool :=
  g.origins.getLsbD l && (g.units[g.unitOf l]?.getD default).tm.getLsbD l && (LaneVec.at' g.tagPc l).toNat == pc

/-- The lane of a gang whose tag has named it so at a place where the gang no longer stands (R332; log entry 24). -/
def Gang.tagAt (g : Gang) (core slot lane pc : Nat) : Option Nat :=
  (g.tagPlaces.find? fun p => p.2 == (core, slot) && p.1 % 8 == lane && g.tagLive p.1 pc).map (·.1)

/-- The origin a tag names on a core (R331, R333): gang, unit, lane; none where the tag is dead or of another team. A tag
stays live across moves: it may name a place where its lane stood before (R332). -/
def State.originOf (s : State) (tid core : Nat) (t : DWord) : Option (Nat × Nat × Nat) :=
  let n := t.toNat
  let slot := n / 2 ^ 35 % 512
  let at_ := n / 2 ^ 44 % 1024
  let lane := n / 2 ^ 32 % 8
  let pc := n % 2 ^ 32
  let now := if at_ ≠ core then none else (s.teamGangs tid).findSome? fun g =>
    match (List.range g.2.groups).find? fun k => s.gslot g.2 k == slot with
    | none => none
    | some k => if g.2.tagLive (8 * k + lane) pc then some (g.1, g.2.unitOf (8 * k + lane), 8 * k + lane) else none
  match now with
  | some o => some o
  | none => (s.teamGangs tid).findSome? fun g => (g.2.tagAt at_ slot lane pc).map fun l => (g.1, g.2.unitOf l, l)

/-- Rewrite core and slot in the tag words of a thread or handler lane (R332). -/
def moveTag (find : DWord → Option (Nat × Nat)) (lo hi : Word) : Word × Word :=
  let tag : DWord := hi ++ lo
  match find tag with
  | none => (lo, hi)
  | some (c, sl) =>
    let tag' := tag.toNat % 2 ^ 35 + 2 ^ 35 * sl + 2 ^ 44 * c + tag.toNat / 2 ^ 54 * 2 ^ 54
    (BitVec.ofNat 32 tag', BitVec.ofNat 32 (tag' / 2 ^ 32))

/-- Rewrite the tag of a thread. -/
def Thread.moved (find : DWord → Option (Nat × Nat)) (th : Thread) : Thread :=
  match th.pay with
  | lo :: hi :: rest =>
    let p := moveTag find lo hi
    { th with pay := p.1 :: p.2 :: rest }
  | _ => th

/-- A payload of words with the tags in its pairs rewritten. -/
def moveWords (find : DWord → Option (Nat × Nat)) : List Word → List Word
  | lo :: hi :: rest =>
    let p := moveTag find lo hi
    p.1 :: p.2 :: moveWords find rest
  | ws => ws

/-- Rewrite the tags in the payload of a spawned thread: its words become v0, v1, ... of its lane (R296). -/
def Thread.movedAll (find : DWord → Option (Nat × Nat)) (th : Thread) : Thread := { th with pay := moveWords find th.pay }

/-- Rewrite the tags in a spawn bin (R332; log entry 24). -/
def Bin.moved (find : DWord → Option (Nat × Nat)) (b : Bin) : Bin := { b with threads := b.threads.map (Thread.movedAll find) }

/-- Two registers of every lane, as tags that move. -/
def movePair (find : DWord → Option (Nat × Nat)) (lo hi : LaneVec Word) : LaneVec Word × LaneVec Word :=
  let pair (l : Fin 64) : Word × Word := moveTag find (lo[l]) (hi[l])
  (Vector.ofFn fun l : Fin 64 => (pair l).1, Vector.ofFn fun l : Fin 64 => (pair l).2)

/-- Two scalars, as a tag that moves. -/
def moveScalars (find : DWord → Option (Nat × Nat)) (v : Vector Word 48) (k : Nat) : Vector Word 48 :=
  let p := moveTag find (vget v (k % 48) (Nat.mod_lt _ (by decide))) (vget v ((k + 1) % 48) (Nat.mod_lt _ (by decide)))
  vset (vset v (k % 48) p.1 (Nat.mod_lt _ (by decide))) ((k + 1) % 48) p.2 (Nat.mod_lt _ (by decide))

/-- Rewrite the live tags in the even pairs of vector registers, handler registers and scalars of a gang (R332; log entry
24). -/
def Gang.movedTags (find : DWord → Option (Nat × Nat)) (g : Gang) : Gang :=
  let evens := (g.v.filter fun e => (FMap.get? g.v (e.1 / 2 * 2 + 1)).isSome).map fun e => e.1 / 2 * 2
  let v := evens.dedup.foldl (fun v k =>
    let p := movePair find (FMap.getD v k (uniform 0)) (FMap.getD v (k + 1) (uniform 0))
    FMap.set (FMap.set v k p.1) (k + 1) p.2) g.v
  let a := movePair find (g.hv[0]) (g.hv[1])
  let b := movePair find (g.hv[2]) (g.hv[3])
  { g with v := v, hv := #v[a.1, a.2, b.1, b.2], s := ((List.range 24).map (2 * ·)).foldl (moveScalars find) g.s }

/-- The lanes with a live tag stand at a new place: group 0 of the gang in a slot of a core (R332). -/
def Gang.tagsAt (g : Gang) (core slot : Nat) : Gang :=
  { g with tagPlaces := ((lanesOf g.origins).map fun l => (l, core, slot + l / 8)) ++ g.tagPlaces }

/-- A line with its start-of-clock values its present ones. -/
def Line.settled (l : Line) : Line := { l with clk := 0, sfull := l.full, spend := l.pend, taken := false }

/-- A barrier whose counts no update of the running clock has changed (R124). -/
def Barrier.settled (b : Barrier) : Barrier := { b with clk := 0, start := b.now, upds := [] }

/-- A unit that does not issue before a clock. -/
def UnitState.readyAt (clk : Nat) (u : UnitState) : UnitState := { u with nextIssue := clk }

/-- Change every gang of a team. -/
def State.mapGangs (s : State) (tid : Nat) (k : Gang → Gang) : State :=
  { s with gangs := s.gangs.map fun x => (x.1, if x.2.team == tid then k x.2 else x.2) }

/-- A gang without reservations. -/
def Gang.unreserved (g : Gang) : Gang := { g with rsv := Vector.replicate 64 none }

/-- A unit that waited for leave stands at its word again: the request is made again on restore (R21, R262). -/
def UnitState.unasked (u : UnitState) : UnitState :=
  if u.stop == .leave || u.stop == .mleave then { u with stop := .run, leave := false } else { u with leave := false }

/-- What a save leaves of a gang: no reservation, no request for leave, no write of `agl` to come (R117, R21). -/
def Gang.saved (g : Gang) : Gang :=
  let g := g.takeAgl
  { g.unreserved with units := g.units.map UnitState.unasked }

/-- A team comes to stand on a core with runs for its gangs, in group order; its lanes may issue from a tick on. Its
trap bin, its spawn bins and its tags come with it (R330, R332). -/
def State.settleOn (s : State) (tid core : Nat) (runs : List (Nat × Nat)) (from_ : Nat) : State :=
  match FMap.get? s.teams tid with
  | none => s
  | some t =>
    let gs := s.teamGangs tid
    let first (r : Nat × Nat) : Nat := quadSlots (coreKind core) * r.1 + r.2
    let find (tag : DWord) : Option (Nat × Nat) :=
      match s.originOf tid t.core tag with
      | none => none
      | some (gid, _, l) => ((gs.zip runs).find? fun x => x.1.1 == gid).map fun x => (core, first x.2 + l / 8)
    let clk := (from_ + clockTicks (coreKind core) - 1) / clockTicks (coreKind core)
    let s := (gs.zip runs).foldl (fun s (g, r) =>
      let us := g.2.units.map (UnitState.readyAt clk)
      s.setGang g.1 (Gang.tagsAt (Gang.movedTags find { g.2 with quad := r.1, slot := r.2, units := us }) core (first r))) s
    let fix (b : TrapBin) : TrapBin := { b with threads := b.threads.map (Thread.moved find) }
    let lines : FMap Line := t.lines.map fun x => (x.1, x.2.settled)
    let bars : FMap Barrier := t.bars.map fun x => (x.1, x.2.settled)
    let bins : FMap Bin := t.bins.map fun x => (x.1, x.2.moved find)
    let batches := t.batches.map fun x => (x.1, x.2.1, x.2.2.map (Thread.movedAll find))
    let t' : Team := { t with core := core, kind := coreKind core, resumeAt := from_, savedTrap := none, savedWait := [],
                              lines := lines, bars := bars, bins := bins, batches := batches }
    let s := s.setTeam tid t'
    let s := match t.savedTrap with
      | none => s
      | some b =>
        let s := s.flushTrap core
        s.setCore core { s.core core with trapBin := some (fix b) }
    s.setCore core { s.core core with trapWait := (s.core core).trapWait ++ t.savedWait.map fix }

/-- Restore a saved team (R22, R302). -/
def State.restore (s : State) (die tid : Nat) (t : Team) : Option State :=
  if s.now < t.resumeAt then none
  else (s.restoreFit die tid t).map fun (c, r) =>
    let s := s.setTeam tid { t with life := .resident, placedAt := s.now }
    (s.settleOn tid c r (s.now + s.saveTicks tid t)).retryForm c

/-- A die may restore a saved team of a context. -/
def State.mayRestore (s : State) (die ctx : Nat) (t : Team) : Bool :=
  t.life == .saved && t.ctx == ctx && (FMap.get? s.grids t.grid).elim false fun g => g.lr.dmask / 2 ^ die % 2 == 1

/-- Saved teams of a context that a die may restore and whose wake condition holds, highest class first (R300). -/
def State.savedTeams (s : State) (die ctx : Nat) : List (Nat × Team) :=
  sortBy (fun a b => decide (s.teamClass b.2 ≤ s.teamClass a.2))
    (s.teams.filter fun t => s.mayRestore die ctx t.2 && s.teamAwake t.1)

/-- A class is blocked by a starved head of a higher class on the die (R300). -/
def State.classBlocked (s : State) (die cls : Nat) : Bool := (s.die die).starved.any fun k => decide (cls < k % 4)

/-- The candidate a decision of a die places for a context: the first of R300 that fits. -/
def State.decide' (s : State) (die ctx : Nat) : Option State :=
  let saved := (s.savedTeams die ctx).findSome? fun t =>
    if s.classBlocked die (s.teamClass t.2) then none else s.restore die t.1 t.2
  match saved with
  | some s' => some s'
  | none => [3, 2, 1, 0].findSome? fun cls => if s.classBlocked die cls then none else s.placeHead die ctx cls

/-- Saved teams whose wake condition does not hold, which the scheduler may choose to let in (R22; log entry 12). -/
def State.sleepers (s : State) (die ctx : Nat) : List (Nat × Team) :=
  s.teams.filter fun t => s.mayRestore die ctx t.2 && !s.teamAwake t.1 && !s.classBlocked die (s.teamClass t.2)

/-- With no candidate to place, the scheduler admits a sleeping team or none: which, is free (R22). -/
def State.letIn (s : State) (die ctx : Nat) : State :=
  match s.sleepers die ctx with
  | [] => s
  | ts =>
    let (r, s) := s.free
    match ts[r % (ts.length + 1)]? with
    | none => s
    | some t => (s.restore die t.1 t.2).getD s

/-- A context is further below its share of a die than another (R305). -/
def State.furtherBelow (s : State) (die a b : Nat) : Bool :=
  decide (FMap.getD (s.die die).used a 0 * (s.ctx b).weight < FMap.getD (s.die die).used b 0 * (s.ctx a).weight)

/-- `PLACEMENT_DECISION` (R299, R300, R305): for a running context, unless a waiting context further below its share
could be served. -/
def execPlacementDecision (die ctx : Nat) (s : State) : Host.Outcome State Fault Refusal :=
  .next <|
    let rival := s.ctxs.any fun c => c.1 != ctx && s.running c.1 && s.furtherBelow die c.1 ctx && (s.decide' die c.1).isSome
    if 4 ≤ die || !s.running ctx || rival then s else (s.decide' die ctx).getD (s.letIn die ctx)

/-- `QUEUE_HEAD_STARVATION` (R300): a head that has waited 2^20 clocks blocks lower classes. -/
def execQueueHeadStarvation (die ctx cls : Nat) (s : State) : Host.Outcome State Fault Refusal :=
  let d := s.die die
  let k := queueKey ctx cls
  .next <| match FMap.get? d.headAt k with
  | none => s
  | some at_ =>
    if s.running ctx && decide (at_ + Config.starvationClocks * Config.bannerTicks ≤ s.now) && !d.starved.contains k then
      s.setDie die { d with starved := k :: d.starved }
    else s

/-! ### Saving (R302 to R305, R342) -/

/-- Save a team: its core's gather buffer drains, reservations clear, its trap bin comes with it (R83, R117, R302, R330). -/
def State.save (s : State) (tid : Nat) (t : Team) : State :=
  let s := s.drain t.core
  let c := s.core t.core
  let mine := c.trapBin.filter fun b => b.team == tid
  let wait := c.trapWait.filter fun b => b.team == tid
  let s := s.setCore t.core { c with trapBin := if mine.isSome then none else c.trapBin
                                     trapWait := c.trapWait.filter fun b => b.team != tid }
  let s := s.mapGangs tid Gang.saved
  let ids := (s.teamGangs tid).map (·.1)
  let d := s.die (coreDie t.core)
  let s := s.setDie (coreDie t.core) { d with leave := d.leave.filter fun r => !ids.contains r.gang }
  s.setTeam tid { t with life := .saved, resumeAt := s.now + s.saveTicks tid t, savedTrap := mine, savedWait := wait }

/-- The state with some teams taken off their cores, to see what would then fit. -/
def State.without (s : State) (sel : Team → Bool) : State :=
  { s with teams := s.teams.map fun (n, t) => (n, if sel t then { t with life := .saved, resumeAt := 0 } else t) }

/-- Classes of the candidates of a context on a die that do not fit now. -/
def State.stuck (s : State) (die ctx : Nat) : List (Nat × (State → Bool)) :=
  let saved := (s.savedTeams die ctx).filterMap fun t =>
    if (s.restoreFit die t.1 t.2).isSome then none
    else some (s.teamClass t.2, fun (s' : State) => (s'.restoreFit die t.1 t.2).isSome)
  let heads := [3, 2, 1, 0].filterMap fun cls =>
    if (FMap.getD (s.die die).queues (queueKey ctx cls) []).isEmpty || (s.headFit die ctx cls).isSome then none
    else some (cls, fun (s' : State) => (s'.headFit die ctx cls).isSome)
  saved ++ heads

/-- Case 1 of R303: a higher candidate would fit; the victim is of the lowest class, then longest blocked. -/
def State.evictForClass (s : State) (die : Nat) (t : Team) : Bool :=
  let c := s.teamClass t
  let victim (x : Team) (cls : Nat) : Bool := x.life == .blocked && coreDie x.core == die && decide (s.teamClass x < cls)
  s.ctxs.any fun k => s.running k.1 && (s.stuck die k.1).any fun (cls, would) =>
    decide (c < cls) && would (s.without fun x => victim x cls) &&
      s.teams.all fun x => !victim x.2 cls || decide (c < s.teamClass x.2) ||
        (s.teamClass x.2 == c && decide (t.blockedAt ≤ x.2.blockedAt))

/-- Case 2 of R303: admission by eviction (R304); the victim is the most recently placed. -/
def State.evictForGrid (s : State) (die : Nat) (t : Team) : Bool :=
  let here := s.teams.filter fun x => x.2.grid == t.grid && x.2.placed && coreDie x.2.core == die
  let cls := s.teamClass t
  let queued := (FMap.getD (s.die die).queues (queueKey t.ctx cls) []).any fun q => q.grid == t.grid
  s.running t.ctx && queued && here.all (fun x => x.2.life == .blocked) && (s.headFit die t.ctx cls).isNone &&
    !s.teams.any (fun x => x.2.grid == t.grid && x.2.life == .saved && s.teamAwake x.1) &&
    here.all fun x => decide (x.2.placedAt ≤ t.placedAt)

/-- The core from which a context's teams are saved next, core by core (R305; log entry 85): the lowest of a die on which
every team of the context is blocked, else the lowest with a blocked one. -/
def State.switchCore (s : State) (die ctx : Nat) : Option Nat :=
  let mine := s.teams.filter fun x => x.2.ctx == ctx && x.2.placed && coreDie x.2.core == die
  let least (l : List (Nat × Team)) : Option Nat := (l.map fun x => x.2.core).min?
  match least (mine.filter fun x => mine.all fun y => y.2.core != x.2.core || y.2.life == .blocked) with
  | some c => some c
  | none => least (mine.filter fun x => x.2.life == .blocked)

/-- Case 3 of R303: a context switch, from a context above its share while another waits (R305). -/
def State.evictForContext (s : State) (die : Nat) (t : Team) : Bool :=
  let live := s.ctxs.filter fun c => s.running c.1
  let total := (live.map fun c => FMap.getD (s.die die).used c.1 0).sum
  let weights := (live.map fun c => c.2.weight).sum
  decide ((s.ctx t.ctx).weight * total < FMap.getD (s.die die).used t.ctx 0 * weights) &&
    s.switchCore die t.ctx == some t.core &&
    s.ctxs.any fun c => c.1 != t.ctx && s.running c.1 && !(s.stuck die c.1).isEmpty

/-- The core of a team, or a quadrant a gang of it stands in, is fenced (R342). -/
def State.evictForFence (s : State) (tid : Nat) (t : Team) : Bool :=
  let c := s.core t.core
  !c.copyUp || (t.kind == .banner && !c.matrixUp) || (s.teamGangs tid).any fun g => !c.quadsUp.getLsbD g.2.quad

/-- `TEAM_SAVE` (R303 to R305, R342). -/
def execTeamSave (tid : Nat) (s : State) : Host.Outcome State Fault Refusal :=
  .next <| match FMap.get? s.teams tid with
  | none => s
  | some t =>
    let die := coreDie t.core
    if s.savable tid t && s.areaRoom tid t && (s.evictForClass die t || s.evictForGrid die t || s.evictForContext die t || s.evictForFence tid t)
    then s.save tid t else s

/-! ### Migration (R311 to R313) -/

/-- Operation of a gang's `migr`. -/
def State.migrOp (s : State) (gid : Nat) : Option (Nat × Op) :=
  s.ops.find? fun o => o.2.gang == gid && match o.2.kind with
    | .migr _ => true
    | _ => false

/-- Lanes of a gang that have not exited. -/
def Gang.liveLanes (g : Gang) : Mask := lowLanes g.width &&& ~~~g.allOf (·.xm)

/-- A gang's `migr` completes with a value, and its units go on. -/
def State.endMigr (s : State) (gid : Nat) (pd : Option PReg) (ok : Bool) : State :=
  match FMap.get? s.gangs gid, s.migrOp gid with
  | some g, some (oid, o) =>
    let p := match pd, o.kind with
      | some p, _ => p
      | none, .migr p => p
      | none, _ => 0
    let s := s.endAll oid [predWrite p g.liveLanes fun _ => ok]
    { s with gangs := FMap.adjust s.gangs gid fun g =>
        { g with units := g.units.map fun u => if u.stop == .migr then { u with stop := .run } else u } }
  | _, _ => s

/-- Every gang at a team's rendezvous writes false and goes on (R311, R312). -/
def State.failMigr (s : State) (tid : Nat) (gangs : List Nat) : State :=
  let s := gangs.foldl (fun s g => s.endMigr g none false) s
  { s with teams := FMap.adjust s.teams tid fun t => { t with mig := none } }

/-- The target image of a migration (R313). -/
def State.targetImage (s : State) (t : Team) (v : Version) (n : Nat) (k : CoreKind) : Option Image × State :=
  match v.native k with
  | none => (v.tamut k, s)
  | some i =>
    let func := (i.point n).elim t.header.func (·.2)
    let (st, s) := s.tstate t.ctx v func k
    (if st = 3 then some i else v.tamut k, s)

/-- The headers of two images agree as a migration needs (R312). -/
def Header.agrees (a b : Header) : Bool :=
  a.scratch == b.scratch && a.barriers == b.barriers && a.gang == b.gang && a.team == b.team

/-- Where a migration arrives: target image, PC of its `eqp`, predicate of its `migr`, header; none where a case of
R312 forbids it. -/
def State.migrTarget (s : State) (tid : Nat) (t : Team) (n : Nat) (k : CoreKind) : Option (Image × Word × PReg × Header) × State :=
  match (FMap.get? s.grids t.grid).bind fun g => FMap.get? (s.ctx t.ctx).versions g.version with
  | none => (none, s)
  | some v =>
    if (v.chosen k).isNone then (none, s)
    else match s.targetImage t v n k with
      | (none, s) => (none, s)
      | (some i, s) =>
        (match i.point n, i.header t.header.func with
         | some (pc, _), some h =>
           (match decodeWord (v.word (pc.toNat + 8)) with
            | some (.migr _ pd _ _) =>
              if h.agrees t.header && canEver k h (s.teamSizes tid) &&
                  (s.teamGangs tid).all (fun g => g.2.regions.isEmpty) then some (i, pc, pd, h) else none
            | _ => none)
         | _, _ => none, s)

/-- The drain phase is over (R311): no operation of the team but its `migr`s, and no `mma` or other result. -/
def State.drained (s : State) (tid : Nat) : Bool :=
  (s.teamGangs tid).all fun g => g.2.results.isEmpty && !s.redoing g.1 && (s.opsOf g.1).all fun o => match o.2.kind with
    | .migr _ => true
    | _ => false

/-- Every gang of a team stands at the rendezvous. -/
def State.allArrived (s : State) (tid : Nat) (m : Migration) : Bool := (s.teamGangs tid).all fun g => m.gangs.contains g.1

/-- Cores a migration searches, in order (R311): the team's die, then the others of `dmask`. -/
def State.migrCores (s : State) (t : Team) (k : CoreKind) : List Nat :=
  let dmask := (FMap.get? s.grids t.grid).elim 0 fun g => g.lr.dmask
  let d0 := coreDie t.core
  let dies := (d0 :: (List.range 4).filter fun d => d != d0).filter fun d => dmask / 2 ^ d % 2 == 1
  dies.flatMap fun d => coresOf d k

/-- The map a gang's registers pass through on a migration: from the image it executes (R312). -/
def State.migrMap (s : State) (v : Option Version) (n : Nat) (dst : ImageKind) (g : Nat × Gang) : List MapEntry :=
  (v.bind fun v => v.mapFor n (s.gangImage g.1 g.2) dst).elim [] (·.entries)

/-- Entries of a class in a map. -/
def entryCount (es : List MapEntry) (c : Nat) : Nat := (es.filter fun e => e.cls == c).length

/-- Where a poisoned register of a gang stands after a map (R64, R339): nowhere where no entry names it. -/
def movedPoison (es : List MapEntry) (loc : RegLoc) : List RegLoc :=
  es.filterMap fun e => match loc with
    | .v n => if e.cls = 0 ∧ e.src = n then some (.v e.dst) else none
    | .s n => if e.cls = 1 ∧ e.src = n + 0xC0 then some (.s (e.dst - 0xC0)) else none
    | .p n => if e.cls = 2 ∧ e.src = n then some (.p e.dst) else none
    | _ => none

/-- The registers of a gang pass through a map, their poison with them (R64, R307, R312). -/
def State.mapGang (s : State) (gid : Nat) (es : List MapEntry) : State :=
  let move (p : Nat × RegLoc × Nat) : List (Nat × RegLoc × Nat) :=
    if p.1 != gid then [p]
    else match p.2.1 with
      | .v _ | .s _ | .p _ => (movedPoison es p.2.1).map fun l => (gid, l, p.2.2)
      | _ => [p]
  { s with
    gangs := FMap.adjust s.gangs gid fun g => g.mapped es
    regPoison := s.regPoison.flatMap move }

/-- The queue phase of a migration finds a core (R311): the goal, the core, and the runs its gangs take. -/
def State.migrCore (s : State) (tid : Nat) (t : Team) (m : Migration) (h : Header) : Option (Nat × List (Nat × Nat)) :=
  if t.life == .moving || !s.allArrived tid m || !s.drained tid || s.now < t.resumeAt || !s.running t.ctx then none
  else s.firstFit (s.migrCores t m.kind) t.ctx (s.versionKey t) h (s.teamSizes tid) t.bins.length

/-- The team moves (R312): its registers pass through the map, reservations clear, the source core's gather buffer
drains, and what waits for room there is formed. It counts on its new core with the header it has there (R13). -/
def State.moveTeam (s : State) (tid : Nat) (t : Team) (m : Migration) (goal : Goal) (core : Nat) (runs : List (Nat × Nat)) :
    State :=
  let v := (FMap.get? s.grids t.grid).bind fun g => FMap.get? (s.ctx t.ctx).versions g.version
  let map := s.migrMap v m.n goal.image.kind
  let maps := (s.teamGangs tid).map fun g => (g.1, map g)
  let ticks := moveTicks (s.bytesWith tid t fun g => (entryCount (map g) 0, entryCount (map g) 1))
  let s := if t.life == .saved then s else s.save tid t
  let s := maps.foldl (fun s x => s.mapGang x.1 x.2) s
  let s := s.mapGangs tid fun g => { g.unreserved with marks := [] }
  let s := { s with teams := FMap.adjust s.teams tid fun t => { t with header := goal.header } }
  let s := s.settleOn tid core runs (s.now + ticks)
  let s := { s with teams := FMap.adjust s.teams tid fun t =>
    { t with life := .moving, mig := some { m with goal := some goal } } }
  s.retryForm t.core

/-- A migration that can move now moves; one that a case of R312 forbids writes false (R311, R312). -/
def State.tryMove (s : State) (tid : Nat) : Option State :=
  match FMap.get? s.teams tid with
  | none => none
  | some t => match t.mig with
    | none => none
    | some m =>
      if t.life == .moving || !s.allArrived tid m then none
      else match s.migrTarget tid t m.n m.kind with
        | (none, s) => some (s.failMigr tid m.gangs)
        | (some (img, pc, pd, h), s) =>
          (s.migrCore tid t m h).map fun x => s.moveTeam tid t m ⟨img, pc, pd, h⟩ x.1 x.2

/-- `MIGRATION_MOVE` (R311, R312): a core of the target kind is found. -/
def execMigrationMove (tid : Nat) (s : State) : Host.Outcome State Fault Refusal := .next ((s.tryMove tid).getD s)

/-- `MIGRATION_BUDGET_EXPIRY` (R311, R313): the budget has run out, and no core can be taken in that clock. -/
def execMigrationBudgetExpiry (tid : Nat) (s : State) : Host.Outcome State Fault Refusal :=
  .next <| match FMap.get? s.teams tid with
  | none => s
  | some t => match t.mig with
    | none => s
    | some m =>
      if t.life != .moving && decide (m.deadline ≤ s.now) && (s.tryMove tid).isNone then s.failMigr tid m.gangs else s

/-- A gang resumes in the image it has migrated to (R313); its handler is that of the image's header (log entry 115). -/
def Gang.arrive (g : Gang) (pc mpc hpc : Word) : Gang :=
  { g with mpc := mpc, hpc := hpc
           units := g.units.map fun u => { u with ipc := pc + 16, stop := .run }
           lpc := mergeLanes (g.allOf (·.am)) (uniform (pc + 16)) g.lpc }

/-- `MIGRATION_RESUME` (R313). -/
def execMigrationResume (tid : Nat) (s : State) : Host.Outcome State Fault Refusal :=
  .next <| match FMap.get? s.teams tid with
  | none => s
  | some t => match t.mig with
    | none => s
    | some m =>
      if t.life != .moving || s.now < t.resumeAt then s
      else match m.goal with
        | none => s
        | some goal =>
          let s := m.gangs.foldl (fun s gid =>
            let mpc := (s.migrOp gid).elim 0 (·.2.pc)
            let s := { s with gangs := FMap.adjust s.gangs gid fun g => g.arrive goal.pc mpc goal.header.hpc }
            s.endMigr gid (some goal.pd) true) s
          let s := { s with teams := FMap.adjust s.teams tid fun t =>
            { t with life := .resident, mig := none, placedAt := s.now } }
          s.retryForm t.core

end Sys2Proof.Machine
end

