-- ==== Sys2Proof/Machine/Perform.lean ====
section
/-! DEFINITION. How a memory-touching word becomes an operation (R93, R95, R102, R103, R368), how its parts perform
(R96, R386) and complete (R97), and the steps `OPERATION_PERFORM`, `OPERATION_COMPLETE`,
`RESERVATION_HOLD_EXPIRY`, `GATHER_LINE_WRITEBACK`, `GATHER_LINE_TIMEOUT`, `WINDOWED_COMPLETE`. -/

namespace Sys2Proof.Machine

/-! ### Performing -/

/-- Values of `sqry` for a group (R127): the query itself is excluded. -/
def State.queryGroup (s : State) (oid : Nat) (o : Op) (grp n : Nat) : Nat × Nat :=
  match FMap.get? s.gangs o.gang with
  | none => (0, 0)
  | some g =>
    let own := o.sn.toNat == n
    let rest := (s.outstanding o.gang grp n).filter fun x => x.1 != oid
    let next := if own then g.nextSeq grp n - 1 else g.nextSeq grp n
    let oldest := match rest with
      | [] => next
      | x :: _ => x.2.seq
    (rest.length % 64 + 2 ^ 16 * next.toNat, oldest.toNat)

/-- The four words of `bar.tst` as one number (R123). -/
def BarCounts.test (b : BarCounts) : Nat :=
  b.arr + 2 ^ 16 * b.exp + 2 ^ 32 * (b.ph + 2 ^ 16 * b.nxt) + 2 ^ 64 * (b.base + (if b.ovr then 2 ^ 16 else 0))

/-- Lanes of an operation in the parts of a step. -/
def Op.stepLanes (o : Op) (grp : Nat) : Mask := if o.kind.gangWide then o.lanes else o.lanes &&& grpMask grp

/-- A frame for the register writes of an operation. -/
def State.opFrame (s : State) (o : Op) : Option Frame :=
  (FMap.get? s.gangs o.gang).map fun g => ⟨o.gang, 0, g, { g.units.headD default with hm := false }⟩

/-- A barrier operation performs (R123 to R126). -/
def State.performBar (s : State) (oid : Nat) (o : Op) (k : BarKind) (id : Nat) (d : Reg) (val : Nat) : State :=
  match s.opFrame o with
  | none => s
  | some f =>
    let team := f.g.team
    let none_ := o.lanes == 0
    let n := (lanesOf o.lanes).length
    let ph := (s.barStart team id).ph
    match k with
    | .ini => (if none_ then s else s.barUpdate team id (.ini (s.opSlot o) val)).endAll oid
    | .exp next => (if none_ then s else s.barUpdate team id (.expect val next)).endAll oid
    | .tst => s.endAll oid (bigWrites f d 4 o.lanes fun _ => (s.barStart team id).test)
    | .arv =>
      let s := s.setOp oid { o.performed 0 with tok := ph }
      (if none_ then s else s.barUpdate team id (.arrive n val)).endAll oid
    | .awt =>
      let s := s.setOp oid { o.performed 0 with tok := ph, at_ := s.teamClock team }
      if none_ then s else s.barUpdate team id (.arrive n val)
    | .wt =>
      let s := s.setOp oid { o.performed 0 with tok := val % 2 ^ 16, at_ := s.teamClock team }
      if ph = val % 2 ^ 16 then s else s.endAll oid

/-- Requests of the accesses of a group, or of a gang-wide effect, at the home L2s: one for each 64-byte sector (R365).
Core-scope stores enter the gather buffer and ask nothing; how many lines the read-only L1 serves is free (log entry 88). -/
def State.countAccesses (s : State) (o : Op) (accs : List Access) : State :=
  let held (a : Access) : Bool := o.kind == .store && a.sc == .core
  let secs := sectorsOf ((accs.filter fun a => !held a).map (·.loc))
  match o.kind, secs with
  | _, [] => s
  | .load _ _ _ true _ _, _ =>
    let (r, s) := s.free
    s.countReq (s.opCore o) (secs.take (r % (secs.length + 1)))
  | _, _ => s.countReq (s.opCore o) secs

/-- The parts of a step perform at this moment of the history; an `ldr` or `stc` takes its place in the order of arrival
(R85, R118). -/
def State.markPerformed (s : State) (oid grp : Nat) (o : Op) : State :=
  let (n, s) := if o.kind.reserving then s.newId else (0, s)
  (s.countAccesses o (o.accs.filter (o.accIn grp))).setOp oid (o.performed grp s.moment n)

/-- A part performs; `make` says whether its accesses are made at once, where they may be (log entry 9). -/
def State.performNow (s : State) (oid grp : Nat) (o : Op) (make : Bool) : State :=
  let done (s : State) : State := s.endParts oid (o.inStep grp)
  let mine := o.accs.filter (o.accIn grp)
  match o.kind with
  | .none | .pf => done s
  | .load .. | .store | .atomic .. | .stc _ | .trec _ =>
    let s := s.markPerformed oid grp o
    if mine.isEmpty then done s
    else if make then s.makeAccesses oid fun _ a => o.accIn grp a
    else s
  | .ldk _ | .stf =>
    let s := s.setOp oid (o.performed grp)
    if o.lanes == 0 then done s else s
  | .fes => if mine.all (s.accReady oid o) then done ((touchedOf mine).foldl (fun s l => s.setFull l.1 l.2 true) s) else s
  | .fec => if mine.all (s.accReady oid o) then done ((touchedOf mine).foldl (fun s l => s.setFull l.1 l.2 false) s) else s
  | .fet pd =>
    if mine.all (s.accReady oid o) then
      let full (l : Nat) : Bool := mine.any fun a => a.lane == l && match a.loc with
        | .scratch t ofs => ((s.lineOf t (ofs / 128)).touch (s.teamClock t)).sfull
        | _ => false
      s.endParts oid (o.inStep grp) [predWrite pd (o.stepLanes grp) full]
    else s
  | .bar k id d val => s.performBar oid o k id d val
  | .sqry d n =>
    (match s.opFrame o with
     | none => s
     | some f =>
       let q := s.queryGroup oid o grp n
       s.endParts oid (o.inStep grp) (bigWrites f d 2 (o.stepLanes grp) fun _ => q.1 + 2 ^ 32 * q.2))
  | .cp .. => s.performCp oid grp
  | .cpm .. => s.performCpm oid
  | .cpc .. => s.performCpc oid
  | .launch _ => s.performLaunch oid
  | .spawn .. => s.performSpawn oid
  | .migr _ => s

/-- The part of a group performs, where its predecessor masks are met (R96, R386). -/
def State.performPart (s : State) (oid grp : Nat) (make : Bool) : State :=
  match FMap.get? s.ops oid with
  | none => s
  | some o =>
    if (o.parts.any fun p => o.inStep grp p && !p.performed) && s.mayPerform oid o grp
    then s.performNow oid grp o make else s

/-- `OPERATION_PERFORM` (R96): a held part performs. -/
def execOperationPerform (oid grp : Nat) (s : State) : Host.Outcome State Fault Refusal :=
  .next (s.performPart oid grp false)

/-- A wait on a barrier phase is over (R125): its phase is settled and is no longer the awaited one. -/
def State.barDone (s : State) (o : Op) : Bool :=
  match o.kind, FMap.get? s.gangs o.gang with
  | .bar .awt id _ _, some g | .bar .wt id _ _, some g =>
    o.parts.all (·.performed) && decide (o.at_ < s.teamClock g.team) && (s.barStart g.team id).ph != o.tok
  | _, _ => false

/-- `OPERATION_COMPLETE` (R97): the selected accesses of a performed part are made; when none is left, the part
completes. -/
def execOperationComplete (oid grp : Nat) (which : BitVec 128) (s : State) : Host.Outcome State Fault Refusal :=
  .next <| match FMap.get? s.ops oid with
  | none => s
  | some o =>
    if s.opFrozen o || !o.parts.any (fun p => o.inStep grp p && p.performed && !p.completed) then s
    else match o.kind with
    | .load .. | .store | .atomic .. | .stc _ | .trec _ =>
      (s.makeAccesses oid fun k a => o.accIn grp a && which.getLsbD k).endIfMade oid grp
    | .bar .. => if s.barDone o then s.endAll oid else s
    | _ => s

/-- `RESERVATION_HOLD_EXPIRY` (R118): 256 clocks have passed. -/
def execReservationHoldExpiry (granule : Nat) (s : State) : Host.Outcome State Fault Refusal :=
  .next <| match FMap.get? s.holds granule with
  | none => s
  | some h => if h.till ≤ s.now then { s with holds := FMap.erase s.holds granule } else s

/-- `GATHER_LINE_WRITEBACK` (R83): a line leaves its buffer at any moment. -/
def execGatherLineWriteback (core sector : Nat) (s : State) : Host.Outcome State Fault Refusal :=
  .next (s.leaveLine core sector)

/-- `GATHER_LINE_TIMEOUT` (R83): 8,192 clocks after its allocation a line leaves. -/
def execGatherLineTimeout (core sector : Nat) (s : State) : Host.Outcome State Fault Refusal :=
  .next <| if (s.core core).gather.any fun l =>
      GLine.key l == sector && decide (l.alloc + Config.gatherLimit * Config.bannerTicks ≤ s.now) then s.leaveLine core sector else s

/-- The values of a `vqry` (R315). -/
def State.askValue (s : State) (g : Gang) (k : Nat) (a : Word) : (Nat × Nat) × State :=
  match s.versionOf g with
  | none => ((0, 0), s)
  | some v =>
    if k = 0 then ((v.ver, v.obj), s)
    else if k = 1 then
      if v.funcs.length ≤ a.toNat then ((0xFFFFFFFF, 0xFFFFFFFF), s)
      else
        let (w, s) := s.readVa (s.ctxOf g) (v.tstateVa a.toNat)
        ((w.getD 0 % 16, 0), s)
    else
      let vs := ((s.ctx (s.ctxOf g)).versions.filter fun x => x.2.obj == v.obj).map fun x => x.2.ver
      ((vs.foldl max 0, vs.length), s)

/-- The writes of a result: those formed at issue, or the values a `vqry` binds now. -/
def State.resultWrites (s : State) (f : Frame) (r : Result) : List LaneWrite × State :=
  match r.ask with
  | none => (r.writes, s)
  | some (k, a, d) =>
    let (x, s) := s.askValue f.g k a
    (r.writes ++ bigWrites f d 2 1 fun _ => x.1 + 2 ^ 32 * x.2, s)

/-- `WINDOWED_COMPLETE` (R38, R40, R165): a result that is due is written, lanes that trap fault at its PC, and its window
closes; that of a word that waits for its recompute is not (R144). A `vqry` binds here (R315). A lane that has exited inside the window stays in `xm`, its fault being delivered (log
entry 89); a word of an invocation that has ended faults its own lanes (log entry 90). -/
def execWindowedComplete (gang res : Nat) (s : State) : Host.Outcome State Fault Refusal :=
  .next <| match (FMap.get? s.gangs gang).bind fun g => (FMap.get? g.results res).map fun r => (g, r) with
  | none => s
  | some (g, r) =>
    match r.due with
    | none => s
    | some n =>
      if s.clock (s.coreOf g) < n || s.redoHeld gang res then s
      else
        let (ws, s) := s.resultWrites ⟨gang, 0, g, { g.units.headD default with hm := false }⟩ r
        let s := { s with gangs := FMap.adjust s.gangs gang fun g => { g with results := FMap.erase g.results res } }
        let s := s.apply gang ws
        let hits : List Hit := (lanesOf r.faults).map fun l => ⟨l, r.cause, 0⟩
        let s := if hits.isEmpty then s else if r.hm then s.laneFaults gang r.unit hits r.pc else s.takeFaults gang hits r.pc
        (s.closeWindow gang res).reap gang

/-! ### Issuing an operation -/

/-- The unit stops at an operation (R103). -/
def UnitState.halted (oid : Nat) (u : UnitState) : UnitState := { u with stop := .op oid }

/-- What a memory-touching word has formed at its issue: what it does, the lanes still taking part, its accesses and
units, the lanes that fault and those that meet a missing page (lane, page, level), and whether it stops the gang. -/
structure Plan where
  kind : OpKind
  lanes : Mask
  accs : List Access := []
  units : List CopyUnit := []
  hits : List Hit := []
  parks : List (Nat × Nat × Nat) := []
  stop : Bool := false
  deriving DecidableEq, Repr, Inhabited

/-- Groups of a unit. -/
def Frame.groups (f : Frame) : List Nat := (List.range f.g.groups).filter fun k => f.u.groups.getLsbD k

/-- A group's stream hands out its next number. -/
def Gang.takeSeq (g : Gang) (sn : Nat) (grp : Nat) : Gang :=
  let k := (8 * grp + sn) % 64
  { g with seq := vset g.seq k (vget g.seq k (Nat.mod_lt _ (by decide)) + 1) (Nat.mod_lt _ (by decide)) }

/-- The word is counted by its core, and whether it is sampled (R368); `SAMPK` above 24 acts as 24 (log entry 116). -/
def State.countSample (s : State) (core c : Nat) : Bool × State :=
  let x := s.ctx c
  if x.bit 5 then
    let cs := s.core core
    let n := FMap.getD cs.samples c 0 + 1
    (n % 2 ^ (min x.sampk 24) == 0, s.setCore core { cs with samples := FMap.set cs.samples c n })
  else (false, s)

/-- Lanes of a page among those that meet it. -/
def parkMask (ps : List (Nat × Nat × Nat)) (page : Nat) : Mask := maskOf fun l => ps.any fun p => p.1 == l && p.2.1 == page

/-- PAGE FAULT (R93): the lanes become fault-parked with their PC on the word, and each distinct page has a record, in the
order in which the lanes first met them. -/
def State.parkPages (s : State) (gid ui : Nat) (pc : Word) (ps : List (Nat × Nat × Nat)) : State :=
  match s.frameOf gid ui with
  | none => s
  | some f =>
    if ps.isEmpty then s
    else
      let m := maskOf fun l => ps.any fun p => p.1 == l
      let f' := f.saveLpc m pc
      let u := f.u.remove m
      let s := s.put { f' with u := { u with fm := u.fm ||| m }.noteEmpty f.u.am pc }
      let c := s.ctxOf f.g
      let who := s.nameOf f.g
      let pages := (ps.map fun p => p.2).reverse.dedup.reverse
      pages.foldl (fun s p =>
        let lanes := parkMask ps p.1
        let s := s.setCtx c { s.ctx c with parked := (s.ctx c).parked ++ [⟨p.1, gid, lanes⟩] }
        s.faultRec c (faultRecord 1 c (causeCode .pageFault) 0 pc.toNat p.1 who lanes.toNat p.2)) s

/-- Marks of what an operation writes, till it completes. -/
def State.markResult (s : State) (f : Frame) (i : Info) (oid : Nat) : State :=
  { s with gangs := FMap.adjust s.gangs f.gid fun g =>
      { g with marks := g.marks ++ (writeLocs f i).map fun l => { loc := l, till := .result oid } } }

/-- A leave that was granted is used up. -/
def State.dropLeave (s : State) (f : Frame) : State :=
  let use (u : UnitState) : UnitState := { u with leave := false }
  { s with gangs := FMap.adjust s.gangs f.gid fun g => { g with units := g.units.modify f.ui use } }

/-- A plain load with an empty mask: its R96 holds it back behind nothing. -/
def Plan.unordered (p : Plan) (o : Ord) : Bool :=
  o.pm == 0 && match p.kind with
    | .load _ _ _ _ _ rsv => !rsv
    | _ => false

/-- What a unit remembers of its latest wait as it issues an operation (log entry 119): a wait begins at the present
moment of its team's scratchpad, a load leaves it, anything else ends it. -/
def State.standing (s : State) (f : Frame) (p : Plan) : Option Nat :=
  match p.kind with
  | .load .. => f.u.stood
  | .ldk _ | .stf | .bar .. => if p.stop then (FMap.get? s.teams f.g.team).map (·.past.length) else none
  | _ => none

/-- THE ISSUE OF AN OPERATION (R95, R96, R102): one part in each group of the unit, with the next number of its stream;
lanes on missing pages park; parts whose masks are met perform, unless the next turn says that their accesses come
later; failing lanes fault. -/
def State.issueOp (s : State) (f : Frame) (i : Info) (o : Ord) (p : Plan) : State :=
  let (oid, s) := s.newId
  let c := s.ctxOf f.g
  let core := s.coreOf f.g
  let (sampled, s) := s.countSample core c
  let grps := f.groups
  let parts : List Part := grps.map fun k =>
    { grp := k, seq := f.g.nextSeq k o.sn.toNat, performed := false, completed := false }
  let command := match p.kind with
    | .cpc .. => true
    | _ => false
  let op : Op :=
    { gang := f.gid, unit := f.ui, pc := f.u.ipc, sn := o.sn, pm := o.pm, sc := o.sc, kind := p.kind, lanes := p.lanes
      parts := parts, accs := p.accs, units := p.units, buf := [], pending := [], claimed := false
      region := f.g.regions.head?.map fun r => (r.pc, f.g.regions.length), dropped := false, windowed := i.windowed
      sample := sampled && !command, waited := if f.u.leave then f.u.leaveWait else 0
      early := if p.unordered o then f.u.stood else none, tag := 0, tok := 0, at_ := 0 }
  let stood (u : UnitState) : UnitState := { u with stood := s.standing f p }
  let s := { s.setOp oid op with gangs := FMap.adjust s.gangs f.gid fun g => { g with units := g.units.modify f.ui stood } }
  let s := { s with gangs := FMap.adjust s.gangs f.gid fun g => grps.foldl (fun g k => g.takeSeq o.sn.toNat k) g }
  let s := (if i.windowed then s.openWindow f i oid else s.markResult f i oid).advance f
  let s := s.dropLeave f
  let s := if p.stop then
      { s with gangs := FMap.adjust s.gangs f.gid fun g => { g with units := g.units.modify f.ui (UnitState.halted oid) } }
    else s
  let s := s.parkPages f.gid f.ui f.u.ipc p.parks
  let make := !s.defer
  let s := grps.foldl (fun s k => s.performPart oid k make) { s with defer := false }
  if p.hits.isEmpty then s else s.laneFaults f.gid f.ui p.hits f.u.ipc

end Sys2Proof.Machine
end

