-- ==== Sys2Proof/Machine/CopyOps.lean ====
section
/-! DEFINITION. Major 0x7: `cp`, `cpm` and `cpc` (R210 to R222), and the wait for leave (R21, R379). -/

namespace Sys2Proof.Machine

/-! ### Leave -/

/-- The unit stops for leave and asks its die's governor; its word has not issued (R21, R217). -/
def State.askLeave (s : State) (f : Frame) : State :=
  let core := s.coreOf f.g
  let d := s.die (coreDie core)
  let s := s.put { f with u := { f.u with stop := .leave } }
  s.setDie (coreDie core) { d with leave := d.leave ++ [⟨core, f.gid, f.ui, false, s.now⟩] }

/-! ### `cp` (R210 to R214) -/

/-- Which sides of a direction are global. -/
def copyGlobals : CopyDir → Bool × Bool
  | .g2s => (true, false)
  | .s2g => (false, true)
  | .g2g => (true, true)
  | .s2s => (false, false)

/-- A side of a copy as R211 step 2 and 3 check it. -/
def State.copySide (s : State) (tid : Nat) (t : Team) (global : Bool) (a size : Nat) : Except Cause Side :=
  match regionOf a, global with
  | .global, true | .system, true => .ok (.virt a)
  | .local_ o, false => if t.header.scratch < o + size then .error .scratch else .ok (.scratch tid o a)
  | .cluster r o, false =>
    let count := (FMap.get? s.grids t.grid).elim 1 fun g => g.lr.cw * g.lr.ch
    match (if r == t.rank then some tid else if r < count then s.teamAt t r else none) with
    | none => .error .protection
    | some x => if t.header.scratch < o + size then .error .scratch else .ok (.scratch x o a)
  | _, _ => .error .protection

/-- The cause a checked side gives at a step. -/
def sideFault : Except Cause Side → Option Cause
  | .error c => some c
  | .ok _ => none

/-- The checks of R211 for one lane: its request, nothing for a size of 0, or the first failing check's cause. -/
def State.copyReq (s : State) (tid : Nat) (t : Team) (dir : CopyDir) (l src dst size : Nat) : Except Cause (Option CopyReq) :=
  if size = 0 then .ok none
  else if size ≠ 4 ∧ size ≠ 8 ∧ size ≠ 16 then .error .misaligned
  else
    let a := s.copySide tid t (copyGlobals dir).1 src size
    let b := s.copySide tid t (copyGlobals dir).2 dst size
    if sideFault a == some .protection || sideFault b == some .protection then .error .protection
    else match a, b with
      | .ok x, .ok y =>
        if src % size ≠ 0 ∨ dst % size ≠ 0 then .error .misaligned
        else .ok (some { lane := l, src := x, dst := y, size := size, own := List.replicate size true })
      | _, _ => .error .scratch

/-- Bytes of the destination that no higher lane writes, addresses being virtual ones (R214; log entry 126). -/
def ownReqs (rs : List CopyReq) : List CopyReq :=
  let covers (x r : CopyReq) (k : Nat) : Bool := decide (r.lane < x.lane) && (List.range x.size).any fun j => (x.dst.add j).place == (r.dst.add k).place
  rs.map fun r => { r with own := (List.range r.size).map (fun k => !rs.any fun x => covers x r k) }

/-- Lines a unit fills, with the distinct 4-byte units it writes there (R214, R215). -/
def unitFills (rs : List CopyReq) : List (Nat × Nat × Nat) :=
  let units := (rs.flatMap fun r => match r.dst with
    | .scratch t o _ => ((List.range (r.size / 4)).filter fun k => r.own[4 * k]?.getD false).map fun k => (t, o / 4 + k)
    | .virt _ => []).dedup
  let lines := (units.map fun u => (u.1, u.2 / 32)).dedup
  lines.map fun l => (l.1, l.2, (units.filter fun u => u.1 == l.1 && u.2 / 32 == l.2).length)

/-- Transfer units (R213): requests of one group with one governing line and one source line. -/
def transferUnits (fill : Bool) (rs : List CopyReq) : List CopyUnit :=
  let key (r : CopyReq) : Nat × (Nat × Nat) × Nat × Nat := (r.lane / 8, r.dst.line, r.src.line)
  (rs.map key).dedup.map fun k =>
    let mine := rs.filter fun r => key r == k
    { grp := k.1, reqs := mine, fills := if fill then unitFills mine else [] }

/-- The request of a lane of `cp`, or the cause it faults with (R211). -/
def State.cpLane (s : State) (f : Frame) (dir : CopyDir) (d a b : Reg) (l : Nat) : Except Cause (Option CopyReq) :=
  match s.teamOf f.g with
  | none => .error .protection
  | some t => s.copyReq f.g.team t dir l (s.rd f a 2 l).toNat (s.rd f d 2 l).toNat (s.rdReg f b l).toNat

/-- What a `cp` issues; a failing lane's effective address is its destination (log entry 86). -/
def State.cpPlan (s : State) (f : Frame) (h : Hdr) (dir : CopyDir) (fill : Bool) (d a b : Reg) : Plan :=
  let m := Frame.part f h
  let rs := (lanesOf m).filterMap fun l => match s.cpLane f dir d a b l with
    | .ok r => r
    | .error _ => none
  let hits : List Hit := (lanesOf m).filterMap fun l => match s.cpLane f dir d a b l with
    | .ok _ => none
    | .error c => some ⟨l, c, s.rd f d 2 l⟩
  { kind := .cp dir fill, lanes := maskOf fun l => rs.any fun r => r.lane == l, units := transferUnits fill (ownReqs rs)
    hits := hits }

/-- The `cp` asks for leave before it issues (R217). -/
def State.cpAsks (s : State) (f : Frame) (h : Hdr) (dir : CopyDir) (fill : Bool) (d a b : Reg) : Bool :=
  decide (16 < (s.cpPlan f h dir fill d a b).units.length) && !f.u.leave

/-- `cp` (R212): more than 16 units wait for leave first. -/
def execCp (h : Hdr) (dir : CopyDir) (fill : Bool) (d a b : Reg) (o : Ord) (s : State) : Host.Outcome State Fault Refusal :=
  onUnit s fun f =>
    if s.cpAsks f h dir fill d a b then s.askLeave f
    else s.issueOp f (info (.cp h dir fill d a b o)) o (s.cpPlan f h dir fill d a b)

/-! ### `cpm` (R218 to R220) -/

/-- The checks of R219: the source, or the cause every lane faults with. -/
def State.cpmCheck (s : State) (tid : Nat) (t : Team) (dst src mask n : Nat) : Except Cause Side :=
  let count := (FMap.get? s.grids t.grid).elim 1 fun g => g.lr.cw * g.lr.ch
  let side : Option Side := match regionOf src with
    | .global | .system => some (.virt src)
    | .local_ o => some (.scratch tid o src)
    | _ => none
  let past : Bool := match side with
    | some (.scratch _ o _) => decide (t.header.scratch < o + 128 * n)
    | _ => false
  match side with
  | none => .error .protection
  | some x =>
    if mask = 0 ∨ 2 ^ count ≤ mask ∨ 2 ^ 12 ≤ mask then .error .protection
    else if t.header.scratch < dst + 128 * n ∨ past then .error .scratch
    else if dst % 128 ≠ 0 ∨ src % 128 ≠ 0 then .error .misaligned
    else .ok x

/-- What a `cpm` issues; a fault of it has effective address 0 (log entry 87). -/
def State.cpmPlan (s : State) (f : Frame) (h : Hdr) (n : BitVec 4) (d a b : Reg) : Plan :=
  let m := Frame.part f h
  let lines := n.toNat + 1
  let dst := (s.rdU f d 1).toNat
  let src := (s.rdU f a 2).toNat
  let mask := (s.rdU f b 1).toNat
  let idle : Plan := { kind := .cpm dst (.virt src) lines mask, lanes := 0 }
  if m == 0 then idle
  else match (match s.teamOf f.g with
    | none => Except.error Cause.protection
    | some t => s.cpmCheck f.g.team t dst src mask lines) with
  | .error c => { idle with hits := (lanesOf m).map fun l => ⟨l, c, 0⟩ }
  | .ok x => { idle with kind := .cpm dst x lines mask, lanes := m }

/-- The `cpm` asks for leave before it issues (R217). -/
def State.cpmAsks (s : State) (f : Frame) (h : Hdr) (n : BitVec 4) (d a b : Reg) : Bool :=
  (s.cpmPlan f h n d a b).lanes != 0 && !f.u.leave

/-- `cpm` (R218 to R220): it always waits for leave first. -/
def execCpm (h : Hdr) (n : BitVec 4) (d a b : Reg) (o : Ord) (s : State) : Host.Outcome State Fault Refusal :=
  onUnit s fun f =>
    if s.cpmAsks f h n d a b then s.askLeave f
    else s.issueOp f (info (.cpm h n d a b o)) o (s.cpmPlan f h n d a b)

/-! ### `cpc` (R221, R222) -/

/-- `cpc`: one command for the gang. -/
def execCpc (h : Hdr) (d a b : Reg) (o : Ord) (s : State) : Host.Outcome State Fault Refusal :=
  onUnit s fun f =>
    let c := (s.rdU f b 1).toNat
    let quad (r : Reg) : List Nat := [(s.rdU f r 2).toNat, (s.rdU f (Reg.next r 2) 2).toNat]
    s.issueOp f (info (.cpc h d a b o)) o
      { kind := .cpc (c % 256) (if c / 2 ^ 10 % 2 = 1 then 4 else c / 2 ^ 8 % 4) (quad d ++ quad a), lanes := Frame.part f h }

/-- `LEAVE_GRANT` (R379): the oldest request of a die is granted; those of a halted context wait (R344). A unit goes on to its word, and notes the
clocks it has waited (R231); the members of a troupe wait for their release. -/
def execLeaveGrant (die : Nat) (s : State) : Host.Outcome State Fault Refusal :=
  let d := s.die die
  .next <| match d.leave.find? fun r => !s.gangFrozen r.gang with
  | none => s
  | some r =>
    let s := s.setDie die { d with leave := d.leave.erase r }
    match s.frameOf r.gang r.unit with
    | none => s
    | some f =>
      if r.troupe then
        let grant (u : UnitState) : UnitState := if u.stop == .mleave then { u with leave := true } else u
        s.mapGangs f.g.team fun g => if g.trp == f.g.trp then { g with units := g.units.map grant } else g
      else if f.u.stop == .leave then
        s.put { f with u := { f.u with leave := true, stop := .run, leaveWait := (s.now - r.since) / Config.bannerTicks } }
      else s

end Sys2Proof.Machine
end

