-- ==== Sys2Proof/Machine/DirOps.lean ====
section
/-! DEFINITION. Major 0x9: `launch`, `spawn`, the `bin` instructions, `eqp`, `migr` and `vqry` (R290 to R297, R306 to
R313, R315). -/

namespace Sys2Proof.Machine

/-- Every lane of a mask with one cause and one effective address. -/
def hitsOf (m : Mask) (c : Cause) (ea : DWord) : List Hit := (lanesOf m).map fun l => ⟨l, c, ea⟩

/-! ### `launch` and `spawn` (R290, R291, R296) -/

/-- The check of a launch record's address, made once for the gang (R291). -/
def State.recordCheck (s : State) (t : Team) (va : Nat) : AddrRes × State :=
  if regionOf va != .global then (.fault .protection, s)
  else if va % 256 ≠ 0 then (.fault .misaligned, s)
  else match s.translate t.core t.ctx va with
    | (.fatal, s) => (.fault .protection, s)
    | (.pageFault lv, s) => (.park (faultPage va lv) lv, s)
    | (.leaf e bits, s) => (if pteW e then .loc (s.leafLoc e bits va) else .fault .protection, s)

/-- `launch` (R290, R291). -/
def execLaunch (h : Hdr) (a : Reg) (o : Ord) (s : State) : Host.Outcome State Fault Refusal :=
  onUnit s fun f =>
    let i := info (.launch h a o)
    let m := Frame.part f h
    let va := s.rdU f a 2
    let none_ : Plan := { kind := .launch va.toNat, lanes := 0 }
    if m == 0 then s.issueOp f i o none_
    else
      let r : AddrRes × State := match s.teamOf f.g with
        | none => (.fault .protection, s)
        | some t => s.recordCheck t va.toNat
      match r with
      | (.fault c, s) => s.issueOp f i o { none_ with hits := hitsOf m c va }
      | (.park page lv, s) => s.issueOp f i o { none_ with parks := (lanesOf m).map fun l => (l, page, lv) }
      | (.loc l, s) =>
        s.issueOp f i o { none_ with lanes := m, accs := [{ lane := 0, ofs := 0, loc := l, size := 256, sc := o.sc, data := [] }] }

/-- A bin of a gang's team. -/
def State.binOf (s : State) (f : Frame) (idx : Nat) : Option Bin := (s.teamOf f.g).bind fun t => FMap.get? t.bins idx

/-- `spawn` (R296): each taking-part lane deposits one thread of eight words. -/
def execSpawn (h : Hdr) (idx : BitVec 4) (d : Reg) (o : Ord) (s : State) : Host.Outcome State Fault Refusal :=
  onUnit s fun f =>
    let i := info (.spawn h idx d o)
    let m := Frame.part f h
    if m != 0 && (s.binOf f idx.toNat).isNone then
      s.issueOp f i o { kind := .spawn idx.toNat [], lanes := 0, hits := hitsOf m .protection 0 }
    else
      let pay (l : Nat) : List Word := (List.range 8).map fun k => s.rdReg f (Reg.next d k) l
      s.issueOp f i o { kind := .spawn idx.toNat ((lanesOf m).map pay), lanes := m }

/-! ### Spawn bins (R295) -/

/-- Runs of at most w threads. -/
def runsOf (w : Nat) : Nat → List Thread → List (List Thread)
  | 0, _ => []
  | n + 1, l => if l.isEmpty then [] else l.take w :: runsOf w n (l.drop w)

/-- A bin's threads, under its old key and width, wait for room apart from it, a gang's width at a time (R295, R297). -/
def State.cutBin (s : State) (tid idx : Nat) : State :=
  match (FMap.get? s.teams tid).bind fun t => FMap.get? t.bins idx with
  | none => s
  | some b =>
    if b.threads.isEmpty then s
    else
      let s := s.setBin tid idx { b with threads := [], flush := false }
      let new := (runsOf (max b.width 8) b.threads.length b.threads).map fun l => (b.key, b.width, l)
      ({ s with teams := FMap.adjust s.teams tid fun t => { t with batches := t.batches ++ new } } : State).formBatches tid

/-- Width of a code of `bin.cfg`. -/
def binWidth (b : Word) : Nat := 8 * 2 ^ (b.toNat % 4)

/-- `bin.cfg` (R295). -/
def execBinCfg (h : Hdr) (idx : BitVec 4) (d a b : Reg) (s : State) : Host.Outcome State Fault Refusal :=
  onUnit s fun f =>
    let i := info (.binCfg h idx d a b)
    let m := Frame.part f h
    let pc : Word := (s.rdU f a 1).setWidth 32
    let cfg : Word := (s.rdU f b 1).setWidth 32
    let inside := ((s.versionOf f.g).bind fun v => v.imageAt f.u.ipc.toNat).elim false fun (x : Image) =>
      decide (x.base ≤ pc.toNat ∧ pc.toNat < x.base + x.size)
    if m == 0 then s.finish f i [] 0 .overflow
    else if pc.toNat % 8 ≠ 0 then s.fault f f.u.am .misaligned
    else if !inside || cfg.extractLsb' 2 14 != 0 then s.fault f f.u.am .protection
    else
      let tid := f.g.team
      let set (s : State) : State := s.setBin tid idx.toNat
        { key := pc, width := binWidth cfg, timer := cfg.toNat / 2 ^ 16, threads := [] }
      let answer (s : State) (v : Nat) : State := s.finish f i (destWrites f d 1 m (uniform (BitVec.ofNat 64 v))) 0 .overflow
      if (s.binOf f idx.toNat).isSome then answer (set (s.cutBin tid idx.toNat)) 1
      else if s.binsOn (s.coreOf f.g) < Config.spawnBins then answer (set s) 1
      else answer s 0

/-- `bin.fl` (R295). -/
def execBinFl (h : Hdr) (idx : BitVec 4) (s : State) : Host.Outcome State Fault Refusal :=
  onUnit s fun f =>
    let s' := s.advance f
    if Frame.part f h == 0 then s' else s'.formBin f.g.team idx.toNat true 65

/-- `bin.rel` (R295): flushed, then free. -/
def execBinRel (h : Hdr) (idx : BitVec 4) (s : State) : Host.Outcome State Fault Refusal :=
  onUnit s fun f =>
    let s := s.advance f
    if Frame.part f h == 0 then s
    else
      let s := s.cutBin f.g.team idx.toNat
      { s with teams := FMap.adjust s.teams f.g.team fun t => { t with bins := FMap.erase t.bins idx.toNat } }

/-- `bin.q` (R295). -/
def execBinQ (h : Hdr) (idx : BitVec 4) (d : Reg) (s : State) : Host.Outcome State Fault Refusal :=
  onUnit s fun f =>
    let v := match s.binOf f idx.toNat with
      | none => 0
      | some b => b.threads.length + 2 ^ 31
    s.finish f (info (.binQ h idx d)) (destWrites f d 1 (Frame.part f h) (uniform (BitVec.ofNat 64 v))) 0 .overflow

/-! ### Equivalence points (R306, R307) -/

/-- A mark still holds at a clock. -/
def Mark.holds (clk : Nat) (m : Mark) : Bool :=
  match m.till with
  | .clock n => decide (clk < n)
  | .result _ | .call _ => true

/-- Some register write of a gang is outstanding (R307). -/
def State.writing (s : State) (g : Gang) : Bool := g.marks.any fun m => !m.soft && Mark.holds (s.clock (s.coreOf g)) m

/-- In Tamut form, the version and the function of the equivalence entry an `eqp` stands at (R306, R307). -/
def State.eqpEntry (s : State) (f : Frame) (n : Nat) : Option (Version × Nat) :=
  match s.versionOf f.g with
  | none => none
  | some v => match v.imageAt f.u.ipc.toNat with
    | none => none
    | some x => match x.point n with
      | some (pc, func) => if x.kind == .tamut && pc == f.u.ipc then some (v, func) else none
      | none => none

/-- The core's key of a function's translation state. -/
def State.readyKey (s : State) (f : Frame) (func : Nat) : Nat × Nat × Nat :=
  (s.ctxOf f.g, (s.gridOf f.g).elim 0 (·.version), func)

/-- The function's `tstate` as the core sees it: 3 once it has read 3 (R307). -/
def State.seenTstate (s : State) (f : Frame) (v : Version) (func : Nat) : Nat × State :=
  let core := s.coreOf f.g
  if (s.core core).ready.contains (s.readyKey f func) then (3, s)
  else s.tstate (s.ctxOf f.g) v func (coreKind core)

/-- The unit is the whole gang, but for units whose lanes have all exited (R197), with only active lanes. -/
def Frame.whole (f : Frame) : Bool :=
  (f.g.units.filter fun u => u.live f.g.width).length == 1 && f.u.km == 0 && f.u.fm == 0 && f.u.tm == 0

/-- Where a translation swap goes: PC of the entry in the native image, and the map's entries (R307). -/
def State.swapTo (s : State) (f : Frame) (n : Nat) (v : Version) : Option (Word × List MapEntry) :=
  let k := coreKind (s.coreOf f.g)
  match v.native k with
  | none => none
  | some x => match x.point n, v.mapFor n .tamut x.kind with
    | some (pc, _), some m => some (pc, m.entries)
    | _, _ => none

/-- The translation swap an `eqp` makes now. -/
def State.eqpSwap (s : State) (f : Frame) (n : Nat) : Option (Word × List MapEntry) :=
  match s.eqpEntry f n with
  | none => none
  | some (v, func) => if Frame.whole f && (s.seenTstate f v func).1 == 3 then s.swapTo f n v else none

/-- A swap waits for outstanding register writes (R307). -/
def State.eqpWaits (s : State) (f : Frame) (n : Nat) : Bool := (s.eqpSwap f n).isSome && s.writing f.g

/-- The director's claim of a translation: `tstate` 0 becomes 1, and the translator has a request (R307, R308). -/
def State.claimTranslation (s : State) (f : Frame) (v : Version) (func : Nat) : State :=
  let c := s.ctxOf f.g
  let k := coreKind (s.coreOf f.g)
  match s.bumpTstate c v func k 0 with
  | (false, s) => s
  | (true, s) =>
    let x := s.ctx c
    s.setCtx c { x with translating := x.translating ++ [((s.gridOf f.g).elim 0 (·.version), func, kindCode k)] }

/-- `eqp` (R306, R307): it records its number; in Tamut form it claims or takes a translation. A swap leaves `hpc` as it is
(log entry 115). -/
def execEqp (_ : Hdr) (n : BitVec 16) (s : State) : Host.Outcome State Fault Refusal :=
  onUnit s fun f =>
    if s.eqpWaits f n.toNat then s
    else
      let f' := { f with g := { f.g with eqid := n.setWidth 32 } }
      match s.eqpEntry f n.toNat with
      | none => (s.put f').advance f
      | some (v, func) =>
        let swap := s.eqpSwap f n.toNat
        let (st, s) := s.seenTstate f v func
        let core := s.coreOf f.g
        let c := s.core core
        let key := s.readyKey f func
        let s := if st == 3 && !c.ready.contains key then s.setCore core { c with ready := key :: c.ready } else s
        let s := if st == 0 && Frame.whole f then s.claimTranslation f v func else s
        match swap with
        | none => (s.put f').advance f
        | some (pc, es) => (s.put { f' with u := { f.u with ipc := pc + 8 } }).mapGang f.gid es

/-! ### `migr` (R310, R311) -/

/-- The number of the `eqp` that stands right before a `migr` in its image (R310). -/
def State.eqpBefore (s : State) (f : Frame) : Option Nat :=
  match (s.versionOf f.g).bind fun v => v.imageAt f.u.ipc.toNat with
  | none => none
  | some x =>
    if f.u.ipc.toNat < x.base + 8 then none
    else match decodeWord (s.wordAt f.g (f.u.ipc - 8)) with
      | some (.eqp _ n) => some n.toNat
      | _ => none

/-- The unit waits in the migration queue. -/
def UnitState.queued (u : UnitState) : UnitState := { u with stop := .migr }

/-- The `migr` of a gang has no effect: it is no operation any more, and its units wait no longer (R311). -/
def State.dropMigr (s : State) (gid : Nat) : State :=
  match s.migrOp gid with
  | none => s
  | some (oid, _) =>
    let s := ({ s with ops := FMap.erase s.ops oid } : State).closeWindow gid oid
    let back (u : UnitState) : UnitState := if u.stop == .migr then { u with stop := .run } else u
    { s with gangs := FMap.adjust s.gangs gid fun g => { g with units := g.units.map back } }

/-- A gang arrives at its team's rendezvous (R311): a mismatch faults every arrived gang; a case of R312 writes false
in all once the last has arrived. -/
def State.meet (s : State) (f : Frame) (n : Nat) (kind : CoreKind) (budget : Nat) : State :=
  match s.teamOf f.g with
  | none => s
  | some t =>
    let tid := f.g.team
    let m : Migration := t.mig.getD
      { gangs := [], n := n, kind := kind, deadline := s.now + budget * Config.bannerTicks }
    let s := { s with gangs := FMap.adjust s.gangs f.gid fun g => { g with units := g.units.modify f.ui UnitState.queued } }
    let m := { m with gangs := if m.gangs.contains f.gid then m.gangs else m.gangs ++ [f.gid] }
    if m.n != n || m.kind != kind then
      let s := { s with teams := FMap.adjust s.teams tid fun t => { t with mig := none } }
      m.gangs.foldl (fun s gid =>
        let pc := (s.migrOp gid).elim f.u.ipc (·.2.pc)
        let s := s.dropMigr gid
        match FMap.get? s.gangs gid with
        | none => s
        | some g => s.takeFaults gid (hitsOf (g.allOf (·.am)) .partialColl 0) pc) s
    else
      let s := { s with teams := FMap.adjust s.teams tid fun t => { t with mig := some m } }
      if !s.allArrived tid m then s
      else match s.migrTarget tid t n kind with
        | (none, s) => s.failMigr tid m.gangs
        | (some _, s) => s

/-- A gang of a team has a region open (R335). -/
def State.regionOpen (s : State) (tid : Nat) : Bool := (s.teamGangs tid).any fun g => !g.2.regions.isEmpty

/-- The gangs that wait at a team's rendezvous (R311). -/
def State.arrivedGangs (s : State) (tid : Nat) : List Nat :=
  ((FMap.get? s.teams tid).bind (·.mig)).elim [] (·.gangs)

/-- `migr` (R310, R311): to the kind the team is on it writes true at once; while a gang of the team has a region open it
writes false, without queueing, in every gang at the rendezvous (R312, R335); otherwise the gang waits there. -/
def execMigr (h : Hdr) (pd : PReg) (kind : CoreKind) (a : Reg) (s : State) : Host.Outcome State Fault Refusal :=
  onUnit s fun f =>
    match s.eqpBefore f with
    | none => s.fault f f.u.am .illegal
    | some n =>
      let same := coreKind (s.coreOf f.g) == kind
      let s' := s.issueOp f (info (.migr h pd kind a)) ⟨0, 0, .core⟩ { kind := .migr pd, lanes := Frame.part f h }
      if same then s'.endMigr f.gid none true
      else if s.regionOpen f.g.team then s'.failMigr f.g.team (f.gid :: s.arrivedGangs f.g.team)
      else s'.meet f n kind (s.rdU f a 1).toNat

/-! ### `vqry` (R315) -/

/-- `vqry`: its values are bound when it completes, within 4,096 clocks. -/
def execVqry (h : Hdr) (k : BitVec 4) (d a : Reg) (s : State) : Host.Outcome State Fault Refusal :=
  onUnit s fun f =>
    let (r, s) := s.free
    let (id, s) := s.newId
    let core := s.coreOf f.g
    let due := s.clock core + 1 + r % coreClocks (coreKind core) 4096
    let ask := if Frame.part f h == 0 then none else some (k.toNat, (s.rdU f a 1).setWidth 32, d)
    let res : Result :=
      { pc := f.u.ipc, unit := f.ui, due := some due, writes := [], faults := 0, cause := .overflow, ask := ask }
    let s := s.openWindow f (info (.vqry h k d a)) id
    { s.advance f with gangs := FMap.adjust (s.advance f).gangs f.gid fun g => { g with results := FMap.set g.results id res } }

end Sys2Proof.Machine
end

