-- ==== Sys2Proof/Machine/Narrow.lean ====
section
/-! DEFINITION. Narrow formats and flagged blocks (R239 to R256): INT8, E4M3, E5M2 and LN6 codes as exact values, their
products, conversion into them, the check word, and the quantiser. -/

namespace Sys2Proof.Machine

/-! ### Reading codes (R239 to R244) -/

/-- T of R241. -/
def ln6T (f : Nat) : Nat :=
  match f % 4 with
  | 0 => 0x10000 | 1 => 0x1306F | 2 => 0x16A0A | _ => 0x1AE8B

/-- Value of an LN6 code (R241). -/
def ln6Val (c : Nat) : FVal :=
  if c % 64 = 0x20 then .nan false
  else if c % 64 = 0 then .num false 0 0
  else .num (c / 32 % 2 == 1) (ln6T c) ((c / 4 % 8 : Nat) - 19)

/-- Product of two LN6 codes, formed from their fields (R242). -/
def ln6Product (a b : Nat) : FVal :=
  let a := a % 64
  let b := b % 64
  if a = 0x20 ∨ b = 0x20 then .nan false
  else if a = 0 ∨ b = 0 then .num false 0 0
  else
    let t := a % 4 + b % 4
    let n6 := a / 4 % 8 + b / 4 % 8 + t / 4
    .num (a / 32 != b / 32) (ln6T t * 2 ^ n6) (-22)

/-- Value of an E4M3 code. -/
def e4m3Val (c : Nat) : FVal :=
  let s := c / 128 % 2 == 1
  let e := c / 8 % 16
  let m := c % 8
  if e = 15 ∧ m = 7 then .nan false
  else if e = 0 then .num s m (-9)
  else .num s (8 + m) ((e : Int) - 10)

/-- Value of an E5M2 code: the upper byte of a binary16. -/
def e5m2Val (c : Nat) : FVal := fmt16.read (c % 256 * 256)

/-- Value of an INT8 code. -/
def int8Val (c : Nat) : FVal :=
  let i := (BitVec.ofNat 8 c).toInt
  .num (decide (i < 0)) i.natAbs 0

/-- Value of a code of an element type. -/
def etVal (et : Et) (c : Nat) : FVal :=
  match et with
  | .i8 => int8Val c
  | .e4m3 => e4m3Val c
  | .e5m2 => e5m2Val c
  | .ln6 => ln6Val c
  | .bf16 => fmtB16.read (c % 2 ^ 16)
  | .f16 => fmt16.read (c % 2 ^ 16)

/-- Product of two elements (R248). -/
def etProduct (ea : Et) (a : Nat) (eb : Et) (b : Nat) : FVal :=
  if ea == .ln6 && eb == .ln6 then ln6Product a b else mulV (etVal ea a) (etVal eb b)

/-- Exact sum of two values. -/
def addExact : FVal → FVal → FVal
  | .nan _, _ => .nan false
  | _, .nan _ => .nan false
  | .inf a, .inf b => if a == b then .inf a else .nan false
  | .inf a, .num .. => .inf a
  | .num .., .inf b => .inf b
  | .num s1 m1 e1, .num s2 m2 e2 =>
    let (i, e) := sumDyadic s1 m1 e1 s2 m2 e2
    .num (decide (i < 0)) i.natAbs e

/-- A value times 2^k. -/
def scaleV (v : FVal) (k : Int) : FVal :=
  match v with
  | .num s m e => .num s m (e + k)
  | v => v

/-- An 8-bit code under a scale code widened to FP32 (R244, R247): the value, and whether it traps. -/
def widen (et : Et) (c scale : Nat) (ov : Ov) : FRes :=
  if scale = 255 then (fmt32.canon, false) else fmt32.roundV .rne ov (scaleV (etVal et c) ((scale : Int) - 127))

/-! ### Converting (R243, R245, R246) -/

/-- Significands of the thresholds θ[0..3] (R243). -/
def thetas : List Nat := [0x8B95C1, 0xA5FED6, 0xC5672A, 0xEAC0C6]

/-- Exact magnitude m·2^e into LN6, without its sign; none where it overflows (R243). -/
def toLn6 (m : Nat) (e : Int) : Option Nat :=
  if m = 0 then some 0
  else
    let e2 : Int := e + (bitLen m - 1 : Nat)
    let sg := m * 2 ^ (24 - bitLen m)
    if e2 < -3 ∨ (e2 = -3 ∧ sg < 0x8B95C1) then some 0
    else
      let f := (thetas.filter fun t => decide (t ≤ sg)).length
      let i : Int := (if f = 4 then e2 + 1 else e2) + 3
      if 7 < i then none else some (i.toNat * 4 + f % 4)

/-- Exact magnitude into E4M3 or E5M2 by one rounding, without its sign; none where it overflows (R245). -/
def toFp8 (p : Nat) (emin : Int) (largest : Nat) (m : Nat) (e : Int) : Option Nat :=
  if m = 0 then some 0
  else
    let q0 := max (emin - (p - 1)) (e + bitLen m - p)
    let n0 := roundTo .rne false m e q0 false
    let (n, q) := if n0 = 2 ^ p then (2 ^ (p - 1), q0 + 1) else (n0, q0)
    let code := if n < 2 ^ (p - 1) then n else (q + (p - 1) - emin + 1).toNat * 2 ^ (p - 1) + (n - 2 ^ (p - 1))
    if largest < code then none else some code

/-- Exact signed value into INT8; none where it overflows (R245). -/
def toInt8 (s : Bool) (m : Nat) (e : Int) : Option Nat :=
  let n := roundTo .rne s m e 0 false
  let i : Int := if s then -(n : Int) else n
  if 127 < i ∨ i < -128 then none else some (BitVec.ofInt 8 i).toNat

/-- A finite value into a narrow format, before any policy; none where it overflows. -/
def toNarrow (et : Et) (s : Bool) (m : Nat) (e : Int) : Option Nat :=
  match et with
  | .i8 => toInt8 s m e
  | .e4m3 => (toFp8 4 (-6) 0x7E m e).map fun c => c + (if s then 0x80 else 0)
  | .e5m2 => (toFp8 3 (-14) 0x7B m e).map fun c => c + (if s then 0x80 else 0)
  | _ => (toLn6 m e).map fun c => if c = 0 then 0 else c + (if s then 0x20 else 0)

/-- Result of an overflow under a policy (R246); the flag asks for cause 0x0B. -/
def narrowOv (et : Et) (ov : Ov) (s : Bool) : FRes :=
  let k (pos neg : Nat) : Nat := if s then neg else pos
  match ov with
  | .trap => (0, true)
  | .sat => (match et with
    | .i8 => k 0x7F 0x80
    | .e4m3 => k 0x7E 0xFE
    | .e5m2 => k 0x7B 0xFB
    | _ => k 0x1F 0x3F, false)
  | .inf => (match et with
    | .i8 => 0x80
    | .e4m3 => 0x7F
    | .e5m2 => k 0x7C 0xFC
    | _ => 0x20, false)
  | .nan => (match et with
    | .i8 => 0x80
    | .e4m3 => 0x7F
    | .e5m2 => 0x7E
    | _ => 0x20, false)

/-- Result of a NaN source (R246). -/
def narrowNan (et : Et) (ov : Ov) : FRes :=
  match et with
  | .i8 => (match ov with
    | .sat => (0, false)
    | .trap => (0, true)
    | _ => (0x80, false))
  | .e4m3 => (0x7F, false)
  | .e5m2 => (0x7E, false)
  | _ => (0x20, false)

/-- Result of an infinite source (R246). -/
def narrowInf (et : Et) (ov : Ov) (s : Bool) : FRes :=
  match et with
  | .e5m2 => (if s then 0xFC else 0x7C, false)
  | _ => narrowOv et ov s

/-- A value into a narrow format under a policy (R243, R245, R246). -/
def narrow (et : Et) (ov : Ov) (v : FVal) : FRes :=
  match v with
  | .nan _ => narrowNan et ov
  | .inf s => narrowInf et ov s
  | .num s m e => match toNarrow et s m e with
    | some c => (c, false)
    | none => narrowOv et ov s

/-! ### Blocks (R250 to R254) -/

/-- Byte k of a block held in words (R253). -/
def blockByte (ws : List Word) (k : Nat) : Nat := ((ws[k / 4]?).getD 0).toNat / 2 ^ (8 * (k % 4)) % 256

/-- Words from bytes. -/
def wordsOf (bytes : Nat → Nat) (n : Nat) : List Word :=
  (List.range n).map fun j => BitVec.ofNat 32 (bytes (4 * j) + 2 ^ 8 * bytes (4 * j + 1) + 2 ^ 16 * bytes (4 * j + 2) +
    2 ^ 24 * bytes (4 * j + 3))

/-- Elements of a plain block (R251). -/
def plainCodes (et : Et) (ws : List Word) : List Nat :=
  match et with
  | .bf16 | .f16 => (List.range 32).map fun n => blockByte ws (2 * n) + 256 * blockByte ws (2 * n + 1)
  | .ln6 => (List.range 64).map fun n => blockByte ws n % 64
  | _ => (List.range 64).map fun n => blockByte ws n

/-- The payload of a flagged block as one integer. -/
def payloadInt (ws : List Word) : Nat := (List.range 60).foldr (fun k acc => blockByte ws (2 + k) + 256 * acc) 0

/-- Elements of a flagged block (R251). -/
def flaggedCodes (ln6 : Bool) (ws : List Word) : List Nat :=
  if ln6 then let p := payloadInt ws; (List.range 80).map fun n => p / 2 ^ (6 * n) % 64
  else (List.range 60).map fun n => blockByte ws (2 + n)

/-- The format a flag names (R250). -/
def flagEt (fl : Nat) : Option Et :=
  match fl with
  | 0x11 => some .i8
  | 0x12 => some .e4m3
  | 0x13 => some .e5m2
  | 0x16 => some .ln6
  | _ => none

/-- The flag of a format. -/
def etFlag (et : Et) : Nat :=
  match et with
  | .i8 => 0x11
  | .e4m3 => 0x12
  | .e5m2 => 0x13
  | _ => 0x16

/-- The check word of 60 payload bytes (R252). -/
def checkWord (payload : Nat → Nat) : Nat :=
  (List.range 30).foldl (fun sum h =>
    let t := sum + (payload (2 * h) + 256 * payload (2 * h + 1))
    if 0xFFFF < t then t - 0xFFFF else t) 0

/-- The check word stands in the block (R252). -/
def checkOk (ws : List Word) : Bool :=
  blockByte ws 62 + 256 * blockByte ws 63 == checkWord fun k => blockByte ws (2 + k)

/-- A block from flag, scale and payload bytes (R250, R252, R253). -/
def makeBlock (flag scale : Nat) (payload : Nat → Nat) : List Word :=
  let c := checkWord payload
  wordsOf (fun k => if k = 0 then flag else if k = 1 then scale else if k < 62 then payload (k - 2)
    else if k = 62 then c % 256 else c / 256) 16

/-! ### The quantiser (R256) -/

/-- Top binade exponent P. -/
def topBinade (et : Et) : Int :=
  match et with
  | .i8 => 6
  | .e4m3 => 8
  | .e5m2 => 15
  | _ => 4

/-- Floor of log2 of the largest finite magnitude; none where it is 0. -/
def topExp (xs : List FVal) : Option Int :=
  xs.foldl (fun best v => match v with
    | .num _ m e =>
      if m = 0 then best else
        let t : Int := e + (bitLen m - 1 : Nat)
        some (match best with
          | none => t
          | some b => max b t)
    | _ => best) none

/-- A finite element overflows under a scale. -/
def overflows (et : Et) (k : Int) (v : FVal) : Bool :=
  match v with
  | .num s m e => (toNarrow et s m (e - k)).isNone
  | _ => false

/-- `quantise`: the block, whether the scale was raised, and whether cause 0x0B is raised. -/
def quantise (et : Et) (ov : Ov) (xs : List FVal) : List Word × Bool × Bool :=
  let k0 : Int := match topExp xs with
    | none => 0
    | some t => max (t - topBinade et) (-127)
  let raised := xs.any (overflows et k0)
  let k := if raised then k0 + 1 else k0
  let qs := xs.map fun v => narrow et ov (scaleV v (-k))
  let trap := qs.any (·.2)
  let codes := qs.map (·.1)
  let packed := codes.foldr (fun c acc => c % 64 + 64 * acc) 0
  let payload (b : Nat) : Nat := if et == .ln6 then packed / 2 ^ (8 * b) % 256 else codes[b]?.getD 0
  (makeBlock (etFlag et) (k + 127).toNat payload, raised, trap)

/-! ### The block step (R266 to R270) -/

/-- Exact sum of the products of two blocks. -/
def blockSum (ea eb : Et) (as bs : List Nat) : FVal :=
  (as.zip bs).foldl (fun acc (a, b) => addExact acc (etProduct ea a eb b)) (.num false 0 0)

/-- One step on the FP32 path: acc plus the scaled block sum, rounded once (R268, R269). -/
def accStep (ov : Ov) (acc : Word) (sum : FVal) (ea eb : Nat) : FRes :=
  if ea = 255 ∨ eb = 255 then (fmt32.canon, false)
  else fmt32.addV .rne ov (fmt32.read acc.toNat) (scaleV sum ((ea : Int) + eb - 254))

/-- One step on the INT32 path, wrapping (R268, R270). -/
def accInt (acc : Word) (sum : FVal) : Word :=
  match sum with
  | .num s m e => let v := BitVec.ofNat 32 (m * 2 ^ e.toNat); if s then acc - v else acc + v
  | _ => acc

end Sys2Proof.Machine
end

