-- ==== Sys2Proof/Machine/Matrix.lean ====
section
/-! DEFINITION. Major 0x8 (R257 to R279): troupes and the rendezvous latch, `mma` and its block steps, the quantiser and
the narrow conversions, block headers and checks. -/

namespace Sys2Proof.Machine

/-! ### Troupes (R259 to R262) -/

/-- Group number of member k. -/
def trpMember (t : Word) (k : Nat) : Nat := t.toNat / 2 ^ 7 % 128 + k * (t.toNat / 2 ^ 16 % 128)

/-- Group numbers of all members. -/
def trpMembers (t : Word) : List Nat := (List.range (trpCount t)).map (trpMember t)

/-- The value may be written to `trp` by a unit (R260); a trap-handler gang may write none (R331). -/
def State.trpOk (s : State) (f : Frame) (v : Word) : Bool :=
  !f.g.trap && (v == 0 ||
    (decide (2 ≤ trpCount v ∧ trpCount v ≤ 6) && decide (1 ≤ v.toNat / 2 ^ 16 % 128) && decide (v.toNat / 2 ^ 23 = 0) &&
      decide (v.toNat / 2 ^ 14 % 4 = 0) && decide (v.toNat / 2 ^ 3 % 16 = 0) &&
      (trpMembers v).all (fun n => decide (n < (s.headerOf f.g).elim 0 (·.team))) &&
      f.groups.all fun k => (trpMembers v).contains (f.g.grpn + k)))

/-- `trp` (R260): serialising. -/
def execTrp (h : Hdr) (a : Reg) (s : State) : Host.Outcome State Fault Refusal :=
  let _ := h
  onUnit s fun f =>
    let v : Word := (s.rdU f a 1).setWidth 32
    if s.trpOk f v then ((s.put { f with g := { f.g with trp := v } }).advance f).holdGang f 4 4
    else s.fault f f.u.am .troupe

/-- The word at a PC without its guard and LA: the fields that members must share (R261). -/
def mmaKey : Instr → Instr
  | .mma _ et sm sel ov z a b c r => .mma ⟨.always, 0⟩ et sm sel ov z a b c r
  | i => i

/-- The word of a gang at a PC. -/
def State.instrAt (s : State) (g : Gang) (pc : Word) : Option Instr := decodeWord (s.wordAt g pc)

/-- The unit of a team that holds a group number, where it stands in one of some waits: gang, unit, index of the group. -/
def State.holderOf (s : State) (tid grpn : Nat) (sts : List Stop) : Option (Nat × Nat × Nat) :=
  (s.teamGangs tid).findSome? fun g =>
    if g.2.trap || decide (grpn < g.2.grpn) || decide (g.2.grpn + g.2.groups ≤ grpn) then none
    else
      let k := grpn - g.2.grpn
      match (List.range g.2.units.length).find? fun ui => (g.2.units[ui]?.getD default).groups.getLsbD k with
      | none => none
      | some ui => if sts.contains (g.2.units[ui]?.getD default).stop then some (g.1, ui, k) else none

/-- The units of some members, each once. -/
def unitsOf (ms : List (Nat × Nat × Nat)) : List (Nat × Nat) := (ms.map fun m => (m.1, m.2.1)).dedup

/-- The waits of an arrival that the latch holds: for its troupe, and for leave (R261). -/
def latched : List Stop := [.troupe, .mleave]

/-- The request for leave that a gang has made for its troupe is dropped. -/
def State.dropTroupe (s : State) (core gid : Nat) : State :=
  let d := s.die (coreDie core)
  s.setDie (coreDie core) { d with leave := d.leave.filter fun r => !(r.troupe && r.gang == gid) }

/-- Fault the lanes of `am` of some units at their words; the units leave the latch (R261). -/
def State.faultUnits (s : State) (us : List (Nat × Nat)) (cause : Cause) : State :=
  us.foldl (fun s x =>
    match s.frameOf x.1 x.2 with
    | none => s
    | some f =>
      let s := s.put { f with u := { f.u with stop := .run, leave := false } }
      (s.dropTroupe (s.coreOf f.g) x.1).laneFault x.1 x.2 f.u.am cause f.u.ipc) s

/-- Units at the latch of a team with a troupe register. -/
def State.heldWith (s : State) (tid : Nat) (trps : List Word) : List (Nat × Nat) :=
  (s.teamGangs tid).flatMap fun g =>
    if trps.contains g.2.trp then
      ((List.range g.2.units.length).filter fun ui => latched.contains (g.2.units[ui]?.getD default).stop).map fun ui => (g.1, ui)
    else []

/-- An arrival whose troupe names a group held with another troupe or another word: the troupe registers at odds
(R261). -/
def State.atOdds (s : State) (f : Frame) : List Word :=
  (trpMembers f.g.trp).filterMap fun n =>
    match s.holderOf f.g.team n latched with
    | none => none
    | some (gid, ui, _) =>
      match s.frameOf gid ui with
      | none => none
      | some y =>
        if y.g.trp != f.g.trp || (s.instrAt y.g y.u.ipc).map mmaKey != (s.instrAt f.g f.u.ipc).map mmaKey
        then some y.g.trp else none

/-- The members of a complete troupe, in member order; none while one is missing. -/
def State.troupe (s : State) (tid : Nat) (trp : Word) (st : Stop) : Option (List (Nat × Nat × Nat)) :=
  (trpMembers trp).mapM fun n =>
    match s.holderOf tid n [st] with
    | none => none
    | some m => if (FMap.get? s.gangs m.1).elim false (fun g => g.trp == trp) then some m else none

/-- Registers from a code on, of one lane of a gang. -/
def Gang.laneRegs (g : Gang) (base n lane : Nat) : List Word :=
  (List.range n).map fun k => LaneVec.at' (g.vreg (base + k)) lane

/-- Rows of a troupe operand: n registers of each of the 8 lanes of every member. -/
def State.rowsOf (s : State) (ms : List (Nat × Nat × Nat)) (base n : Nat) : List (List Word) :=
  ms.flatMap fun m => match FMap.get? s.gangs m.1 with
    | none => []
    | some g => (List.range 8).map fun r => g.laneRegs base n (8 * m.2.2 + r)

/-- Block b of a row. -/
def rowBlock (row : List Word) (b : Nat) : List Word := (row.drop (16 * b)).take 16

/-- Every block of a row has a flag its element type allows (R267). -/
def flagsOk (et : Et) (row : List Word) : Bool :=
  (List.range 4).all fun b =>
    let fl := blockByte (rowBlock row b) 0
    if et == .ln6 then fl == 0x16 else fl == 0x11 || fl == 0x12 || fl == 0x13

/-- Two runs of registers meet. -/
def runsMeet (a n b m : Nat) : Bool := decide (a < b + m) && decide (b < a + n)

/-- The checks of a complete troupe (R261): the cause of the first failing one. -/
def State.mmaCheck (s : State) (ms : List (Nat × Nat × Nat)) (i : Instr) : Option Cause :=
  match i with
  | .mma _ et sm _ _ _ a b c r =>
    let n := 8 * ms.length
    let regs := ms.foldl (fun n m => min n (((s.frameOf m.1 m.2.1).bind s.execHeader).elim 192 (·.regs))) 192
    let two := sm == .lane || sm == .bcst
    if 192 < c.toNat + n then some .illegal
    else if regs < c.toNat + n ∨ regs < a.toNat + 64 ∨ regs < b.toNat + 64 ∨ (two ∧ regs < r.toNat + 2) then some .window
    else if runsMeet c.toNat n a.toNat 64 || runsMeet c.toNat n b.toNat 64 || (two && runsMeet c.toNat n r.toNat 2)
    then some .illegal
    else if sm == .flag && !((s.rowsOf ms a.toNat 64).all (flagsOk et) && (s.rowsOf ms b.toNat 64).all (flagsOk et))
    then some .unknownFlag
    else none
  | _ => none

/-- Troupes of a core that wait for leave: teams and troupe registers. -/
def State.awaiting (s : State) (core : Nat) : List (Nat × Word) :=
  ((s.gangsOn core).filterMap fun g =>
    if g.2.units.any fun u => u.stop == .mleave then some (g.2.team, g.2.trp) else none).dedup

/-- A complete troupe at the latch is checked; with a slot free it asks for leave (R261). -/
def State.latchTroupe (s : State) (core tid : Nat) (trp : Word) : State :=
  match s.troupe tid trp .troupe with
  | none => s
  | some ms =>
    match ms.head?.bind fun m => s.frameOf m.1 m.2.1 with
    | none => s
    | some f =>
      match s.instrAt f.g f.u.ipc with
      | none => s
      | some i =>
        match s.mmaCheck ms i with
        | some c => s.faultUnits (unitsOf ms) c
        | none =>
          if Config.matrixSlots ≤ (s.core core).slots.length + (s.awaiting core).length then s
          else
            let s := (unitsOf ms).foldl (fun s x => match s.frameOf x.1 x.2 with
              | none => s
              | some y => s.put { y with u := { y.u with stop := .mleave } }) s
            let d := s.die (coreDie core)
            s.setDie (coreDie core) { d with leave := d.leave ++ [⟨core, f.gid, f.ui, true, s.now⟩] }

/-- Every complete troupe at a core's latch goes on as far as it can; where several wait for a slot, in the order of their
gangs' numbers (log entry 117). -/
def State.latch (s : State) (core : Nat) : State :=
  let ts := ((s.gangsOn core).filterMap fun g =>
    if g.2.units.any fun u => u.stop == .troupe then some (g.2.team, g.2.trp) else none).dedup
  ts.foldl (fun s t => s.latchTroupe core t.1 t.2) s

/-- The executing unit arrives at its core's latch (R261). -/
def State.arrive (s : State) (f : Frame) : State :=
  if f.g.trp == 0 then s.fault f f.u.am .troupe
  else
    let odds := s.atOdds f
    if odds.isEmpty then (s.put { f with u := { f.u with stop := .troupe } }).latchTroupe (s.coreOf f.g) f.g.team f.g.trp
    else (s.faultUnits (s.heldWith f.g.team (f.g.trp :: odds)) .troupe).fault f f.u.am .troupe

/-- `mma` (R261, R263): the unit arrives; it does not issue before the release. -/
def execMma (h : Hdr) (et : Et) (sm : Sm) (sel : BitVec 2) (ov : Ov) (z : Bool) (a b c sreg : Reg) (s : State) :
    Host.Outcome State Fault Refusal :=
  let _ := (h, et, sm, sel, ov, z, a, b, c, sreg)
  onUnit s fun f => s.arrive f

/-! ### Release (R261, R272, R273) -/

/-- Depth of a K-block (R265). -/
def blockDepth (et : Et) (flagged : Bool) : Nat :=
  if flagged then (if et == .ln6 then 80 else 60)
  else match et with
    | .bf16 | .f16 => 32
    | _ => 64

/-- Products per clock (R273). -/
def mmaRate (et : Et) : Nat :=
  match et with
  | .ln6 => 32768
  | .bf16 | .f16 => 4096
  | _ => 16384

/-- Clocks of the compute stage: max(g, Nc) (R273). -/
def mmaClocks (g : Nat) (et : Et) (flagged : Bool) : Nat :=
  max g ((64 * g * g * (4 * blockDepth et flagged) + mmaRate et - 1) / mmaRate et)

/-- Clocks of step b. -/
def stepClocks (n b : Nat) : Nat := (n + 3 - b) / 4

/-- Clocks of the C read or write. -/
def cClocks (g : Nat) : Nat := (g * g + 15) / 16

/-- Registers of a lane range are poisoned (R339). -/
def State.rowsBad (s : State) (ms : List (Nat × Nat × Nat)) (base n : Nat) : Bool :=
  s.regPoison.any fun p => ms.any fun m => p.1 == m.1 && p.2.2 / 8 == m.2.2 && match p.2.1 with
    | .v k => decide (base ≤ k ∧ k < base + n)
    | _ => false

/-- The lowest free accumulator slot. -/
def CoreState.freeSlot (c : CoreState) : Option Nat :=
  (List.range Config.matrixSlots).find? fun k => (FMap.get? c.slots k).isNone

/-- One member unit issues its `mma`: window, marks, and an open result (R38, R273). It issues in the clock of the release,
whatever else its quadrant does in it, and the quadrant is occupied for the longer of the two (log entry 120). -/
def State.issueMma (s : State) (res g clk : Nat) (i : Instr) (x : Nat × Nat) : State :=
  let tam := (s.frameOf x.1 x.2).elim false fun f => s.imageKind f == .tamut
  let s := ((s.frameOf x.1 x.2).elim s fun f => s.countWord f i).spendSlot x.1 x.2 1 clk (if tam then 2 else 1)
  match s.frameOf x.1 x.2, i with
  | some f, .mma _ _ sm _ _ _ a b c r =>
    let s := s.openWindow f (info i) res
    let hard : List Mark := (List.range (8 * g)).map fun k => { loc := .v (c.toNat + k), till := .result res }
    let soft (base n : Nat) : List Mark :=
      (List.range n).map fun k => { loc := .v (base + k), till := .clock (clk + 12 + g), soft := true, mma := some res }
    let more := hard ++ soft a.toNat 64 ++ soft b.toNat 64 ++ (if sm == .lane || sm == .bcst then soft r.toNat 2 else [])
    let r : Result := { pc := f.u.ipc, unit := f.ui, due := none, writes := [], faults := 0, cause := .overflow }
    let go (u : UnitState) : UnitState := { u with stop := .run, ipc := f.u.ipc + 8, leave := false }
    { s with gangs := FMap.adjust s.gangs f.gid fun y =>
      { y with marks := y.marks ++ more, results := FMap.set y.results res r, units := y.units.modify f.ui go } }
  | _, _ => s

/-- The troupe of a gang that has been granted leave and a slot: its members, its lead unit, its word, the slot (R261). -/
def State.granted (s : State) (core idx : Nat) : Option (List (Nat × Nat × Nat) × Frame × Instr × Nat) :=
  match FMap.get? s.gangs idx with
  | none => none
  | some y =>
    match s.troupe y.team y.trp .mleave, (s.core core).freeSlot with
    | some ms, some slot =>
      (match ms.head?.bind fun m => s.frameOf m.1 m.2.1 with
       | none => none
       | some f =>
         if !f.u.leave || s.coreOf y != core then none
         else match s.instrAt f.g f.u.ipc with
           | some (.mma h et sm sel ov z a b c r) => some (ms, f, .mma h et sm sel ov z a b c r, slot)
           | _ => none)
    | _, _ => none

/-- THE RELEASE: a troupe's operands enter a slot, and every member gang issues its `mma` (R261, R272, R273). -/
def State.release (s : State) (core : Nat) (ms : List (Nat × Nat × Nat)) (f : Frame) (i : Instr) (slot : Nat) : State :=
  match i with
  | .mma _ _ sm _ _ z a b c r =>
    let g := ms.length
    let clk := s.clock core
    let (res, s) := s.newId
    let zero : List (List Word) := List.replicate (8 * g) (List.replicate (8 * g) 0)
    let two := sm == .lane || sm == .bcst
    let m : MatSlot :=
      { team := f.g.team, members := ms.map fun m => (m.1, m.2.2), word := i
        pcs := (unitsOf ms).map fun x => (x.1, (s.frameOf x.1 x.2).elim 0 (·.u.ipc))
        res := res, a := s.rowsOf ms a.toNat 64, b := s.rowsOf ms b.toNat 64
        sa := (s.rowsOf ms r.toNat 1).map fun x => x.headD 0
        sb := (s.rowsOf ms (r.toNat + 1) 1).map fun x => x.headD 0
        acc := if z then zero else s.rowsOf ms c.toNat (8 * g), step := 0
        ready := clk + 12 + (if z then 0 else cClocks g)
        bad := s.rowsBad ms a.toNat 64 || s.rowsBad ms b.toNat 64 || (two && s.rowsBad ms r.toNat 2) ||
          (!z && s.rowsBad ms c.toNat (8 * g))
        cls := f.g.cls.toNat, order := res }
    let x := s.core core
    let s := s.setCore core { x with slots := FMap.set x.slots slot m }
    (unitsOf ms).foldl (fun s u => s.issueMma res g clk i u) s
  | _ => s

/-! ### Block steps (R266 to R274) -/

/-- `sel(b)` of R266. -/
def selByte (sel : BitVec 2) (b : Nat) : Nat :=
  match sel.toNat with
  | 0 => b
  | 1 => 0
  | 2 => 1
  | _ => b ^^^ 1

/-- Scale code of a row for a block (R266); `own` is the row's scale register, `lead` that of lane 0 of its member. -/
def scaleCode (sm : Sm) (sel : BitVec 2) (b : Nat) (own lead : Word) (block : List Word) : Nat :=
  match sm with
  | .unit => 0x7F
  | .lane => own.toNat / 2 ^ (8 * selByte sel b) % 256
  | .bcst => lead.toNat / 2 ^ (8 * selByte sel b) % 256
  | .flag => blockByte block 1

/-- Element type and elements of a block. -/
def blockElems (et : Et) (flagged : Bool) (block : List Word) : Et × List Nat :=
  if flagged then ((if et == .ln6 then .ln6 else (flagEt (blockByte block 0)).getD .i8), flaggedCodes (et == .ln6) block)
  else (et, plainCodes et block)

/-- Row r of a list of rows. -/
def rowAt (rows : List (List Word)) (r : Nat) : List Word := rows[r]?.getD []

/-- One element's block step (R268): the new acc, and whether it overflows under TRAP. -/
def MatSlot.element (m : MatSlot) (b i j : Nat) : Word × Bool :=
  match m.word with
  | .mma _ et sm sel ov _ _ _ _ _ =>
    let flagged := sm == .flag
    let ba := rowBlock (rowAt m.a i) b
    let bb := rowBlock (rowAt m.b j) b
    let x := blockElems et flagged ba
    let y := blockElems et flagged bb
    let sum := blockSum x.1 y.1 x.2 y.2
    let acc := ((rowAt m.acc i)[j]?).getD 0
    if et == .i8 && sm == .unit then (accInt acc sum, false)
    else
      let at_ (l : List Word) (k : Nat) : Word := (l[k]?).getD 0
      let ea := scaleCode sm sel b (at_ m.sa i) (at_ m.sa (i / 8 * 8)) ba
      let eb := scaleCode sm sel b (at_ m.sb j) (at_ m.sb (j / 8 * 8)) bb
      let r := accStep ov acc sum ea eb
      (BitVec.ofNat 32 r.1, r.2)
  | _ => (0, false)

/-- Every flagged block of the operands passes its check word (R267). -/
def MatSlot.checksOk (m : MatSlot) : Bool :=
  match m.word with
  | .mma _ _ .flag .. => (m.a ++ m.b).all fun row => (List.range 4).all fun b => checkOk (rowBlock row b)
  | _ => true

/-- The marks of an `mma` on its operands clear (R271). -/
def Gang.unmarkMma (res : Nat) (g : Gang) : Gang := { g with marks := g.marks.filter fun m => m.mma != some res }

/-- ABANDON (R271): C keeps its value, the slot is free, the marks clear, and the lanes then in `am` of every member
fault. -/
def State.abandon (s : State) (core slot : Nat) (m : MatSlot) (cause : Cause) : State :=
  let c := s.core core
  let s := s.setCore core { c with slots := FMap.erase c.slots slot }
  let s := m.pcs.foldl (fun s x =>
    match FMap.get? s.gangs x.1 with
    | none => s
    | some g =>
      let s := s.setGang x.1 (Gang.unmarkMma m.res { g with results := FMap.erase g.results m.res })
      let am := g.allOf fun u => if u.hm then 0 else u.am
      ((s.takeFaults x.1 ((lanesOf am).map fun l => ⟨l, cause, 0⟩) x.2).closeWindow x.1 m.res).reap x.1) s
  s.latch core

/-- A slot has steps to run and is the earliest release of its class that has: troupes of one class never interleave
(R272; log entry 95). -/
def CoreState.first (c : CoreState) (m : MatSlot) : Bool :=
  decide (m.step < 4) && c.slots.all fun x => decide (4 ≤ x.2.step) || x.2.cls != m.cls || decide (m.order ≤ x.2.order)

/-- The slot whose step runs next: ready, of the highest class, then the earliest release (R272). -/
def State.nextSlot (s : State) (core : Nat) : Option (Nat × MatSlot) :=
  let clk := s.clock core
  ((s.core core).slots.filter fun m => (s.core core).first m.2 && decide (m.2.ready ≤ clk)).foldl (fun best m => match best with
    | none => some m
    | some b => if b.2.cls < m.2.cls ∨ (b.2.cls = m.2.cls ∧ m.2.order < b.2.order) then some m else some b) none

/-- Mismatches that a unit meets next: key 2·core for a duplicated word, 2·core + 1 for the matrix unit (R144, R274). -/
def State.takeGlitch (s : State) (key : Nat) : Nat × State :=
  (FMap.getD s.glitches key 0, { s with glitches := FMap.erase s.glitches key })

/-- Clocks of the compute stage for a slot's four steps (R273). -/
def MatSlot.clocks (m : MatSlot) : Nat :=
  match m.word with
  | .mma _ et sm .. => mmaClocks m.members.length et (sm == .flag)
  | _ => 4

/-- A slot whose step has been recomputed and has differed again (R274). -/
def State.failingSlot (s : State) (core : Nat) : Option (Nat × MatSlot) :=
  (s.core core).slots.find? fun x => x.2.failing && decide (x.2.ready ≤ s.clock core)

/-- A second mismatch at one step: the unit is reported in every member, and the `mma` is abandoned (R271, R274; log entry
77). -/
def State.stepFails (s : State) (core slot : Nat) (m : MatSlot) : State :=
  let s := m.pcs.foldl (fun s x => match FMap.get? s.gangs x.1 with
    | none => s
    | some g => s.unitReport g .compute x.2 0 [.matrix core] m.step) s
  s.abandon core slot m .compute

/-- `MMA_BLOCK_STEP` (R267, R268, R271 to R274): a mismatch is logged and its step takes the clocks of its recompute too,
after which a second one abandons the `mma`. -/
def execMmaBlockStep (core : Nat) (s : State) : Host.Outcome State Fault Refusal :=
  let clk := s.clock core
  .next <| if clk < (s.core core).matBusy then s
  else match s.failingSlot core with
  | some (slot, m) => s.stepFails core slot m
  | none => match s.nextSlot core with
  | none => s
  | some (slot, m) =>
    if m.bad then s.abandon core slot m .uncorrectable
    else if !m.checksOk then s.abandon core slot m .checkWord
    else
      let (miss, s) := s.takeGlitch (2 * core + 1)
      let s := if 1 ≤ miss then (s.logCorrected (unitNum (.matrix core))).signal core 0x0F 1 else s
      let cost := stepClocks m.clocks m.step + (if 1 ≤ miss then (m.clocks + 3) / 4 else 0)
      if 2 ≤ miss then
        let c := s.core core
        s.setCore core { c with slots := FMap.set c.slots slot { m with failing := true, ready := clk + cost }
                                matBusy := clk + cost }
      else
        let g := m.members.length
        let n := 8 * g
        let out := (List.range n).map fun i => (List.range n).map fun j => m.element m.step i j
        if out.any fun row => row.any (·.2) then s.abandon core slot m .overflow
        else
          let ready := clk + cost + (if m.step = 3 then cClocks g else 0)
          let m' := { m with acc := out.map fun row => row.map (·.1), step := m.step + 1, ready := ready }
          let c := s.core core
          (s.setCore core { c with slots := FMap.set c.slots slot m', matBusy := clk + cost }).signal core 0x0B 1

/-- Register writes of a member group: its rows into C.. of its lanes (R265). -/
def MatSlot.writesOf (m : MatSlot) (j k : Nat) : List LaneWrite :=
  match m.word with
  | .mma _ _ _ _ _ _ _ _ c _ =>
    (List.range (8 * m.members.length)).map fun col =>
      { loc := .v (c.toNat + col), mask := grpMask k
        val := Vector.ofFn fun l : Fin 64 => ((rowAt m.acc (8 * j + l.val % 8))[col]?).getD 0 }
  | _ => []

/-- `MMA_COMPLETE` (R268, R272, R273): C is written, and the slot is free. -/
def execMmaComplete (core slot : Nat) (s : State) : Host.Outcome State Fault Refusal :=
  .next <| match FMap.get? (s.core core).slots slot with
  | none => s
  | some m =>
    if m.step < 4 ∨ s.clock core < m.ready then s
    else
      let c := s.core core
      let s := s.setCore core { c with slots := FMap.erase c.slots slot }
      let s := m.members.zipIdx.foldl (fun s (x, j) => s.apply x.1 (m.writesOf j x.2)) s
      let s := m.pcs.foldl (fun s x =>
        let s := { s with gangs := FMap.adjust s.gangs x.1 fun g => { g with results := FMap.erase g.results m.res } }
        (s.closeWindow x.1 m.res).reap x.1) s
      s.latch core

/-! ### The quantiser and conversions (R276, R277) -/

/-- Values of n FP32 registers of a lane. -/
def LaneIn.floats (x : LaneIn) (a : Reg) (n : Nat) : List FVal :=
  (List.range n).map fun k => fmt32.read (x.rd (Reg.next a k) 1).toNat

/-- Writes of k registers in the lanes of a mask, each lane its own words. -/
def wordWrites (d : Reg) (k : Nat) (m : Mask) (val : Nat → List Word) : List LaneWrite :=
  (List.range k).map fun j =>
    { loc := .v (d.toNat + j), mask := m, val := Vector.ofFn fun l : Fin 64 => ((val l.val)[j]?).getD 0 }

/-- `qnt` (R276): 24 clocks, or 32 where a lane raises its scale. -/
def execQnt (h : Hdr) (et : Et) (ov : Ov) (d a : Reg) (s : State) : Host.Outcome State Fault Refusal :=
  onUnit s fun f =>
    let m := Frame.part f h
    let n := if et == .ln6 then 80 else 60
    let q : LaneVec (List Word × Bool × Bool) := Vector.ofFn fun l : Fin 64 =>
      if m.getLsbD l.val then quantise et ov ((s.laneIn f l.val).floats a n) else ([], false, false)
    let bad := m &&& maskOf fun l => (LaneVec.at' q l).2.2
    let raised := m &&& maskOf fun l => (LaneVec.at' q l).2.1
    s.finishWindowed f (info (.qnt h et ov d a)) (wordWrites d 16 (m &&& ~~~bad) fun l => (LaneVec.at' q l).1) bad .overflow
      (if raised == 0 then 24 else 32)

/-- `cvtn` (R277). -/
def execCvtn (h : Hdr) (et : Et) (ov : Ov) (d a : Reg) (s : State) : Host.Outcome State Fault Refusal :=
  laneWord (info (.cvtn h et ov d a)) s d 1 fun x =>
    let rs := (x.floats a 4).map (narrow et ov)
    (BitVec.ofNat 64 (rs.foldr (fun r acc => r.1 + 256 * acc) 0), rs.any (·.2))

/-- `cvtw` (R277). -/
def execCvtw (h : Hdr) (et : Et) (d a : Reg) (s : State) : Host.Outcome State Fault Refusal :=
  onUnit s fun f =>
    let out (l : Nat) : List Word := (List.range 4).map fun n =>
      BitVec.ofNat 32 (widen et ((s.rdReg f a l).toNat / 2 ^ (8 * n) % 256) 0x7F .sat).1
    s.finish f (info (.cvtw h et d a)) (wordWrites d 4 (Frame.part f h) out) 0 .overflow

/-- The block of a lane from a register on. -/
def State.blockOf (s : State) (f : Frame) (d : Reg) (l : Nat) : List Word :=
  (List.range 16).map fun k => s.rdReg f (Reg.next d k) l

/-- `flg` (R278). -/
def execFlg (h : Hdr) (d a : Reg) (s : State) : Host.Outcome State Fault Refusal :=
  onUnit s fun f =>
    let m := Frame.part f h
    let bad := m &&& maskOf fun l => (flagEt ((s.rdReg f a l).toNat % 256)).isNone
    let ok := m &&& ~~~bad
    let first (l : Nat) : List Word :=
      [(s.rdReg f d l).extractLsb' 16 16 ++ (s.rdReg f a l).extractLsb' 0 16]
    let last (l : Nat) : List Word :=
      let blk := s.blockOf f d l
      [BitVec.ofNat 16 (checkWord fun k => blockByte blk (2 + k)) ++ (s.rdReg f (Reg.next d 15) l).extractLsb' 0 16]
    s.finish f (info (.flg h d a)) (wordWrites d 1 ok first ++ wordWrites (Reg.next d 15) 1 ok last) bad .unknownFlag

/-- `chk` (R279). -/
def execChk (h : Hdr) (pd : PReg) (a : Reg) (s : State) : Host.Outcome State Fault Refusal :=
  onUnit s fun f =>
    s.finish f (info (.chk h pd a)) [predWrite pd (Frame.part f h) fun l =>
      let blk := s.blockOf f a l
      (flagEt (blockByte blk 0)).isSome && checkOk blk] 0 .unknownFlag

end Sys2Proof.Machine
end

