-- ==== Sys2Proof/Machine/Traps.lean ====
section
/-! DEFINITION. Major 0xA below minor 0x0A (R326 to R338, R346, R347): system calls and their answers, the origin-tag
instructions, containment regions, `halt`; words that are no instruction (R49, R50); pages made resident (R93);
and the steps `SYSCALL_RING_RECORD`, `SYSCALL_RETURN`, `SYSCALL_RESTART`, `SYSCALL_EXIT`, `FAULT_RING_RECORD`,
`REGION_ENTRY`, `FLAG_DOWN`, `CONTEXT_HALTED`, `RESUME`, `PGRES`. -/

namespace Sys2Proof.Machine

/-- A word that decode refuses (R49, R50): it has no effect, and every lane of `am` faults with its cause. -/
def execIllegalEncoding (c : Cause) (s : State) : Host.Outcome State Fault Refusal :=
  onUnit s fun f => s.fault f f.u.am c

/-! ### System calls (R327 to R329) -/

/-- `trap` waits for every operation of the gang (R327). -/
def State.trapWaits (s : State) (f : Frame) (h : Hdr) : Bool := Frame.part f h != 0 && !(s.opsOf f.gid).isEmpty

/-- Push the gather lines a gang's stores wrote (R327). -/
def State.pushGang (s : State) (core gid : Nat) : State :=
  (((s.core core).gather.filter fun l => l.gangs.contains gid).map GLine.key).foldl (fun s k => s.leaveLine core k) s

/-- A system-call record (R328). -/
def callRecord (code ctx pc : Nat) (w : Who) (lanes : Mask) (args : List Word) (id : Nat) : List Byte :=
  leBytes 2 code ++ leBytes 1 (causeCode .syscall) ++ leBytes 1 ctx ++ leBytes 4 pc ++ leBytes 4 w.lseq.toNat ++
    leBytes 2 w.core ++ leBytes 2 w.slot ++ leBytes 8 lanes.toNat ++ args.flatMap (fun a => leBytes 4 a.toNat) ++
    leBytes 4 id ++ leBytes 4 0

/-- `trap` (R327): the lanes of `am` park behind the word, and the call's record waits for the ring. What the answer writes
is marked until it comes (R143; log entry 51). -/
def execTrap (h : Hdr) (code : BitVec 16) (d a : Reg) (s : State) : Host.Outcome State Fault Refusal :=
  onUnit s fun f =>
    if Frame.part f h == 0 then s.advance f
    else if s.trapWaits f h then s
    else
      let pc := f.u.ipc
      let args : List Word := (List.range 8).map fun k => if a.isZero then 0 else s.rdReg f (Reg.next a k) 0
      let lanes := f.u.am
      let f' := f.park lanes (pc + 8)
      let s := s.put { f' with u := { f'.u with ipc := pc + 8, emptyPc := some pc } }
      let s := s.pushGang (s.coreOf f.g) f.gid
      let c := s.ctxOf f.g
      let x := s.ctx c
      let id := nextSeqNo x.callId
      let call : SysCall := { gang := f.gid, lanes := lanes, d := d, pc := pc }
      let marks : List Mark := (writeLocs f (info (.trap h code d a))).map fun l => { loc := l, till := .call id }
      let s := { s with gangs := FMap.adjust s.gangs f.gid fun g => { g with marks := g.marks ++ marks } }
      s.setCtx c { x with
        callId := id, calls := FMap.set x.calls id call
        syscall := x.syscall.push (callRecord code.toNat c pc.toNat (s.nameOf f.g) lanes args id) }

/-- `SYSCALL_RING_RECORD` (R327, R375). -/
def execSyscallRingRecord (c : Nat) (s : State) : Host.Outcome State Fault Refusal :=
  .next <| match s.ringStep (s.ctx c).syscall with
  | none => s
  | some (r, s) => s.setCtx c { s.ctx c with syscall := r }

/-- `FAULT_RING_RECORD` (R375). -/
def execFaultRingRecord (c : Nat) (s : State) : Host.Outcome State Fault Refusal :=
  .next <| match s.ringStep (s.ctx c).faults with
  | none => s
  | some (r, s) => s.setCtx c { s.ctx c with faults := r }

/-- `RESUME` (R329): the host names a record; the result record that stands there becomes the call's answer. A number
that names no parked call, or another action, is ignored. -/
def execResume (c id : Nat) (s : State) : Host.Outcome State Fault Refusal :=
  let x := s.ctx c
  let action := x.result / 2 ^ 32 % 256
  .next <| if (FMap.get? x.calls id).isSome && x.result % 2 ^ 32 == id && decide (action ≤ 2) then
      s.setCtx c { x with answers := FMap.set x.answers id (action, x.result / 2 ^ 64) }
    else s

/-- Lanes of a gang move to `km`, each in its unit (R93, R329). -/
def Gang.readyLanes (g : Gang) (m : Mask) : Gang :=
  { g with units := g.units.map fun u => u.ready (m &&& groupLanes u.groups g.width) }

/-- The scoreboard marks of a call clear. -/
def Gang.unmarkCall (g : Gang) (id : Nat) : Gang := { g with marks := g.marks.filter fun m => m.till != .call id }

/-- The device acts on an answer (R329); in a halted context, whose state is frozen, only once it runs again (R344). -/
def State.answer (s : State) (c id action : Nat) : State :=
  let x := s.ctx c
  if s.frozen c then s
  else match FMap.get? x.answers id, FMap.get? x.calls id with
  | some (act, value), some call =>
    if act ≠ action then s
    else
      let s := s.setCtx c { x with answers := FMap.erase x.answers id, calls := FMap.erase x.calls id }
      let s := { s with gangs := FMap.adjust s.gangs call.gang fun g => g.unmarkCall id }
      match FMap.get? s.gangs call.gang with
      | none => s
      | some g =>
        let m := call.lanes &&& g.allOf (·.tm)
        if m == 0 then s
        else if action = 2 then
          (List.range g.units.length).foldl (fun s ui =>
            let mine := m &&& groupLanes (g.units[ui]?.getD default).groups g.width
            if mine == 0 then s else s.exitLanes call.gang ui mine call.pc) s
        else
          let f : Frame := ⟨call.gang, 0, g, { g.units.headD default with hm := false }⟩
          let s := s.apply call.gang (destWrites f call.d 2 m (uniform (BitVec.ofNat 64 value)))
          { s with gangs := FMap.adjust s.gangs call.gang fun g =>
              let g := if action = 1 then { g with lpc := mergeLanes m (uniform call.pc) g.lpc } else g
              g.readyLanes m }
  | _, _ => s

/-- `SYSCALL_RETURN` (R329): action 0. -/
def execSyscallReturn (c id : Nat) (s : State) : Host.Outcome State Fault Refusal := .next (s.answer c id 0)
/-- `SYSCALL_RESTART` (R329): action 1. -/
def execSyscallRestart (c id : Nat) (s : State) : Host.Outcome State Fault Refusal := .next (s.answer c id 1)
/-- `SYSCALL_EXIT` (R329): action 2. -/
def execSyscallExit (c id : Nat) (s : State) : Host.Outcome State Fault Refusal := .next (s.answer c id 2)

/-- Fault-parked lanes of a gang return (R93, R184). -/
def Gang.unpark (g : Gang) (m : Mask) : Gang :=
  { g with units := g.units.map fun u =>
      let mine := m &&& u.fm
      if mine == 0 then u else { u.ready mine with fready := true } }

/-- The lanes parked on a record of a page move from `fm` to `km` (R93). -/
def State.pageIn (s : State) (c va : Nat) : State :=
  let x := s.ctx c
  let hit := x.parked.filter fun p => p.page == va
  let s := s.setCtx c { x with parked := x.parked.filter fun p => p.page != va }
  hit.foldl (fun s p =>
    ({ s with gangs := FMap.adjust s.gangs p.gang fun g => g.unpark p.lanes } : State).wakePark p.gang) s

/-- `PGRES` (R93): the lanes parked on a record of the page move from `fm` to `km`; those of a halted context, whose state
is frozen, as it runs again (R344; log entry 132). -/
def execPgres (c : Nat) (va : DWord) (s : State) : Host.Outcome State Fault Refusal :=
  let x := s.ctx c
  .next <| if s.frozen c then s.setCtx c { x with resident := x.resident ++ [va.toNat] } else s.pageIn c va.toNat

/-! ### Origin tags (R331 to R333) -/

/-- The origin of a lane of the executing unit. -/
def State.laneOrigin (s : State) (f : Frame) (a : Reg) (l : Nat) : Option (Nat × Nat × Nat) :=
  s.originOf f.g.team (s.coreOf f.g) (s.rd f a 2 l)

/-- `tres` and `tkill` wait for the earlier operations of their groups (R332). -/
def State.tagWaits (s : State) (f : Frame) (h : Hdr) : Bool :=
  let m := Frame.part f h
  (s.opsOf f.gid).any fun o => o.2.parts.any fun p => !p.completed && m &&& grpMask p.grp != 0

/-- Act on each taking-part lane's origin in turn; lanes without a live origin, or that an act refuses, fault. -/
def State.onOrigins (s : State) (f : Frame) (a : Reg) (m : Mask) (act : State → Nat → Nat × Nat × Nat → Except Cause State) :
    State :=
  let r : List Hit × State := (lanesOf m).foldl (fun (hs, s) l =>
    match s.laneOrigin f a l with
    | none => (hs ++ [⟨l, .stream, 0⟩], s)
    | some o => match act s l o with
      | .error c => (hs ++ [⟨l, c, 0⟩], s)
      | .ok s => (hs, s)) ([], s.advance f)
  if r.1.isEmpty then r.2 else r.2.laneFaults f.gid f.ui r.1 f.u.ipc

/-- An origin resumes at a PC, and its tag dies (R333). -/
def Gang.resumeOrigin (g : Gang) (ui l : Nat) (pc : Word) : Gang :=
  let m := maskOf fun k => k == l
  { g with lpc := mergeLanes m (uniform pc) g.lpc, origins := g.origins &&& ~~~m
           units := g.units.modify ui fun u => u.ready m }

/-- `tres` (R333). -/
def execTres (h : Hdr) (a b : Reg) (s : State) : Host.Outcome State Fault Refusal :=
  onUnit s fun f =>
    if s.tagWaits f h then s
    else s.onOrigins f a (Frame.part f h) fun st l o =>
      let pc := s.rdReg f b l
      if pc.toNat % 8 ≠ 0 then .error .misaligned
      else .ok { st with gangs := FMap.adjust st.gangs o.1 fun g => g.resumeOrigin o.2.1 o.2.2 pc }

/-- `tkill` (R333). -/
def execTkill (h : Hdr) (a : Reg) (s : State) : Host.Outcome State Fault Refusal :=
  onUnit s fun f =>
    if s.tagWaits f h then s
    else s.onOrigins f a (Frame.part f h) fun st _ o =>
      let pc := (FMap.get? st.gangs o.1).elim 0 fun g => LaneVec.at' g.lpc o.2.2
      .ok (st.exitLanes o.1 o.2.1 (maskOf fun k => k == o.2.2) pc)

/-- The places an owner-register access names (R326). -/
def orLocs (c : OrClass) (r : BitVec 8) : List RegLoc :=
  match c with
  | .v => [.v r.toNat]
  | .s => [.s (r.toNat - 0xC0)]
  | .p => (List.range 32).map .p
  | .sr => []

/-- `orr` and `orw` wait on the scoreboard of the origins' gangs (R332). -/
def State.originBusy (s : State) (f : Frame) (h : Hdr) (c : OrClass) (r : BitVec 8) (a : Reg) : Bool :=
  (lanesOf (Frame.part f h)).any fun l => match s.laneOrigin f a l with
    | none => false
    | some o => (FMap.get? s.gangs o.1).elim false fun g => g.marks.any fun m =>
        !m.soft && Mark.holds (s.clock (s.coreOf g)) m && (orLocs c r).contains m.loc

/-- The register lies outside the origin kernel's window (R36, R333). -/
def State.outOfWindow (s : State) (f : Frame) (c : OrClass) (r : BitVec 8) : Bool :=
  match s.headerOf f.g, c with
  | some h, .v => decide (h.regs ≤ r.toNat)
  | some h, .s => decide (h.scalars ≤ r.toNat - 0xC0)
  | _, _ => false

/-- What `orr` reads of an origin (R333). -/
def State.originValue (s : State) (c : OrClass) (r : BitVec 8) (o : Nat × Nat × Nat) : DWord :=
  match s.frameOf o.1 o.2.1 with
  | none => 0
  | some y =>
    match c with
    | .v => (LaneVec.at' (y.g.vreg r.toNat) o.2.2).setWidth 64
    | .s => (vget y.g.s ((r.toNat - 0xC0) % 48) (Nat.mod_lt _ (by decide))).setWidth 64
    | .p => (predBits y.g o.2.2).setWidth 64
    | .sr => s.special y r o.2.2

/-- A register of a gang is poisoned for a lane (R339). -/
def State.poisoned (s : State) (gid : Nat) (loc : RegLoc) (l : Nat) : Bool :=
  s.regPoison.any fun p => p.1 == gid && p.2.1 == loc && match loc with
    | .v _ | .hv _ | .p _ => p.2.2 == l
    | _ => true

/-- `orr` reads a poisoned register of an origin (R339). -/
def State.originBad (s : State) (c : OrClass) (r : BitVec 8) (o : Nat × Nat × Nat) : Bool :=
  (orLocs c r).any fun loc => s.poisoned o.1 loc o.2.2

/-- `orr` (R333): complete 12 clocks after issue. A lane that reads a poisoned register writes nothing (R339). -/
def execOrr (h : Hdr) (c : OrClass) (r : BitVec 8) (d a : Reg) (s : State) : Host.Outcome State Fault Refusal :=
  onUnit s fun f =>
    if s.originBusy f h c r a then s
    else
      let m := Frame.part f h
      let i := info (.orr h c r d a)
      let dead := m &&& maskOf fun l => (s.laneOrigin f a l).isNone
      let out := if s.outOfWindow f c r then m &&& ~~~dead else 0
      let val : LaneVec DWord := Vector.ofFn fun l : Fin 64 => (s.laneOrigin f a l.val).elim 0 (s.originValue c r)
      let bad := m &&& ~~~(dead ||| out) &&& maskOf fun l => (s.laneOrigin f a l).elim false (s.originBad c r)
      let s' := s.finishWindowed f i (destWrites f d (Operand.orRegs c r) (m &&& ~~~(dead ||| out ||| bad)) val) 0 .stream
        (coreClocks (coreKind (s.coreOf f.g)) 12)
      let hits := hitsOf dead .stream 0 ++ hitsOf out .window 0 ++ hitsOf bad .uncorrectable 0
      if hits.isEmpty then s' else s'.laneFaults f.gid f.ui hits f.u.ipc

/-- The writes of `orw` for one origin lane. -/
def originWrites (c : OrClass) (r : BitVec 8) (l : Nat) (w : Word) : List LaneWrite :=
  let m := maskOf fun k => k == l
  match c with
  | .v => [⟨.v r.toNat, m, uniform w⟩]
  | .s => [⟨.s (r.toNat - 0xC0), m, uniform w⟩]
  | .p => (List.range 32).map fun k => predWrite (BitVec.ofNat 5 k) m fun _ => w.getLsbD k
  | .sr => []

/-- `orw` (R333): lanes act in ascending order, so that the highest one naming a gang's scalar wins. -/
def execOrw (h : Hdr) (c : OrClass) (r : BitVec 8) (a b : Reg) (s : State) : Host.Outcome State Fault Refusal :=
  onUnit s fun f =>
    if s.originBusy f h c r a then s
    else s.onOrigins f a (Frame.part f h) fun st l o =>
      if s.outOfWindow f c r then .error .window else .ok (st.apply o.1 (originWrites c r o.2.2 (s.rdReg f b l)))

/-! ### Containment regions (R335 to R338) -/

/-- `copen` (R335). -/
def execCopen (h : Hdr) (d a : Reg) (ofs : BitVec 26) (s : State) : Host.Outcome State Fault Refusal :=
  onUnit s fun f =>
    let i := info (.copen h d a ofs)
    let m := Frame.part f h
    let target := branchTarget f.u.ipc ofs
    if m == 0 then s.advance f
    else if 4 ≤ f.g.regions.length ∨ target.toNat % 8 ≠ 0 then s.fault f m .stream
    else
      let r : Region := ⟨target, (s.rdU f a 1).setWidth 32, d⟩
      (s.setGang f.gid { f.g with regions := r :: f.g.regions }).finish f i (destWrites f d 1 m (uniform 0)) 0 .overflow

/-- Operations of a gang that belong to its innermost region (R336). -/
def State.innerOps (s : State) (f : Frame) : List (Nat × Op) :=
  (s.opsOf f.gid).filter fun o => match o.2.region, f.g.regions with
    | some (pc, d), r :: _ => pc == r.pc && d == f.g.regions.length
    | _, _ => false

/-- `cclose` waits for its region's operations (R338). -/
def State.closeWaits (s : State) (f : Frame) (h : Hdr) : Bool := Frame.part f h != 0 && !(s.innerOps f).isEmpty

/-- `cclose` (R338). -/
def execCclose (h : Hdr) (s : State) : Host.Outcome State Fault Refusal :=
  onUnit s fun f =>
    let m := Frame.part f h
    if m == 0 then s.advance f
    else if f.g.regions.isEmpty then s.fault f m .stream
    else if s.closeWaits f h then s
    else (s.setGang f.gid { f.g with regions := f.g.regions.drop 1 }).advance f

/-- Units of a copy that have not landed are dropped, their counts given back (R215, R337). -/
def State.dropUnits (s : State) (o : Op) : State :=
  (o.units.filter fun u => !u.done && o.parts.any fun p => p.grp == u.grp && p.performed).foldl
    (fun s u => s.dropFills u false) s

/-- Claimed lines of a multicast that have not landed return to 0 (R215, R337). -/
def State.dropLines (s : State) (o : Op) : State :=
  if o.claimed then (s.cpmLines o o.pending).foldl (fun s l => s.setLine l.1 l.2 fun x => { x with pend := 0 }) s else s

/-- An operation goes on though its region is entered (R337): a performed store, arrival or atomic. -/
def Op.stays (o : Op) : Bool :=
  o.parts.any (·.performed) && match o.kind with
    | .store | .atomic .. | .stc _ => true
    | _ => false

/-- What region entry does to an operation of a member (R337): what has not performed is discarded, and a load's
value, a copy's units, a wait and the completion of a command or launch are dropped. -/
def State.discard (s : State) (oid : Nat) (o : Op) : State :=
  if o.stays then
    let end_ (p : Part) : Part := if p.performed then p else { p with performed := true, completed := true }
    let accs := o.accs.filter fun a => (o.partOf a).any (·.performed)
    let o' := { o with parts := o.parts.map end_, accs := accs }
    if o'.parts.all (·.completed) then (s.endOp oid { o' with sample := false }).reap o.gang else s.setOp oid o'
  else
    let s := (s.dropUnits o).dropLines o
    (s.endOp oid { o with sample := false }).reap o.gang

/-- Operations of a gang that an entry at a depth reaches: those of the region and of those inside it. -/
def State.reached (s : State) (gid d : Nat) : List (Nat × Op) :=
  (s.opsOf gid).filter fun o => o.2.region.elim false fun r => decide (d ≤ r.2)

/-- The unit a member runs as after the entry (R337). -/
def entered (g : Gang) (pc : Word) (clk : Nat) : UnitState :=
  let live := g.units.filter fun u => u.live g.width
  let u := mergeUnits g (firstUnit (if live.isEmpty then g.units else live))
  { u with am := lowLanes g.width &&& ~~~u.xm, km := 0, fm := 0, tm := 0, ipc := pc, hm := false, inv := 0, pass := none
           due := none, emptyPc := none, stop := .run, leave := false, rot := false, rotated := false, collPc := none
           nextIssue := clk, redo := none }

/-- A member after the entry of its region at depth d with a cause (R337). -/
def Gang.enter (g : Gang) (gid d cause clk : Nat) (pc : Word) : Gang :=
  let dest := (g.regions[g.regions.length - d]?).elim (0xF0 : Reg) (·.d)
  let f : Frame := ⟨gid, 0, g, { g.units.headD default with hm := false }⟩
  let g := g.writes (destWrites f dest 1 (lowLanes g.width) (uniform (BitVec.ofNat 64 (2 ^ 31 + 256 * d + cause))))
  let kept := g.marks.filter fun m => match m.till with
    | .call _ => false
    | _ => true
  { g with regions := g.regions.drop (g.regions.length + 1 - d), origins := 0, units := [entered g pc clk], marks := kept
           lpc := mergeLanes (lowLanes g.width &&& ~~~g.allOf (·.xm)) (uniform pc) g.lpc }

/-- A gang's parked lanes and calls no longer wait: it has been taken out of its waits (R337). -/
def Ctx.forget (x : Ctx) (gid : Nat) : Ctx :=
  let parked := x.parked.filter fun p => p.gang != gid
  let calls : FMap SysCall := x.calls.map fun e => (e.1, if e.2.gang == gid then { e.2 with lanes := 0 } else e.2)
  { x with parked := parked, calls := calls }

/-- The entry of one member. -/
def State.enterMember (s : State) (gid d cause : Nat) (pc : Word) : State :=
  let s := (s.reached gid d).foldl (fun s o => s.discard o.1 o.2) s
  match FMap.get? s.gangs gid with
  | none => s
  | some g =>
    let core := s.coreOf g
    let clk := s.clock core + coreClocks (coreKind core) 8
    let c := s.ctxOf g
    let die := coreDie core
    let s := s.setCtx c ((s.ctx c).forget gid)
    let leave := (s.die die).leave.filter fun r => r.gang != gid
    let s := s.setDie die { s.die die with leave := leave }
    let without (m : Migration) : Migration :=
      let gangs := m.gangs.filter fun k => k != gid
      { m with gangs := gangs }
    let s := { s with teams := FMap.adjust s.teams g.team fun t => { t with mig := t.mig.map without } }
    s.setGang gid (g.enter gid d cause clk pc)

/-- `REGION_ENTRY` (R337): the oldest entry a team has asked for, once no member's word waits for its recompute. -/
def execRegionEntry (tid : Nat) (s : State) : Host.Outcome State Fault Refusal :=
  .next <| match FMap.get? s.teams tid with
  | none => s
  | some t => match t.entries with
    | [] => s
    | (pc, d, cause) :: rest =>
      let mem := (s.teamGangs tid).filter fun g =>
        decide (1 ≤ d ∧ d ≤ g.2.regions.length) && (g.2.regions[g.2.regions.length - d]?).elim false fun r => r.pc == pc
      if (s.ctx t.ctx).life != .running || mem.any fun g => s.redoing g.1 then s
      else
        let s := s.setTeam tid { t with entries := rest }
        let held := mem.filter fun g => g.2.units.any fun u => u.stop == .troupe || u.stop == .mleave
        let s := mem.foldl (fun s g => s.enterMember g.1 d cause pc) s
        s.faultUnits (s.heldWith tid (held.map fun g => g.2.trp)) .partialColl

/-! ### Flag-down (R344 to R346) -/

/-- Every unit of a gang has stopped (R346). -/
def Gang.stopped (g : Gang) : Gang :=
  let stop (u : UnitState) : UnitState := { u with stopped := true }
  { g with units := g.units.map stop }

/-- `halt` (R346): the gang stops at the boundary after it. -/
def execHalt (h : Hdr) (a : Reg) (s : State) : Host.Outcome State Fault Refusal :=
  onUnit s fun f =>
    let s' := s.advance f
    if Frame.part f h == 0 then s'
    else
      let s' := s'.escalate
        { cause := 0, pc := f.u.ipc, value := (s.rdU f a 1).toNat, lanes := Frame.part f h, gang := f.gid, reason := 1 }
      { s' with gangs := FMap.adjust s'.gangs f.gid Gang.stopped }

/-- What a context-fault record adds for a firmware fault: command index, engine and firmware PC (R232; log entry 96). -/
def FwName.code (n : FwName) : Nat := n.cmd % 256 + 2 ^ 8 * (n.eng % 16) + 2 ^ 12 * (n.pc % 2 ^ 20)

/-- `FLAG_DOWN` (R345): the context begins to halt; a fault's or `halt`'s record goes to the fault ring with the frame
of the gang that caused it, as they were noted when it did. A debug stop has written its record (R360). -/
def execFlagDown (c : Nat) (s : State) : Host.Outcome State Fault Refusal :=
  let x := s.ctx c
  .next <| match x.down with
  | none => s
  | some d =>
    let s := s.setCtx c { x with life := .halting, reason := d.reason, faulted := d.reason == 0, down := none
                                 stepping := false, haltAt := s.now }
    if d.reason = 2 then s
    else s.faultRec c (faultRecord 2 c d.cause 8 d.pc.toNat d.value d.who d.lanes.toNat (d.fw.elim 0 FwName.code) ++ d.frame)

/-- A performed operation waits: at a barrier whose phase is still the awaited one, at a line that is not in the awaited
state, or on a launch (R344; log entry 49). -/
def State.stands (s : State) (o : Op) : Bool :=
  let busy (l : Nat × Nat) : Bool := (s.lineOf l.1 l.2).full || (s.lineOf l.1 l.2).pend != 0
  match o.kind, FMap.get? s.gangs o.gang with
  | .launch _, _ => true
  | .ldk _, _ => o.touched.any fun l => !(s.lineOf l.1 l.2).full
  | .stf, _ => o.touched.any busy
  | .cpm .., _ => !o.claimed && (s.cpmLines o o.pending).any busy
  | .bar .awt id _ _, some g | .bar .wt id _ _, some g => (s.barOf g.team id).now.ph == o.tok
  | _, _ => false

/-- An operation has nothing to do until something else happens: each of its parts has completed, is held for its mask, or
has performed and waits; a `launch` whose mask is met and that finds no room for its grid waits for one of the context's
grids to end (R291, R344; log entry 49). -/
def State.opWaits (s : State) (oid : Nat) (o : Op) : Bool :=
  let full : Bool := match o.kind with
    | .launch _ => (FMap.get? s.gangs o.gang).elim false fun g => s.gridsFull (s.ctxOf g)
    | _ => false
  o.parts.all fun p => p.completed || (!p.performed && (!s.masksMet oid o p.grp || full)) || (p.performed && s.stands o)

/-- `CONTEXT_HALTED` (R344): what its gangs have issued has completed or waits, their windowed results and recomputes
among it. -/
def execContextHalted (c : Nat) (s : State) : Host.Outcome State Fault Refusal :=
  let mine (gid : Nat) : Bool := (FMap.get? s.gangs gid).elim false fun g => s.ctxOf g == c
  let quiet := s.ops.all (fun o => !mine o.2.gang || s.opWaits o.1 o.2) &&
    s.gangs.all fun g => !mine g.1 || (g.2.results.isEmpty && g.2.aglNext.isNone && !s.redoing g.1)
  .next <| if (s.ctx c).life == .halting && quiet then s.setCtx c { s.ctx c with life := .halted } else s

/-! ### Reading and writing the state of a halted context (R347, R348) -/

/-- What a state address names: context, team handle, group, class, offset. -/
structure Piece where
  ctx : Nat
  team : Nat
  grp : Nat
  cls : Nat
  ofs : Nat
  deriving DecidableEq, Repr, Inhabited

/-- Fields of a state address. -/
def Piece.of (a : DWord) : Piece :=
  let n := a.toNat
  ⟨n / 2 ^ 58, n / 2 ^ 42 % 2 ^ 16, n / 2 ^ 35 % 2 ^ 7, n / 2 ^ 31 % 2 ^ 4, n % 2 ^ 31⟩

/-- Code of a context state (R374). -/
def lifeCode : CtxLife → Nat
  | .free => 0 | .running => 1 | .halting => 2 | .halted => 3 | .ended => 4

/-- Code of a team state: R301 in table order. -/
def teamCode : TeamLife → Nat
  | .queued => 0 | .resident => 1 | .blocked => 2 | .saved => 3 | .moving => 4 | .exited => 5

/-- Teams of a context that have not exited. -/
def State.liveTeams (s : State) (c : Nat) : List (Nat × Team) := s.teams.filter fun t => t.2.ctx == c && t.2.life != .exited

/-- The grids of a context's queued clusters, once for each team of each cluster. -/
def State.queuedTeams (s : State) (c : Nat) : List Grid :=
  (List.range 4).flatMap fun d => (s.die d).queues.flatMap fun q =>
    if q.1 / 4 = c then q.2.flatMap fun x => (FMap.get? s.grids x.grid).elim [] fun g => List.replicate (g.lr.cw * g.lr.ch) g
    else []

/-- The directory of a context (class 0): its placed and saved teams, then its queued ones, which have handle 0 and stand
on no core (log entry 14). -/
def State.directory (s : State) (c : Nat) : List Byte :=
  let ts := s.liveTeams c
  let qs := s.queuedTeams c
  let queued (g : Grid) : List Byte :=
    leBytes 2 0 ++ leBytes 1 (teamCode .queued) ++ leBytes 1 (kindCode g.lr.core) ++ leBytes 4 g.header.func ++
      leBytes 1 (g.lr.groups g.header) ++ leBytes 1 g.header.gang ++ leBytes 2 0 ++ leBytes 4 g.lseq.toNat
  leBytes 4 (ts.length + qs.length) ++ leBytes 1 (lifeCode (s.ctx c).life) ++ leBytes 11 0 ++ (ts.flatMap fun t =>
    leBytes 2 t.2.handle ++ leBytes 1 (teamCode t.2.life) ++ leBytes 1 (kindCode t.2.kind) ++ leBytes 4 t.2.header.func ++
      leBytes 1 t.2.groups ++ leBytes 1 t.2.header.gang ++ leBytes 2 t.2.core ++
      leBytes 4 ((FMap.get? s.grids t.2.grid).elim 0 fun g => g.lseq.toNat)) ++ qs.flatMap queued

/-- A gang-held special register as R348 lays it out; the lane-held ones read 0. -/
def State.gangSpecial (s : State) (f : Frame) (n : Nat) : Nat :=
  match n with
  | 0x00 => (f.g.allOf (·.am)).toNat
  | 0x02 => (f.g.allOf (·.km)).toNat
  | 0x04 => (f.g.allOf (·.fm)).toNat
  | 0x06 => (f.g.allOf (·.tm)).toNat
  | 0x08 => (f.g.allOf (·.xm)).toNat
  | 0x10 | 0x11 => 0
  | _ => (s.special f (BitVec.ofNat 8 n) 0).toNat

/-- A forced rotation is due (R193, R200). -/
def rotationDue (g : Gang) (u : UnitState) : Bool :=
  u.rot || (!u.hm && (lanesOf (u.am ||| u.km)).any fun l => decide (2 * g.agl.toNat ≤ (LaneVec.at' g.lag l).toNat))

/-- One entry of the unit state (R348). -/
def unitBytes (g : Gang) (u : UnitState) : List Byte :=
  let flags := (if u.ageFlag then 1 else 0) + (if u.fready then 2 else 0) + (if rotationDue g u then 4 else 0)
  leBytes 1 u.groups.toNat ++ leBytes 1 (if u.hm then 1 else 0) ++ leBytes 1 (if u.pass.isSome then 1 else 0) ++
    leBytes 1 flags ++ leBytes 2 u.inv ++ leBytes 2 0 ++ leBytes 4 u.ipc.toNat ++ leBytes 4 u.wait ++ leBytes 8 u.ev.toNat ++
    u.hs.toList.flatMap (fun w => leBytes 4 w.toNat) ++ leBytes 24 0

/-- Units in order of their lowest group, without those whose lanes have all exited while another has lanes (R197). -/
def Gang.sortedUnits (g : Gang) : List UnitState :=
  let live := g.units.filter fun u => u.live g.width
  sortBy (fun a b => decide (lowGroup a ≤ lowGroup b)) (if live.isEmpty then g.units else live)

/-- PC of a lane, as its own unit has it (R128). -/
def Gang.lanePc (g : Gang) (gid l : Nat) : Word :=
  let ui := g.unitOf l
  Frame.lpc ⟨gid, ui, g, g.units[ui]?.getD default⟩ l

/-- The special-register state of a gang (R348). -/
def State.specialBytes (s : State) (gid : Nat) (g : Gang) : List Byte :=
  let us := g.sortedUnits
  let f : Frame := ⟨gid, 0, g, us.headD default⟩
  let regions := g.regions.reverse.zipIdx.flatMap fun (r, k) =>
    leBytes 4 r.pc.toNat ++ leBytes 4 r.mask.toNat ++ leBytes 1 (k + 1) ++ leBytes 1 1 ++ leBytes 6 0
  let lane (l : Nat) : List Byte := leBytes 4 (g.lanePc gid l).toNat ++ leBytes 4 (LaneVec.at' g.lag l).toNat ++
    g.hv.toList.flatMap fun v => leBytes 4 (LaneVec.at' v l).toNat
  g.tile.toList.flatMap (fun t => leBytes 32 t.toNat) ++
    (List.range 25).flatMap (fun n => leBytes 8 (s.gangSpecial f n)) ++
    (regions ++ leBytes 64 0).take 64 ++
    (us.flatMap (unitBytes g) ++ leBytes 512 0).take 512 ++ leBytes 248 0 ++ (List.range g.width).flatMap lane

/-- Full/empty lines of a team (class 7). -/
def lineBytes (t : Team) (n : Nat) : List Byte :=
  (List.range n).flatMap fun k =>
    let l := FMap.getD t.lines k {}
    leBytes 2 (l.pend % 1024 + (if l.full then 2 ^ 15 else 0))

/-- Barriers of a team (class 8). -/
def barBytes (t : Team) : List Byte :=
  (List.range t.header.barriers).flatMap fun k =>
    let b := (FMap.getD t.bars k {}).now
    leBytes 2 b.base ++ leBytes 2 b.exp ++ leBytes 2 b.arr ++ leBytes 2 b.nxt ++ leBytes 2 b.ph ++
      leBytes 1 (if b.ovr then 1 else 0) ++ leBytes 5 0

/-- A halted context's team, gang and group place that a piece names. -/
structure Target where
  tid : Nat
  t : Team
  gang : Option (Nat × Gang)
  base : Nat
  deriving DecidableEq, Repr, Inhabited

/-- The team and group of a piece: a dead handle and a group outside the team name nothing (R347). -/
def State.target (s : State) (p : Piece) : Option Target :=
  match (s.liveTeams p.ctx).find? fun t => t.2.handle == p.team with
  | none => none
  | some (tid, t) =>
    match (s.teamGangs tid).find? fun g => !g.2.trap && decide (g.2.grpn ≤ p.grp ∧ p.grp < g.2.grpn + g.2.groups) with
    | some g => some { tid := tid, t := t, gang := some g, base := 8 * (p.grp - g.2.grpn) }
    | none => if p.grp < t.groups then some { tid := tid, t := t, gang := none, base := 0 } else none

/-- A word of a group's or gang's registers (classes 2 to 4). -/
def stateWord (g : Gang) (base cls k : Nat) : Word :=
  match cls with
  | 2 => LaneVec.at' (g.vreg (k / 8)) (base + k % 8)
  | 3 => vget g.s (k % 48) (Nat.mod_lt _ (by decide))
  | _ => predBits g (base + k)

/-- The bytes of a class other than the scratchpad (R347); none where the gang is needed and has ended, or the class is
reserved. -/
def State.classBytes (s : State) (p : Piece) (x : Target) : Option (List Byte) :=
  let words (g : Gang) (n : Nat) : List Byte := (List.range n).flatMap fun k => leBytes 4 (stateWord g x.base p.cls k).toNat
  match p.cls, x.gang with
  | 1, some g => some (s.frameBytes g.1 g.2)
  | 2, some g => some (words g.2 (8 * x.t.header.regs))
  | 3, some g => some (words g.2 x.t.header.scalars)
  | 4, some g => some (words g.2 8)
  | 5, some g => some (s.specialBytes g.1 g.2)
  | 7, _ => some (lineBytes x.t ((x.t.header.scratch + 127) / 128))
  | 8, _ => some (barBytes x.t)
  | _, _ => none

/-- Sixteen bytes of a team's scratchpad (class 6); none at or beyond its end. -/
def Target.scratch (x : Target) (ofs : Nat) : Option (List Byte) :=
  if x.t.header.scratch ≤ ofs then none
  else some ((List.range 16).map fun k => if ofs + k < x.t.header.scratch then Memory.read x.t.mem (ofs + k) else 0)

/-- The bytes a piece names as `ctxrd` reads them; none for the cases of cause 0x13 (R347). -/
def State.pieceBytes (s : State) (p : Piece) : Option (List Byte) :=
  if (s.ctx p.ctx).life != .halted || p.ofs % 16 != 0 then none
  else if p.cls = 6 then (s.target p).bind fun x => x.scratch p.ofs
  else
    let all := if p.cls = 0 then some (s.directory p.ctx) else (s.target p).bind (s.classBytes p)
    match all with
    | none => none
    | some b => if b.length ≤ p.ofs then none else some (((b.drop p.ofs).take 16 ++ leBytes 16 0).take 16)

/-- Word k of the special-register state of a gang stands in a poisoned register (R339, R348). -/
def State.specialBad (s : State) (gid : Nat) (g : Gang) (k : Nat) : Bool :=
  if k < 128 then s.poisoned gid (.t (k / 8)) 0
  else if 194 ≤ k ∧ k < 322 then
    let w := (k - 194) % 16
    decide (6 ≤ w ∧ w < 10) && (g.sortedUnits[(k - 194) / 16]?).elim false fun u =>
      (g.units.findIdx? fun x => x == u).elim false fun ui => s.poisoned gid (.hs ui (w - 6)) 0
  else if 384 ≤ k then decide (2 ≤ (k - 384) % 6) && s.poisoned gid (.hv ((k - 384) % 6 - 2)) ((k - 384) / 6)
  else false

/-- A piece holds poisoned data (R339). -/
def State.pieceBad (s : State) (p : Piece) : Bool :=
  match s.target p with
  | none => false
  | some x =>
    if p.cls = 6 then s.isPoisoned (.scratch x.tid p.ofs) (min 16 (x.t.header.scratch - p.ofs))
    else match x.gang with
      | none => false
      | some (gid, g) => (List.range 4).any fun j =>
        let k := p.ofs / 4 + j
        match p.cls with
        | 2 => s.poisoned gid (.v (k / 8)) (x.base + k % 8)
        | 3 => s.poisoned gid (.s k) 0
        | 4 => (List.range 32).any fun n => s.poisoned gid (.p n) (x.base + k)
        | 5 => s.specialBad gid g k
        | _ => false

/-- `ctxrd` (R347): bound at issue, complete within 512 clocks; a lane that reads poisoned state writes nothing (R339). -/
def execCtxrd (h : Hdr) (d a : Reg) (s : State) : Host.Outcome State Fault Refusal :=
  onUnit s fun f =>
    let m := Frame.part f h
    if !(s.ctx (s.ctxOf f.g)).bit 0 && m != 0 then s.fault f m .protection
    else
      let piece (l : Nat) : Option (List Byte) := s.pieceBytes (Piece.of (s.rd f a 2 l))
      let bad := m &&& maskOf fun l => (piece l).isNone
      let worse := m &&& ~~~bad &&& maskOf fun l => s.pieceBad (Piece.of (s.rd f a 2 l))
      let ws := bigWrites f d 4 (m &&& ~~~(bad ||| worse)) fun l => leNat ((piece l).getD [])
      let (r, s) := s.free
      let s' := s.finishWindowed f (info (.ctxrd h d a)) ws 0 .stream (1 + r % coreClocks (coreKind (s.coreOf f.g)) 512)
      let hits := hitsOf bad .stream 0 ++ hitsOf worse .uncorrectable 0
      if hits.isEmpty then s' else s'.laneFaults f.gid f.ui hits f.u.ipc

/-- The writes of one word of a group's or gang's registers. -/
def stateWrites (base cls k : Nat) (w : Word) : List LaneWrite :=
  match cls with
  | 2 => [⟨.v (k / 8), maskOf fun l => l == base + k % 8, uniform w⟩]
  | 3 => [⟨.s k, 1, uniform w⟩]
  | _ => (List.range 32).map fun n => predWrite (BitVec.ofNat 5 n) (maskOf fun l => l == base + k) fun _ => w.getLsbD n

/-- Write the piece a lane names (R347). -/
def State.putPiece (s : State) (p : Piece) (ws : List Word) : State :=
  match s.target p with
  | none => s
  | some x =>
    let limit := match p.cls with
      | 2 => 8 * x.t.header.regs
      | 3 => x.t.header.scalars
      | _ => 8
    if p.cls = 6 then
      let bytes := ws.flatMap fun w => leBytes 4 w.toNat
      s.writeScratch x.tid ((bytes.zipIdx.map fun (b, k) => (p.ofs + k, b)).filter fun c => decide (c.1 < x.t.header.scratch))
    else match x.gang with
      | none => s
      | some (gid, _) =>
        s.apply gid (ws.zipIdx.flatMap fun (w, j) =>
          if p.ofs / 4 + j < limit then stateWrites x.base p.cls (p.ofs / 4 + j) w else [])

/-- `ctxwr` (R347): written at issue. -/
def execCtxwr (h : Hdr) (a b : Reg) (s : State) : Host.Outcome State Fault Refusal :=
  onUnit s fun f =>
    let m := Frame.part f h
    if !(s.ctx (s.ctxOf f.g)).bit 0 && m != 0 then s.fault f m .protection
    else
      let ok (l : Nat) : Bool :=
        let p := Piece.of (s.rd f a 2 l)
        (p.cls == 2 || p.cls == 3 || p.cls == 4 || p.cls == 6) && (s.pieceBytes p).isSome
      let bad := m &&& maskOf fun l => !ok l
      let s' := (lanesOf (m &&& ~~~bad)).foldl (fun st l =>
        st.putPiece (Piece.of (s.rd f a 2 l)) ((List.range 4).map fun k => s.rdReg f (Reg.next b k) l)) (s.advance f)
      if bad == 0 then s' else s'.laneFaults f.gid f.ui (hitsOf bad .stream 0) f.u.ipc

end Sys2Proof.Machine
end

