-- ==== Sys2Proof/Machine/Debug.lean ====
section
/-! DEFINITION. Debug stops, breakpoints, marks, clocks, counters and samples (R359 to R371): `brk`, `trc`, `clk`, `pmk`,
`BREAKPOINT_STOP`, `SAMPLE_RECORD`, `COUNTER_CLEAR`, and what a clock adds to the counters of a core. -/

namespace Sys2Proof.Machine

/-! ### Stops (R360, R361) -/

/-- A debug stop: its records, and the flag-down that is due; its unit has stopped (R360). `type` is that of the trace
record. -/
def State.debugStop (s : State) (f : Frame) (type bp code : Nat) : State :=
  let core := s.coreOf f.g
  let c := s.ctxOf f.g
  let who := s.nameOf f.g
  let s := s.trace c who type bp code 0 f.u.ipc (s.clock core) []
  let s := s.faultRec c (faultRecord 4 c 0 0 f.u.ipc.toNat code who f.u.am.toNat 0)
  let s := s.escalateFor f.g { cause := 0, pc := f.u.ipc, value := code, lanes := f.u.am, gang := f.gid, reason := 2 }
  let stop (u : UnitState) : UnitState := { u with stopped := true }
  { s with gangs := FMap.adjust s.gangs f.gid fun g => { g with units := g.units.modify f.ui stop } }

/-- `brk` (R364). -/
def execBrk (h : Hdr) (code : BitVec 16) (s : State) : Host.Outcome State Fault Refusal :=
  onUnit s fun f =>
    let s' := s.advance f
    if Frame.part f h == 0 || !(s.ctx (s.ctxOf f.g)).bit 4 then s' else s'.debugStop f 4 0xFF code.toNat

/-- A breakpoint register matches a PC of a version (R361). -/
def bpMatches (bp : DWord) (ver : Nat) (pc : Word) : Bool :=
  bp.getLsbD 63 && (bp.extractLsb' 32 16).toNat == ver && bp.extractLsb' 3 29 == pc.extractLsb' 3 29

/-- The breakpoint a unit's next word matches, unless the word is to issue once without matching (R361). -/
def State.breakpoint (s : State) (f : Frame) : Option Nat :=
  let x := s.ctx (s.ctxOf f.g)
  let ver := (s.versionOf f.g).elim 0 (·.ver)
  if f.u.bpSkip == some f.u.ipc then none
  else (List.range 4).find? fun k => bpMatches (vget x.bp (k % 4) (Nat.mod_lt _ (by decide))) ver f.u.ipc

/-- `BREAKPOINT_STOP` (R361): the word does not issue. -/
def execBreakpointStop (s : State) : Host.Outcome State Fault Refusal :=
  onUnit s fun f => match s.breakpoint f with
    | none => s
    | some k => (s.put { f with u := { f.u with bpSkip := some f.u.ipc } }).debugStop f 4 k 0

/-! ### `trc`, `clk`, `pmk` (R364) -/

/-- `trc` (R364). -/
def execTrc (h : Hdr) (code : BitVec 16) (a : Reg) (s : State) : Host.Outcome State Fault Refusal :=
  onUnit s fun f =>
    let s' := s.advance f
    let c := s.ctxOf f.g
    let core := s.coreOf f.g
    if Frame.part f h == 0 || !(s.ctx c).bit 6 then s'
    else (s'.trace c (s.nameOf f.g) 1 0xFF code.toNat ((s.rdU f a 1).toNat % 2 ^ 32) f.u.ipc (s.clock core) []).signal core 0x0D 1

/-- `clk` (R364). -/
def execClk (h : Hdr) (d : Reg) (s : State) : Host.Outcome State Fault Refusal :=
  onUnit s fun f =>
    s.finish f (info (.clk h d))
      (destWrites f d 2 (Frame.part f h) (uniform (BitVec.ofNat 64 (s.clock (s.coreOf f.g))))) 0 .overflow

/-- Counters of a core (R367). -/
def counterCount : Nat := 104

/-- `pmk` (R364). -/
def execPmk (h : Hdr) (clr : Bool) (d a : Reg) (s : State) : Host.Outcome State Fault Refusal :=
  onUnit s fun f =>
    let m := Frame.part f h
    let core := s.coreOf f.g
    let k := (s.rdU f a 1).toNat % 256
    let c := s.core core
    let v := if k < counterCount then FMap.getD c.ctr.vals k 0 else 0
    if m == 0 then s.advance f
    else if !(s.ctx (s.ctxOf f.g)).bit 8 then s.fault f f.u.am .protection
    else
      let s := if clr then s.setCore core { c with ctr := { c.ctr with vals := FMap.erase c.ctr.vals k } } else s
      s.finish f (info (.pmk h clr d a)) (destWrites f d 2 m (uniform (BitVec.ofNat 64 v))) 0 .overflow

/-! ### Counters (R365 to R367) -/

/-- Add to a 48-bit counter. -/
def counterAdd (vals : FMap Nat) (k n : Nat) : FMap Nat :=
  if n = 0 then vals else FMap.set vals k ((FMap.getD vals k 0 + n) % 2 ^ 48)

/-- Signal code of a slot (R365). -/
def Counters.code (c : Counters) (slot : Nat) : Nat :=
  ((vget c.sel (slot / 8 % 4) (Nat.mod_lt _ (by decide))).extractLsb' (8 * (slot % 8)) 8).toNat

/-- Value of a slot in the clock that ends (R365). -/
def Counters.slotValue (c : Counters) (slot : Nat) : Nat := min 255 (FMap.getD c.sig (c.code slot) 0)

/-- The signals that exist (R365). -/
def signalCode (n : Nat) : Bool := decide (n ≤ 0x1E) || decide (0x20 ≤ n ∧ n ≤ 0x27)

/-- Input k of a derived event is true (R366). -/
def Counters.input (c : Counters) (cfg : DWord) (k : Nat) : Bool :=
  (c.slotValue ((cfg.extractLsb' (5 * k) 5).toNat) != 0) != cfg.getLsbD (34 + k)

/-- Input k is enabled. -/
def inputUsed (cfg : DWord) (k : Nat) : Bool := cfg.getLsbD (30 + k)

/-- G: the AND of the enabled inputs, or of those but input 0 (R366). -/
def Counters.allTrue (c : Counters) (cfg : DWord) (from_ : Nat) : Bool :=
  (List.range 4).all fun k => decide (k < from_) || !inputUsed cfg k || c.input cfg k

/-- First bin of a histogram that holds a run (R366). -/
def histBin (cfg bounds : DWord) (run : Nat) : Nat :=
  ((List.range 7).find? fun b =>
    decide (run ≤ (bounds.extractLsb' (8 * b) 8).toNat * 2 ^ (cfg.extractLsb' 40 4).toNat)).getD 7

/-- A derived event at the end of clock clk (R366): it counts where the counters run (R367); how long G has held is followed
in every clock. Before its first clock under a configuration G has held in all: no input was enabled. -/
def Counters.event (clk : Nat) (c : Counters) (e : Nat) : Counters :=
  let cfg := vget c.evA (e % 8) (Nat.mod_lt _ (by decide))
  let bounds := vget c.evB (e % 8) (Nat.mod_lt _ (by decide))
  let g := c.allTrue cfg 0
  let run := FMap.getD c.run e clk
  let op := (cfg.extractLsb' 38 2).toNat
  let first := c.slotValue (cfg.extractLsb' 0 5).toNat
  let hit := match op with
    | 0 => g
    | 1 => g && run == 0
    | 2 => decide ((cfg.extractLsb' 48 16).toNat ≤ first) && c.allTrue cfg 1
    | _ => !g && run != 0
  let vals := if c.ctl && hit then counterAdd c.vals (32 + e) 1 else c.vals
  let vals := if c.ctl && op == 3 && hit then counterAdd vals (40 + 8 * e + histBin cfg bounds run) 1 else vals
  { c with vals := vals, run := FMap.set c.run e (if g then run + 1 else 0) }

/-- What the end of clock clk does to a core's counters (R365 to R367). -/
def Counters.clock (c0 : Counters) (clk : Nat) : Counters :=
  let sig := FMap.set (c0.sig.filter fun x => signalCode x.1) 1 1
  let c := { c0 with sig := sig }
  let vals := if c.ctl then (List.range 32).foldl (fun v k => counterAdd v k (c.slotValue k)) c.vals else c.vals
  { (List.range 8).foldl (Counters.event clk) { c with vals := vals } with sig := [] }

/-- The counters look at signals: they run, or an event has an input (R366, R367). -/
def Counters.watch (c : Counters) : Bool := c.ctl || c.evA.any fun cfg => cfg.extractLsb' 30 4 != 0

/-- `COUNTER_CLEAR` (R367). -/
def execCounterClear (core : Nat) (s : State) : Host.Outcome State Fault Refusal :=
  let c := s.core core
  .next (s.setCore core { c with ctr := { c.ctr with vals := [] } })

/-! ### Samples (R368) -/

/-- `SAMPLE_RECORD` (R368): the oldest completed sample's record is written. -/
def execSampleRecord (c : Nat) (s : State) : Host.Outcome State Fault Refusal :=
  .next <| match (s.ctx c).samples with
  | [] => s
  | x :: rest => (s.setCtx c { s.ctx c with samples := rest }).trace c x.who 2 0xFF 0 0 x.pc x.clk x.tail

end Sys2Proof.Machine
end

