-- ==== Sys2Proof/Machine/FloatOps.lean ====
section
/-! DEFINITION. Major 0x1: floating point (R160 to R166). -/

namespace Sys2Proof.Machine

/-- `fadd` (R160, R161). -/
def execFadd (h : Hdr) (ty : Ty) (rm : Rm) (ov : Ov) (d a b : Reg) (s : State) : Host.Outcome State Fault Refusal :=
  laneWord (info (.fadd h ty rm ov d a b)) s d 1 fun x => fltAdd ty rm ov (x.rd a 1) (x.rd b 1)

/-- `fsub` (R160, R161). -/
def execFsub (h : Hdr) (ty : Ty) (rm : Rm) (ov : Ov) (d a b : Reg) (s : State) : Host.Outcome State Fault Refusal :=
  laneWord (info (.fsub h ty rm ov d a b)) s d 1 fun x => fltSub ty rm ov (x.rd a 1) (x.rd b 1)

/-- `fmul` (R160, R161). -/
def execFmul (h : Hdr) (ty : Ty) (rm : Rm) (ov : Ov) (d a b : Reg) (s : State) : Host.Outcome State Fault Refusal :=
  laneWord (info (.fmul h ty rm ov d a b)) s d 1 fun x => fltMul ty rm ov (x.rd a 1) (x.rd b 1)

/-- `fdiv` (R160, R161). -/
def execFdiv (h : Hdr) (ty : Ty) (rm : Rm) (ov : Ov) (d a b : Reg) (s : State) : Host.Outcome State Fault Refusal :=
  laneWord (info (.fdiv h ty rm ov d a b)) s d 1 fun x => fltDiv ty rm ov (x.rd a 1) (x.rd b 1)

/-- `ffma`: one rounding (R160, R161). -/
def execFfma (h : Hdr) (ty : Ty) (rm : Rm) (ov : Ov) (d a b c : Reg) (s : State) : Host.Outcome State Fault Refusal :=
  laneWord (info (.ffma h ty rm ov d a b c)) s d 1 fun x => fltFma ty rm ov (x.rd a 1) (x.rd b 1) (x.rd c 1)

/-- `fmin` (R163). -/
def execFmin (h : Hdr) (ty : Ty) (d a b : Reg) (s : State) : Host.Outcome State Fault Refusal :=
  laneWord (info (.fmin h ty d a b)) s d 1 fun x => fltMin ty (x.rd a 1) (x.rd b 1)

/-- `fmax` (R163). -/
def execFmax (h : Hdr) (ty : Ty) (d a b : Reg) (s : State) : Host.Outcome State Fault Refusal :=
  laneWord (info (.fmax h ty d a b)) s d 1 fun x => fltMax ty (x.rd a 1) (x.rd b 1)

/-- `fcmp` (R164). -/
def execFcmp (h : Hdr) (cc : Fcc) (ty : Ty) (pd : PReg) (a b : Reg) (s : State) : Host.Outcome State Fault Refusal :=
  predWord (info (.fcmp h cc ty pd a b)) s pd fun x => fltCmp cc ty (x.rd a 1) (x.rd b 1)

/-- `frcp` (R162). -/
def execFrcp (h : Hdr) (ty : Ty) (rm : Rm) (ov : Ov) (d a : Reg) (s : State) : Host.Outcome State Fault Refusal :=
  laneWord (info (.frcp h ty rm ov d a)) s d 1 fun x => fltRcp ty rm ov (x.rd a 1)

/-- `fex2` (R162). -/
def execFex2 (h : Hdr) (ty : Ty) (rm : Rm) (ov : Ov) (d a : Reg) (s : State) : Host.Outcome State Fault Refusal :=
  laneWord (info (.fex2 h ty rm ov d a)) s d 1 fun x => fltEx2 ty rm ov (x.rd a 1)

/-- `frsq` (R162). -/
def execFrsq (h : Hdr) (ty : Ty) (rm : Rm) (d a : Reg) (s : State) : Host.Outcome State Fault Refusal :=
  laneWord (info (.frsq h ty rm d a)) s d 1 fun x => fltRsq ty rm (x.rd a 1)

/-- `fsqrt` (R162). -/
def execFsqrt (h : Hdr) (ty : Ty) (rm : Rm) (d a : Reg) (s : State) : Host.Outcome State Fault Refusal :=
  laneWord (info (.fsqrt h ty rm d a)) s d 1 fun x => fltSqrt ty rm (x.rd a 1)

/-- `flg2` (R162). -/
def execFlg2 (h : Hdr) (ty : Ty) (rm : Rm) (d a : Reg) (s : State) : Host.Outcome State Fault Refusal :=
  laneWord (info (.flg2 h ty rm d a)) s d 1 fun x => fltLg2 ty rm (x.rd a 1)

/-- `frnd` (R162). -/
def execFrnd (h : Hdr) (ty : Ty) (rm : Rm) (d a : Reg) (s : State) : Host.Outcome State Fault Refusal :=
  laneWord (info (.frnd h ty rm d a)) s d 1 fun x => fltRnd ty rm (x.rd a 1)

/-- `fclass` (R166). -/
def execFclass (h : Hdr) (ty : Ty) (d a : Reg) (s : State) : Host.Outcome State Fault Refusal :=
  laneWord (info (.fclass h ty d a)) s d 1 fun x => (fltClass ty (x.rd a 1), false)

end Sys2Proof.Machine
end

