-- ==== Sys2Proof/Machine/MemOps.lean ====
section
/-! DEFINITION. Majors 0x5 and 0x6: loads, stores, tile accesses, prefetch, atomics, reservations, full/empty lines,
barriers and stream queries (R102 to R127). -/

namespace Sys2Proof.Machine

/-! ### Addresses (R78, R105, R112) -/

/-- Tile record of a gang. -/
def Gang.record (g : Gang) (n : Nat) : BitVec 256 := vget g.tile (n % 16) (Nat.mod_lt _ (by decide))

/-- Base of an address (R28, R78): the `vbase` of a record or a scalar pair. -/
def State.addrBase (s : State) (f : Frame) (ad : Addr) : DWord :=
  if ad.base.toNat < 16 then (f.g.record ad.base.toNat).extractLsb' 0 64
  else s.rdU f (BitVec.ofNat 8 (0xC0 + ad.base.toNat - 16)) 2

/-- Effective address of a lane: base + X + OFS × size, modulo 2^64 (R78). -/
def State.ea (s : State) (f : Frame) (ad : Addr) (size l : Nat) : DWord :=
  s.addrBase f ad + (s.rdReg f ad.x l).setWidth 64 + ad.ofs.signExtend 64 * BitVec.ofNat 64 size

/-- What a lane's address step gives: an address, no access (R112), or a fault before the address is checked. -/
inductive LaneEa where
  | ea (a : DWord)
  | zero
  | fault (c : Cause) (a : DWord)
  deriving DecidableEq, Repr, Inhabited

/-- Element size of a record (R110). -/
def recordSize (t : BitVec 256) : Nat := 2 ^ (min (t.extractLsb' 192 8).toNat 4)

/-- An index under a record's mode (R112). -/
def tileIndex (bmode : Nat) (i : Int) (cnt : Nat) : Int :=
  if bmode = 2 then min (max i 0) ((cnt : Int) - 1)
  else if bmode = 3 then (if cnt = 0 then i else i % (cnt : Int))
  else i

/-- The element address of `ldt` and `stt` (R112). -/
def tileEa (t : BitVec 256) (x : Word) (ofs : BitVec 6) : LaneEa :=
  let bmode := (t.extractLsb' 200 2).toNat
  let c1 := (t.extractLsb' 202 16).toNat
  let c2 := (t.extractLsb' 218 16).toNat
  let i := tileIndex bmode ((x.extractLsb' 0 16).toInt + ofs.toInt) c1
  let j := tileIndex bmode (x.extractLsb' 16 16).toInt c2
  let off : Int := i * (t.extractLsb' 128 32).toInt + j * (t.extractLsb' 160 32).toInt
  let a : DWord := t.extractLsb' 0 64 + BitVec.ofInt 64 off
  let inside := decide (0 ≤ i ∧ i < c1 ∧ 0 ≤ j ∧ j < c2 ∧ 0 ≤ off ∧ off + recordSize t ≤ (t.extractLsb' 64 40).toNat)
  if inside then .ea a else if bmode = 1 then .zero else .fault .bufferBounds a

/-- How an instruction's addresses are checked and used. -/
structure Form where
  /-- bytes the bound counts, alignment (1: none), whether the page must be writable, windows -/
  size : Nat
  align : Nat
  write : Bool := false
  win : WinRule := .any
  /-- one access for the gang -/
  once : Bool := false
  deriving DecidableEq, Repr, Inhabited

/-- What the checks of R105 gave: places by lane, lanes that touch nothing, failing and parked lanes, and whether some
lane named the system window. -/
structure Checked where
  places : List (Nat × Loc × DWord) := []
  still : Mask := 0
  hits : List Hit := []
  parks : List (Nat × Nat × Nat) := []
  system : Bool := false
  deriving DecidableEq, Repr, Inhabited

/-- A mask of one lane. -/
def oneLane (l : Nat) : Mask := maskOf fun k => k == l

/-- Check one lane; its outcome holds for the lanes of `who`. -/
def State.checkLane (s : State) (f : Frame) (fm : Form) (who : Mask) (l : Nat) (e : LaneEa) (c : Checked) : Checked × State :=
  match e with
  | .zero => ({ c with still := c.still ||| who }, s)
  | .fault k a => ({ c with hits := c.hits ++ (lanesOf who).map fun w => ⟨w, k, a⟩ }, s)
  | .ea a =>
    let sys := c.system || regionOf a.toNat == .system
    let r : AddrRes × State := match s.teamOf f.g with
      | none => (.fault .protection, s)
      | some t => s.resolve f.g.team t a.toNat fm.size fm.align fm.write fm.win
    match r with
    | (.loc p, s) => ({ c with places := c.places ++ [(l, p, a)], still := c.still ||| who, system := sys }, s)
    | (.fault k, s) => ({ c with hits := c.hits ++ (lanesOf who).map fun w => ⟨w, k, a⟩, system := sys }, s)
    | (.park pg lv, s) => ({ c with parks := c.parks ++ (lanesOf who).map fun w => (w, pg, lv), system := sys }, s)

/-- Check the lanes that take part, in ascending order (R105); a uniform address is checked once for all. -/
def State.checkLanes (s : State) (f : Frame) (fm : Form) (m : Mask) (ea : Nat → LaneEa) : Checked × State :=
  if fm.once then
    match lowest m with
    | none => ({}, s)
    | some l => s.checkLane f fm m l (ea l) {}
  else (lanesOf m).foldl (fun (c, s) l => State.checkLane s f fm (oneLane l) l (ea l) c) (({} : Checked), s)

/-- Scope of an access (R106). -/
def accScope (o : Ord) (a : DWord) : Scope := if regionOf a.toNat == .system then .system else o.sc

/-- Offsets and sizes of the pieces of an access: single-copy atomic halves of 8 bytes (R86). -/
def pieces (size : Nat) : List (Nat × Nat) :=
  if size ≤ 8 then [(0, size)] else (List.range (size / 8)).map fun k => (8 * k, 8)

/-- The accesses of the checked lanes; `data` gives the bytes a lane hands over. -/
def Checked.accesses (c : Checked) (o : Ord) (ps : List (Nat × Nat)) (data : Nat → List Byte) : List Access :=
  c.places.flatMap fun (l, p, a) => ps.map fun (ofs, n) =>
    { lane := l, ofs := ofs, loc := p.add ofs, size := n, sc := accScope o a, data := ((data l).drop ofs |>.take n).map some
      ea := a, remote := regionOf a.toNat == .system }

/-- A higher lane of the instruction writes the byte (R108, R120). -/
def overwritten (accs : List Access) (lane : Nat) (p : Loc) : Bool :=
  accs.any fun b => decide (lane < b.lane) && (List.range b.data.length).any fun j => b.loc.add j == p

/-- Each byte is written by the highest lane that names it. -/
def ownBytes (accs : List Access) : List Access :=
  accs.map fun a =>
    let own (x : Option Byte × Nat) : Option Byte := if overwritten accs a.lane (a.loc.add x.2) then none else x.1
    { a with data := a.data.zipIdx.map own }

/-- Bytes of k registers of a lane from D on. -/
def State.regBytes (s : State) (f : Frame) (d : Reg) (k l : Nat) : List Byte :=
  (List.range k).flatMap fun j => leBytes 4 (s.rdReg f (Reg.next d j) l).toNat

/-! ### Loads -/

/-- A load (R107, R109, R116). -/
def loadWord (i : Info) (d : Reg) (ad : Addr) (size : Nat) (signed ro once rsv : Bool) (s : State) :
    Host.Outcome State Fault Refusal :=
  onUnit s fun f =>
    let fm : Form := { size := size, align := size, win := if rsv then .never else .any, once := once }
    let (c, s) := s.checkLanes f fm (Frame.part f i.hdr) fun l => .ea (s.ea f ad size l)
    s.issueOp f i ad.ord
      { kind := .load d size signed ro once rsv, lanes := c.still, accs := c.accesses ad.ord (pieces size) fun _ => []
        hits := c.hits, parks := c.parks, stop := c.system }

/-- A store (R108). -/
def storeWord (i : Info) (d : Reg) (ad : Addr) (size : Nat) (s : State) : Host.Outcome State Fault Refusal :=
  onUnit s fun f =>
    let fm : Form := { size := size, align := size, write := true }
    let (c, s) := s.checkLanes f fm (Frame.part f i.hdr) fun l => .ea (s.ea f ad size l)
    s.issueOp f i ad.ord
      { kind := .store, lanes := c.still
        accs := ownBytes (c.accesses ad.ord (pieces size) fun l => (s.regBytes f d (regsOf size) l).take size)
        hits := c.hits, parks := c.parks }

/-- `ld.n8` (R107). -/
def execLdN8 (h : Hdr) (d : Reg) (ad : Addr) (ro : Bool) (s : State) : Host.Outcome State Fault Refusal :=
  loadWord (info (.ldN8 h d ad ro)) d ad 1 false ro d.isS false s
/-- `ld.n16` (R107). -/
def execLdN16 (h : Hdr) (d : Reg) (ad : Addr) (ro : Bool) (s : State) : Host.Outcome State Fault Refusal :=
  loadWord (info (.ldN16 h d ad ro)) d ad 2 false ro d.isS false s
/-- `ld.32` (R107). -/
def execLd32 (h : Hdr) (d : Reg) (ad : Addr) (ro : Bool) (s : State) : Host.Outcome State Fault Refusal :=
  loadWord (info (.ld32 h d ad ro)) d ad 4 false ro d.isS false s
/-- `ld.64` (R107). -/
def execLd64 (h : Hdr) (d : Reg) (ad : Addr) (ro : Bool) (s : State) : Host.Outcome State Fault Refusal :=
  loadWord (info (.ld64 h d ad ro)) d ad 8 false ro d.isS false s
/-- `ld.128` (R107). -/
def execLd128 (h : Hdr) (d : Reg) (ad : Addr) (ro : Bool) (s : State) : Host.Outcome State Fault Refusal :=
  loadWord (info (.ld128 h d ad ro)) d ad 16 false ro d.isS false s
/-- `ld.i8` (R107). -/
def execLdI8 (h : Hdr) (d : Reg) (ad : Addr) (ro : Bool) (s : State) : Host.Outcome State Fault Refusal :=
  loadWord (info (.ldI8 h d ad ro)) d ad 1 true ro d.isS false s
/-- `ld.i16` (R107). -/
def execLdI16 (h : Hdr) (d : Reg) (ad : Addr) (ro : Bool) (s : State) : Host.Outcome State Fault Refusal :=
  loadWord (info (.ldI16 h d ad ro)) d ad 2 true ro d.isS false s

/-- `st.8` (R108). -/
def execSt8 (h : Hdr) (d : Reg) (ad : Addr) (s : State) : Host.Outcome State Fault Refusal :=
  storeWord (info (.st8 h d ad)) d ad 1 s
/-- `st.16` (R108). -/
def execSt16 (h : Hdr) (d : Reg) (ad : Addr) (s : State) : Host.Outcome State Fault Refusal :=
  storeWord (info (.st16 h d ad)) d ad 2 s
/-- `st.32` (R108). -/
def execSt32 (h : Hdr) (d : Reg) (ad : Addr) (s : State) : Host.Outcome State Fault Refusal :=
  storeWord (info (.st32 h d ad)) d ad 4 s
/-- `st.64` (R108). -/
def execSt64 (h : Hdr) (d : Reg) (ad : Addr) (s : State) : Host.Outcome State Fault Refusal :=
  storeWord (info (.st64 h d ad)) d ad 8 s
/-- `st.128` (R108). -/
def execSt128 (h : Hdr) (d : Reg) (ad : Addr) (s : State) : Host.Outcome State Fault Refusal :=
  storeWord (info (.st128 h d ad)) d ad 16 s

/-- `ldc.32`: once per gang, on the read-only path (R109). -/
def execLdc32 (h : Hdr) (d : Reg) (ad : Addr) (s : State) : Host.Outcome State Fault Refusal :=
  loadWord (info (.ldc32 h d ad)) d ad 4 false true true false s
/-- `ldc.64` (R109). -/
def execLdc64 (h : Hdr) (d : Reg) (ad : Addr) (s : State) : Host.Outcome State Fault Refusal :=
  loadWord (info (.ldc64 h d ad)) d ad 8 false true true false s
/-- `ldc.128` (R109). -/
def execLdc128 (h : Hdr) (d : Reg) (ad : Addr) (s : State) : Host.Outcome State Fault Refusal :=
  loadWord (info (.ldc128 h d ad)) d ad 16 false true true false s

/-! ### Tile records (R110 to R112) -/

/-- `trec`: 32 bytes from a uniform address into a record (R111). -/
def execTrec (h : Hdr) (t : BitVec 4) (ad : Addr) (s : State) : Host.Outcome State Fault Refusal :=
  onUnit s fun f =>
    let i := info (.trec h t ad)
    let fm : Form := { size := 32, align := 32, once := true }
    let (c, s) := s.checkLanes f fm (Frame.part f h) fun l => .ea (s.ea f ad 32 l)
    s.issueOp f i ad.ord
      { kind := .trec t, lanes := c.still, accs := c.accesses ad.ord (pieces 32) fun _ => [], hits := c.hits, parks := c.parks }

/-- The cause of an element size that D cannot hold (R104): an odd D, or registers beyond the window (R36). -/
def State.tileBad (s : State) (f : Frame) (d : Reg) (size : Nat) : Option Cause :=
  let k := regsOf size
  let hd := s.execHeader f
  if d.isZero then none
  else if 1 < k ∧ !d.isEven then some .illegal
  else if d.isV && decide (hd.elim 192 (·.regs) < d.toNat + k) then some .window
  else if d.isS && decide (hd.elim 48 (·.scalars) < d.toNat - 0xC0 + k) then some .window
  else none

/-- Record of a tile access. -/
def Frame.tileOf (f : Frame) (ad : Addr) : BitVec 256 := f.g.record ad.base.toNat

/-- Registers of an element of a tile access. -/
def Frame.tileRegs (f : Frame) (ad : Addr) : Nat := regsOf (recordSize (f.tileOf ad))

/-- What a word reads and writes in a unit: the table, with the registers of an element that its record sizes (R112), and
the C range of an `mma` in its troupe, which it reads unless Z = 1 (R265, R273, R275). -/
def Frame.infoOf (f : Frame) (i : Instr) : Info :=
  let x := info i
  match i with
  | .ldt _ d ad => { x with wr := Operand.spans [(d, f.tileRegs ad)] }
  | .stt _ d ad => { x with rd := Operand.spans ((d, f.tileRegs ad) :: Operand.addrRd ad) }
  | .mma _ _ _ _ _ z _ _ c _ =>
    let range : Span := (c, min (8 * trpCount f.g.trp) (192 - c.toNat))
    { x with rd := if z then x.rd else x.rd ++ [range], wr := [range] }
  | _ => x

/-- `ldt` (R112). -/
def execLdt (h : Hdr) (d : Reg) (ad : Addr) (s : State) : Host.Outcome State Fault Refusal :=
  onUnit s fun f =>
    let t := f.tileOf ad
    let n := recordSize t
    match s.tileBad f d n with
    | some k => s.fault f f.u.am k
    | none =>
      let fm : Form := { size := n, align := n, once := d.isS }
      let (c, s) := s.checkLanes f fm (Frame.part f h) fun l => tileEa t (s.rdReg f ad.x l) ad.ofs
      s.issueOp f (f.infoOf (.ldt h d ad)) ad.ord
        { kind := .load d n false false d.isS false, lanes := c.still, accs := c.accesses ad.ord (pieces n) fun _ => []
          hits := c.hits, parks := c.parks, stop := c.system }

/-- `stt` (R112). -/
def execStt (h : Hdr) (d : Reg) (ad : Addr) (s : State) : Host.Outcome State Fault Refusal :=
  onUnit s fun f =>
    let t := f.tileOf ad
    let n := recordSize t
    match s.tileBad f d n with
    | some k => s.fault f f.u.am k
    | none =>
      let fm : Form := { size := n, align := n, write := true }
      let (c, s) := s.checkLanes f fm (Frame.part f h) fun l => tileEa t (s.rdReg f ad.x l) ad.ofs
      s.issueOp f (f.infoOf (.stt h d ad)) ad.ord
        { kind := .store, lanes := c.still
          accs := ownBytes (c.accesses ad.ord (pieces n) fun l => (s.regBytes f d (regsOf n) l).take n)
          hits := c.hits, parks := c.parks }

/-- `pf`: no register, no fault, no record (R113). -/
def execPf (h : Hdr) (ad : Addr) (s : State) : Host.Outcome State Fault Refusal :=
  onUnit s fun f => s.issueOp f (info (.pf h ad)) ad.ord { kind := .pf, lanes := Frame.part f h }

/-! ### Full/empty lines (R119 to R121) -/

/-- `ldk` (R120): it stops the gang. -/
def execLdk (h : Hdr) (d : Reg) (ad : Addr) (s : State) : Host.Outcome State Fault Refusal :=
  onUnit s fun f =>
    let fm : Form := { size := 16, align := 16, win := .only }
    let (c, s) := s.checkLanes f fm (Frame.part f h) fun l => .ea (s.ea f ad 16 l)
    s.issueOp f (info (.ldk h d ad)) ad.ord
      { kind := .ldk d, lanes := c.still, accs := c.accesses ad.ord [(0, 16)] fun _ => [], hits := c.hits, parks := c.parks
        stop := true }

/-- `stf` (R120): it stops the gang. -/
def execStf (h : Hdr) (d : Reg) (ad : Addr) (s : State) : Host.Outcome State Fault Refusal :=
  onUnit s fun f =>
    let fm : Form := { size := 16, align := 16, write := true, win := .only }
    let (c, s) := s.checkLanes f fm (Frame.part f h) fun l => .ea (s.ea f ad 16 l)
    s.issueOp f (info (.stf h d ad)) ad.ord
      { kind := .stf, lanes := c.still, accs := ownBytes (c.accesses ad.ord [(0, 16)] fun l => s.regBytes f d 4 l)
        hits := c.hits, parks := c.parks, stop := true }

/-- `fes`, `fec` and `fet`: the line of an address in a window, which need not be aligned (R105, R119, R121). -/
def lineWord (i : Info) (ad : Addr) (k : OpKind) (s : State) : Host.Outcome State Fault Refusal :=
  onUnit s fun f =>
    let fm : Form := { size := 128, align := 1, win := .only }
    let (c, s) := s.checkLanes f fm (Frame.part f i.hdr) fun l => .ea (s.ea f ad 128 l)
    s.issueOp f i ad.ord
      { kind := k, lanes := c.still, accs := c.accesses ad.ord [(0, 1)] fun _ => [], hits := c.hits, parks := c.parks }

/-- `fes` (R121). -/
def execFes (h : Hdr) (ad : Addr) (s : State) : Host.Outcome State Fault Refusal := lineWord (info (.fes h ad)) ad .fes s
/-- `fec` (R121). -/
def execFec (h : Hdr) (ad : Addr) (s : State) : Host.Outcome State Fault Refusal := lineWord (info (.fec h ad)) ad .fec s
/-- `fet` (R121). -/
def execFet (h : Hdr) (pd : PReg) (ad : Addr) (s : State) : Host.Outcome State Fault Refusal :=
  lineWord (info (.fet h pd ad)) ad (.fet pd) s

/-! ### Reservations and atomics (R114 to R118) -/

/-- `ldr.32` (R116). -/
def execLdr32 (h : Hdr) (d : Reg) (ad : Addr) (s : State) : Host.Outcome State Fault Refusal :=
  loadWord (info (.ldr32 h d ad)) d ad 4 false false false true s
/-- `ldr.64` (R116). -/
def execLdr64 (h : Hdr) (d : Reg) (ad : Addr) (s : State) : Host.Outcome State Fault Refusal :=
  loadWord (info (.ldr64 h d ad)) d ad 8 false false false true s

/-- A store-conditional (R116). -/
def stcWord (i : Info) (d : Reg) (ad : Addr) (size : Nat) (s : State) : Host.Outcome State Fault Refusal :=
  onUnit s fun f =>
    let fm : Form := { size := size, align := size, write := true, win := .never }
    let (c, s) := s.checkLanes f fm (Frame.part f i.hdr) fun l => .ea (s.ea f ad size l)
    s.issueOp f i ad.ord
      { kind := .stc d, lanes := c.still, accs := c.accesses ad.ord [(0, size)] fun l => s.regBytes f d (size / 4) l
        hits := c.hits, parks := c.parks }

/-- `stc.32` (R116). -/
def execStc32 (h : Hdr) (d : Reg) (ad : Addr) (s : State) : Host.Outcome State Fault Refusal :=
  stcWord (info (.stc32 h d ad)) d ad 4 s
/-- `stc.64` (R116). -/
def execStc64 (h : Hdr) (d : Reg) (ad : Addr) (s : State) : Host.Outcome State Fault Refusal :=
  stcWord (info (.stc64 h d ad)) d ad 8 s

/-- An access with all the bytes a lane hands over. -/
def Access.carry (data : Nat → List Byte) (a : Access) : Access := { a with data := (data a.lane).map some }

/-- An atomic (R114, R115): `k` registers of operands from D on. -/
def atomicWord (i : Info) (op : AtmOp) (d : Reg) (ad : Addr) (size k : Nat) (s : State) : Host.Outcome State Fault Refusal :=
  onUnit s fun f =>
    let fm : Form := { size := size, align := size, write := true }
    let (c, s) := s.checkLanes f fm (Frame.part f i.hdr) fun l => .ea (s.ea f ad size l)
    s.issueOp f i ad.ord
      { kind := .atomic op d, lanes := c.still
        accs := (c.accesses ad.ord [(0, size)] fun _ => []).map (Access.carry fun l => s.regBytes f d k l)
        hits := c.hits, parks := c.parks }

/-- `atm.add.32` (R115). -/
def execAtmAdd32 (h : Hdr) (d : Reg) (ad : Addr) (s : State) : Host.Outcome State Fault Refusal :=
  atomicWord (info (.atmAdd32 h d ad)) .add d ad 4 1 s
/-- `atm.sub.32` (R115). -/
def execAtmSub32 (h : Hdr) (d : Reg) (ad : Addr) (s : State) : Host.Outcome State Fault Refusal :=
  atomicWord (info (.atmSub32 h d ad)) .sub d ad 4 1 s
/-- `atm.min.32` (R115). -/
def execAtmMin32 (h : Hdr) (d : Reg) (ad : Addr) (s : State) : Host.Outcome State Fault Refusal :=
  atomicWord (info (.atmMin32 h d ad)) .min d ad 4 1 s
/-- `atm.max.32` (R115). -/
def execAtmMax32 (h : Hdr) (d : Reg) (ad : Addr) (s : State) : Host.Outcome State Fault Refusal :=
  atomicWord (info (.atmMax32 h d ad)) .max d ad 4 1 s
/-- `atm.and.32` (R115). -/
def execAtmAnd32 (h : Hdr) (d : Reg) (ad : Addr) (s : State) : Host.Outcome State Fault Refusal :=
  atomicWord (info (.atmAnd32 h d ad)) .and d ad 4 1 s
/-- `atm.or.32` (R115). -/
def execAtmOr32 (h : Hdr) (d : Reg) (ad : Addr) (s : State) : Host.Outcome State Fault Refusal :=
  atomicWord (info (.atmOr32 h d ad)) .or d ad 4 1 s
/-- `atm.xor.32` (R115). -/
def execAtmXor32 (h : Hdr) (d : Reg) (ad : Addr) (s : State) : Host.Outcome State Fault Refusal :=
  atomicWord (info (.atmXor32 h d ad)) .xor d ad 4 1 s
/-- `atm.xchg.32` (R115). -/
def execAtmXchg32 (h : Hdr) (d : Reg) (ad : Addr) (s : State) : Host.Outcome State Fault Refusal :=
  atomicWord (info (.atmXchg32 h d ad)) .xchg d ad 4 1 s
/-- `atm.fadd.32` (R115). -/
def execAtmFadd32 (h : Hdr) (d : Reg) (ad : Addr) (s : State) : Host.Outcome State Fault Refusal :=
  atomicWord (info (.atmFadd32 h d ad)) .fadd d ad 4 1 s
/-- `atm.cas.32` (R115). -/
def execAtmCas32 (h : Hdr) (d : Reg) (ad : Addr) (s : State) : Host.Outcome State Fault Refusal :=
  atomicWord (info (.atmCas32 h d ad)) .cas d ad 4 2 s
/-- `atm.min, unsigned.32` (R115). -/
def execAtmMinu32 (h : Hdr) (d : Reg) (ad : Addr) (s : State) : Host.Outcome State Fault Refusal :=
  atomicWord (info (.atmMinu32 h d ad)) .minu d ad 4 1 s
/-- `atm.max, unsigned.32` (R115). -/
def execAtmMaxu32 (h : Hdr) (d : Reg) (ad : Addr) (s : State) : Host.Outcome State Fault Refusal :=
  atomicWord (info (.atmMaxu32 h d ad)) .maxu d ad 4 1 s
/-- `atm.add.64` (R115). -/
def execAtmAdd64 (h : Hdr) (d : Reg) (ad : Addr) (s : State) : Host.Outcome State Fault Refusal :=
  atomicWord (info (.atmAdd64 h d ad)) .add d ad 8 2 s
/-- `atm.sub.64` (R115). -/
def execAtmSub64 (h : Hdr) (d : Reg) (ad : Addr) (s : State) : Host.Outcome State Fault Refusal :=
  atomicWord (info (.atmSub64 h d ad)) .sub d ad 8 2 s
/-- `atm.min.64` (R115). -/
def execAtmMin64 (h : Hdr) (d : Reg) (ad : Addr) (s : State) : Host.Outcome State Fault Refusal :=
  atomicWord (info (.atmMin64 h d ad)) .min d ad 8 2 s
/-- `atm.max.64` (R115). -/
def execAtmMax64 (h : Hdr) (d : Reg) (ad : Addr) (s : State) : Host.Outcome State Fault Refusal :=
  atomicWord (info (.atmMax64 h d ad)) .max d ad 8 2 s
/-- `atm.and.64` (R115). -/
def execAtmAnd64 (h : Hdr) (d : Reg) (ad : Addr) (s : State) : Host.Outcome State Fault Refusal :=
  atomicWord (info (.atmAnd64 h d ad)) .and d ad 8 2 s
/-- `atm.or.64` (R115). -/
def execAtmOr64 (h : Hdr) (d : Reg) (ad : Addr) (s : State) : Host.Outcome State Fault Refusal :=
  atomicWord (info (.atmOr64 h d ad)) .or d ad 8 2 s
/-- `atm.xor.64` (R115). -/
def execAtmXor64 (h : Hdr) (d : Reg) (ad : Addr) (s : State) : Host.Outcome State Fault Refusal :=
  atomicWord (info (.atmXor64 h d ad)) .xor d ad 8 2 s
/-- `atm.xchg.64` (R115). -/
def execAtmXchg64 (h : Hdr) (d : Reg) (ad : Addr) (s : State) : Host.Outcome State Fault Refusal :=
  atomicWord (info (.atmXchg64 h d ad)) .xchg d ad 8 2 s
/-- `atm.cas.64` (R115). -/
def execAtmCas64 (h : Hdr) (d : Reg) (ad : Addr) (s : State) : Host.Outcome State Fault Refusal :=
  atomicWord (info (.atmCas64 h d ad)) .cas d ad 8 4 s
/-- `atm.min, unsigned.64` (R115). -/
def execAtmMinu64 (h : Hdr) (d : Reg) (ad : Addr) (s : State) : Host.Outcome State Fault Refusal :=
  atomicWord (info (.atmMinu64 h d ad)) .minu d ad 8 2 s
/-- `atm.max, unsigned.64` (R115). -/
def execAtmMaxu64 (h : Hdr) (d : Reg) (ad : Addr) (s : State) : Host.Outcome State Fault Refusal :=
  atomicWord (info (.atmMaxu64 h d ad)) .maxu d ad 8 2 s

/-! ### Named barriers (R122 to R126) and stream queries (R127) -/

/-- A barrier word: an id the kernel does not declare faults before the word becomes an operation (R122); with no lane
taking part there is no lane to fault, and the operation has no effect (log entry 91). -/
def barWord (i : Info) (o : Ord) (id : BitVec 4) (k : BarKind) (d a : Reg) (stop : Bool) (s : State) :
    Host.Outcome State Fault Refusal :=
  onUnit s fun f =>
    let m := Frame.part f i.hdr
    if (s.headerOf f.g).elim 0 (·.barriers) ≤ id.toNat then
      if m == 0 then s.issueOp f i o { kind := .none, lanes := 0 }
      else (s.advance f).laneFault f.gid f.ui m .barrier f.u.ipc
    else
      let val := (s.rdU f a 1).toNat % 2 ^ 16
      s.issueOp f i o { kind := .bar k id.toNat d val, lanes := m, stop := stop }

/-- `bar.ini` (R123). -/
def execBarIni (h : Hdr) (id : BitVec 4) (a : Reg) (o : Ord) (s : State) : Host.Outcome State Fault Refusal :=
  barWord (info (.barIni h id a o)) o id .ini 0xF0 a false s
/-- `bar.arv` (R123). -/
def execBarArv (h : Hdr) (d : Reg) (id : BitVec 4) (a : Reg) (o : Ord) (s : State) : Host.Outcome State Fault Refusal :=
  barWord (info (.barArv h d id a o)) o id .arv d a false s
/-- `bar.awt` (R123): it stops the gang. -/
def execBarAwt (h : Hdr) (d : Reg) (id : BitVec 4) (a : Reg) (o : Ord) (s : State) : Host.Outcome State Fault Refusal :=
  barWord (info (.barAwt h d id a o)) o id .awt d a true s
/-- `bar.wt` (R123): it stops the gang. -/
def execBarWt (h : Hdr) (id : BitVec 4) (a : Reg) (o : Ord) (s : State) : Host.Outcome State Fault Refusal :=
  barWord (info (.barWt h id a o)) o id .wt 0xF0 a true s
/-- `bar.exp` (R123). -/
def execBarExp (h : Hdr) (id : BitVec 4) (a : Reg) (nxt : Bool) (o : Ord) (s : State) : Host.Outcome State Fault Refusal :=
  barWord (info (.barExp h id a nxt o)) o id (.exp nxt) 0xF0 a false s
/-- `bar.tst` (R123). -/
def execBarTst (h : Hdr) (d : Reg) (id : BitVec 4) (o : Ord) (s : State) : Host.Outcome State Fault Refusal :=
  barWord (info (.barTst h d id o)) o id .tst d 0xF0 false s

/-- `sqry` (R127). -/
def execSqry (h : Hdr) (d : Reg) (n : BitVec 3) (o : Ord) (s : State) : Host.Outcome State Fault Refusal :=
  onUnit s fun f => s.issueOp f (info (.sqry h d n o)) o { kind := .sqry d n.toNat, lanes := Frame.part f h }

end Sys2Proof.Machine
end

