-- ==== Sys2Proof/Machine/Hold.lean ====
section
/-! DEFINITION. What a unit's next word is (R49 to R51, R309) and what holds a unit back (R21, R38, R39, R95, R96, R142,
R143, R371): the units that may take a quadrant's issue decision. -/

namespace Sys2Proof.Machine

/-! ### Fetch and decode -/

/-- What a fetch gives: an instruction, or a page that is not resident (page, level). -/
inductive Fetch where
  | word (i : Instr)
  | page (page level : Nat)
  deriving DecidableEq, Repr, Inhabited

/-- What decode knows of a unit that executes an image: the register counts are those of the header in force (R36,
R66). -/
def State.decodeCtx (s : State) (f : Frame) (x : Image) : DecodeCtx :=
  let h := s.execHeader f
  { core := coreKind (s.coreOf f.g), image := x.kind, hm := f.u.hm
    regs := h.elim 192 (·.regs), scalars := h.elim 48 (·.scalars) }

/-- A core executes an image: its own kind's or Tamut form (R309). -/
def runsImage (k : CoreKind) (x : ImageKind) : Bool := x == .tamut || x == CoreKind.image k

/-- The translation of a fetch, where the code pages are mapped: none where it may go on (R88, R91). -/
def State.fetchPage (s : State) (f : Frame) (v : Version) : Option Fetch × State :=
  match v.codeVa with
  | none => (none, s)
  | some va =>
    let at_ := va + f.u.ipc.toNat
    match s.translate (s.coreOf f.g) (s.ctxOf f.g) at_ with
    | (.fatal, s) => (some (.word (.illegalEncoding .protection)), s)
    | (.pageFault lv, s) => (some (.page (faultPage at_ lv) lv), s)
    | (.leaf e _, s) => (if pteX e then none else some (.word (.illegalEncoding .protection)), s)

/-- The fetch of a unit's next word and its decode (R49, R51, R309). How long a fetch takes the spec does not say: a word is
there at once unless a turn says that it comes later (`State.fetchLate`, R142; log entry 113). -/
def State.fetch (s : State) (f : Frame) : Fetch × State :=
  match s.versionOf f.g with
  | none => (.word (.illegalEncoding .protection), s)
  | some v =>
    match v.imageAt f.u.ipc.toNat with
    | none => (.word (.illegalEncoding .protection), s)
    | some x =>
      if !runsImage (coreKind (s.coreOf f.g)) x.kind then (.word (.illegalEncoding .protection), s)
      else match s.fetchPage f v with
        | (some r, s) => (r, s)
        | (none, s) => (.word (decodeIn (s.decodeCtx f x) (v.word f.u.ipc.toNat)), s)

/-! ### What holds a unit back -/

/-- The stall reason of a unit that is stopped (R21, R103, R371). -/
def State.stopReason (s : State) (u : UnitState) : Option Nat :=
  match u.stop with
  | .run => none
  | .leave | .mleave => some 2
  | .troupe => some 3
  | .regang => some 13
  | .wpark => some 14
  | .migr => some 6
  | .op n => match FMap.get? s.ops n with
    | none => some 8
    | some o =>
      if !o.parts.all (·.performed) then some 8
      else match o.kind with
        | .bar .. => some 4
        | .ldk _ | .stf => some 5
        | _ => some 12

/-- A lane that takes part in a load forms an address in the system window (R81, R103). -/
def State.remoteLoad (s : State) (f : Frame) (h : Hdr) (ad : Addr) (size : Nat) : Bool :=
  (lanesOf (Frame.part f h)).any fun l => regionOf (s.ea f ad size l).toNat == .system

/-- A word that is no memory word of a held queue: it stops the gang (R103). -/
def State.stopsGang (s : State) (f : Frame) (i : Instr) : Bool :=
  let remote := s.remoteLoad f
  match i with
  | .ldk .. | .stf .. | .barAwt .. | .barWt .. => true
  | .ldN8 h _ ad _ | .ldI8 h _ ad _ => remote h ad 1
  | .ldN16 h _ ad _ | .ldI16 h _ ad _ => remote h ad 2
  | .ld32 h _ ad _ | .ldc32 h _ ad | .ldr32 h _ ad => remote h ad 4
  | .ld64 h _ ad _ | .ldc64 h _ ad | .ldr64 h _ ad => remote h ad 8
  | .ld128 h _ ad _ | .ldc128 h _ ad => remote h ad 16
  | .ldt h _ ad => (lanesOf (Frame.part f h)).any fun l =>
      match tileEa (f.tileOf ad) (s.rdReg f ad.x l) ad.ofs with
      | .ea a => regionOf a.toNat == .system
      | _ => false
  | _ => false

/-- Some group's count of a stream would reach 64 (R95). -/
def State.streamFull (s : State) (f : Frame) (o : Ord) : Bool :=
  f.groups.any fun k => decide (Config.streamLimit ≤ (s.outstanding f.gid k o.sn.toNat).length + 1)

/-- A new operation's predecessor mask is not met in a group (R96). -/
def State.pmUnmet (s : State) (f : Frame) (o : Ord) (k : Nat) : Bool :=
  (s.opsOf f.gid).any fun x => o.pm.getLsbD x.2.sn.toNat && x.2.parts.any fun p => p.grp == k && !p.completed

/-- Entries of a group's held queue: parts whose predecessor mask is not met; one that waits for room elsewhere has left
it (R96). -/
def State.heldIn (s : State) (f : Frame) (k : Nat) : Nat :=
  ((s.opsOf f.gid).filter fun x =>
    !f.g.units.any (fun u => u.stop == .op x.1) && !s.masksMet x.1 x.2 k &&
      x.2.parts.any fun p => p.grp == k && !p.performed).length

/-- Instructions with one effect for the gang (R386). -/
def gangWideWord (i : Instr) : Bool :=
  match i with
  | .ldc32 .. | .ldc64 .. | .ldc128 .. | .trec .. | .ldk .. | .stf .. | .cpm .. | .cpc .. | .launch .. | .spawn .. => true
  | .barIni .. | .barArv .. | .barAwt .. | .barWt .. | .barExp .. | .barTst .. => true
  | .ldN8 _ d _ _ | .ldN16 _ d _ _ | .ld32 _ d _ _ | .ld64 _ d _ _ | .ld128 _ d _ _ | .ldI8 _ d _ _ | .ldI16 _ d _ _
  | .ldt _ d _ => d.isS
  | _ => false

/-- The word would enter a held queue that is full (R96). -/
def State.queueFull (s : State) (f : Frame) (i : Instr) (o : Ord) : Bool :=
  let late := f.groups.filter (s.pmUnmet f o)
  let enters := if gangWideWord i && !late.isEmpty then f.groups else late
  !s.stopsGang f i && enters.any fun k => decide (Config.heldQueue ≤ s.heldIn f k)

/-- The word waits until every window has closed (R39). -/
def needsClosed (i : Instr) : Bool :=
  match i with
  | .split .. | .regang _ | .eqp .. | .migr .. => true
  | _ => false

/-- The word opens a window (R38). -/
def State.opensWindow (s : State) (f : Frame) (i : Instr) : Bool :=
  (info i).windowed && coreKind (s.coreOf f.g) == .banner && s.imageKind f != .tamut

/-- A word that would have opened a fifth window waits: the window that was the oldest then is still open (R39). -/
def waitsOldest (f : Frame) : Bool :=
  match f.u.fifth with
  | none => false
  | some (pc, id) => pc == f.u.ipc && f.g.windows.any fun w => w.id == id

/-- An open window holds the word (R38, R39). -/
def State.windowHolds (s : State) (f : Frame) (i : Instr) : Bool :=
  f.g.windows.any (fun w => decide (w.la ≤ w.count)) || (needsClosed i && !f.g.windows.isEmpty) ||
    (s.opensWindow f i && (decide (4 ≤ f.g.windows.length) || waitsOldest f))

/-- The oldest of four open windows, for which a word that would open a fifth waits (R39). -/
def State.oldestWindow (s : State) (f : Frame) (i : Instr) : Option Nat :=
  if s.opensWindow f i && decide (4 ≤ f.g.windows.length) then f.g.windows.head?.map (·.id) else none

/-- The scoreboard holds the word (R143, R273, R275). -/
def State.marked (s : State) (f : Frame) (i : Instr) : Bool :=
  let x := f.infoOf i
  let reads := readLocs f x
  let writes := writeLocs f x
  f.g.marks.any fun m =>
    Mark.holds (s.clock (s.coreOf f.g)) m && (writes.contains m.loc || (!m.soft && reads.contains m.loc))

/-- The stall reason of a word that waits for other operations or registers before it acts (R307, R327, R332, R338), or for
the recompute of another unit's word of its gang (log entry 123). -/
def State.ownWait (s : State) (f : Frame) (i : Instr) : Option Nat :=
  let on (b : Bool) (n : Nat) : Option Nat := if b then some n else none
  match i with
  | .trap h _ _ _ => on (s.trapWaits f h) 8
  | .tres h _ _ => on (s.tagWaits f h) 8
  | .tkill h _ => on (s.tagWaits f h) 8
  | .cclose h => on (!f.g.regions.isEmpty && s.closeWaits f h) 8
  | .orr h c r _ a => on (s.originBusy f h c r a) 10
  | .orw h c r a _ => on (s.originBusy f h c r a) 10
  | .eqp _ n => on (s.eqpWaits f n.toNat) 10
  | .wrsr .. => on (f.g.units.any fun u => u.redo.isSome) 10
  | _ => none

/-- The first stall reason, in the order of R371, that holds a word back: a window before the scoreboard (log entry 97). -/
def State.wordStall (s : State) (f : Frame) (i : Instr) : Option Nat :=
  let x := info i
  let own := s.ownWait f i
  if x.ord.any (s.streamFull f) then some 7
  else if x.ord.any (s.queueFull f i) || own == some 8 then some 8
  else if s.windowHolds f i then some 9
  else if s.marked f i || own == some 10 || (s.clock (s.coreOf f.g) < f.u.nextIssue && !f.u.serial) then some 10
  else if s.clock (s.coreOf f.g) < f.u.nextIssue then some 15
  else none

/-- Lanes that a collective counts and that are not active (R187). -/
def collOutside (f : Frame) (i : Instr) : Mask :=
  let counted : Mask := match i with
    | .regang _ => f.lanes &&& ~~~f.u.xm
    | _ => lowLanes f.g.width &&& ~~~f.g.allOf (·.xm)
  counted &&& ~~~f.u.am

/-- A collective is reached while a counted lane is not active (R187). -/
def collCaught (f : Frame) (i : Instr) : Bool := (info i).coll && collOutside f i != 0

/-- It raises COLL: there is no pass at its PC (R188). -/
def collRaised (f : Frame) (i : Instr) : Bool := collCaught f i && f.u.pass != some f.u.ipc

/-- A handler invocation has issued all its words (R193). -/
def invocationOver (u : UnitState) : Bool := u.hm && decide (Config.handlerWords ≤ u.inv)

/-- A forced rotation takes the unit's next decision; after one the lanes that resumed issue a word first, where some
are left (R193, R200). -/
def rotates (f : Frame) : Bool := f.u.rot || (rotationDue f.g f.u && (!f.u.rotated || f.u.am == 0))

/-- An event is raised at the boundary: none while a forced rotation is due (R185). -/
def raises (f : Frame) : Bool := (dueEvent f).isSome && !rotationDue f.g f.u

/-- The stall reason that holds a unit back; none where it is a candidate (R142). A unit that stands at its word's
recompute waits for its `ipc` (R143, R144); one whose write of `agl` is due, for that (R135). A word that is not fetched yet has no reason in R371's list: 0 stands for one
that is free (log entry 113). -/
def State.stall (s : State) (f : Frame) : Option Nat :=
  if !f.u.hm && (f.u.am ||| f.u.km) == 0 then some 1
  else match s.stopReason f.u with
  | some r => some r
  | none =>
    if f.u.redo.isSome then some 10
    else if f.g.aglNext.any fun x => decide (x.2 ≤ s.clock (s.coreOf f.g)) then some 15
    else if rotates f then none
    else if raises f then (if f.g.windows.isEmpty then none else some 9)
    else if invocationOver f.u || (s.breakpoint f).isSome then none
    else if s.now < f.u.fetchAt then some 0
    else match (s.fetch f).1 with
      | .page _ _ => if f.u.hm then some 10 else none
      | .word i =>
        if collRaised f i then
          (if rotationDue f.g f.u || f.g.windows.isEmpty then none else some 9)
        else s.wordStall f i

/-! ### Candidates (R142, R362) -/

/-- The unit a single step names (R362). -/
def State.stepNames (s : State) (f : Frame) (core : Nat) (x : Ctx) : Bool :=
  (x.stepg.extractLsb' 0 10).toNat == core && f.groups.any fun k => s.gslot f.g k == (x.stepg.extractLsb' 10 9).toNat

/-- The unit's gang may issue at all: its team stands on a core, nothing of it is about to enter a region, its context
runs, and no stop of an earlier clock is due; a unit that has stopped for the debugger issues no more (R301, R337, R344,
R345, R360, R362). -/
def State.mayIssue (s : State) (f : Frame) : Bool :=
  match s.teamOf f.g with
  | none => false
  | some t =>
    let x := s.ctx t.ctx
    (t.life == .resident || t.life == .blocked) && decide (t.resumeAt ≤ s.now) && t.entries.isEmpty &&
      x.life == .running && x.down.all (·.at_ == s.now) && !f.u.stopped &&
      (!x.stepping || (x.down.isNone && s.stepNames f t.core x)) && f.u.live f.g.width

/-- Units that are resident in a quadrant. -/
def State.unitsIn (s : State) (core quad : Nat) : List Frame :=
  ((s.gangsOn core).filter fun g => g.2.quad == quad).flatMap fun g =>
    (List.range g.2.units.length).filterMap fun ui => (s.frameOf g.1 ui).filter fun f => f.u.live f.g.width

/-- The candidates of a decision (R142). -/
def State.candidates (s : State) (core quad : Nat) : List Frame :=
  (s.unitsIn core quad).filter fun f => s.mayIssue f && (s.stall f).isNone

end Sys2Proof.Machine
end

