-- ==== Sys2Proof/Machine/HostOps.lean ====
section
/-! DEFINITION. What the host, a peer device and the hardware's own errors do (R81, R339 to R343, R362, R372 to R379):
contexts, invalidation, BAR0 and BAR2, capabilities, summary, firmware, attestation, reset, errors, tests and fencing. -/

namespace Sys2Proof.Machine

/-! ### Contexts (R344, R362, R374) -/

/-- Contexts of the device (R305). -/
def contextCount : Nat := 64

/-- `CTX_CREATE` (R374): only a free context, of a device that is ready (R377). -/
def execCtxCreate (c : Nat) (s : State) : Host.Outcome State Fault Refusal :=
  .next <| if s.dev.stat.getLsbD 0 ∧ c < contextCount ∧ (s.ctx c).life = .free then
    s.setCtx c { s.ctx c with life := .running, saveArea := Config.saveArea c } else s

/-- Waits of a context's queue heads do not count the time it was halted: of a head that came to be one meanwhile, the time
since (R300). -/
def Die.shiftHeads (d : Die) (c haltAt now : Nat) : Die :=
  let heads : FMap Nat := d.headAt.map fun e => (e.1, if e.1 / 4 == c then e.2 + (now - max haltAt e.2) else e.2)
  { d with headAt := heads }

/-- The units of a context's gangs that a debug stop had stopped go on (R360). -/
def State.unstop (s : State) (c : Nat) : State :=
  let go (u : UnitState) : UnitState := { u with stopped := false }
  { s with gangs := s.gangs.map fun x =>
      (x.1, if s.ctxOf x.2 == c then { x.2 with units := x.2.units.map go } else x.2) }

/-- A halted context runs again, wholly or for one decision; the pages that the host has named meanwhile are resident
(R93, R344). -/
def State.awaken (s : State) (c : Nat) (step : Bool) : State :=
  let x := s.ctx c
  if x.life == .halted && !x.faulted then
    let s := (List.range 4).foldl (fun s d => s.setDie d ((s.die d).shiftHeads c x.haltAt s.now)) s
    let s := (s.unstop c).setCtx c { x with life := .running, stepping := step, resident := [] }
    x.resident.foldl (fun s va => s.pageIn c va) s
  else s

/-- `CTX_RESUME` (R344, R374): ignored unless the context was halted by `halt` or a debug stop. -/
def execCtxResume (c : Nat) (s : State) : Host.Outcome State Fault Refusal := .next (s.awaken c false)

/-- `CTX_STEP` (R362): one unit may take one issue decision. -/
def execCtxStep (c : Nat) (s : State) : Host.Outcome State Fault Refusal := .next (s.awaken c true)

/-- An engine without a context's commands. -/
def Engine.without (e : Engine) (c : Nat) : Engine :=
  let mine := (e.running.map (·.ctx)) == some c
  { e with
    queue := e.queue.filter fun x => x.ctx != c
    running := if mine then none else e.running
    inflight := e.inflight.filter fun t => t.ctx != c
    reload := e.reload.filter fun x => x != c
    saved := FMap.erase e.saved c
    ctx := if e.ctx == some c then none else e.ctx }

/-- A die without a context's work. -/
def Die.without (d : Die) (c : Nat) (gangs : List Nat) : Die :=
  { d with
    queues := d.queues.filter fun q => q.1 / 4 != c
    headAt := d.headAt.filter fun q => q.1 / 4 != c
    starved := d.starved.filter fun k => k / 4 != c
    leave := d.leave.filter fun r => !gangs.contains r.gang
    engines := d.engines.map fun e => e.without c }

/-- A quadrant without the recomputes of some gangs. -/
def QuadState.without (q : QuadState) (gangs : List Nat) : QuadState :=
  { q with redo := q.redo.filter fun r => !gangs.contains r.gang }

/-- A core without some teams' threads and matrix work. -/
def CoreState.without (c : CoreState) (teams gangs : List Nat) : CoreState :=
  { c with
    quads := c.quads.map fun q => (q.1, q.2.without gangs)
    trapBin := c.trapBin.filter fun b => !teams.contains b.team
    trapWait := c.trapWait.filter fun b => !teams.contains b.team
    slots := c.slots.filter fun m => !teams.contains m.2.team }

/-- Places of the records of a context's launches: those of its grids, the host's launch that is held, and those that its
gangs have issued and that have not performed (R287, R291, R344; log entry 132). -/
def State.launchRecs (s : State) (c : Nat) (gangs : List Nat) : List Loc :=
  let held := s.ops.filterMap fun o => match o.2.kind with
    | .launch _ => if gangs.contains o.2.gang && o.2.parts.any (fun p => !p.performed) then o.2.accs.head?.map (·.loc) else none
    | _ => none
  ((s.grids.filter fun g => g.2.ctx == c).map fun g => g.2.recLoc) ++ (s.ctx c).dirHeld.toList ++ held

/-- A context ends: every launch completes with status 3, and nothing of it is left (R289, R343, R344). -/
def State.killCtx (s : State) (c : Nat) : State :=
  let teams := (s.teams.filter fun t => t.2.ctx == c).map (·.1)
  let cores := ((s.teams.filter fun t => t.2.ctx == c && t.2.placed).map fun t => t.2.core).dedup
  let gangs := (s.gangs.filter fun g => teams.contains g.2.team).map (·.1)
  let recs := s.launchRecs c gangs
  let s := cores.foldl (fun s k => s.drain k) s
  let s := recs.foldl (fun s l => s.writeStatus l 3) s
  let s := (List.range 4).foldl (fun s d => s.setDie d ((s.die d).without c gangs)) s
  let cs : FMap CoreState := s.cores.map fun e => (e.1, e.2.without teams gangs)
  let s : State := { s with
    cores := cs
    grids := s.grids.filter fun g => g.2.ctx != c
    teams := s.teams.filter fun t => t.2.ctx != c
    gangs := s.gangs.filter fun g => !gangs.contains g.1
    ops := s.ops.filter fun o => !gangs.contains o.2.gang
    regPoison := s.regPoison.filter fun p => !gangs.contains p.1 }
  let x := s.ctx c
  s.setCtx c { x with life := .ended, down := none, stepping := false, dirGrid := none, dirHeld := none, calls := [], answers := []
                      resident := [], parked := [], samples := [], translating := [] }

/-- `CTX_END` (R344). -/
def execCtxEnd (c : Nat) (s : State) : Host.Outcome State Fault Refusal :=
  .next <| if (s.ctx c).life == .halted then s.killCtx c else s

/-! ### Invalidation (R376) -/

/-- The range an `INVAL` value names: first address and size in bits; size 3 is everything. -/
def invalRange (v : DWord) : Nat × Nat :=
  let bits := match v.toNat % 4 with
    | 0 => 16 | 1 => 21 | 2 => 30 | _ => 57
  ((v.toNat % 2 ^ 57) / 2 ^ bits * 2 ^ bits, bits)

/-- A held translation meets the range. -/
def Tlb.meets (t : Tlb) (c : Nat) (v : DWord) : Bool :=
  let r := invalRange v
  let lo := t.page * 2 ^ t.bits
  t.ctx == c && decide (lo < r.1 + 2 ^ r.2) && decide (r.1 < lo + 2 ^ t.bits)

/-- A core's TLB without some translations. -/
def CoreState.dropTlb (x : CoreState) (k : Tlb → Bool) : CoreState := { x with tlb := x.tlb.filter fun t => !k t }

/-- Every TLB and translation cache drops the entries a context's `INVAL` names. -/
def State.dropNamed (s : State) (c : Nat) (v : DWord) : State :=
  let cs : FMap CoreState := s.cores.map fun e => (e.1, e.2.dropTlb fun t => t.meets c v)
  let s : State := { s with cores := cs }
  (List.range 4).foldl (fun s d =>
    let x := s.die d
    let kept := x.tcache.filter fun t => !t.meets c v
    s.setDie d { x with tcache := kept }) s

/-- Bit 63, the busy bit of `INVAL`, `RESYNC` and `ATTEST`. -/
def busyBit : DWord := 0x8000000000000000

/-- `INVAL` (R376): one that is still busy is finished first. -/
def execInval (c : Nat) (v : DWord) (s : State) : Host.Outcome State Fault Refusal :=
  let s := if (s.ctx c).inval.getLsbD 63 then s.dropNamed c (s.ctx c).inval else s
  .next (s.setCtx c { s.ctx c with inval := (v &&& 0x01FFFFFFFFFF0003) ||| busyBit })

/-- `INVAL_COMPLETE` (R376). -/
def execInvalComplete (c : Nat) (s : State) : Host.Outcome State Fault Refusal :=
  let v := (s.ctx c).inval
  .next <| if v.getLsbD 63 then (s.dropNamed c v).setCtx c { s.ctx c with inval := v &&& ~~~busyBit } else s

/-! ### Capabilities (R373) -/

/-- A die that is there and not fenced. -/
def State.dieUp (s : State) (die : Nat) : Bool := (s.die die).present && !(s.die die).fenced

/-- Bits of the quadrants a core has. -/
def quadBits (core : Nat) : BitVec 8 := BitVec.ofNat 8 (2 ^ quadCount (coreKind core) - 1)

/-- Units of a core: quadrants, matrix unit, copy engine (R9, R19, R20). -/
def unitsHave (core : Nat) : BitVec 8 × Bool × Bool := (quadBits core, coreKind core == .banner, true)

/-- Units of a core that are in service (R342, R343). -/
def State.unitsUp (s : State) (core : Nat) : BitVec 8 × Bool × Bool :=
  let c := s.core core
  if !s.dieUp (coreDie core) then (0, false, false)
  else (c.quadsUp &&& quadBits core, c.matrixUp && coreKind core == .banner, c.copyUp)

/-- Collective engines of a die that are in service. -/
def State.enginesUp (s : State) (die : Nat) : Nat :=
  (List.range 4).foldl (fun m k =>
    if s.dieUp die && (vget (s.die die).engines (k % 4) (Nat.mod_lt _ (by decide))).up then m + 2 ^ k else m) 0

/-- A core is in service: a fenced matrix unit or copy engine takes it along (R341). -/
def State.coreUp (s : State) (core : Nat) : Bool :=
  let u := s.unitsUp core
  u.1 != 0 && u.2.2 && (coreKind core != .banner || u.2.1)

/-- Clear the bits of some features (R342, R373). -/
def Dev.lose (d : Dev) (m : DWord) : Dev :=
  { d with featPresent := d.featPresent &&& ~~~m, featEnabled := d.featEnabled &&& ~~~m }

/-- Features that no unit carries any more are cleared (R342, R373): the matrix formats and flagged blocks with the last
banner core, pennant cores with the last of them, collective engines with the last one. -/
def State.dropFeatures (s : State) : State :=
  let none_ (k : CoreKind) : Bool := (List.range Config.coreCount).all fun c => coreKind c != k || !s.coreUp c
  let bit (b : Bool) (m : DWord) : DWord := if b then m else 0
  let m := bit (none_ .banner) 0xF ||| bit (none_ .pennant) 0x800 |||
    bit ((List.range 4).all fun d => s.enginesUp d == 0) 0x40
  { s with dev := s.dev.lose m }

/-- Bytes of an entry of the capability list: identity, features, units, links (R373, R380; log entry 99). -/
def capLen (k : Nat) : Nat :=
  match k with
  | 0 | 1 => 24
  | 2 => 8 + 2 * Config.coreCount + 4
  | _ => 8 + 24 * 16

/-- Entry k at an offset lies in the capability block, on an 8-byte boundary, behind entry 0 and apart from the entries
before it. -/
def capApart (place : Nat → Nat) (k : Nat) : Bool :=
  decide (place k % 8 = 0 ∧ capLen 0 ≤ place k ∧ place k + capLen k ≤ 0x10000) &&
    (List.range k).all fun j => decide (place j + capLen j ≤ place k) || decide (place k + capLen k ≤ place j)

/-- Place of an entry of the capability list: free where the entries stand apart, else one after another (log entry 99). -/
def capPlace (k : Nat) : Nat :=
  let free (k : Nat) : Nat := if k = 0 then 0 else Config.capOffset k
  if [1, 2, 3].all (capApart free) then free k
  else (((List.range k).map fun j => (capLen j + 7) / 8 * 8)).sum

/-- An entry: ID, length, place of the next one, contents (R373). -/
def capEntry (k : Nat) (body : List Byte) : List Byte :=
  leBytes 2 (k + 1) ++ leBytes 2 (8 + body.length) ++ leBytes 4 (if k < 3 then capPlace (k + 1) else 0) ++ body

/-- The unit bits of the units entry: two bytes for a core, one for a die (R373). -/
def unitBits (u : BitVec 8 × Bool × Bool) : List Byte :=
  leBytes 2 (u.1.toNat + (if u.2.1 then 256 else 0) + (if u.2.2 then 512 else 0))

/-- A link's 16 bytes (R380; log entry 99). -/
def linkBytes (l : Link) : List Byte :=
  leBytes 1 l.state ++ leBytes 1 l.peerLink ++ leBytes 2 0 ++ leBytes 4 l.peer ++ leBytes 4 l.crc ++ leBytes 4 l.retries

/-- The identity entry (R373; log entry 99): part code, generation 0, device key, firmware version. -/
def Dev.identity (d : Dev) : List Byte :=
  capEntry 0 (leBytes 4 d.part.toNat ++ leBytes 4 0 ++ leBytes 4 d.keyId.toNat ++ leBytes 4 d.fwver.toNat)

/-- The capability list: each entry with its place (R373). -/
def State.capabilities (s : State) : List (Nat × List Byte) :=
  [(capPlace 0, s.dev.identity),
   (capPlace 1, capEntry 1 (leBytes 8 s.dev.featPresent.toNat ++ leBytes 8 s.dev.featEnabled.toNat)),
   (capPlace 2, capEntry 2 ((List.range Config.coreCount).flatMap (fun c => unitBits (s.unitsUp c)) ++
     (List.range 4).flatMap fun d => leBytes 1 (s.enginesUp d))),
   (capPlace 3, capEntry 3 (s.dev.links.toList.flatMap linkBytes))]

/-- A byte of the capability list; 0 outside its entries (R3). -/
def State.capByte (s : State) (ofs : Nat) : Byte :=
  (s.capabilities.findSome? fun e => if e.1 ≤ ofs then e.2[ofs - e.1]? else none).getD 0

/-! ### Summary, firmware, attestation (R377 to R379) -/

/-- Write bytes of the host's memory. -/
def State.hostWrite (s : State) (a : Nat) (bytes : List Byte) : State :=
  { s with dev := { s.dev with hostMem := Memory.writeN s.dev.hostMem a bytes } }

/-- Free bytes. -/
def State.freeBytes (s : State) (n : Nat) : List Byte × State :=
  ((List.range n).map fun k => Config.freeByte (s.fresh + k), { s with fresh := s.fresh + n })

/-- `RESYNC` (R377, R378): ignored while busy. -/
def execResync (v : DWord) (s : State) : Host.Outcome State Fault Refusal :=
  .next <| if s.dev.resync.getLsbD 63 then s
  else { s with dev := { s.dev with resync := (v &&& 0x7FFFFFFFFFFFF000) ||| busyBit } }

/-- The ASCII letters "PHCNSYNC". -/
def syncMagic : List Byte := [0x50, 0x48, 0x43, 0x4E, 0x53, 0x59, 0x4E, 0x43]

/-- Code of a context's state (R374). -/
def ctxCode : CtxLife → Nat
  | .free => 0
  | .running => 1
  | .halting => 2
  | .halted => 3
  | .ended => 4

/-- Resident teams of a context. -/
def State.residents (s : State) (c : Nat) : Nat := (s.teams.filter fun t => t.2.ctx == c && t.2.placed).length

/-- A context's 16 bytes of the summary (R377; log entry 100): state, weight, resident teams, ring heads and tails. -/
def State.ctxSummary (s : State) (c : Nat) : List Byte :=
  let x := s.ctx c
  leBytes 1 (ctxCode x.life) ++ leBytes 1 x.weight ++ leBytes 2 (s.residents c) ++ leBytes 2 x.syscall.head ++
    leBytes 2 x.syscall.tail ++ leBytes 2 x.faults.head ++ leBytes 2 x.faults.tail ++ leBytes 4 0

/-- Clusters queued on a die in a class (R300). -/
def State.queuedIn (s : State) (die cls : Nat) : Nat :=
  ((List.range contextCount).map fun c => (FMap.getD (s.die die).queues (queueKey c cls) []).length).sum

/-- Poisoned sectors of a die's memory (R339). -/
def State.poisonedOn (s : State) (die : Nat) : Nat :=
  (s.poison.dedup.filter fun q => 64 * q / 2 ^ Config.installedBits == die).length

/-- A die's 128 bytes of the summary (R377; log entry 100): fenced flag, temperatures of the die and of two HBM stacks,
governor state, queued clusters of each class, poisoned sectors. -/
def State.dieSummary (s : State) (die : Nat) : List Byte :=
  let d := s.die die
  let hbm (k : Nat) : Nat := (vget s.dev.htemp ((2 * die + k) % 8) (Nat.mod_lt _ (by decide))).toNat
  leBytes 2 (if d.fenced then 1 else 0) ++ leBytes 2 d.dtemp.toNat ++ leBytes 2 (hbm 0) ++ leBytes 2 (hbm 1) ++
    leBytes 4 d.powcap ++ leBytes 4 d.leave.length ++ (List.range 4).flatMap (fun cls => leBytes 4 (s.queuedIn die cls)) ++
    leBytes 8 (s.poisonedOn die) ++ leBytes 88 0

/-- The 4 KiB summary (R377; log entry 100). -/
def State.summary (s : State) : List Byte :=
  syncMagic ++ leBytes 8 s.dev.num.toNat ++ leBytes 8 s.dev.stat.toNat ++ leBytes 8 (s.now / Config.bannerTicks) ++
    leBytes 32 0 ++ (List.range contextCount).flatMap s.ctxSummary ++ (List.range 4).flatMap s.dieSummary ++
    s.dev.links.toList.flatMap linkBytes ++ leBytes 2112 0

/-- `RESYNC_DONE` (R377): the summary is written. -/
def execResyncDone (s : State) : Host.Outcome State Fault Refusal :=
  .next <| if !s.dev.resync.getLsbD 63 then s
  else
    let a := s.dev.resync &&& ~~~busyBit
    let s := s.hostWrite a.toNat s.summary
    { s with dev := { s.dev with resync := a } }

/-- `FWLOAD` (R379): ignored while busy. -/
def execFwload (v : DWord) (s : State) : Host.Outcome State Fault Refusal :=
  .next <| if s.dev.fwbusy then s else { s with dev := { s.dev with fwload := v &&& ~~~busyBit, fwbusy := true, fwstat := 2 } }

/-- `FWLOAD_DONE` (R378, R379): 0 accepted, the firmware is replaced; 1 the signature did not verify; 3 malformed. -/
def execFwloadDone (result : BitVec 2) (version : Word) (s : State) : Host.Outcome State Fault Refusal :=
  .next <| if !s.dev.fwbusy || result == 2 then s
  else
    let ver := if result == 0 then version else s.dev.fwver
    { s with dev := { s.dev with fwbusy := false, fwstat := result, fwver := ver } }

/-- `ATTEST` (R379): ignored while busy. -/
def execAttest (v : DWord) (s : State) : Host.Outcome State Fault Refusal :=
  .next <| if s.dev.attest.getLsbD 63 then s else { s with dev := { s.dev with attest := (v &&& ~~~busyBit) ||| busyBit } }

/-- The fenced units: bits of the units entry that a unit has and that are not in service (R379; log entry 101). -/
def State.fencedBits (s : State) : List Byte :=
  (List.range Config.coreCount).flatMap (fun c =>
    let h := unitsHave c
    let u := s.unitsUp c
    unitBits (h.1 &&& ~~~u.1, h.2.1 && !u.2.1, h.2.2 && !u.2.2)) ++
  (List.range 4).flatMap fun d => leBytes 1 (15 - s.enginesUp d)

/-- Digests in a report: of the device's firmware, and of the firmware of each context that has some. -/
def State.digests (s : State) : Nat :=
  1 + (s.ctxs.filter fun c => c.2.life != .free && c.2.life != .ended && c.2.versions.any fun v => v.2.fw.isSome).length

/-- `ATTEST_DONE` (R379): nonce, identity entry, digests, `ENABLED`, fenced-unit bits, signature. The bytes of digests and
signature, and their numbers within what the spec bounds, are free (log entry 101). -/
def execAttestDone (s : State) : Host.Outcome State Fault Refusal :=
  .next <| if !s.dev.attest.getLsbD 63 then s
  else
    let a := s.dev.attest &&& ~~~busyBit
    let nonce := Memory.readN s.dev.hostMem (s.dev.nonce &&& ~~~busyBit).toNat 32
    let (r, s) := s.free
    let (digests, s) := s.freeBytes ((r / 1281 % 65) * s.digests)
    let (signature, s) := s.freeBytes (r % 1281)
    let report := nonce ++ s.dev.identity ++ digests ++ leBytes 8 s.dev.featEnabled.toNat ++ s.fencedBits ++ signature
    let s := s.hostWrite a.toNat report
    { s with dev := { s.dev with attest := a } }

/-! ### BAR2 and peers (R81, R372) -/

/-- Physical address of an offset into BAR2. -/
def State.bar2 (s : State) (ofs : Nat) : Nat := s.dev.b2base.toNat + ofs

/-- The home of a physical address can be reached: it is installed and its die is not fenced. -/
def State.reachable (s : State) (pa : Nat) : Bool :=
  decide (pa < 2 ^ Config.installedBits) && !(s.die (homeOf (s.plcOf pa) pa)).fenced

/-- `BAR2_WRITE` (R372): performed at the home L2, byte by byte in ascending order. -/
def execBar2Write (ofs : Nat) (bytes : List Byte) (s : State) : Host.Outcome State Fault Refusal :=
  .next <| s.writeCells (bytes.zipIdx.filterMap fun (b, k) =>
    let pa := s.bar2 (ofs + k)
    if s.reachable pa then some (memKey (homeOf (s.plcOf pa) pa) pa, b) else none)

/-- `BAR2_READ` (R372): a device-scope load, with promotion. -/
def execBar2Read (ofs len : Nat) (s : State) : Host.Outcome State Fault Refusal :=
  let r : List Byte × State := (List.range len).foldl (fun (acc, s) k =>
    let pa := s.bar2 (ofs + k)
    let (b, s) := if s.reachable pa then s.byLoad none true (homeOf (s.plcOf pa) pa) pa 1 else s.freeBytes 1
    (acc ++ b, s)) ([], s)
  .next { r.2 with dev := { r.2.dev with lastRead := r.1 } }

/-- The answer a peer receives; none for a failure with cause 0x14. -/
def State.reply (s : State) (r : Option (List Byte)) : State := { s with dev := { s.dev with peerReply := r } }

/-- `SYSTEM_WINDOW_ACCESS_FROM_PEER` (R81, R343): performed at the home L2 with promotion, or failed where the die is
fenced or the data poisoned. -/
def execSystemWindowAccessFromPeer (home pa : Nat) (acc : PeerAccess) (s : State) : Host.Outcome State Fault Refusal :=
  let h := home % 4
  let ready := decide (pa < 2 ^ Config.installedBits) && !(s.die h).fenced
  .next <| if !ready then s.reply none
  else match acc with
    | .load n =>
      if s.isPoisoned (.mem h pa) n then s.reply none
      else
        let (b, s) := s.byLoad none true h pa n
        s.reply (some b)
    | .store bytes => ((s.promote none (memKey h pa / 64)).thruStore none h pa bytes).reply (some [])
    | .atomic op wide x y =>
      let n := if wide then 8 else 4
      if s.isPoisoned (.mem h pa) n then s.reply none
      else
        let s := s.promote none (memKey h pa / 64)
        let old := s.readMem h pa n
        (s.writeMem h pa (leBytes n (atmNew op n (dwordOf old) x y).toNat)).reply (some old)
    | .element op src =>
      if op != .copy && s.isPoisoned (.mem h pa) 4 then s.reply none
      else
        let s := s.promote none (memKey h pa / 64)
        let old : Word := BitVec.ofNat 32 (leNat (s.readMem h pa 4))
        (s.writeMem h pa (leBytes 4 (xgoElem op old src).toNat)).reply (some [])

/-! ### Errors, tests and fencing (R339, R341 to R343) -/

/-- A table, or a table below it, maps a page with a chunk homed on a die (R90, R343). From entry 256 of level 0 on pages
are the system window's: a peer leaf with the device's own number maps its own memory (R78, R89). -/
def mapsDie (s : State) (die : Nat) : List (Nat × Nat × Nat × Bool × Bool) → Bool → Nat → Bool
  | [], _, _ => false
  | (lv, sh, nb, leafAllowed, tableAllowed) :: rest, peer, table =>
    (List.range (2 ^ nb)).any fun k =>
      let e := s.pte (table + 8 * k)
      let peer := if lv = 0 then decide (256 ≤ k) else peer
      let here := !peer || e / 2 ^ 39 % 2 ^ 21 == s.dev.num.toNat
      pteV e && (if pteLeaf e then leafAllowed && leafOk peer e sh && here && (ptePlc e == 0 || ptePlc e % 4 == die)
        else tableAllowed && tableOk e && mapsDie s die rest peer ((e / 2 ^ 12 % 2 ^ 40) * 2 ^ 12))

/-- A context is killed when a die is fenced (R343). -/
def State.onDie (s : State) (c die : Nat) : Bool :=
  s.teams.any (fun t => t.2.ctx == c && coreDie t.2.core == die) ||
    s.grids.any (fun g => g.2.ctx == c && g.2.lr.dmask / 2 ^ die % 2 == 1) ||
    (decide ((s.ctx c).root.toNat < 2 ^ Config.installedBits) && mapsDie s die walkLevels false (s.ctx c).root.toNat)

/-- The gather buffer of a core that has stopped is gone. -/
def State.loseGather (s : State) (die : Nat) : State :=
  let lose (e : Nat × CoreState) : Nat × CoreState := (e.1, if coreDie e.1 == die then { e.2 with gather := [] } else e.2)
  let cs : FMap CoreState := s.cores.map lose
  let left : FMap (List Filter) := s.filter.map fun m => (m.1, m.2.filter fun x => coreDie x.core != die)
  { s with cores := cs, filter := left.filter fun m => !m.2.isEmpty }

/-! ### Fencing (R341 to R343) -/

/-- The neighbouring dies fence a die (R343). -/
def State.fenceDie (s : State) (die : Nat) : State :=
  let d := die % 4
  let dead := (s.ctxs.filter fun c => c.2.life != .free && c.2.life != .ended && s.onDie c.1 d).map (·.1)
  let s := s.loseGather d
  let s := dead.foldl (fun s c => s.killCtx c) s
  let s := (s.setDie d { s.die d with fenced := true }).dropFeatures
  { s with dev := { s.dev with stat := s.dev.stat ||| BitVec.ofNat 64 (2 ^ (8 + d)) } }

/-- The place of a register that carries ECC. -/
def eccPlace : ErrReg → RegLoc
  | .v n => .v n
  | .hv n => .hv n
  | .s n => .s n
  | .hs unit n => .hs unit n
  | .p n => .p n
  | .t n => .t n

/-- `UNCORRECTABLE_ERROR` (R271, R339, R343): the sector, register or accumulator slot is poisoned; an error that cannot
be pinned fences the die. -/
def execUncorrectableError (loc : ErrLoc) (s : State) : Host.Outcome State Fault Refusal :=
  .next <| match loc with
  | .sector home pa => { s with poison := memKey home pa / 64 :: s.poison }
  | .scratch team sector =>
    { s with teams := FMap.adjust s.teams team fun t => { t with poison := sector :: t.poison } }
  | .reg gang reg lane => { s with regPoison := (gang, eccPlace reg, lane) :: s.regPoison }
  | .slot core slot =>
    let c := s.core core
    s.setCore core { c with slots := FMap.adjust c.slots slot fun m => { m with bad := true } }
  | .unpinned die => s.fenceDie die

/-- Core of a unit. -/
def unitCore : HwUnit → Option Nat
  | .lanes core _ _ | .matrix core | .copy core => some core
  | _ => none

/-- `CORRECTED_ERROR` (R339): counted for its unit. -/
def execCorrectedError (u : HwUnit) (s : State) : Host.Outcome State Fault Refusal :=
  let s := s.logCorrected (unitNum u)
  .next <| match unitCore u with
  | none => s
  | some core => s.signal core 0x0F 1

/-- A unit is fenced: what R341's table says it takes along, and the features that no unit carries any more; a command
that waits for a fenced engine is a firmware fault. -/
def State.fenceUnit (s : State) (u : HwUnit) : State :=
  match u with
  | .lanes core quad _ =>
    let c := s.core core
    (s.setCore core { c with quadsUp := c.quadsUp &&& ~~~BitVec.ofNat 8 (2 ^ quad) }).dropFeatures
  | .matrix core => (s.setCore core { s.core core with matrixUp := false }).dropFeatures
  | .copy core => (s.setCore core { s.core core with copyUp := false }).dropFeatures
  | .engine die eng =>
    let e := s.engine die eng
    let s := s.setEngine die eng { e with up := false, queue := [] }
    (e.queue.foldl (fun s c => s.fwFault c.op ⟨c.idx, 4 * (die % 4) + eng % 4, 0, 0⟩) s).dropFeatures
  | .l2slice die _ | .hbm die _ | .walker die => s.fenceDie die

/-- The unit of a number (R341). -/
def unitOf (n : Nat) : HwUnit :=
  match n / 2 ^ 16 with
  | 0 => .lanes (n / 64) (n / 8 % 8) (n % 8)
  | 1 => .matrix (n % 2 ^ 16)
  | 2 => .copy (n % 2 ^ 16)
  | 3 => .engine (n % 2 ^ 16 / 4) (n % 4)
  | 4 => .l2slice (n % 2 ^ 16 / 256) (n % 256)
  | 5 => .hbm (n % 2 ^ 16 / 256) (n % 256)
  | _ => .walker (n % 2 ^ 16)

/-- The copy engine of a core has a unit or a claimed line to move (R341). -/
def State.copying (s : State) (core : Nat) : Bool :=
  s.ops.any fun x => s.opCore x.2 == core && match x.2.kind with
    | .cp .. => x.2.units.any fun u => !u.done && x.2.parts.any fun p => p.grp == u.grp && p.performed
    | .cpm .. => x.2.claimed
    | _ => false

/-- A unit would idle in this clock (R341); of an L2 slice, an HBM channel or a walker the model sees no work. -/
def State.idle (s : State) (u : HwUnit) : Bool :=
  match u with
  | .lanes core quad _ =>
    let q := FMap.getD (s.core core).quads quad {}
    decide (q.busy ≤ s.clock core) && q.redo.isEmpty && (s.candidates core quad).isEmpty
  | .matrix core => decide ((s.core core).matBusy ≤ s.clock core) && (s.nextSlot core).isNone
  | .copy core => !s.copying core
  | .engine die eng => (s.engine die eng).running.isNone
  | .l2slice .. | .hbm .. | .walker _ => true

/-- The unit whose slices come first: a suspect one that idles, if any (R341). -/
def State.testNext (s : State) : Option Nat := s.dev.testFirst.find? fun n => s.idle (unitOf n)

/-- `TEST_SLICE` (R341, R342): of an idle unit, suspect ones first; counted; a slice that fails after another or after a
machine check fences the unit. -/
def execTestSlice (u : HwUnit) (passed : Bool) (s : State) : Host.Outcome State Fault Refusal :=
  let n := unitNum u
  let l := FMap.getD s.dev.tests n {}
  .next <| if l.state = 2 || !s.idle u || s.testNext.any (fun k => k != n) then s
  else
    let l := if passed then { l with passed := l.passed + 1 } else { l with failed := l.failed + 1 }
    let out := !passed && (decide (2 ≤ l.failed) || l.checked)
    let l := if out then { l with state := 2 } else l
    let first := s.dev.testFirst.filter fun k => k != n
    let s : State := { s with dev := { s.dev with tests := FMap.set s.dev.tests n l, testFirst := first } }
    if out then s.fenceUnit u else s

/-! ### Registers of BAR0 (R372 to R379) -/

/-- Head and tail of a ring's control register: the device's head is read-only (R375). -/
def Ring.control (r : Ring) (v : DWord) : Ring :=
  { r with n := v.toNat % 32, tail := (v.extractLsb' 48 16).toNat }

/-- Registers of a context that only hold a value (R374); reserved bits read 0 (R3). -/
def Ctx.register (x : Ctx) (ofs : Nat) (v : DWord) : Ctx :=
  let bp (k : Nat) (h : k < 4) : Ctx := { x with bp := vset x.bp k (v &&& 0x8000FFFFFFFFFFF8) h }
  match ofs with
  | 0x000 => { x with ctl := (if x.life == .free then v else (v &&& ~~~1) ||| (x.ctl &&& 1)) &&& 0x173 }
  | 0x018 => { x with root := v }
  | 0x020 => { x with weight := max 1 (v.toNat % 256) }
  | 0x040 => { x with result := x.result / 2 ^ 64 * 2 ^ 64 + v.toNat }
  | 0x048 => { x with result := v.toNat * 2 ^ 64 + x.result % 2 ^ 64 }
  | 0x060 => { x with syscall := { x.syscall with base := v } }
  | 0x068 => { x with syscall := x.syscall.control v }
  | 0x070 => { x with faults := { x.faults with base := v } }
  | 0x078 => { x with faults := x.faults.control v }
  | 0x080 => { x with trBase := v }
  | 0x088 => { x with trSize := v }
  | 0x090 => { x with trPut := v }
  | 0x0A0 => bp 0 (by decide)
  | 0x0A8 => bp 1 (by decide)
  | 0x0B0 => bp 2 (by decide)
  | 0x0B8 => bp 3 (by decide)
  | 0x0C0 => { x with sampk := v.toNat % 32 }
  | 0x0C8 => { x with stepg := v &&& 0x7FFFF }
  | _ => x

/-- Counter registers of a core (R365 to R367, R372); reserved bits read 0 (R3). -/
def Counters.register (c : Counters) (ofs : Nat) (v : DWord) : Counters :=
  if ofs < 0x20 then { c with sel := vset c.sel (ofs / 8 % 4) v (Nat.mod_lt _ (by decide)) }
  else if ofs = 0x800 then
    { c with ctl := v.getLsbD 0, vals := if v.getLsbD 1 then [] else c.vals }
  else if 0x040 ≤ ofs ∧ ofs < 0x0C0 then
    let e := (ofs - 0x040) / 16 % 8
    if ofs % 16 = 0 then { c with evA := vset c.evA e (v &&& 0xFFFF0FFFC00FFFFF) (Nat.mod_lt _ (by decide)) }
    else { c with evB := vset c.evB e v (Nat.mod_lt _ (by decide)) }
  else c

/-- Transfer registers of an engine's control page (R226). -/
def Engine.register (e : Engine) (ofs : Nat) (v : DWord) : Engine :=
  match ofs with
  | 0x040 => { e with xsrc := v.toNat }
  | 0x048 => { e with xdst := v.toNat }
  | 0x050 => { e with xlen := v.toNat }
  | 0x058 => { e with xlnk := v.toNat }
  | _ => e

/-- Registers of the device block that only hold a value (R378). -/
def Dev.register (d : Dev) (ofs : Nat) (v : DWord) : Dev :=
  match ofs with
  | 0x008 => if d.stat.getLsbD 0 then d else { d with num := v.setWidth 21 }
  | 0x018 => { d with b2base := v &&& 0x000FFFFFC0000000 }
  | 0x030 => { d with nonce := v &&& ~~~busyBit }
  | _ => d

/-- `REGISTER_WRITE` (R226, R372 to R379): an aligned 64-bit write to a register that has no behaviour of its own. An
offset from 0x1000_0000 on names the control page of an engine, 4 KiB each, which the engine's firmware writes. -/
def execRegisterWrite (ofs : Nat) (v : DWord) (s : State) : Host.Outcome State Fault Refusal :=
  .next <| if ofs % 8 ≠ 0 then s
  else if 0x10000000 ≤ ofs then
    let p := (ofs - 0x10000000) / 0x1000
    if p < 16 then s.setEngine (p / 4) (p % 4) ((s.engine (p / 4) (p % 4)).register (ofs % 0x1000) v) else s
  else if 0x1000000 ≤ ofs then
    let core := (ofs - 0x1000000) / 0x1000
    if core < Config.coreCount then
      s.setCore core { s.core core with ctr := (s.core core).ctr.register (ofs % 0x1000) v }
    else s
  else if 0x200000 ≤ ofs ∧ ofs < 0x200080 then
    let d := (ofs - 0x200000) / 0x20
    if ofs % 0x20 = 0x18 then s.setDie d { s.die d with powcap := min 1000 (v.toNat % 2 ^ 16) } else s
  else if 0x20000 ≤ ofs ∧ ofs < 0x30000 then
    let c := (ofs - 0x20000) / 0x400
    s.setCtx c ((s.ctx c).register (ofs % 0x400) v)
  else if 0x10000 ≤ ofs ∧ ofs < 0x20000 then { s with dev := s.dev.register (ofs - 0x10000) v }
  else if ofs = capPlace 1 + 16 then { s with dev := { s.dev with featEnabled := v &&& s.dev.featPresent } }
  else s

/-! ### Reads of BAR0 (R372) -/

/-- A ring's control register (R375). -/
def Ring.ctlValue (r : Ring) : DWord := BitVec.ofNat 64 (r.n + 2 ^ 32 * r.head + 2 ^ 48 * r.tail)

/-- A register of a context block (R374); none where it can only be written. -/
def Ctx.read (x : Ctx) (ofs : Nat) : Option DWord :=
  match ofs with
  | 0x000 => some x.ctl
  | 0x008 => some (BitVec.ofNat 64 (ctxCode x.life + 256 * x.reason))
  | 0x010 | 0x030 | 0x050 => none
  | 0x018 => some x.root
  | 0x020 => some (BitVec.ofNat 64 x.weight)
  | 0x028 => some (BitVec.ofNat 64 x.dirStatus)
  | 0x040 => some (BitVec.ofNat 64 x.result)
  | 0x048 => some (BitVec.ofNat 64 (x.result / 2 ^ 64))
  | 0x058 => some (x.inval &&& busyBit)
  | 0x060 => some x.syscall.base
  | 0x068 => some x.syscall.ctlValue
  | 0x070 => some x.faults.base
  | 0x078 => some x.faults.ctlValue
  | 0x080 => some x.trBase
  | 0x088 => some x.trSize
  | 0x090 => some x.trPut
  | 0x098 => some (BitVec.ofNat 64 x.trDrop)
  | 0x0A0 => some x.bp[0]
  | 0x0A8 => some x.bp[1]
  | 0x0B0 => some x.bp[2]
  | 0x0B8 => some x.bp[3]
  | 0x0C0 => some (BitVec.ofNat 64 x.sampk)
  | 0x0C8 => some x.stepg
  | _ => some 0

/-- A register of the device block (R378); none where it can only be written. -/
def Dev.read (d : Dev) (ofs : Nat) : Option DWord :=
  match ofs with
  | 0x000 => some d.stat
  | 0x008 => some (d.num.setWidth 64)
  | 0x010 => some d.resync
  | 0x018 => some d.b2base
  | 0x020 => none
  | 0x028 => some (BitVec.ofNat 64 (d.fwstat.toNat + 2 ^ 32 * d.fwver.toNat))
  | 0x030 => some d.nonce
  | 0x038 => some d.attest
  | _ => some 0

/-- A register of a core's block (R365 to R367, R372). -/
def Counters.read (c : Counters) (ofs : Nat) : DWord :=
  let e := (ofs - 0x40) / 16 % 8
  if ofs < 0x20 then vget c.sel (ofs / 8 % 4) (Nat.mod_lt _ (by decide))
  else if 0x40 ≤ ofs ∧ ofs < 0xC0 then
    if ofs % 16 = 0 then vget c.evA e (Nat.mod_lt _ (by decide)) else vget c.evB e (Nat.mod_lt _ (by decide))
  else if 0x100 ≤ ofs ∧ ofs < 0x100 + 8 * counterCount then BitVec.ofNat 64 (FMap.getD c.vals ((ofs - 0x100) / 8) 0)
  else if ofs = 0x800 then (if c.ctl then 1 else 0)
  else 0

/-- A register of the monitors (R379). -/
def State.monitor (s : State) (ofs : Nat) : DWord :=
  if ofs < 0x80 then
    let d := s.die (ofs / 0x20)
    match ofs % 0x20 with
    | 0x00 => d.dtemp.setWidth 64
    | 0x08 => d.dvolt.setWidth 64
    | 0x10 => d.dproc.setWidth 64
    | 0x18 => BitVec.ofNat 64 d.powcap
    | _ => 0
  else if 0x100 ≤ ofs ∧ ofs < 0x180 ∧ ofs % 16 = 0 then
    (vget s.dev.htemp ((ofs - 0x100) / 16 % 8) (Nat.mod_lt _ (by decide))).setWidth 64
  else 0

/-- The unit of an entry of the test log: units stand in the order of their numbers (R372; log entry 102). -/
def logUnit (k : Nat) : Option Nat :=
  if k < 0x9000 then
    let core := k / 64
    let there := match coreKind core with
      | .banner => true
      | .pennant => decide (k / 8 % 8 < 2 ∧ k % 8 < 2)
    if there then some k else none
  else if k < 0x9240 then (if coreKind (k - 0x9000) == .banner then some (0x10000 + (k - 0x9000)) else none)
  else if k < 0x9480 then some (0x20000 + (k - 0x9240))
  else if k < 0x9490 then some (0x30000 + (k - 0x9480))
  else if k < 0x9890 then some (0x40000 + (k - 0x9490))
  else if k < 0x9C90 then some (0x50000 + (k - 0x9890))
  else if k < 0x9C94 then some (0x60000 + (k - 0x9C90))
  else none

/-- An entry of the test log (R341). -/
def State.logEntry (s : State) (k : Nat) : List Byte :=
  match logUnit k with
  | none => leBytes 16 0
  | some n =>
    let l := FMap.getD s.dev.tests n {}
    leBytes 4 n ++ leBytes 4 l.passed ++ leBytes 4 l.failed ++ leBytes 1 l.state ++ leBytes 3 0

/-- An aligned 64-bit register of BAR0, by the block map (R372); none where it can only be written. -/
def State.bar0 (s : State) (ofs : Nat) : Option DWord :=
  if ofs < 0x10000 then some (dwordOf ((List.range 8).map fun k => s.capByte (ofs + k)))
  else if ofs < 0x20000 then s.dev.read (ofs - 0x10000)
  else if ofs < 0x30000 then (s.ctx ((ofs - 0x20000) / 0x400)).read (ofs % 0x400)
  else if 0x100000 ≤ ofs ∧ ofs < 0x200000 then
    some (dwordOf (((s.logEntry ((ofs - 0x100000) / 16)).drop (ofs % 16)).take 8))
  else if 0x200000 ≤ ofs ∧ ofs < 0x200180 then some (s.monitor (ofs - 0x200000))
  else if 0x1000000 ≤ ofs ∧ (ofs - 0x1000000) / 0x1000 < Config.coreCount then
    some ((s.core ((ofs - 0x1000000) / 0x1000)).ctr.read (ofs % 0x1000))
  else some 0

/-- The host reads BAR0 (R372): an aligned 64-bit register; any other access reads 0. What a register that can only be
written reads as is free (log entry 103). -/
def State.readReg (s : State) (ofs size : Nat) : State :=
  let (v, s) : DWord × State :=
    if ofs % 8 ≠ 0 ∨ size ≠ 8 then (0, s)
    else match s.bar0 ofs with
      | some v => (v, s)
      | none =>
        let (r, s) := s.free
        (BitVec.ofNat 64 r, s)
  { s with dev := { s.dev with lastRead := leBytes size v.toNat } }

/-! ### What the world around the device does -/

/-- A monitor shows another value (R379): DTEMP, DVOLT, DPROC, HTEMP by their place in the monitors block. -/
def State.sense (s : State) (ofs : Nat) (v : BitVec 16) : State :=
  if ofs < 0x80 then
    let d := s.die (ofs / 0x20)
    s.setDie (ofs / 0x20) (match ofs % 0x20 with
      | 0x00 => { d with dtemp := v }
      | 0x08 => { d with dvolt := v }
      | 0x10 => { d with dproc := v.setWidth 8 }
      | _ => d)
  else if 0x100 ≤ ofs ∧ ofs < 0x180 then
    { s with dev := { s.dev with htemp := vset s.dev.htemp ((ofs - 0x100) / 16 % 8) v (Nat.mod_lt _ (by decide)) } }
  else s

/-- The host's allocator gives a 2 MiB block of installed memory a placement, once (R90; log entry 5). -/
def State.place (s : State) (block plc : Nat) : State :=
  if 2 ^ Config.installedBits ≤ block * 2 ^ 21 ∨ (FMap.get? s.placement block).isSome ∨ plc < 4 ∨ 7 < plc then s
  else { s with placement := FMap.set s.placement block plc }

/-- A link changes its state: it trains, comes up, goes down or is fenced; with every link up Pennon training is done
(R377, R378, R380; log entry 104). A device whose start-up has stopped, or is not over, trains none: training follows the
firmware check and that of HBM. -/
def State.train (s : State) (link state peer peerLink : Nat) : State :=
  if !s.dev.stat.getLsbD 0 then s
  else
  let s := s.setLink link
    { s.link link with state := state % 4, peer := peer % 2 ^ 21, peerLink := peerLink % 24, tries := 0 }
  if s.dev.links.all fun l => l.state == 2 then { s with dev := { s.dev with stat := s.dev.stat ||| 8 } } else s

/-- A flit passes its check: the retries of the next one count anew (R380). -/
def State.flitOk (s : State) (link : Nat) : State := s.setLink link { s.link link with tries := 0 }

/-! ### Reset (R377) -/

/-- `DEVICE_RESET` (R377, R378): what the boot finds decides how far it goes; the host's memory and what the monitors
sense are not the device's to reset. -/
def execDeviceReset (fwOk hbmOk linksOk : Bool) (num : BitVec 21) (s : State) : Host.Outcome State Fault Refusal :=
  let r : State := { State.reset with fresh := s.fresh, nextId := s.nextId, agenda := s.agenda }
  let present : Nat := (List.range 4).foldl (fun m d => if (s.die d).present then m + 2 ^ (4 + d) else m) 0
  let keep (r : State) (d : Nat) : State :=
    let x := s.die d
    r.setDie d { r.die d with present := x.present, dtemp := x.dtemp, dvolt := x.dvolt, dproc := x.dproc }
  let r := (List.range 4).foldl keep r
  let stat : Nat := if !fwOk then 2 else if !hbmOk then 4 else 1 + (if linksOk then 8 else 0)
  let link : Link := { state := if linksOk then 2 else 0 }
  let up := fwOk && hbmOk
  .next { r with dev := { r.dev with
    stat := BitVec.ofNat 64 (stat + present), num := if up then num else 0
    links := if up then Vector.replicate 24 link else r.dev.links
    hostMem := s.dev.hostMem, part := s.dev.part, keyId := s.dev.keyId, htemp := s.dev.htemp } }

end Sys2Proof.Machine
end

