-- ==== Sys2Proof/Machine/IntOps.lean ====
section
/-! DEFINITION. Major 0x0: integer and address instructions (R152 to R159). -/

namespace Sys2Proof.Machine

/-- `add` (R153). -/
def execAdd (h : Hdr) (ty : Ty) (d a b : Reg) (s : State) : Host.Outcome State Fault Refusal :=
  laneWord (info (.add h ty d a b)) s d ty.regs fun x => (aluAdd ty (x.rd a ty.regs) (x.rd b ty.regs), false)

/-- `add` (R153, immediate form). -/
def execAddImm (h : Hdr) (ty : Ty) (d a : Reg) (imm : BitVec 18) (s : State) : Host.Outcome State Fault Refusal :=
  laneWord (info (.addImm h ty d a imm)) s d ty.regs fun x => (aluAdd ty (x.rd a ty.regs) (immS ty imm), false)

/-- `sub` (R153). -/
def execSub (h : Hdr) (ty : Ty) (d a b : Reg) (s : State) : Host.Outcome State Fault Refusal :=
  laneWord (info (.sub h ty d a b)) s d ty.regs fun x => (aluSub ty (x.rd a ty.regs) (x.rd b ty.regs), false)

/-- `sub` (R153, immediate form). -/
def execSubImm (h : Hdr) (ty : Ty) (d a : Reg) (imm : BitVec 18) (s : State) : Host.Outcome State Fault Refusal :=
  laneWord (info (.subImm h ty d a imm)) s d ty.regs fun x => (aluSub ty (x.rd a ty.regs) (immS ty imm), false)

/-- `mul` (R153). -/
def execMul (h : Hdr) (ty : Ty) (d a b : Reg) (s : State) : Host.Outcome State Fault Refusal :=
  laneWord (info (.mul h ty d a b)) s d ty.regs fun x => (aluMul ty (x.rd a ty.regs) (x.rd b ty.regs), false)

/-- `mul` (R153, immediate form). -/
def execMulImm (h : Hdr) (ty : Ty) (d a : Reg) (imm : BitVec 18) (s : State) : Host.Outcome State Fault Refusal :=
  laneWord (info (.mulImm h ty d a imm)) s d ty.regs fun x => (aluMul ty (x.rd a ty.regs) (immS ty imm), false)

/-- `mulh` (R153). -/
def execMulh (h : Hdr) (ty : Ty) (d a b : Reg) (s : State) : Host.Outcome State Fault Refusal :=
  laneWord (info (.mulh h ty d a b)) s d ty.regs fun x => (aluMulh ty (x.rd a ty.regs) (x.rd b ty.regs), false)

/-- `mulh` (R153, immediate form). -/
def execMulhImm (h : Hdr) (ty : Ty) (d a : Reg) (imm : BitVec 18) (s : State) : Host.Outcome State Fault Refusal :=
  laneWord (info (.mulhImm h ty d a imm)) s d ty.regs fun x => (aluMulh ty (x.rd a ty.regs) (immS ty imm), false)

/-- `div` (R155). -/
def execDiv (h : Hdr) (ty : Ty) (d a b : Reg) (s : State) : Host.Outcome State Fault Refusal :=
  laneWord (info (.div h ty d a b)) s d ty.regs fun x => (aluDiv ty (x.rd a ty.regs) (x.rd b ty.regs), false)

/-- `div` (R155, immediate form). -/
def execDivImm (h : Hdr) (ty : Ty) (d a : Reg) (imm : BitVec 18) (s : State) : Host.Outcome State Fault Refusal :=
  laneWord (info (.divImm h ty d a imm)) s d ty.regs fun x => (aluDiv ty (x.rd a ty.regs) (immS ty imm), false)

/-- `rem` (R155). -/
def execRem (h : Hdr) (ty : Ty) (d a b : Reg) (s : State) : Host.Outcome State Fault Refusal :=
  laneWord (info (.rem h ty d a b)) s d ty.regs fun x => (aluRem ty (x.rd a ty.regs) (x.rd b ty.regs), false)

/-- `rem` (R155, immediate form). -/
def execRemImm (h : Hdr) (ty : Ty) (d a : Reg) (imm : BitVec 18) (s : State) : Host.Outcome State Fault Refusal :=
  laneWord (info (.remImm h ty d a imm)) s d ty.regs fun x => (aluRem ty (x.rd a ty.regs) (immS ty imm), false)

/-- `min` (R153). -/
def execMin (h : Hdr) (ty : Ty) (d a b : Reg) (s : State) : Host.Outcome State Fault Refusal :=
  laneWord (info (.min h ty d a b)) s d ty.regs fun x => (aluMin ty (x.rd a ty.regs) (x.rd b ty.regs), false)

/-- `min` (R153, immediate form). -/
def execMinImm (h : Hdr) (ty : Ty) (d a : Reg) (imm : BitVec 18) (s : State) : Host.Outcome State Fault Refusal :=
  laneWord (info (.minImm h ty d a imm)) s d ty.regs fun x => (aluMin ty (x.rd a ty.regs) (immS ty imm), false)

/-- `max` (R153). -/
def execMax (h : Hdr) (ty : Ty) (d a b : Reg) (s : State) : Host.Outcome State Fault Refusal :=
  laneWord (info (.max h ty d a b)) s d ty.regs fun x => (aluMax ty (x.rd a ty.regs) (x.rd b ty.regs), false)

/-- `max` (R153, immediate form). -/
def execMaxImm (h : Hdr) (ty : Ty) (d a : Reg) (imm : BitVec 18) (s : State) : Host.Outcome State Fault Refusal :=
  laneWord (info (.maxImm h ty d a imm)) s d ty.regs fun x => (aluMax ty (x.rd a ty.regs) (immS ty imm), false)

/-- `and` (R153). -/
def execAnd (h : Hdr) (ty : Ty) (d a b : Reg) (s : State) : Host.Outcome State Fault Refusal :=
  laneWord (info (.and h ty d a b)) s d ty.regs fun x => (aluAnd ty (x.rd a ty.regs) (x.rd b ty.regs), false)

/-- `and` (R153, immediate form). -/
def execAndImm (h : Hdr) (ty : Ty) (d a : Reg) (imm : BitVec 18) (s : State) : Host.Outcome State Fault Refusal :=
  laneWord (info (.andImm h ty d a imm)) s d ty.regs fun x => (aluAnd ty (x.rd a ty.regs) (immS ty imm), false)

/-- `or` (R153). -/
def execOr (h : Hdr) (ty : Ty) (d a b : Reg) (s : State) : Host.Outcome State Fault Refusal :=
  laneWord (info (.or h ty d a b)) s d ty.regs fun x => (aluOr ty (x.rd a ty.regs) (x.rd b ty.regs), false)

/-- `or` (R153, immediate form). -/
def execOrImm (h : Hdr) (ty : Ty) (d a : Reg) (imm : BitVec 18) (s : State) : Host.Outcome State Fault Refusal :=
  laneWord (info (.orImm h ty d a imm)) s d ty.regs fun x => (aluOr ty (x.rd a ty.regs) (immS ty imm), false)

/-- `xor` (R153). -/
def execXor (h : Hdr) (ty : Ty) (d a b : Reg) (s : State) : Host.Outcome State Fault Refusal :=
  laneWord (info (.xor h ty d a b)) s d ty.regs fun x => (aluXor ty (x.rd a ty.regs) (x.rd b ty.regs), false)

/-- `xor` (R153, immediate form). -/
def execXorImm (h : Hdr) (ty : Ty) (d a : Reg) (imm : BitVec 18) (s : State) : Host.Outcome State Fault Refusal :=
  laneWord (info (.xorImm h ty d a imm)) s d ty.regs fun x => (aluXor ty (x.rd a ty.regs) (immS ty imm), false)

/-- `andn` (R153). -/
def execAndn (h : Hdr) (ty : Ty) (d a b : Reg) (s : State) : Host.Outcome State Fault Refusal :=
  laneWord (info (.andn h ty d a b)) s d ty.regs fun x => (aluAndn ty (x.rd a ty.regs) (x.rd b ty.regs), false)

/-- `andn` (R153, immediate form). -/
def execAndnImm (h : Hdr) (ty : Ty) (d a : Reg) (imm : BitVec 18) (s : State) : Host.Outcome State Fault Refusal :=
  laneWord (info (.andnImm h ty d a imm)) s d ty.regs fun x => (aluAndn ty (x.rd a ty.regs) (immS ty imm), false)

/-- `shl` (R154). -/
def execShl (h : Hdr) (ty : Ty) (d a b : Reg) (s : State) : Host.Outcome State Fault Refusal :=
  laneWord (info (.shl h ty d a b)) s d ty.regs fun x => (aluShl ty (x.rd a ty.regs) (x.rd b 1), false)

/-- `shl` (R154, immediate form). -/
def execShlImm (h : Hdr) (ty : Ty) (d a : Reg) (imm : BitVec 18) (s : State) : Host.Outcome State Fault Refusal :=
  laneWord (info (.shlImm h ty d a imm)) s d ty.regs fun x => (aluShl ty (x.rd a ty.regs) (immZ ty imm), false)

/-- `shr` (R154). -/
def execShr (h : Hdr) (ty : Ty) (d a b : Reg) (s : State) : Host.Outcome State Fault Refusal :=
  laneWord (info (.shr h ty d a b)) s d ty.regs fun x => (aluShr ty (x.rd a ty.regs) (x.rd b 1), false)

/-- `shr` (R154, immediate form). -/
def execShrImm (h : Hdr) (ty : Ty) (d a : Reg) (imm : BitVec 18) (s : State) : Host.Outcome State Fault Refusal :=
  laneWord (info (.shrImm h ty d a imm)) s d ty.regs fun x => (aluShr ty (x.rd a ty.regs) (immZ ty imm), false)

/-- `sar` (R154). -/
def execSar (h : Hdr) (ty : Ty) (d a b : Reg) (s : State) : Host.Outcome State Fault Refusal :=
  laneWord (info (.sar h ty d a b)) s d ty.regs fun x => (aluSar ty (x.rd a ty.regs) (x.rd b 1), false)

/-- `sar` (R154, immediate form). -/
def execSarImm (h : Hdr) (ty : Ty) (d a : Reg) (imm : BitVec 18) (s : State) : Host.Outcome State Fault Refusal :=
  laneWord (info (.sarImm h ty d a imm)) s d ty.regs fun x => (aluSar ty (x.rd a ty.regs) (immZ ty imm), false)

/-- `rot` (R154). -/
def execRot (h : Hdr) (ty : Ty) (d a b : Reg) (s : State) : Host.Outcome State Fault Refusal :=
  laneWord (info (.rot h ty d a b)) s d ty.regs fun x => (aluRot ty (x.rd a ty.regs) (x.rd b 1), false)

/-- `rot` (R154, immediate form). -/
def execRotImm (h : Hdr) (ty : Ty) (d a : Reg) (imm : BitVec 18) (s : State) : Host.Outcome State Fault Refusal :=
  laneWord (info (.rotImm h ty d a imm)) s d ty.regs fun x => (aluRot ty (x.rd a ty.regs) (immZ ty imm), false)

/-- `mad` (R153). -/
def execMad (h : Hdr) (ty : Ty) (d a b c : Reg) (s : State) : Host.Outcome State Fault Refusal :=
  laneWord (info (.mad h ty d a b c)) s d ty.regs fun x =>
    (aluMad ty (x.rd a ty.regs) (x.rd b ty.regs) (x.rd c ty.regs), false)

/-- `mad`, immediate form: A × imm + the old D (R153). -/
def execMadImm (h : Hdr) (ty : Ty) (d a : Reg) (imm : BitVec 18) (s : State) : Host.Outcome State Fault Refusal :=
  laneWord (info (.madImm h ty d a imm)) s d ty.regs fun x =>
    (aluMad ty (x.rd a ty.regs) (immS ty imm) (x.rd d ty.regs), false)

/-- `abs` (R153). -/
def execAbs (h : Hdr) (ty : Ty) (d a : Reg) (s : State) : Host.Outcome State Fault Refusal :=
  laneWord (info (.abs h ty d a)) s d ty.regs fun x => (aluAbs ty (x.rd a ty.regs), false)

/-- `neg` (R153). -/
def execNeg (h : Hdr) (ty : Ty) (d a : Reg) (s : State) : Host.Outcome State Fault Refusal :=
  laneWord (info (.neg h ty d a)) s d ty.regs fun x => (aluNeg ty (x.rd a ty.regs), false)

/-- `brev` (R153). -/
def execBrev (h : Hdr) (ty : Ty) (d a : Reg) (s : State) : Host.Outcome State Fault Refusal :=
  laneWord (info (.brev h ty d a)) s d ty.regs fun x => (aluBrev ty (x.rd a ty.regs), false)

/-- `clz` (R153). -/
def execClz (h : Hdr) (ty : Ty) (d a : Reg) (s : State) : Host.Outcome State Fault Refusal :=
  laneWord (info (.clz h ty d a)) s d 1 fun x => (aluClz ty (x.rd a ty.regs), false)

/-- `popc` (R153). -/
def execPopc (h : Hdr) (ty : Ty) (d a : Reg) (s : State) : Host.Outcome State Fault Refusal :=
  laneWord (info (.popc h ty d a)) s d 1 fun x => (aluPopc ty (x.rd a ty.regs), false)

/-- `bfx` (R157). -/
def execBfx (h : Hdr) (ty : Ty) (d a b : Reg) (s : State) : Host.Outcome State Fault Refusal :=
  laneWord (info (.bfx h ty d a b)) s d ty.regs fun x => (aluBfx ty (x.rd a ty.regs) (x.rd b 1), false)

/-- `bfx`, immediate form (R157). -/
def execBfxImm (h : Hdr) (ty : Ty) (d a : Reg) (imm : BitVec 18) (s : State) : Host.Outcome State Fault Refusal :=
  laneWord (info (.bfxImm h ty d a imm)) s d ty.regs fun x => (aluBfx ty (x.rd a ty.regs) (imm.setWidth 64), false)

/-- `bfi`: base A, value B, control C (R157). -/
def execBfi (h : Hdr) (ty : Ty) (d a b c : Reg) (s : State) : Host.Outcome State Fault Refusal :=
  laneWord (info (.bfi h ty d a b c)) s d ty.regs fun x =>
    (aluBfi ty (x.rd a ty.regs) (x.rd b ty.regs) (x.rd c 1), false)

/-- `bfi`, immediate form: base the old D, value A (R157). -/
def execBfiImm (h : Hdr) (ty : Ty) (d a : Reg) (imm : BitVec 18) (s : State) : Host.Outcome State Fault Refusal :=
  laneWord (info (.bfiImm h ty d a imm)) s d ty.regs fun x =>
    (aluBfi ty (x.rd d ty.regs) (x.rd a ty.regs) (imm.setWidth 64), false)

/-- `sel` (R153). -/
def execSel (h : Hdr) (ty : Ty) (q : BitVec 4) (d a b : Reg) (s : State) : Host.Outcome State Fault Refusal :=
  laneWord (info (.sel h ty q d a b)) s d ty.regs fun x =>
    (if x.p (q.setWidth 5) then x.rd a ty.regs else x.rd b ty.regs, false)

/-- `sel`, immediate form (R153). -/
def execSelImm (h : Hdr) (ty : Ty) (q : BitVec 4) (d a : Reg) (imm : BitVec 18) (s : State) :
    Host.Outcome State Fault Refusal :=
  laneWord (info (.selImm h ty q d a imm)) s d ty.regs fun x =>
    (if x.p (q.setWidth 5) then x.rd a ty.regs else immS ty imm, false)

/-- `cmp` (R156). -/
def execCmp (h : Hdr) (cc : Cc) (ty : Ty) (pd : PReg) (a b : Reg) (s : State) : Host.Outcome State Fault Refusal :=
  predWord (info (.cmp h cc ty pd a b)) s pd fun x => aluCmp cc ty (x.rd a ty.regs) (x.rd b ty.regs)

/-- `cmp`, immediate form (R156). -/
def execCmpImm (h : Hdr) (cc : Cc) (ty : Ty) (pd : PReg) (a : Reg) (imm : BitVec 18) (s : State) :
    Host.Outcome State Fault Refusal :=
  predWord (info (.cmpImm h cc ty pd a imm)) s pd fun x => aluCmp cc ty (x.rd a ty.regs) (immS ty imm)

/-- `addc`: sum and carry out (R153). -/
def execAddc (h : Hdr) (ty : Ty) (q : BitVec 4) (d a b : Reg) (s : State) : Host.Outcome State Fault Refusal :=
  let f (x : LaneIn) := aluAddc ty (x.rd a ty.regs) (x.rd b ty.regs) (x.p (q.setWidth 5))
  laneWord (info (.addc h ty q d a b)) s d ty.regs (fun x => ((f x).1, false)) fun x => [(q.setWidth 5, (f x).2)]

/-- `addc`, immediate form (R153). -/
def execAddcImm (h : Hdr) (ty : Ty) (q : BitVec 4) (d a : Reg) (imm : BitVec 18) (s : State) :
    Host.Outcome State Fault Refusal :=
  let f (x : LaneIn) := aluAddc ty (x.rd a ty.regs) (immS ty imm) (x.p (q.setWidth 5))
  laneWord (info (.addcImm h ty q d a imm)) s d ty.regs (fun x => ((f x).1, false)) fun x => [(q.setWidth 5, (f x).2)]

/-- `subc`: difference and borrow out (R153). -/
def execSubc (h : Hdr) (ty : Ty) (q : BitVec 4) (d a b : Reg) (s : State) : Host.Outcome State Fault Refusal :=
  let f (x : LaneIn) := aluSubc ty (x.rd a ty.regs) (x.rd b ty.regs) (x.p (q.setWidth 5))
  laneWord (info (.subc h ty q d a b)) s d ty.regs (fun x => ((f x).1, false)) fun x => [(q.setWidth 5, (f x).2)]

/-- `subc`, immediate form (R153). -/
def execSubcImm (h : Hdr) (ty : Ty) (q : BitVec 4) (d a : Reg) (imm : BitVec 18) (s : State) :
    Host.Outcome State Fault Refusal :=
  let f (x : LaneIn) := aluSubc ty (x.rd a ty.regs) (immS ty imm) (x.p (q.setWidth 5))
  laneWord (info (.subcImm h ty q d a imm)) s d ty.regs (fun x => ((f x).1, false)) fun x => [(q.setWidth 5, (f x).2)]

/-- `lea` (R158). -/
def execLea (h : Hdr) (ty : Ty) (sh : BitVec 3) (d a b : Reg) (s : State) : Host.Outcome State Fault Refusal :=
  laneWord (info (.lea h ty sh d a b)) s d 2 fun x => (aluLea ty sh.toNat (x.rd a 2) (x.rd b ty.regs), false)

/-- `lea`, immediate form: the immediate sign-extended (R158). -/
def execLeaImm (h : Hdr) (ty : Ty) (sh : BitVec 3) (d a : Reg) (imm : BitVec 18) (s : State) :
    Host.Outcome State Fault Refusal :=
  laneWord (info (.leaImm h ty sh d a imm)) s d 2 fun x => (aluLea .i64 sh.toNat (x.rd a 2) (imm.signExtend 64), false)

/-- `acs` (R159). -/
def execAcs (h : Hdr) (n : BitVec 4) (d a b c : Reg) (s : State) : Host.Outcome State Fault Refusal :=
  laneWord (info (.acs h n d a b c)) s d 1 (fun x => (aluAcs (x.rd a 1) (x.rd b 1) (x.rd c 1), false)) fun x =>
    [(n ++ 0#1, (acsHalf (x.rd a 1) (x.rd b 1) (x.rd c 1) 0).2), (n ++ 1#1, (acsHalf (x.rd a 1) (x.rd b 1) (x.rd c 1) 1).2)]

/-- `acs`, immediate form: B the immediate in both halves, C the old D (R159). -/
def execAcsImm (h : Hdr) (n : BitVec 4) (d a : Reg) (imm : BitVec 18) (s : State) : Host.Outcome State Fault Refusal :=
  let b := immS .h2 imm
  laneWord (info (.acsImm h n d a imm)) s d 1 (fun x => (aluAcs (x.rd a 1) b (x.rd d 1), false)) fun x =>
    [(n ++ 0#1, (acsHalf (x.rd a 1) b (x.rd d 1) 0).2), (n ++ 1#1, (acsHalf (x.rd a 1) b (x.rd d 1) 1).2)]

end Sys2Proof.Machine
end

