-- ==== Sys2Proof/Machine/Issue.lean ====
section
/-! DEFINITION. Issue (R138 to R145): the choice of a unit (R139), what its decision is (R185, R188, R193, R200, R361),
what a word costs (R37, R138, R145), recomputes (R144), the end of a step, and what time brings about. -/

namespace Sys2Proof.Machine

/-! ### The choice of a unit (R139) -/

/-- Largest value of a list. -/
def largest (l : List Nat) : Nat := l.foldl max 0

/-- Distance of a slot, counted upward from the one after the last chosen (R139). -/
def slotAfter (slots : Nat) (last : Option Nat) (n : Nat) : Nat :=
  match last with
  | none => n % slots
  | some m => (n % slots + slots - (m + 1) % slots) % slots

/-- The choice of R139 among the candidates of a quadrant in which n units are resident. -/
def State.pick (s : State) (core : Nat) (n : Nat) (last : Option Nat) (cs : List Frame) : Option Frame :=
  let late := cs.filter fun f => decide (32 * n ≤ f.u.wait)
  let top := largest (cs.map fun f => f.g.cls.toNat)
  let pool := if late.isEmpty then cs.filter fun f => f.g.cls.toNat == top else late
  let oldest := largest (pool.map fun f => f.u.wait)
  let pool := pool.filter fun f => f.u.wait == oldest
  let key (f : Frame) : Nat := slotAfter (quadSlots (coreKind core)) last (s.unitSlot f.g f.u)
  pool.foldl (fun best f => match best with
    | none => some f
    | some b => if key f < key b then some f else some b) none

/-- The candidates that are not chosen wait one decision longer (R139). -/
def State.waitOn (s : State) (cs : List Frame) (f : Frame) : State :=
  cs.foldl (fun s c =>
    if c.gid == f.gid && c.ui == f.ui then s
    else match s.frameOf c.gid c.ui with
      | none => s
      | some c => s.put { c with u := { c.u with wait := c.u.wait + 1 } }) s

/-! ### What a word costs (R37, R138, R145, R179, R307) -/

/-- Clocks of one pass of a gang's lanes. -/
def passes (k : CoreKind) (width : Nat) : Nat := 1 + wideExtra k width

/-- Vector registers of some spans that lie in a bank, each once. -/
def bankedRegs (f : Frame) (l : List Span) : List Nat :=
  ((l.flatMap fun s => (List.range s.2).map fun k => Reg.next s.1 k).filter fun r => banked f.u.hm r).map (·.toNat) |>.dedup

/-- Extra slots of some registers: for each bank, one less than the registers read of it (R37). -/
def bankExtra (img : ImageKind) (rs : List Nat) : Nat :=
  ((List.range (banks img)).map fun b => (rs.filter fun r => r % banks img == b).length - 1).sum

/-- Extra slots of a word. -/
def wordExtra (f : Frame) (img : ImageKind) (i : Instr) : Nat :=
  let one (x : Slot) : Nat := bankExtra img (bankedRegs f ((Operand.slotRd x).map fun r => (r, 1)))
  match i with
  | .pairedWord a b => one a + one b
  | _ => if (info i).matrix then 0 else bankExtra img (bankedRegs f (f.infoOf i).rd)

/-- Clocks for which a word occupies its quadrant, before redundancy. -/
def State.clocksOf (s : State) (f : Frame) (i : Instr) : Nat :=
  let k := coreKind (s.coreOf f.g)
  let img := s.imageKind f
  let p := passes k f.g.width
  match i with
  | .dret .. => 2 * p
  | _ => if img == .tamut then 2 * p else if (info i).matrix then 1 else p + wordExtra f img i

/-- The word is duplicated (R144). -/
def duplicated (f : Frame) (i : Instr) : Bool := f.g.red && !(info i).matrix

/-- Clocks for which a word occupies its quadrant. -/
def State.occupancy (s : State) (f : Frame) (i : Instr) : Nat :=
  let swap := match i with
    | .eqp _ n => s.eqpSwap f n.toNat
    | _ => none
  match swap with
  | some (_, es) => coreClocks (coreKind (s.coreOf f.g)) (8 + es.length)
  | none => (if duplicated f i then 2 else 1) * s.clocksOf f i

/-- Gang issue slots of a word (R144, R179). -/
def slotsOf (i : Instr) : Nat :=
  match i with
  | .dret .. => 2
  | _ => 1

/-! ### The decision -/

/-- What a quadrant's decision comes to: a change of the machine, or an instruction to execute. -/
inductive Decision where
  | done (s : State)
  | run (i : Instr) (s : State)
  deriving DecidableEq, Repr

/-- A step of divergence takes the decision (R179). -/
def State.runStep (s : State) (f : Frame) (i : Instr) (signal : Nat) : Decision :=
  let core := s.coreOf f.g
  let s := (s.signal core signal 1).occupy f.gid f.ui (s.clock core) (3 * passes (coreKind core) f.g.width)
  .run i { s with cur := some (f.gid, f.ui) }

/-- A raised event is taken (R186, R189). -/
def State.runEvent (s : State) (f : Frame) : Decision :=
  s.runStep f (if f.g.hpc != 0 then .handlerEntry else .defaultDecision) 0x04

/-- While a forced rotation is due, a collective with lanes outside does not issue: its lanes count as having executed
and wait in `km`, and a further rotation follows (R198, R199, R200). -/
def discardColl (f : Frame) : Frame :=
  let pc := f.u.ipc
  let g := { f.g with lag := mergeLanes f.u.am (uniform 0) f.g.lag }
  let f := Frame.gather { f with g := g, u := { f.u with aged := f.u.aged &&& ~~~f.u.am } }
  { f with u := { f.u with rot := true, rotated := false, collPc := some pc, pass := none } }

/-- Lanes in which a word reads a poisoned register (R339); where it reads other lanes' registers, or writes a scalar,
a poisoned register of any lane counts for all. `pf` never consumes. -/
def State.poisonHits (s : State) (f : Frame) (i : Instr) : Mask :=
  let x := f.infoOf i
  let part := if x.unguarded then f.base else Frame.part f x.hdr
  let regs := readLocs f x
  let hit := maskOf fun l => regs.any fun loc => s.poisoned f.gid loc l
  let wide := match i with
    | .bcst .. | .shfl .. => true
    | _ => x.wr.any fun d => d.1.isS
  match i with
  | .pf .. => 0
  | _ => if wide then (if hit == 0 then 0 else part) else part &&& hit

/-! ### Words whose copies differ (R144, R145, R258) -/

/-- The datapath positions of a lane's two copies (R129, R144). -/
def State.positions (s : State) (g : Gang) (l : Nat) : Nat × Nat :=
  match coreKind (s.coreOf g) with
  | .banner =>
    let p := 8 * (s.gslot g (l / 8) % 8) + l % 8
    (p, (p + 1) % 64)
  | .pennant => (l % 16, (l % 16 + 1) % 16)

/-- The lane unit of a datapath position of a gang's quadrant (R341). -/
def State.laneUnit (s : State) (g : Gang) (p : Nat) : HwUnit := .lanes (s.coreOf g) g.quad (p / 8)

/-- The positions of the lane in which the copies differ: which of the lanes that take part it is, is free. -/
def State.differ (s : State) (g : Gang) (m : Mask) : (Nat × Nat) × State :=
  let ls := lanesOf m
  let (r, s) := s.free
  (s.positions g ((ls[r % max 1 ls.length]?).getD 0), s)

/-- A single mismatch is logged for its unit (R339, R340). -/
def State.corrected (s : State) (core : Nat) (u : HwUnit) : State := (s.logCorrected (unitNum u)).signal core 0x0F 1

/-- Which lanes of some the two results differ in, is free; at least one (R258; log entry 130). -/
def State.concerned (s : State) (m : Mask) : Mask × State :=
  let (r, s) := s.free
  let c := m &&& BitVec.ofNat 64 r
  (if c == 0 then (lowest m).elim 0 fun l => maskOf fun k => k == l else c, s)

/-- Some lanes fault at a unit's word, and the others, where it still has some, execute it. -/
def State.runOthers (s : State) (f : Frame) (bad : Mask) (c : Cause) (run : State → Frame → Decision) : Decision :=
  let s := s.laneFault f.gid f.ui bad c f.u.ipc
  match s.frameOf f.gid f.ui with
  | none => .done s
  | some f' => if f.u.hm || f'.u.am == 0 then .done s else run s f'

/-- A word of the matrix engine that has issued: its results are compared (R258). `trp` has none; an `mma` is checked at
its block steps. With two mismatches the lanes concerned fault and the others are written after the recompute. -/
def State.runMatrix (s : State) (f : Frame) (i : Instr) : Decision :=
  match i with
  | .trp .. => .run i s
  | _ =>
    let core := s.coreOf f.g
    let (miss, s) := s.takeGlitch (2 * core + 1)
    if 2 ≤ miss then
      let (m, s) := s.concerned (Frame.part f (info i).hdr)
      let s := { s.unitReport f.g .compute f.u.ipc m [.matrix core] 0 with slow := 8 }
      if m == 0 then .run i s else s.runOthers f m .compute fun s _ => .run i s
    else if miss = 1 then .run i { s.corrected core (.matrix core) with slow := 8 }
    else .run i s

/-- A word of the lane engine (majors 0x0 to 0x3 and 0xB, and paired words) but for the serialising `wrsr`: all it does is
write results. -/
def laneEngine (i : Instr) : Bool :=
  match i with
  | .pairedWord .. => true
  | .wrsr .. => false
  | _ => [0x0, 0x1, 0x2, 0x3, 0xB].contains ((encode i).extractLsb' 59 4).toNat

/-- The unit goes on while a word's copies are compared: what the word leaves behind is a result or an operation, which
the scoreboard and windows hold (R143, R144). Every other word acts on its unit or hands work to an engine, and does so
once its copies agree (R144, R145). -/
def goesOn (i : Instr) : Bool := laneEngine i || (info i).windowed || (info i).ord.isSome

/-- A duplicated word's copies differ: it is recomputed at a later decision of its quadrant, and what it writes is marked
until then (R143, R144; log entry 98). A word whose unit stands at it executes at the recompute, and no other unit of its
gang changes the scalars it has latched (log entry 123). -/
def State.recompute (s : State) (f : Frame) (i : Instr) (clk busy : Nat) (again : Bool) : State :=
  let core := s.coreOf f.g
  let lat := latency (coreKind core) f.g.width f.g.red (info i).lat
  let later : Bool := !again && ((info i).windowed || (info i).ord.isSome)
  let (id, s) := if later then (s.nextId, s) else s.newId
  let stands := if again then !laneEngine i else !goesOn i
  let r : Redo :=
    { id := id, gang := f.gid, unit := f.ui, pc := f.u.ipc, lanes := Frame.part f (info i).hdr, hm := f.u.hm, clk := clk
      at_ := clk + max busy lat, cost := busy, late := lat, again := again, word := if stands && !again then some i else none }
  let c := s.core core
  let q := FMap.getD c.quads f.g.quad {}
  let s := s.setCore core { c with quads := FMap.set c.quads f.g.quad { q with redo := q.redo ++ [r] } }
  let scalar (l : RegLoc) : Bool := match l with
    | .s _ => true
    | _ => false
  let latched := if stands then (readLocs f (f.infoOf i)).filter scalar else []
  let marks : List Mark := (writeLocs f (f.infoOf i) ++ latched).map fun l => { loc := l, till := .result id }
  { s with gangs := FMap.adjust s.gangs f.gid fun g =>
      { g with marks := g.marks ++ marks
               units := g.units.modify f.ui fun u => { u with redo := if stands then some id else u.redo } } }

/-- A word whose copies will differ twice writes nothing; a lane-engine word lets its unit go on meanwhile (R144). -/
def State.passOver (s : State) (f : Frame) (i : Instr) (id : Nat) : State :=
  if laneEngine i then (if (info i).windowed then s.openWindow f (info i) id else s).advance f else s

/-- A word that has its slot executes, unless its copies differ (R144, R258). With one mismatch the recompute gives what
the operands latched at issue give: a word whose unit goes on forms its result or operation now, which waits, with the
faults of its lanes and the pages they meet (log entry 123); any other executes at its recompute. -/
def State.runChecked (s : State) (f : Frame) (i : Instr) (clk busy : Nat) : Decision :=
  if !f.g.red then .run i s
  else if (info i).matrix then s.runMatrix f i
  else
    let (miss, s) := s.takeGlitch (2 * s.coreOf f.g)
    if miss = 0 then .run i s
    else if miss = 1 then
      (if goesOn i then .run i (s.recompute f i clk busy false) else .done (s.recompute f i clk busy false))
    else .done ((s.recompute f i clk busy true).passOver f i s.nextId)

/-- The first recompute of a quadrant that may start (R144). -/
def QuadState.redoDue (q : QuadState) (clk : Nat) : Option Redo := q.redo.find? fun r => decide (r.at_ ≤ clk)

/-- The unit that stood at a recompute goes on. -/
def UnitState.redone (id : Nat) (u : UnitState) : UnitState := if u.redo == some id then { u with redo := none } else u

/-- A gang whose word has been recomputed from a clock on: the result is written as late after it as it would have been
after the issue (R144, R145). A word that executes only now marks what it writes itself. -/
def Gang.redone (g : Gang) (r : Redo) (clk : Nat) (issued : Bool) : Gang :=
  let timed (m : Mark) : Option Mark :=
    if m.till == .result r.id && !issued then (if r.word.isSome then none else some { m with till := .clock (clk + r.late) })
    else some m
  let later (x : Nat × Result) : Nat × Result :=
    (x.1, if x.1 == r.id then { x.2 with due := x.2.due.map fun n => n + (clk - r.clk) } else x.2)
  let results : FMap Result := g.results.map later
  { g with marks := g.marks.filterMap timed, results := results, units := g.units.map (UnitState.redone r.id) }

/-- The copies agree: the result is due, and an operation performs where its masks are met (R144). -/
def State.redone (s : State) (r : Redo) (g : Gang) : State :=
  let issued : Bool := (FMap.get? s.ops r.id).isSome || (FMap.get? g.results r.id).isSome
  let s := s.setGang r.gang (g.redone r (s.clock (s.coreOf g)) issued)
  match FMap.get? s.ops r.id with
  | none => s
  | some o => o.parts.foldl (fun s p => s.performPart r.id p.grp true) s

/-- A second mismatch: nothing has been written, the lanes that took part fault with machine check 0x15, and the report
names both positions (R144, R340). -/
def State.recheckFails (s : State) (r : Redo) (g : Gang) : State :=
  let ((p, q), s) := s.differ g r.lanes
  let s := s.unitReport g .compute r.pc r.lanes [s.laneUnit g p, s.laneUnit g q].dedup (p + 64 * q)
  let s := s.closeWindow r.gang r.id
  let s := { s with gangs := FMap.adjust s.gangs r.gang fun g => { g with units := g.units.map (UnitState.redone r.id) } }
  if r.hm then s.laneFault r.gang r.unit r.lanes .compute r.pc
  else s.takeFaults r.gang ((lanesOf (r.lanes &&& ~~~g.allOf (·.xm))).map fun l => ⟨l, .compute, 0⟩) r.pc

/-- The copies of a word agree: what has been formed goes on, or the word executes in the unit that stands at it (R144,
R145). -/
def State.agree (s : State) (r : Redo) (g : Gang) : Decision :=
  let at_ := g.units.findIdx? fun u => u.redo == some r.id
  let s := s.redone r g
  match r.word, at_ with
  | some i, some ui => .run i { s with cur := some (r.gang, ui) }
  | _, _ => .done (s.reap r.gang)

/-- A recompute takes the decision of its quadrant, ahead of selection: the copies agree, or differ again (R144). -/
def State.redoStep (s : State) (core quad : Nat) (r : Redo) : Decision :=
  let c := s.core core
  let q := FMap.getD c.quads quad {}
  let clk := s.clock core
  let q := { q with redo := q.redo.erase r, busy := max q.busy (clk + r.cost) }
  let q' := (s.frameOf r.gang r.unit).elim q fun f => q.take (s.unitSlot f.g f.u) clk (clk + r.cost)
  let s := s.setCore core { c with quads := FMap.set c.quads quad q' }
  match FMap.get? s.gangs r.gang with
  | none => .done s
  | some g =>
    if r.again then .done ((s.recheckFails r g).reap r.gang)
    else
      let ((p, _), s) := s.differ g r.lanes
      (s.corrected (s.coreOf g) (s.laneUnit g p)).agree r g

/-! ### The word of a chosen unit -/

/-- A word issues: it takes its slot, lanes that read poisoned registers fault, and the others execute it. -/
def State.runWord (s : State) (f : Frame) (i : Instr) : Decision :=
  let core := s.coreOf f.g
  let clk := s.clock core
  let busy := s.occupancy f i
  let bad := s.poisonHits f i
  let s := (s.countWord f i).spendSlot f.gid f.ui (slotsOf i) clk busy
  let s : State := { s with cur := some (f.gid, f.ui) }
  if bad == 0 then s.runChecked f i clk busy
  else s.runOthers f bad .uncorrectable fun s f' => s.runChecked f' i clk busy

/-- The word is tried without issuing: it arrives at the latch, or asks for leave (R217, R261). -/
def State.asks (s : State) (f : Frame) (i : Instr) : Bool :=
  match i with
  | .mma .. => true
  | .cp h dir fill d a b _ => s.cpAsks f h dir fill d a b
  | .cpm h n d a b _ => s.cpmAsks f h n d a b
  | _ => false

/-- Barrier instructions. -/
def isBarrier (i : Instr) : Bool :=
  match i with
  | .barIni .. | .barArv .. | .barAwt .. | .barWt .. | .barExp .. | .barTst .. => true
  | _ => false

/-- The decision's clock goes by without a word of the chosen unit: it records the reason that holds it (R142). -/
def State.unissued (s : State) (f : Frame) : State :=
  let core := s.coreOf f.g
  let c := s.core core
  let q := FMap.getD c.quads f.g.quad {}
  let by_ := q.by_.filter fun x => x.1 != s.unitSlot f.g f.u
  s.setCore core { c with quads := FMap.set c.quads f.g.quad { q with by_ := by_ } }

/-- A fetched word of a chosen unit (R187, R188, R200). -/
def State.tryWord (s : State) (f : Frame) (i : Instr) : Decision :=
  if collRaised f i then
    if rotationDue f.g f.u then .done (s.put (discardColl f))
    else
      let f := { f with u := { f.u with due := some (.coll, f.u.ipc) } }
      (s.put f).runEvent f
  else if collCaught f i && !isBarrier i then
    let s := (s.countWord f i).spendSlot f.gid f.ui 1 (s.clock (s.coreOf f.g)) (s.occupancy f i)
    .done (s.laneFault f.gid f.ui f.u.am .partialColl f.u.ipc)
  else if s.asks f i then .run i { s.unissued f with cur := some (f.gid, f.ui) }
  else s.runWord f i

/-- The decision of a chosen unit (R185, R186, R193, R200, R361). -/
def State.act (s : State) (f : Frame) : Decision :=
  if rotates f then s.runStep f .forcedRotation 0x05
  else if raises f then s.runEvent f
  else
    let here : State := { s with cur := some (f.gid, f.ui) }
    if invocationOver f.u then .run .policyFault here
    else if (s.breakpoint f).isSome then .run .breakpointStop here
    else match s.fetch f with
      | (.page pg lv, s) => .done ((s.unissued f).parkPages f.gid f.ui f.u.ipc ((lanesOf f.u.am).map fun l => (l, pg, lv)))
      | (.word i, s) => s.tryWord f i

/-- A quadrant has chosen a unit: its decision takes at least the clock, and the unit is the last chosen (R138, R139). -/
def State.chosen (s : State) (core quad : Nat) (f : Frame) : State :=
  let c := s.core core
  let q := FMap.getD c.quads quad {}
  let slot := s.unitSlot f.g f.u
  let q' := { q.take slot (s.clock core) (s.clock core + 1) with last := some slot }
  s.setCore core { c with quads := FMap.set c.quads quad q' }

/-- The issue decision of a quadrant that is free: a recompute (R144), or the choice of a unit, which is named (R138,
R139). -/
def State.decision (s : State) (core quad : Nat) (late : Bool) : Option (Option Frame × Decision) :=
  let q := FMap.getD (s.core core).quads quad {}
  if s.clock core < q.busy then none
  else match q.redoDue (s.clock core) with
  | some r => some (none, ({ s with defer := late } : State).redoStep core quad r)
  | none =>
    let cs := s.candidates core quad
    (s.pick core (s.unitsIn core quad).length q.last cs).map fun f =>
      let s := s.waitOn cs f
      let f := (s.frameOf f.gid f.ui).getD f
      (some f, ({ s.chosen core quad f with defer := late } : State).act f)

/-! ### After a step -/

/-- A single step is over: its context stops again (R360, R362); the record shows the unit as it stands now, or, where it
is gone, as the step found it. -/
def State.stepStop (s : State) (f : Frame) : State :=
  if (s.ctx (s.ctxOf f.g)).stepping then s.debugStop ((s.frameOf f.gid f.ui).getD f) 3 0xFF 0 else s

/-- The decision of a unit is over; a recompute is none. -/
def State.endDecision (s : State) (f : Option Frame) : State := f.elim s s.stepStop

/-- A troupe may be released: its context runs; in a single step, which lets one unit issue, only where that unit is all of
it (R344, R362). -/
def State.mayRelease (s : State) (core : Nat) (ms : List (Nat × Nat × Nat)) (f : Frame) : Bool :=
  let x := s.ctx (s.ctxOf f.g)
  x.life == .running && (!x.stepping || (x.down.isNone && unitsOf ms == [(f.gid, f.ui)] && s.stepNames f core x))

/-- `TROUPE_RELEASE` (R261): every member gang of the troupe of a gang issues its `mma`, once leave is granted; in a context
that halts none issues (R344). A step of which it is the decision is over with it (R362). -/
def execTroupeRelease (core idx : Nat) (s : State) : Host.Outcome State Fault Refusal :=
  .next <| match s.granted core idx with
  | none => s
  | some (ms, f, i, slot) => if s.mayRelease core ms f then (s.release core ms f i slot).stepStop f else s

/-- Cores at whose latch a complete troupe may wait (R261). -/
def State.latchCores (s : State) : List Nat :=
  ((s.gangs.filter fun g => g.2.units.any fun u => u.stop == .troupe).map fun g => s.coreOf g.2).dedup

/-- What holds at once after every step: units that wait for one another at `regang` or for lanes at `wpark` go on,
complete troupes ask for leave where a slot is free, and teams are blocked or not (R22, R197, R202, R261, R262, R301). -/
def State.settle (s : State) : State :=
  let s := s.gangs.foldl (fun s g => (s.tryRegang g.1).wakePark g.1) { s with cur := none, defer := false, slow := 0 }
  let s := s.latchCores.foldl State.latch s
  s.teams.foldl (fun s t => s.settleTeam t.1) s

/-! ### Time -/

/-- A step of the opcode table. -/
abbrev DueStep := State → Host.Outcome State Fault Refusal

/-- A clock of a core ends with the running base tick. -/
def State.clockOver (s : State) (core : Nat) : Bool := (s.now + 1) % clockTicks (coreKind core) == 0

/-- `LINE_CLAIM` (R120): a performed `ldk` or `stf` claims its touched set and completes, as its core's clock ends, when
every claim that this clock may bring is there (`State.serveClaims`; log entry 61). -/
def execLineClaim (oid : Nat) (s : State) : Host.Outcome State Fault Refusal :=
  .next <| match FMap.get? s.ops oid with
  | none => s
  | some o =>
    if o.kind.claims && o.parts.all (·.performed) && !s.opFrozen o && s.clockOver (s.opCore o) && s.claimServed oid o
    then (s.claim oid o).endAll oid else s

/-- A write of `agl` takes effect in its clock (R135). -/
def State.aglDue (gid : Nat) : DueStep := fun s =>
  .next <| match FMap.get? s.gangs gid with
  | none => s
  | some g => if g.aglNext.any fun x => decide (x.2 ≤ s.clock (s.coreOf g)) then s.setGang gid g.takeAgl else s

/-- Steps that a clock brings due, with those the spec makes at once (R38, R83, R96, R118, R125, R135, R230, R272, R297, R300,
R311, R313, R330, R337, R345, R368). A held part whose mask has been met performs in the clock after (R350; log entry
118). -/
def State.dueSteps (s : State) : List DueStep :=
  let results : List DueStep := s.gangs.flatMap fun g => g.2.results.map fun r => execWindowedComplete g.1 r.1
  let held : List DueStep := s.ops.flatMap fun o =>
    (o.2.parts.filter fun p => p.due && !p.performed && s.mayPerform o.1 o.2 p.grp).map fun p => execOperationPerform o.1 p.grp
  let waits : List DueStep := (s.ops.filter fun o => s.barDone o.2).map fun o => execOperationComplete o.1 0 0
  let cores : List DueStep := s.cores.flatMap fun c =>
    (c.2.slots.map fun m => execMmaComplete c.1 m.1) ++ [execMmaBlockStep c.1, execTrapBinTimer c.1] ++
      c.2.gather.map fun l => execGatherLineTimeout c.1 (GLine.key l)
  let teams : List DueStep := s.teams.flatMap fun t =>
    [execRegionEntry t.1, execMigrationMove t.1, execMigrationResume t.1] ++
      t.2.bins.map fun b => execBinTimerExpiry t.1 b.1
  let ctxs : List DueStep := s.ctxs.flatMap fun c => [execFlagDown c.1, execSampleRecord c.1]
  let dies : List DueStep := (List.range 4).flatMap fun d =>
    ((s.die d).headAt.map fun k => execQueueHeadStarvation d (k.1 / 4) (k.1 % 4)) ++
      (List.range 4).map fun e => execFirmwareTimeout d e
  ctxs ++ teams ++ (s.gangs.map fun g => State.aglDue g.1) ++ results ++ cores ++ held ++ waits ++
    (s.holds.map fun h => execReservationHoldExpiry h.1) ++ dies

/-- The machine after a step that changes it. -/
def State.changed (s : State) (k : DueStep) : Option State :=
  match k s with
  | .next t => if t = s then none else some t
  | _ => none

/-- A unit's stall reason in a clock: none where its word has issued in it or still occupies the quadrant; else what holds
it, or that its only obstacle is another unit that holds the quadrant (R142, R371). One that nothing of R371's list holds,
because its context does not run or a debug stop holds it, records none (log entry 121). -/
def State.reasonOf (s : State) (core : Nat) (f : Frame) : Option Nat :=
  let q := FMap.getD (s.core core).quads f.g.quad {}
  if q.by_.any fun x => x.1 == s.unitSlot f.g f.u && decide (s.clock core < x.2) then none
  else match s.stall f with
    | some r => some r
    | none => if s.mayIssue f then some 11 else none

/-- Count the stall reasons of a core's units (R365, R371); that of a unit whose word is not fetched is free (log entry
113). -/
def State.countStalls (s : State) (core : Nat) : State :=
  if !(s.core core).ctr.watch then s
  else
    let fs := (List.range (quadCount (coreKind core))).flatMap fun q => s.unitsIn core q
    (fs.filterMap (s.reasonOf core)).foldl (fun s r =>
      if r = 0 then s.free.2.signal core (0x10 + s.free.1 % 15) 1 else s.signal core (0x0F + r) 1) s

/-- A unit whose next word would open a fifth window waits for the oldest from now on (R39). -/
def State.noteFifth (s : State) (f : Frame) : State :=
  if waitsOldest f then s
  else match (s.fetch f).1 with
    | .page _ _ => s
    | .word i => match s.oldestWindow f i with
      | none => s
      | some id => s.put { f with u := { f.u with fifth := some (f.u.ipc, id) } }

/-- The units of a core in gangs with four open windows. -/
def State.fullUnits (s : State) (core : Nat) : List (Nat × Nat) :=
  ((s.gangsOn core).filter fun g => decide (4 ≤ g.2.windows.length)).flatMap fun g =>
    (List.range g.2.units.length).map fun ui => (g.1, ui)

/-- A part that is held and whose masks are met is due. -/
def State.partDue (s : State) (oid : Nat) (o : Op) (p : Part) : Part :=
  if !p.performed && s.mayPerform oid o p.grp then { p with due := true } else p

/-- Held parts of a core's gangs whose masks are met as a clock ends perform in the next (R96, R350; log entry 118). -/
def State.noteDue (s : State) (core : Nat) : State :=
  let one (x : Nat × Op) : Nat × Op :=
    if s.opCore x.2 == core then (x.1, { x.2 with parts := x.2.parts.map (s.partDue x.1 x.2) }) else x
  { s with ops := s.ops.map one }

/-- A clock of a core ends: stalls, counters and derived events add up, held parts come due, and the context it serves has
used it (R39, R96, R305, R365, R366). Each clock is one of the core's own, 2.35 GHz ones on a pennant core (R4; log entry
25). -/
def State.clockEnds (s : State) (core : Nat) : State :=
  let s := s.noteDue core
  let s := (s.fullUnits core).foldl (fun s x => (s.frameOf x.1 x.2).elim s s.noteFifth) s
  let s := s.countStalls core
  let c := s.core core
  let s := s.setCore core { c with ctr := c.ctr.clock (s.clock core) }
  match (s.teamsOn core).head? with
  | none => s
  | some t =>
    let d := s.die (coreDie core)
    s.setDie (coreDie core) { d with used := FMap.set d.used t.2.ctx (FMap.getD d.used t.2.ctx 0 + 1) }

/-- A period of context sharing begins (R305). -/
def State.newPeriod (s : State) : State :=
  (List.range 4).foldl (fun s d => s.setDie d { s.die d with used := [] }) s

/-- The saves that end at a tick free their slots: what waits for room is formed (R297, R302, R330). -/
def State.endSaves (s : State) (n : Nat) : State :=
  (s.teams.filter fun t => t.2.life == .saved && t.2.resumeAt == n).foldl (fun s t => s.retryForm t.2.core) s

/-- The claims of lines are served as a clock ends, those of lower resident slots first (R120; log entry 61). -/
def State.serveClaims (s : State) : State :=
  let claims := sortBy (fun a b => decide (s.opSlot a.2 ≤ s.opSlot b.2)) (s.ops.filter fun o => o.2.kind.claims)
  claims.foldl (fun s o => match execLineClaim o.1 s with
    | .next t => t
    | _ => s) s

/-- One base tick passes; the claims of the clocks that end with it are served. -/
def State.advanceTime (s : State) : State :=
  let n := s.now + 1
  let s := s.serveClaims
  let cores := ((s.cores.map (·.1)) ++ s.teams.map fun t => t.2.core).dedup
  let s := (cores.filter fun c => n % clockTicks (coreKind c) == 0).foldl State.clockEnds s
  let s := if n % (Config.sharePeriod * Config.bannerTicks) = 0 then s.newPeriod else s
  ({ s with now := n } : State).endSaves n

/-- Quadrants in which gangs stand, of every core. -/
def State.quadsUsed (s : State) : List (Nat × Nat) := (s.gangs.map fun g => (s.coreOf g.2, g.2.quad)).dedup

/-- The first quadrant that is free and has a decision to make (R138, R140). -/
def State.openQuad (s : State) : Option (Nat × Nat) := s.quadsUsed.find? fun q => (s.decision q.1 q.2 false).isSome

/-- What the passing of time comes to: a step that is due, the decision of a quadrant, or what follows when a clock has
nothing else left: budgets that have run out, then the next tick. -/
inductive Passing where
  | state (s : State)
  | decide (core quad : Nat)
  deriving DecidableEq, Repr

/-- Time passes: the first step that is due and changes the machine is made; with none, a quadrant that is free decides
(R138); with none, a migration whose budget has run out ends (R311), or a tick passes, at which claims of lines are served
(R120). -/
def State.tick (s : State) : Passing :=
  match s.dueSteps.findSome? s.changed with
  | some t => .state t
  | none => match s.openQuad with
    | some q => .decide q.1 q.2
    | none =>
      .state (((s.teams.map fun t => execMigrationBudgetExpiry t.1).findSome? s.changed).getD s.advanceTime)

/-! ### What happens to the machine from outside -/

/-- The comparison of a core's next duplicated word, or of its matrix unit's next result, fails once or twice (R144,
R274). -/
def State.addGlitch (s : State) (key n : Nat) : State := { s with glitches := FMap.set s.glitches key (min n 2) }

/-- A unit's next word is not fetched for some base ticks: how many, the spec leaves open (R142; log entry 113). -/
def State.fetchLate (s : State) (gang unit n : Nat) : State :=
  let late (u : UnitState) : UnitState := { u with fetchAt := s.now + n }
  { s with gangs := FMap.adjust s.gangs gang fun g => { g with units := g.units.modify unit late } }

/-! ### Turns -/

/-- The next turn: the first of the agenda, else a free one (log entry 1). -/
def State.nextTurn (s : State) : Turn × State :=
  match s.agenda with
  | t :: rest => (t, { s with agenda := rest })
  | [] => (Config.freeTurn s.fresh, { s with fresh := s.fresh + 1 })

/-- A step of the opcode table that is neither an instruction word nor part of a unit's decision or of a clock's end. -/
def isEvent (i : Instr) : Bool :=
  !(info i).word && match i with
    | .lineClaim _ | .illegalEncoding _ | .handlerEntry | .defaultDecision | .forcedRotation | .policyFault | .breakpointStop => false
    | _ => true

/-- What follows the next state of a step. -/
def andThen (k : State → State) (o : Host.Outcome State Fault Refusal) : Host.Outcome State Fault Refusal :=
  match o with
  | .next t => .next (k t)
  | .fault r => .fault r
  | .refused r => .refused r

/-! ### A machine about to execute one word -/

/-- The header of `State.withWord`: every register is declared. -/
def benchHeader : Header :=
  { func := 0, entry := 0x10000, hpc := 0, tentry := 0, scratch := 131072, redundant := false, strict := false
    fready := false, regs := 192, scalars := 48, gang := 8, team := 1, barriers := 16, cls := 1 }

/-- A launch record for `State.withWord`. -/
def benchRecord : LaunchRec :=
  { obj := 0, cver := 1, kind := 0, cls := 0xFF, func := 0, ncl := 1, cw := 1, ch := 1, tsz := 0, red := 0, dmask := 1
    zeros := true, args := 0 }

/-- The version that holds one word, at PC 0x1_0000. -/
def benchVersion (w : DWord) : Version :=
  { obj := 0, ver := 1, code := [(0x2000, w)]
    images := [{ kind := .banner, base := 0x10000, size := 8, headers := [benchHeader], equiv := [] }]
    chosenB := some 0, chosenP := none, funcs := [], ftabVa := 0, maps := [], fw := none, codeVa := none }

/-- Context 0 runs one grid of one team of one 8-lane gang on core 0, which stands at a word, in handler mode where the
word is legal only there; its quadrant decides next. -/
def State.withWord (s : State) (w : DWord) : State :=
  let only := (decodeWord w).any fun i => (info i).hm == .only
  let grid : Grid :=
    { ctx := 0, lr := benchRecord, version := 0, header := benchHeader, recLoc := .mem 0 0, sc := .device, op := none
      lpc0 := 0, lseq := 1, launches := 0, placed := 1, status := 0, began := 0 }
  let team : Team :=
    { ctx := 0, grid := 0, handle := 1, cluster := 0, rank := 0, life := .resident, core := 0, kind := .banner
      header := benchHeader, groups := 1, mem := [], lines := [], bars := [], bins := [], mig := none, poison := []
      placedAt := s.now, blockedAt := 0, resumeAt := 0, entries := [], batches := [], savedTrap := none, savedWait := [] }
  let g := Gang.start 0 8 0 0 0 benchHeader 1 false (lowLanes 8) 0x10000 0
  let gang := { g with units := g.units.map fun u => { u with hm := only } }
  let x := s.ctx 0
  let ctx : Ctx := { x with life := .running, down := none, stepping := false, bp := Vector.replicate 4 0
                            versions := FMap.set x.versions 0 (benchVersion w) }
  let core : CoreState := { s.core 0 with quads := [], quadsUp := 0xFF }
  ({ s with
     agenda := [.issue 0 0 false], cur := none, defer := false, glitches := [], regPoison := [], ops := []
     grids := [(0, grid)], teams := [(0, team)], gangs := [(0, gang)] }).setCore 0 core |>.setCtx 0 ctx

end Sys2Proof.Machine
end

