-- ==== Sys2Proof/Machine/Dispatch.lean ====
section
/-! DEFINITION. One arm per constructor of `Instr`: a direct call of its meaning. -/

namespace Sys2Proof.Machine

open Sys2Proof

/-- What an instruction or step does. -/
def exec (i : Instr) (s : State) : Host.Outcome State Fault Refusal :=
  match i with
  | .add h ty d a b => Sys2Proof.Machine.execAdd h ty d a b s
  | .addImm h ty d a imm => Sys2Proof.Machine.execAddImm h ty d a imm s
  | .sub h ty d a b => Sys2Proof.Machine.execSub h ty d a b s
  | .subImm h ty d a imm => Sys2Proof.Machine.execSubImm h ty d a imm s
  | .mul h ty d a b => Sys2Proof.Machine.execMul h ty d a b s
  | .mulImm h ty d a imm => Sys2Proof.Machine.execMulImm h ty d a imm s
  | .mulh h ty d a b => Sys2Proof.Machine.execMulh h ty d a b s
  | .mulhImm h ty d a imm => Sys2Proof.Machine.execMulhImm h ty d a imm s
  | .mad h ty d a b c => Sys2Proof.Machine.execMad h ty d a b c s
  | .madImm h ty d a imm => Sys2Proof.Machine.execMadImm h ty d a imm s
  | .div h ty d a b => Sys2Proof.Machine.execDiv h ty d a b s
  | .divImm h ty d a imm => Sys2Proof.Machine.execDivImm h ty d a imm s
  | .rem h ty d a b => Sys2Proof.Machine.execRem h ty d a b s
  | .remImm h ty d a imm => Sys2Proof.Machine.execRemImm h ty d a imm s
  | .min h ty d a b => Sys2Proof.Machine.execMin h ty d a b s
  | .minImm h ty d a imm => Sys2Proof.Machine.execMinImm h ty d a imm s
  | .max h ty d a b => Sys2Proof.Machine.execMax h ty d a b s
  | .maxImm h ty d a imm => Sys2Proof.Machine.execMaxImm h ty d a imm s
  | .abs h ty d a => Sys2Proof.Machine.execAbs h ty d a s
  | .neg h ty d a => Sys2Proof.Machine.execNeg h ty d a s
  | .and h ty d a b => Sys2Proof.Machine.execAnd h ty d a b s
  | .andImm h ty d a imm => Sys2Proof.Machine.execAndImm h ty d a imm s
  | .or h ty d a b => Sys2Proof.Machine.execOr h ty d a b s
  | .orImm h ty d a imm => Sys2Proof.Machine.execOrImm h ty d a imm s
  | .xor h ty d a b => Sys2Proof.Machine.execXor h ty d a b s
  | .xorImm h ty d a imm => Sys2Proof.Machine.execXorImm h ty d a imm s
  | .andn h ty d a b => Sys2Proof.Machine.execAndn h ty d a b s
  | .andnImm h ty d a imm => Sys2Proof.Machine.execAndnImm h ty d a imm s
  | .shl h ty d a b => Sys2Proof.Machine.execShl h ty d a b s
  | .shlImm h ty d a imm => Sys2Proof.Machine.execShlImm h ty d a imm s
  | .shr h ty d a b => Sys2Proof.Machine.execShr h ty d a b s
  | .shrImm h ty d a imm => Sys2Proof.Machine.execShrImm h ty d a imm s
  | .sar h ty d a b => Sys2Proof.Machine.execSar h ty d a b s
  | .sarImm h ty d a imm => Sys2Proof.Machine.execSarImm h ty d a imm s
  | .rot h ty d a b => Sys2Proof.Machine.execRot h ty d a b s
  | .rotImm h ty d a imm => Sys2Proof.Machine.execRotImm h ty d a imm s
  | .clz h ty d a => Sys2Proof.Machine.execClz h ty d a s
  | .popc h ty d a => Sys2Proof.Machine.execPopc h ty d a s
  | .brev h ty d a => Sys2Proof.Machine.execBrev h ty d a s
  | .bfx h ty d a b => Sys2Proof.Machine.execBfx h ty d a b s
  | .bfxImm h ty d a imm => Sys2Proof.Machine.execBfxImm h ty d a imm s
  | .bfi h ty d a b c => Sys2Proof.Machine.execBfi h ty d a b c s
  | .bfiImm h ty d a imm => Sys2Proof.Machine.execBfiImm h ty d a imm s
  | .sel h ty q d a b => Sys2Proof.Machine.execSel h ty q d a b s
  | .selImm h ty q d a imm => Sys2Proof.Machine.execSelImm h ty q d a imm s
  | .cmp h cc ty pd a b => Sys2Proof.Machine.execCmp h cc ty pd a b s
  | .cmpImm h cc ty pd a imm => Sys2Proof.Machine.execCmpImm h cc ty pd a imm s
  | .addc h ty q d a b => Sys2Proof.Machine.execAddc h ty q d a b s
  | .addcImm h ty q d a imm => Sys2Proof.Machine.execAddcImm h ty q d a imm s
  | .subc h ty q d a b => Sys2Proof.Machine.execSubc h ty q d a b s
  | .subcImm h ty q d a imm => Sys2Proof.Machine.execSubcImm h ty q d a imm s
  | .lea h ty sh d a b => Sys2Proof.Machine.execLea h ty sh d a b s
  | .leaImm h ty sh d a imm => Sys2Proof.Machine.execLeaImm h ty sh d a imm s
  | .acs h n d a b c => Sys2Proof.Machine.execAcs h n d a b c s
  | .acsImm h n d a imm => Sys2Proof.Machine.execAcsImm h n d a imm s
  | .fadd h ty rm ov d a b => Sys2Proof.Machine.execFadd h ty rm ov d a b s
  | .fsub h ty rm ov d a b => Sys2Proof.Machine.execFsub h ty rm ov d a b s
  | .fmul h ty rm ov d a b => Sys2Proof.Machine.execFmul h ty rm ov d a b s
  | .ffma h ty rm ov d a b c => Sys2Proof.Machine.execFfma h ty rm ov d a b c s
  | .fmin h ty d a b => Sys2Proof.Machine.execFmin h ty d a b s
  | .fmax h ty d a b => Sys2Proof.Machine.execFmax h ty d a b s
  | .fcmp h cc ty pd a b => Sys2Proof.Machine.execFcmp h cc ty pd a b s
  | .frcp h ty rm ov d a => Sys2Proof.Machine.execFrcp h ty rm ov d a s
  | .frsq h ty rm d a => Sys2Proof.Machine.execFrsq h ty rm d a s
  | .fsqrt h ty rm d a => Sys2Proof.Machine.execFsqrt h ty rm d a s
  | .fex2 h ty rm ov d a => Sys2Proof.Machine.execFex2 h ty rm ov d a s
  | .flg2 h ty rm d a => Sys2Proof.Machine.execFlg2 h ty rm d a s
  | .fdiv h ty rm ov d a b => Sys2Proof.Machine.execFdiv h ty rm ov d a b s
  | .frnd h ty rm d a => Sys2Proof.Machine.execFrnd h ty rm d a s
  | .fclass h ty d a => Sys2Proof.Machine.execFclass h ty d a s
  | .cvt h dt st rm ov d a c => Sys2Proof.Machine.execCvt h dt st rm ov d a c s
  | .mov h ty d a => Sys2Proof.Machine.execMov h ty d a s
  | .bcst h ty d a b => Sys2Proof.Machine.execBcst h ty d a b s
  | .shfl h mode seg ty d a b => Sys2Proof.Machine.execShfl h mode seg ty d a b s
  | .rdsr h d sr => Sys2Proof.Machine.execRdsr h d sr s
  | .wrsr h sr a => Sys2Proof.Machine.execWrsr h sr a s
  | .pand h na nb pd pa pb => Sys2Proof.Machine.execPand h na nb pd pa pb s
  | .por h na nb pd pa pb => Sys2Proof.Machine.execPor h na nb pd pa pb s
  | .pxor h na nb pd pa pb => Sys2Proof.Machine.execPxor h na nb pd pa pb s
  | .pnot h pd pa => Sys2Proof.Machine.execPnot h pd pa s
  | .pmov h pd pa => Sys2Proof.Machine.execPmov h pd pa s
  | .pmovNz h pd a => Sys2Proof.Machine.execPmovNz h pd a s
  | .pmovAll h a => Sys2Proof.Machine.execPmovAll h a s
  | .pget h d => Sys2Proof.Machine.execPget h d s
  | .voteOr h inv pd pa => Sys2Proof.Machine.execVoteOr h inv pd pa s
  | .voteAnd h inv pd pa => Sys2Proof.Machine.execVoteAnd h inv pd pa s
  | .voteSame h inv pd pa => Sys2Proof.Machine.execVoteSame h inv pd pa s
  | .voteMask h inv d pa => Sys2Proof.Machine.execVoteMask h inv d pa s
  | .bra h ofs => Sys2Proof.Machine.execBra h ofs s
  | .brx h a => Sys2Proof.Machine.execBrx h a s
  | .call h d ofs => Sys2Proof.Machine.execCall h d ofs s
  | .callx h d a => Sys2Proof.Machine.execCallx h d a s
  | .ret h a => Sys2Proof.Machine.execRet h a s
  | .exit h => Sys2Proof.Machine.execExit h s
  | .nop h => Sys2Proof.Machine.execNop h s
  | .join h => Sys2Proof.Machine.execJoin h s
  | .park h ofs => Sys2Proof.Machine.execPark h ofs s
  | .wpark h => Sys2Proof.Machine.execWpark h s
  | .dret h d a => Sys2Proof.Machine.execDret h d a s
  | .dmin h d a => Sys2Proof.Machine.execDmin h d a s
  | .dmaj h d a => Sys2Proof.Machine.execDmaj h d a s
  | .dsel h d a b => Sys2Proof.Machine.execDsel h d a b s
  | .split h d a => Sys2Proof.Machine.execSplit h d a s
  | .regang h => Sys2Proof.Machine.execRegang h s
  | .ldN8 h d ad ro => Sys2Proof.Machine.execLdN8 h d ad ro s
  | .ldN16 h d ad ro => Sys2Proof.Machine.execLdN16 h d ad ro s
  | .ld32 h d ad ro => Sys2Proof.Machine.execLd32 h d ad ro s
  | .ld64 h d ad ro => Sys2Proof.Machine.execLd64 h d ad ro s
  | .ld128 h d ad ro => Sys2Proof.Machine.execLd128 h d ad ro s
  | .ldI8 h d ad ro => Sys2Proof.Machine.execLdI8 h d ad ro s
  | .ldI16 h d ad ro => Sys2Proof.Machine.execLdI16 h d ad ro s
  | .st8 h d ad => Sys2Proof.Machine.execSt8 h d ad s
  | .st16 h d ad => Sys2Proof.Machine.execSt16 h d ad s
  | .st32 h d ad => Sys2Proof.Machine.execSt32 h d ad s
  | .st64 h d ad => Sys2Proof.Machine.execSt64 h d ad s
  | .st128 h d ad => Sys2Proof.Machine.execSt128 h d ad s
  | .ldc32 h d ad => Sys2Proof.Machine.execLdc32 h d ad s
  | .ldc64 h d ad => Sys2Proof.Machine.execLdc64 h d ad s
  | .ldc128 h d ad => Sys2Proof.Machine.execLdc128 h d ad s
  | .ldt h d ad => Sys2Proof.Machine.execLdt h d ad s
  | .stt h d ad => Sys2Proof.Machine.execStt h d ad s
  | .trec h t ad => Sys2Proof.Machine.execTrec h t ad s
  | .pf h ad => Sys2Proof.Machine.execPf h ad s
  | .ldk h d ad => Sys2Proof.Machine.execLdk h d ad s
  | .stf h d ad => Sys2Proof.Machine.execStf h d ad s
  | .fes h ad => Sys2Proof.Machine.execFes h ad s
  | .fec h ad => Sys2Proof.Machine.execFec h ad s
  | .fet h pd ad => Sys2Proof.Machine.execFet h pd ad s
  | .ldr32 h d ad => Sys2Proof.Machine.execLdr32 h d ad s
  | .ldr64 h d ad => Sys2Proof.Machine.execLdr64 h d ad s
  | .stc32 h d ad => Sys2Proof.Machine.execStc32 h d ad s
  | .stc64 h d ad => Sys2Proof.Machine.execStc64 h d ad s
  | .atmAdd32 h d ad => Sys2Proof.Machine.execAtmAdd32 h d ad s
  | .atmSub32 h d ad => Sys2Proof.Machine.execAtmSub32 h d ad s
  | .atmMin32 h d ad => Sys2Proof.Machine.execAtmMin32 h d ad s
  | .atmMax32 h d ad => Sys2Proof.Machine.execAtmMax32 h d ad s
  | .atmAnd32 h d ad => Sys2Proof.Machine.execAtmAnd32 h d ad s
  | .atmOr32 h d ad => Sys2Proof.Machine.execAtmOr32 h d ad s
  | .atmXor32 h d ad => Sys2Proof.Machine.execAtmXor32 h d ad s
  | .atmXchg32 h d ad => Sys2Proof.Machine.execAtmXchg32 h d ad s
  | .atmFadd32 h d ad => Sys2Proof.Machine.execAtmFadd32 h d ad s
  | .atmCas32 h d ad => Sys2Proof.Machine.execAtmCas32 h d ad s
  | .atmMinu32 h d ad => Sys2Proof.Machine.execAtmMinu32 h d ad s
  | .atmMaxu32 h d ad => Sys2Proof.Machine.execAtmMaxu32 h d ad s
  | .atmAdd64 h d ad => Sys2Proof.Machine.execAtmAdd64 h d ad s
  | .atmSub64 h d ad => Sys2Proof.Machine.execAtmSub64 h d ad s
  | .atmMin64 h d ad => Sys2Proof.Machine.execAtmMin64 h d ad s
  | .atmMax64 h d ad => Sys2Proof.Machine.execAtmMax64 h d ad s
  | .atmAnd64 h d ad => Sys2Proof.Machine.execAtmAnd64 h d ad s
  | .atmOr64 h d ad => Sys2Proof.Machine.execAtmOr64 h d ad s
  | .atmXor64 h d ad => Sys2Proof.Machine.execAtmXor64 h d ad s
  | .atmXchg64 h d ad => Sys2Proof.Machine.execAtmXchg64 h d ad s
  | .atmCas64 h d ad => Sys2Proof.Machine.execAtmCas64 h d ad s
  | .atmMinu64 h d ad => Sys2Proof.Machine.execAtmMinu64 h d ad s
  | .atmMaxu64 h d ad => Sys2Proof.Machine.execAtmMaxu64 h d ad s
  | .barIni h id a o => Sys2Proof.Machine.execBarIni h id a o s
  | .barArv h d id a o => Sys2Proof.Machine.execBarArv h d id a o s
  | .barAwt h d id a o => Sys2Proof.Machine.execBarAwt h d id a o s
  | .barWt h id a o => Sys2Proof.Machine.execBarWt h id a o s
  | .barExp h id a nxt o => Sys2Proof.Machine.execBarExp h id a nxt o s
  | .barTst h d id o => Sys2Proof.Machine.execBarTst h d id o s
  | .sqry h d n o => Sys2Proof.Machine.execSqry h d n o s
  | .cp h dir fill d a b o => Sys2Proof.Machine.execCp h dir fill d a b o s
  | .cpm h n d a b o => Sys2Proof.Machine.execCpm h n d a b o s
  | .cpc h d a b o => Sys2Proof.Machine.execCpc h d a b o s
  | .trp h a => Sys2Proof.Machine.execTrp h a s
  | .mma h et sm sel ov z a b c sreg => Sys2Proof.Machine.execMma h et sm sel ov z a b c sreg s
  | .qnt h et ov d a => Sys2Proof.Machine.execQnt h et ov d a s
  | .cvtn h et ov d a => Sys2Proof.Machine.execCvtn h et ov d a s
  | .cvtw h et d a => Sys2Proof.Machine.execCvtw h et d a s
  | .flg h d a => Sys2Proof.Machine.execFlg h d a s
  | .chk h pd a => Sys2Proof.Machine.execChk h pd a s
  | .launch h a o => Sys2Proof.Machine.execLaunch h a o s
  | .spawn h idx d o => Sys2Proof.Machine.execSpawn h idx d o s
  | .binCfg h idx d a b => Sys2Proof.Machine.execBinCfg h idx d a b s
  | .binFl h idx => Sys2Proof.Machine.execBinFl h idx s
  | .binRel h idx => Sys2Proof.Machine.execBinRel h idx s
  | .binQ h idx d => Sys2Proof.Machine.execBinQ h idx d s
  | .eqp h n => Sys2Proof.Machine.execEqp h n s
  | .migr h pd kind a => Sys2Proof.Machine.execMigr h pd kind a s
  | .vqry h k d a => Sys2Proof.Machine.execVqry h k d a s
  | .trap h code d a => Sys2Proof.Machine.execTrap h code d a s
  | .tres h a b => Sys2Proof.Machine.execTres h a b s
  | .tkill h a => Sys2Proof.Machine.execTkill h a s
  | .orr h cls r d a => Sys2Proof.Machine.execOrr h cls r d a s
  | .orw h cls r a b => Sys2Proof.Machine.execOrw h cls r a b s
  | .copen h d a ofs => Sys2Proof.Machine.execCopen h d a ofs s
  | .cclose h => Sys2Proof.Machine.execCclose h s
  | .halt h a => Sys2Proof.Machine.execHalt h a s
  | .ctxrd h d a => Sys2Proof.Machine.execCtxrd h d a s
  | .ctxwr h a b => Sys2Proof.Machine.execCtxwr h a b s
  | .brk h code => Sys2Proof.Machine.execBrk h code s
  | .trc h code a => Sys2Proof.Machine.execTrc h code a s
  | .clk h d => Sys2Proof.Machine.execClk h d s
  | .pmk h clr d a => Sys2Proof.Machine.execPmk h clr d a s
  | .movi h d imm => Sys2Proof.Machine.execMovi h d imm s
  | .moviS64 h d imm => Sys2Proof.Machine.execMoviS64 h d imm s
  | .moviZ64 h d imm => Sys2Proof.Machine.execMoviZ64 h d imm s
  | .movh h d imm => Sys2Proof.Machine.execMovh h d imm s
  | .addL h d imm => Sys2Proof.Machine.execAddL h d imm s
  | .andL h d imm => Sys2Proof.Machine.execAndL h d imm s
  | .orL h d imm => Sys2Proof.Machine.execOrL h d imm s
  | .xorL h d imm => Sys2Proof.Machine.execXorL h d imm s
  | .faddL h d imm => Sys2Proof.Machine.execFaddL h d imm s
  | .fmulL h d imm => Sys2Proof.Machine.execFmulL h d imm s
  | .pairedWord s0 s1 => Sys2Proof.Machine.execPairedWord s0 s1 s
  | .illegalEncoding c => Sys2Proof.Machine.execIllegalEncoding c s
  | .handlerEntry => Sys2Proof.Machine.execHandlerEntry s
  | .defaultDecision => Sys2Proof.Machine.execDefaultDecision s
  | .forcedRotation => Sys2Proof.Machine.execForcedRotation s
  | .policyFault => Sys2Proof.Machine.execPolicyFault s
  | .operationPerform op grp => Sys2Proof.Machine.execOperationPerform op grp s
  | .operationComplete op grp which => Sys2Proof.Machine.execOperationComplete op grp which s
  | .windowedComplete gang res => Sys2Proof.Machine.execWindowedComplete gang res s
  | .gatherLineWriteback core sector => Sys2Proof.Machine.execGatherLineWriteback core sector s
  | .gatherLineTimeout core sector => Sys2Proof.Machine.execGatherLineTimeout core sector s
  | .faultRingRecord ctx => Sys2Proof.Machine.execFaultRingRecord ctx s
  | .lineClaim op => Sys2Proof.Machine.execLineClaim op s
  | .reservationHoldExpiry granule => Sys2Proof.Machine.execReservationHoldExpiry granule s
  | .leaveGrant die => Sys2Proof.Machine.execLeaveGrant die s
  | .transferUnitLand op unit => Sys2Proof.Machine.execTransferUnitLand op unit s
  | .multicastClaim op => Sys2Proof.Machine.execMulticastClaim op s
  | .multicastLineLand op rank line => Sys2Proof.Machine.execMulticastLineLand op rank line s
  | .commandStart die eng => Sys2Proof.Machine.execCommandStart die eng s
  | .firmwareContextSwitch die eng => Sys2Proof.Machine.execFirmwareContextSwitch die eng s
  | .xgoCopy die eng => Sys2Proof.Machine.execXgoCopy die eng s
  | .xgoAddF32 die eng => Sys2Proof.Machine.execXgoAddF32 die eng s
  | .xgoAddBf16x2 die eng => Sys2Proof.Machine.execXgoAddBf16x2 die eng s
  | .xgoAddI32 die eng => Sys2Proof.Machine.execXgoAddI32 die eng s
  | .xgoMaxF32 die eng => Sys2Proof.Machine.execXgoMaxF32 die eng s
  | .xgoMinF32 die eng => Sys2Proof.Machine.execXgoMinF32 die eng s
  | .collectiveTransferLand die eng tag elem => Sys2Proof.Machine.execCollectiveTransferLand die eng tag elem s
  | .done die eng status => Sys2Proof.Machine.execDone die eng status s
  | .commandComplete die eng => Sys2Proof.Machine.execCommandComplete die eng s
  | .firmwareFault die eng why => Sys2Proof.Machine.execFirmwareFault die eng why s
  | .firmwareTimeout die eng => Sys2Proof.Machine.execFirmwareTimeout die eng s
  | .flitCrcFail link => Sys2Proof.Machine.execFlitCrcFail link s
  | .troupeRelease core idx => Sys2Proof.Machine.execTroupeRelease core idx s
  | .mmaBlockStep core => Sys2Proof.Machine.execMmaBlockStep core s
  | .mmaComplete core slot => Sys2Proof.Machine.execMmaComplete core slot s
  | .gridRetire grid => Sys2Proof.Machine.execGridRetire grid s
  | .placementDecision die ctx => Sys2Proof.Machine.execPlacementDecision die ctx s
  | .teamSave team => Sys2Proof.Machine.execTeamSave team s
  | .queueHeadStarvation die ctx cls => Sys2Proof.Machine.execQueueHeadStarvation die ctx cls s
  | .binTimerExpiry team idx => Sys2Proof.Machine.execBinTimerExpiry team idx s
  | .trapBinTimer core => Sys2Proof.Machine.execTrapBinTimer core s
  | .migrationBudgetExpiry team => Sys2Proof.Machine.execMigrationBudgetExpiry team s
  | .migrationMove team => Sys2Proof.Machine.execMigrationMove team s
  | .migrationResume team => Sys2Proof.Machine.execMigrationResume team s
  | .syscallRingRecord ctx => Sys2Proof.Machine.execSyscallRingRecord ctx s
  | .syscallReturn ctx id => Sys2Proof.Machine.execSyscallReturn ctx id s
  | .syscallRestart ctx id => Sys2Proof.Machine.execSyscallRestart ctx id s
  | .syscallExit ctx id => Sys2Proof.Machine.execSyscallExit ctx id s
  | .regionEntry team => Sys2Proof.Machine.execRegionEntry team s
  | .flagDown ctx => Sys2Proof.Machine.execFlagDown ctx s
  | .contextHalted ctx => Sys2Proof.Machine.execContextHalted ctx s
  | .uncorrectableError loc => Sys2Proof.Machine.execUncorrectableError loc s
  | .correctedError u => Sys2Proof.Machine.execCorrectedError u s
  | .testSlice u passed => Sys2Proof.Machine.execTestSlice u passed s
  | .breakpointStop => Sys2Proof.Machine.execBreakpointStop s
  | .sampleRecord ctx => Sys2Proof.Machine.execSampleRecord ctx s
  | .ctxCreate ctx => Sys2Proof.Machine.execCtxCreate ctx s
  | .ctxResume ctx => Sys2Proof.Machine.execCtxResume ctx s
  | .ctxEnd ctx => Sys2Proof.Machine.execCtxEnd ctx s
  | .ctxStep ctx => Sys2Proof.Machine.execCtxStep ctx s
  | .dirstart ctx va => Sys2Proof.Machine.execDirstart ctx va s
  | .resume ctx id => Sys2Proof.Machine.execResume ctx id s
  | .pgres ctx va => Sys2Proof.Machine.execPgres ctx va s
  | .inval ctx v => Sys2Proof.Machine.execInval ctx v s
  | .invalComplete ctx => Sys2Proof.Machine.execInvalComplete ctx s
  | .resync v => Sys2Proof.Machine.execResync v s
  | .resyncDone => Sys2Proof.Machine.execResyncDone s
  | .fwload v => Sys2Proof.Machine.execFwload v s
  | .fwloadDone result version => Sys2Proof.Machine.execFwloadDone result version s
  | .attest v => Sys2Proof.Machine.execAttest v s
  | .attestDone => Sys2Proof.Machine.execAttestDone s
  | .counterClear core => Sys2Proof.Machine.execCounterClear core s
  | .bar2Write ofs bytes => Sys2Proof.Machine.execBar2Write ofs bytes s
  | .bar2Read ofs len => Sys2Proof.Machine.execBar2Read ofs len s
  | .registerWrite ofs v => Sys2Proof.Machine.execRegisterWrite ofs v s
  | .deviceReset fwOk hbmOk linksOk num => Sys2Proof.Machine.execDeviceReset fwOk hbmOk linksOk num s
  | .systemWindowAccessFromPeer home pa acc => Sys2Proof.Machine.execSystemWindowAccessFromPeer home pa acc s
  | .xerrRead die eng => Sys2Proof.Machine.execXerrRead die eng s

end Sys2Proof.Machine
end

