-- ==== Sys2Proof/Machine/Loader.lean ====
section
/-! DEFINITION. The loader and the translator as the device meets them (R66, R69 to R71, R76, R77, R308, R314): which
image of an object runs on a kind of core, which versions are refused, and the copy of the function table that a load
writes. -/

namespace Sys2Proof.Machine

/-! ### The choice of an image (R77) -/

/-- The features that are present and enabled in the capability list. -/
def Dev.features (d : Dev) : DWord := d.featPresent &&& d.featEnabled

/-- An image is a candidate for a kind of core. -/
def Image.candidate (feats : DWord) (k : CoreKind) (i : Image) : Bool :=
  (i.kind == CoreKind.image k || i.kind == .tamut) && i.genmask.getLsbD 0 && (i.req &&& ~~~feats) == 0

/-- How many optional features of an image are present and enabled. -/
def Image.options (feats : DWord) (i : Image) : Nat := ((List.range 64).filter fun n => (i.opt &&& feats).getLsbD n).length

/-- An image outranks another: native over Tamut, then the higher `tune`, then the more optional features. -/
def Image.outranks (feats : DWord) (k : CoreKind) (a b : Image) : Bool :=
  let native (i : Image) : Bool := i.kind == CoreKind.image k
  if native a != native b then native a
  else if a.tune ≠ b.tune then decide (b.tune < a.tune)
  else decide (b.options feats < a.options feats)

/-- The index of the image chosen for a kind of core: of candidates none of which outranks the other, the lower index. -/
def chooseImage (feats : DWord) (k : CoreKind) (is : List Image) : Option Nat :=
  let best (x : Option (Image × Nat)) (y : Image × Nat) : Option (Image × Nat) :=
    match x with
    | none => some y
    | some x => some (if y.1.outranks feats k x.1 then y else x)
  ((is.zipIdx.filter fun x => x.1.candidate feats k).foldl best none).map (·.2)

/-! ### What the loader checks -/

/-- A header's fields lie within their limits (R63, R65, R66). -/
def Header.inLimits (k : ImageKind) (h : Header) : Bool :=
  decide (1 ≤ h.regs ∧ h.regs ≤ 192) && decide (h.scalars ≤ 48) && h.scratch % 128 == 0 &&
    decide (h.scratch ≤ match k with
      | .pennant => 393216
      | .banner | .tamut => 917504) &&
    [8, 16, 32, 64].contains h.gang && decide (1 ≤ h.team ∧ h.team ≤ 128) && h.team % (h.gang / 8) == 0 &&
    decide (h.barriers ≤ 16)

/-- A map names no destination twice and no class above 2 (R71). -/
def StateMap.ok (m : StateMap) : Bool :=
  m.entries.all (fun e => decide (e.cls ≤ 2)) && decide (m.entries.map fun e => (e.cls, e.dst)).Nodup

/-- Images stand one after another from an offset on, each in whole 64 KiB pages (R51, R76). -/
def wellPlaced : Nat → List Image → Bool
  | _, [] => true
  | at_, i :: is => i.base == at_ && decide (0 < i.size) && wellPlaced (Image.pagesEnd i) is

/-- A code version as the loader builds it (R51, R66, R71, R76, R314): its number, its headers and maps, its placed images
from offset 0x1_0000 on in index order, and its words inside them. -/
def Version.ok (v : Version) : Bool :=
  decide (1 ≤ v.ver ∧ v.ver ≤ 65535) && v.images.all (fun i => i.headers.all (Header.inLimits i.kind)) &&
    v.maps.all StateMap.ok && v.ftabVa % 4 == 0 &&
    v.images.all (fun i => i.placed || i.size == 0) && wellPlaced Config.codePage (v.images.filter Image.placed) &&
    v.code.all fun w => v.images.any fun i => decide (i.base ≤ 8 * w.1 ∧ 8 * w.1 < i.base + i.size)

/-- The images of a new version: 1 to 64 of them (R67), those chosen for the kinds of core by R77 placed, and no other. -/
def Version.fresh (feats : DWord) (v : Version) : Bool :=
  decide (1 ≤ v.images.length ∧ v.images.length ≤ 64) &&
    v.chosenB == chooseImage feats .banner v.images && v.chosenP == chooseImage feats .pennant v.images &&
    v.images.zipIdx.all fun x => x.1.placed == (v.chosenB == some x.2 || v.chosenP == some x.2)

/-- The choice for a kind of core after the translator has appended images: made again among the placed ones, where one
of the new ones is of the kind (R77; log entry 105). -/
def Version.rechosen (feats : DWord) (k : CoreKind) (v old : Version) : Option Nat :=
  let was := match k with
    | .banner => old.chosenB
    | .pennant => old.chosenP
  let hide (i : Image) : Image := if i.placed then i else { i with genmask := 0 }
  if (v.images.drop old.images.length).any fun i => i.kind == CoreKind.image k then
    chooseImage feats k (v.images.map hide)
  else was

/-- A version extends another in place: native images and maps are added, and every placed image is as it was (R76, R308,
R314). -/
def Version.extends_ (feats : DWord) (v old : Version) : Bool :=
  v.obj == old.obj && v.ver == old.ver && old.images.isPrefixOf v.images && old.maps.all (v.maps.contains ·) &&
    (v.images.drop old.images.length).all (fun i => i.placed && i.kind != .tamut) &&
    v.chosenB == v.rechosen feats .banner old && v.chosenP == v.rechosen feats .pennant old &&
    v.funcs == old.funcs && v.ftabVa == old.ftabVa && v.fw == old.fw && v.codeVa == old.codeVa &&
    (v.code.filter fun w => old.images.any fun i => decide (i.base ≤ 8 * w.1 ∧ 8 * w.1 < Image.pagesEnd i)) == old.code

/-! ### The copy of the function table (R70) -/

/-- A PC of an image as an offset of the code version: 0 where there is none, or its image is not placed. -/
def relocate (i : Option Image) (pc : Word) : Nat :=
  match i with
  | none => 0
  | some i => if pc = 0xFFFFFFFF ∨ !i.placed then 0 else i.base + pc.toNat

/-- A function's native state as the loader sets it: 3 where the image chosen for the kind is native and gives it a PC. -/
def Version.firstState (v : Version) (k : CoreKind) (pc : Word) : Nat :=
  if (v.native k).isSome && pc != 0xFFFFFFFF then 3 else 0

/-- The 32 bytes of a function's entry in the copy. -/
def Version.funcBytes (v : Version) (f : Func) : List Byte :=
  let state := v.firstState .banner f.bpc + 4 * v.firstState .pennant f.ppc
  leBytes 4 f.name.toNat ++ leBytes 4 (relocate (v.tamut .banner) f.tpc) ++
    leBytes 4 (relocate (v.native .banner) f.bpc) ++ leBytes 4 (relocate (v.native .pennant) f.ppc) ++
    leBytes 4 state ++ leBytes 4 f.tsize.toNat ++ leBytes 4 f.eq0.toNat ++ leBytes 4 f.neq.toNat

/-- The loader writes one word of a context's memory; where its page is not mapped, nothing is written (log entry 79). -/
def State.loadWord (s : State) (ctx va : Nat) (b : List Byte) : State :=
  match s.vaLoc ctx va false with
  | none => s
  | some l => s.storeLocs none (b.zipIdx.map fun (x, j) => (l.add j, x))

/-- The loader copies the function table into the version's data pages. -/
def State.copyTable (s : State) (ctx : Nat) (v : Version) : State :=
  v.funcs.zipIdx.foldl (fun s (f, n) =>
    let b := v.funcBytes f
    (List.range 8).foldl (fun s k => s.loadWord ctx (v.ftabVa + 32 * n + 4 * k) ((b.drop (4 * k)).take 4)) s) s

/-! ### Loading and freeing a version -/

/-- A new version of an object is numbered after those before it (R314). -/
def Ctx.newest (x : Ctx) (v : Version) : Bool :=
  x.versions.all fun o => o.2.obj != v.obj || decide (o.2.ver < v.ver)

/-- The loader places a code version of a context, under a number of the host's own, with its function table, or the
translator extends one in place; what is placed is never rewritten (R66, R70, R76, R77, R308, R314; log entry 105). -/
def State.loadVersion (s : State) (c key : Nat) (v : Version) : State :=
  let x := s.ctx c
  let feats := s.dev.features
  if v.ok && x.life != .free && x.life != .ended then
    let t := s.setCtx c { x with versions := FMap.set x.versions key v }
    match FMap.get? x.versions key with
    | none => if x.newest v && v.fresh feats then t.copyTable c v else s
    | some old => if v.extends_ feats old then t else s
  else s

/-- The host frees a code version in which no grid runs; what cores have noted of it is forgotten (R307, R314). -/
def State.unloadVersion (s : State) (c key : Nat) : State :=
  if s.grids.any fun g => g.2.ctx == c && g.2.version == key then s
  else
    let x := s.ctx c
    let forget (k : Nat × CoreState) : Nat × CoreState :=
      (k.1, { k.2 with ready := k.2.ready.filter fun r => !(r.1 == c && r.2.1 == key) })
    let cs : FMap CoreState := s.cores.map forget
    ({ s with cores := cs } : State).setCtx c { x with
      versions := FMap.erase x.versions key
      translating := x.translating.filter fun t => t.1 != key }

end Sys2Proof.Machine
end

