-- ==== Sys2Proof/Machine/Step.lean ====
section
/-! DEFINITION. One step of the machine: the next turn is taken (R3, R138; log entry 1). -/

namespace Sys2Proof.Machine

/-- A quadrant's issue decision (R138): the chosen unit's instruction executes; a single step then stops again (R362). -/
def issueStep (s : State) (core quad : Nat) (late : Bool) : Host.Outcome State Fault Refusal :=
  match s.decision core quad late with
  | none => .next s.settle
  | some (f, .done t) => .next (t.endDecision f).settle
  | some (f, .run i t) => andThen (fun t => (t.endDecision f).settle) (exec i t)

/-- Time passes (R138). -/
def tickStep (s : State) : Host.Outcome State Fault Refusal :=
  match s.tick with
  | .state t => .next t.settle
  | .decide core quad => issueStep s core quad false

/-- A turn (log entry 1). -/
def takeTurn (s : State) (t : Turn) : Host.Outcome State Fault Refusal :=
  match t with
  | .tick => tickStep s
  | .issue core quad late => issueStep s core quad late
  | .event i => if isEvent i then andThen State.settle (exec i s) else .next s
  | .load ctx key v => .next (s.loadVersion ctx key v)
  | .unload ctx key => .next (s.unloadVersion ctx key)
  | .translate ctx => .next (s.takeRequest ctx)
  | .translated ctx key func kind => .next (s.endRequest ctx key func kind)
  | .hostWrite addr bytes => .next (s.hostWrite addr bytes)
  | .readReg ofs size => .next (s.readReg ofs size)
  | .place block plc => .next (s.place block plc)
  | .firmware die eng a => .next (s.firmwareAct die eng a)
  | .sense ofs v => .next (s.sense ofs v)
  | .train link state peer peerLink => .next (s.train link state peer peerLink)
  | .flitOk link => .next (s.flitOk link)
  | .glitch core n => .next (s.addGlitch core n)
  | .fetchLate gang unit n => .next (s.fetchLate gang unit n)

/-- One step. -/
def step (s : State) : Host.Outcome State Fault Refusal :=
  let r := s.nextTurn
  takeTurn r.2 r.1

/-- The machine with one instruction word where its next step fetches: bits above `nbits` are zero. -/
def State.withFetchWord (s : State) (nbits w : Nat) : State :=
  s.withWord (BitVec.ofNat 64 (w % 2 ^ Nat.min nbits 64))

end Sys2Proof.Machine
end

