-- ==== Sys2Proof/Safety.lean ====
section
/-! DEFINITION. The vocabulary of the statements: what a place of a gang holds, what a lane-engine word is to write (the
tables of R153, R160, R167 to R176, R277 to R279), what a memory-touching word is to issue, and the shapes in which a
statement says what a step changes and that it changes nothing else. -/

namespace Sys2Proof.Machine

/-! ### Places and legality -/

/-- What one lane sees at a place an instruction can write; a predicate as 0 or 1. -/
def placeVal (g : Gang) (loc : RegLoc) (l : Nat) : Word :=
  match loc with
  | .v n => LaneVec.at' (g.vreg n) l
  | .hv n => LaneVec.at' (vget g.hv (n % 4) (Nat.mod_lt _ (by decide))) l
  | .s n => vget g.s (n % 48) (Nat.mod_lt _ (by decide))
  | .hs u n => (g.units[u]?).elim 0 fun x => vget x.hs (n % 4) (Nat.mod_lt _ (by decide))
  | .p n => if (vget g.p (n % 32) (Nat.mod_lt _ (by decide))).getLsbD l then 1 else 0
  | .t _ | .ipc _ => 0

/-- The registers that exist (R33, R36): v0..v191, hv0..hv3, s0..s47, hs0..hs3 of a unit, p0..p31. -/
def RegLoc.real : RegLoc → Bool
  | .v n => decide (n < 192)
  | .hv n => decide (n < 4)
  | .s n => decide (n < 48)
  | .hs _ n => decide (n < 4)
  | .p n => decide (n < 32)
  | .t _ | .ipc _ => false

/-- The word meets the rules of its form (R25, R26, R31, R34, R35) and that of handler mode (R177) where the unit
stands. -/
def Legal (i : Instr) (f : Frame) : Bool :=
  wf i && match (info i).hm with
    | .any => true
    | .never => !f.u.hm
    | .only => f.u.hm

/-! ### What a lane-engine word writes -/

/-- The effect of a lane-engine word: the lanes that take part, the registers and predicates it writes with their values
by lane, the lanes that trap (R161), and how long after its issue a windowed result is due. -/
structure Effect where
  mask : Mask
  regs : List (Reg × (Nat → Word)) := []
  preds : List (PReg × (Nat → Bool)) := []
  traps : Nat → Bool := fun _ => false
  late : Nat := 0

/-- A value of n registers, low word first (R35). -/
def spread (d : Reg) (n : Nat) (v : Nat → DWord) : List (Reg × (Nat → Word)) :=
  (List.range n).map fun k => (Reg.next d k, fun l => (v l).extractLsb' (32 * k) 32)

/-- A value of n registers in every lane that takes part. -/
def Effect.of (f : Frame) (h : Hdr) (d : Reg) (n : Nat) (v : Nat → DWord)
    (preds : List (PReg × (Nat → Bool)) := []) : Effect :=
  { mask := Frame.part f h, regs := spread d n v, preds := preds }

/-- A value that a lane may trap instead of writing. -/
def Effect.trap (f : Frame) (h : Hdr) (d : Reg) (n : Nat) (v : Nat → DWord × Bool) : Effect :=
  { mask := Frame.part f h, regs := spread d n fun l => (v l).1, traps := fun l => (v l).2 }

/-- One predicate. -/
def Effect.pred (f : Frame) (h : Hdr) (p : PReg) (v : Nat → Bool) : Effect :=
  { mask := Frame.part f h, preds := [(p, v)] }

/-- The lanes that fault: those that trap, and with a scalar destination every lane that takes part (R146). -/
def Effect.faults (e : Effect) : Mask :=
  let t := e.mask &&& maskOf e.traps
  if e.regs.any (fun x => x.1.isS) && t != 0 then e.mask else t

/-- What a place holds after the word, in a lane, where it held `old` (R25, R34, R36, R146): a vector register and a
predicate change in the lanes that take part and do not fault, a scalar is written once, `zero` and the other identity
registers discard what is written, and every other place is as it was. -/
def Effect.after (e : Effect) (f : Frame) (loc : RegLoc) (l : Nat) (old : Word) : Word :=
  let m := e.mask &&& ~~~e.faults
  match e.regs.find? fun x => regLoc f x.1 == some loc with
  | some x => (match loc with
    | .v _ | .hv _ => if m.getLsbD l then x.2 l else old
    | _ => match lowest m with
      | none => old
      | some l0 => x.2 l0)
  | none => match loc with
    | .p n => (match e.preds.find? fun x => x.1.toNat == n with
      | some x => if m.getLsbD l then (if x.2 l then 1 else 0) else old
      | none => old)
    | _ => old

/-- Major 0x0 but for division: the lane functions of R153, R154 and R156 to R159. -/
def intEffect (i : Instr) (s : State) (f : Frame) : Option Effect :=
  let p (q : PReg) (l : Nat) : Bool := (Gang.pred f.g q).getLsbD l
  match i with
  | .add h ty d a b => some (.of f h d ty.regs fun l => aluAdd ty (s.rd f a ty.regs l) (s.rd f b ty.regs l))
  | .addImm h ty d a imm => some (.of f h d ty.regs fun l => aluAdd ty (s.rd f a ty.regs l) (immS ty imm))
  | .sub h ty d a b => some (.of f h d ty.regs fun l => aluSub ty (s.rd f a ty.regs l) (s.rd f b ty.regs l))
  | .subImm h ty d a imm => some (.of f h d ty.regs fun l => aluSub ty (s.rd f a ty.regs l) (immS ty imm))
  | .mul h ty d a b => some (.of f h d ty.regs fun l => aluMul ty (s.rd f a ty.regs l) (s.rd f b ty.regs l))
  | .mulImm h ty d a imm => some (.of f h d ty.regs fun l => aluMul ty (s.rd f a ty.regs l) (immS ty imm))
  | .mulh h ty d a b => some (.of f h d ty.regs fun l => aluMulh ty (s.rd f a ty.regs l) (s.rd f b ty.regs l))
  | .mulhImm h ty d a imm => some (.of f h d ty.regs fun l => aluMulh ty (s.rd f a ty.regs l) (immS ty imm))
  | .min h ty d a b => some (.of f h d ty.regs fun l => aluMin ty (s.rd f a ty.regs l) (s.rd f b ty.regs l))
  | .minImm h ty d a imm => some (.of f h d ty.regs fun l => aluMin ty (s.rd f a ty.regs l) (immS ty imm))
  | .max h ty d a b => some (.of f h d ty.regs fun l => aluMax ty (s.rd f a ty.regs l) (s.rd f b ty.regs l))
  | .maxImm h ty d a imm => some (.of f h d ty.regs fun l => aluMax ty (s.rd f a ty.regs l) (immS ty imm))
  | .and h ty d a b => some (.of f h d ty.regs fun l => aluAnd ty (s.rd f a ty.regs l) (s.rd f b ty.regs l))
  | .andImm h ty d a imm => some (.of f h d ty.regs fun l => aluAnd ty (s.rd f a ty.regs l) (immS ty imm))
  | .or h ty d a b => some (.of f h d ty.regs fun l => aluOr ty (s.rd f a ty.regs l) (s.rd f b ty.regs l))
  | .orImm h ty d a imm => some (.of f h d ty.regs fun l => aluOr ty (s.rd f a ty.regs l) (immS ty imm))
  | .xor h ty d a b => some (.of f h d ty.regs fun l => aluXor ty (s.rd f a ty.regs l) (s.rd f b ty.regs l))
  | .xorImm h ty d a imm => some (.of f h d ty.regs fun l => aluXor ty (s.rd f a ty.regs l) (immS ty imm))
  | .andn h ty d a b => some (.of f h d ty.regs fun l => aluAndn ty (s.rd f a ty.regs l) (s.rd f b ty.regs l))
  | .andnImm h ty d a imm => some (.of f h d ty.regs fun l => aluAndn ty (s.rd f a ty.regs l) (immS ty imm))
  | .shl h ty d a b => some (.of f h d ty.regs fun l => aluShl ty (s.rd f a ty.regs l) (s.rd f b 1 l))
  | .shlImm h ty d a imm => some (.of f h d ty.regs fun l => aluShl ty (s.rd f a ty.regs l) (immZ ty imm))
  | .shr h ty d a b => some (.of f h d ty.regs fun l => aluShr ty (s.rd f a ty.regs l) (s.rd f b 1 l))
  | .shrImm h ty d a imm => some (.of f h d ty.regs fun l => aluShr ty (s.rd f a ty.regs l) (immZ ty imm))
  | .sar h ty d a b => some (.of f h d ty.regs fun l => aluSar ty (s.rd f a ty.regs l) (s.rd f b 1 l))
  | .sarImm h ty d a imm => some (.of f h d ty.regs fun l => aluSar ty (s.rd f a ty.regs l) (immZ ty imm))
  | .rot h ty d a b => some (.of f h d ty.regs fun l => aluRot ty (s.rd f a ty.regs l) (s.rd f b 1 l))
  | .rotImm h ty d a imm => some (.of f h d ty.regs fun l => aluRot ty (s.rd f a ty.regs l) (immZ ty imm))
  | .mad h ty d a b c =>
      some (.of f h d ty.regs fun l => aluMad ty (s.rd f a ty.regs l) (s.rd f b ty.regs l) (s.rd f c ty.regs l))
  | .madImm h ty d a imm =>
      some (.of f h d ty.regs fun l => aluMad ty (s.rd f a ty.regs l) (immS ty imm) (s.rd f d ty.regs l))
  | .abs h ty d a => some (.of f h d ty.regs fun l => aluAbs ty (s.rd f a ty.regs l))
  | .neg h ty d a => some (.of f h d ty.regs fun l => aluNeg ty (s.rd f a ty.regs l))
  | .brev h ty d a => some (.of f h d ty.regs fun l => aluBrev ty (s.rd f a ty.regs l))
  | .clz h ty d a => some (.of f h d 1 fun l => aluClz ty (s.rd f a ty.regs l))
  | .popc h ty d a => some (.of f h d 1 fun l => aluPopc ty (s.rd f a ty.regs l))
  | .bfx h ty d a b => some (.of f h d ty.regs fun l => aluBfx ty (s.rd f a ty.regs l) (s.rd f b 1 l))
  | .bfxImm h ty d a imm => some (.of f h d ty.regs fun l => aluBfx ty (s.rd f a ty.regs l) (imm.setWidth 64))
  | .bfi h ty d a b c =>
      some (.of f h d ty.regs fun l => aluBfi ty (s.rd f a ty.regs l) (s.rd f b ty.regs l) (s.rd f c 1 l))
  | .bfiImm h ty d a imm =>
      some (.of f h d ty.regs fun l => aluBfi ty (s.rd f d ty.regs l) (s.rd f a ty.regs l) (imm.setWidth 64))
  | .sel h ty q d a b =>
    some (.of f h d ty.regs fun l => if p (q.setWidth 5) l then s.rd f a ty.regs l else s.rd f b ty.regs l)
  | .selImm h ty q d a imm =>
    some (.of f h d ty.regs fun l => if p (q.setWidth 5) l then s.rd f a ty.regs l else immS ty imm)
  | .cmp h cc ty pd a b => some (.pred f h pd fun l => aluCmp cc ty (s.rd f a ty.regs l) (s.rd f b ty.regs l))
  | .cmpImm h cc ty pd a imm => some (.pred f h pd fun l => aluCmp cc ty (s.rd f a ty.regs l) (immS ty imm))
  | .addc h ty q d a b =>
    let r (l : Nat) : DWord × Bool := aluAddc ty (s.rd f a ty.regs l) (s.rd f b ty.regs l) (p (q.setWidth 5) l)
    some (.of f h d ty.regs (fun l => (r l).1) [(q.setWidth 5, fun l => (r l).2)])
  | .addcImm h ty q d a imm =>
    let r (l : Nat) : DWord × Bool := aluAddc ty (s.rd f a ty.regs l) (immS ty imm) (p (q.setWidth 5) l)
    some (.of f h d ty.regs (fun l => (r l).1) [(q.setWidth 5, fun l => (r l).2)])
  | .subc h ty q d a b =>
    let r (l : Nat) : DWord × Bool := aluSubc ty (s.rd f a ty.regs l) (s.rd f b ty.regs l) (p (q.setWidth 5) l)
    some (.of f h d ty.regs (fun l => (r l).1) [(q.setWidth 5, fun l => (r l).2)])
  | .subcImm h ty q d a imm =>
    let r (l : Nat) : DWord × Bool := aluSubc ty (s.rd f a ty.regs l) (immS ty imm) (p (q.setWidth 5) l)
    some (.of f h d ty.regs (fun l => (r l).1) [(q.setWidth 5, fun l => (r l).2)])
  | .lea h ty sh d a b => some (.of f h d 2 fun l => aluLea ty sh.toNat (s.rd f a 2 l) (s.rd f b ty.regs l))
  | .leaImm h _ sh d a imm => some (.of f h d 2 fun l => aluLea .i64 sh.toNat (s.rd f a 2 l) (imm.signExtend 64))
  | .acs h n d a b c => some (.of f h d 1 (fun l => aluAcs (s.rd f a 1 l) (s.rd f b 1 l) (s.rd f c 1 l))
      [(n ++ 0#1, fun l => (acsHalf (s.rd f a 1 l) (s.rd f b 1 l) (s.rd f c 1 l) 0).2),
       (n ++ 1#1, fun l => (acsHalf (s.rd f a 1 l) (s.rd f b 1 l) (s.rd f c 1 l) 1).2)])
  | .acsImm h n d a imm => some (.of f h d 1 (fun l => aluAcs (s.rd f a 1 l) (immS .h2 imm) (s.rd f d 1 l))
      [(n ++ 0#1, fun l => (acsHalf (s.rd f a 1 l) (immS .h2 imm) (s.rd f d 1 l) 0).2),
       (n ++ 1#1, fun l => (acsHalf (s.rd f a 1 l) (immS .h2 imm) (s.rd f d 1 l) 1).2)])
  | _ => none

/-- Major 0x1 but for the windowed words (R160, R161, R163, R164, R166). -/
def floatEffect (i : Instr) (s : State) (f : Frame) : Option Effect :=
  match i with
  | .fadd h ty rm ov d a b => some (.trap f h d 1 fun l => fltAdd ty rm ov (s.rd f a 1 l) (s.rd f b 1 l))
  | .fsub h ty rm ov d a b => some (.trap f h d 1 fun l => fltSub ty rm ov (s.rd f a 1 l) (s.rd f b 1 l))
  | .fmul h ty rm ov d a b => some (.trap f h d 1 fun l => fltMul ty rm ov (s.rd f a 1 l) (s.rd f b 1 l))
  | .ffma h ty rm ov d a b c =>
      some (.trap f h d 1 fun l => fltFma ty rm ov (s.rd f a 1 l) (s.rd f b 1 l) (s.rd f c 1 l))
  | .fmin h ty d a b => some (.trap f h d 1 fun l => fltMin ty (s.rd f a 1 l) (s.rd f b 1 l))
  | .fmax h ty d a b => some (.trap f h d 1 fun l => fltMax ty (s.rd f a 1 l) (s.rd f b 1 l))
  | .fcmp h cc ty pd a b => some (.pred f h pd fun l => fltCmp cc ty (s.rd f a 1 l) (s.rd f b 1 l))
  | .frnd h ty rm d a => some (.trap f h d 1 fun l => fltRnd ty rm (s.rd f a 1 l))
  | .fclass h ty d a => some (.of f h d 1 fun l => fltClass ty (s.rd f a 1 l))
  | _ => none

/-- `qnt` (R276): a lane's elements become one block in 16 registers; 24 clocks, 32 where a lane raises its scale. -/
def quantEffect (h : Hdr) (et : Et) (ov : Ov) (d a : Reg) (s : State) (f : Frame) : Effect :=
  let q (l : Nat) : List Word × Bool × Bool :=
    quantise et ov ((List.range (if et == .ln6 then 80 else 60)).map fun k =>
      fmt32.read (s.rdReg f (Reg.next a k) l).toNat)
  { mask := Frame.part f h
    regs := (List.range 16).map fun k => (Reg.next d k, fun l => ((q l).1[k]?).getD 0)
    traps := fun l => (q l).2.2
    late := if (lanesOf (Frame.part f h)).any fun l => (q l).2.1 then 32 else 24 }

/-- The windowed lane words (R155, R161, R162, R165, R276). -/
def lateEffect (i : Instr) (s : State) (f : Frame) : Option Effect :=
  let e : Option Effect := match i with
  | .div h ty d a b => some (.of f h d ty.regs fun l => aluDiv ty (s.rd f a ty.regs l) (s.rd f b ty.regs l))
  | .divImm h ty d a imm => some (.of f h d ty.regs fun l => aluDiv ty (s.rd f a ty.regs l) (immS ty imm))
  | .rem h ty d a b => some (.of f h d ty.regs fun l => aluRem ty (s.rd f a ty.regs l) (s.rd f b ty.regs l))
  | .remImm h ty d a imm => some (.of f h d ty.regs fun l => aluRem ty (s.rd f a ty.regs l) (immS ty imm))
  | .fdiv h ty rm ov d a b => some (.trap f h d 1 fun l => fltDiv ty rm ov (s.rd f a 1 l) (s.rd f b 1 l))
  | .frcp h ty rm ov d a => some (.trap f h d 1 fun l => fltRcp ty rm ov (s.rd f a 1 l))
  | .fex2 h ty rm ov d a => some (.trap f h d 1 fun l => fltEx2 ty rm ov (s.rd f a 1 l))
  | .frsq h ty rm d a => some (.trap f h d 1 fun l => fltRsq ty rm (s.rd f a 1 l))
  | .fsqrt h ty rm d a => some (.trap f h d 1 fun l => fltSqrt ty rm (s.rd f a 1 l))
  | .flg2 h ty rm d a => some (.trap f h d 1 fun l => fltLg2 ty rm (s.rd f a 1 l))
  | _ => none
  let e := e.map fun e =>
    { e with late := latency (coreKind (s.coreOf f.g)) f.g.width f.g.red (info i).lat }
  match i with
  | .qnt h et ov d a => some (quantEffect h et ov d a s f)
  | _ => e

/-- Major 0xB and the conversions (R167, R169). -/
def longEffect (i : Instr) (s : State) (f : Frame) : Option Effect :=
  match i with
  | .movi h d imm => some (.of f h d 1 fun _ => imm.setWidth 64)
  | .moviS64 h d imm => some (.of f h d 2 fun _ => imm.signExtend 64)
  | .moviZ64 h d imm => some (.of f h d 2 fun _ => imm.setWidth 64)
  | .movh h d imm => some (.of f h (d + 1) 1 fun _ => imm.setWidth 64)
  | .addL h d imm => some (.of f h d 1 fun l => aluAdd .n32 (s.rd f d 1 l) (imm.setWidth 64))
  | .andL h d imm => some (.of f h d 1 fun l => aluAnd .b32 (s.rd f d 1 l) (imm.setWidth 64))
  | .orL h d imm => some (.of f h d 1 fun l => aluOr .b32 (s.rd f d 1 l) (imm.setWidth 64))
  | .xorL h d imm => some (.of f h d 1 fun l => aluXor .b32 (s.rd f d 1 l) (imm.setWidth 64))
  | .faddL h d imm => some (.trap f h d 1 fun l => fltAdd .f32 .rne .inf (s.rd f d 1 l) (imm.setWidth 64))
  | .fmulL h d imm => some (.trap f h d 1 fun l => fltMul .f32 .rne .inf (s.rd f d 1 l) (imm.setWidth 64))
  | .cvt h dt st rm ov d a c =>
      some (.trap f h d dt.regs fun l => cvtVal dt st rm ov (s.rd f a st.regs l) (s.rd f c 1 l))
  | _ => none

/-- What a read of a special register gives in a lane (R132 to R134, R190, R198): `am` reads 0 in handler mode, an active
lane's `lpc` is `ipc`, and `lag` is read as the word found it. -/
def specialValue (s : State) (f : Frame) (sr : BitVec 8) (l : Nat) : DWord :=
  let wide (w : Word) : DWord := w.setWidth 64
  let flag (b : Bool) (k : Nat) : Nat := if b then 2 ^ k else 0
  match sr.toNat with
  | 0x00 => if f.u.hm then 0 else f.u.am
  | 0x02 => f.u.km
  | 0x04 => f.u.fm
  | 0x06 => f.u.tm
  | 0x08 => f.u.xm
  | 0x0A => wide f.u.ipc
  | 0x0B => wide f.g.hpc
  | 0x0C => f.u.ev
  | 0x0E => wide f.g.agl
  | 0x0F => wide f.g.trp
  | 0x10 => wide (if f.u.am.getLsbD l then f.u.ipc else LaneVec.at' f.g.lpc l)
  | 0x11 => wide (LaneVec.at' f.g.lagSeen l)
  | 0x12 => f.g.dtb
  | 0x14 => wide f.g.dtl
  | 0x15 => BitVec.ofNat 64 (64 * f.g.cls.toNat + flag (decide (s.imageKind f = .tamut)) 5 + flag f.g.frd 4 +
      flag f.g.str 3 + flag f.g.red 2 + flag f.u.hm 0)
  | 0x16 => wide f.g.polc
  | 0x17 => wide f.g.eqid
  | 0x18 => wide f.g.mpc
  | _ => 0

/-- Moves and exchange (R172 to R175), and `clk` (R364). -/
def moveEffect (i : Instr) (s : State) (f : Frame) : Option Effect :=
  match i with
  | .mov h ty d a => some (.of f h d ty.regs fun l => s.rd f a ty.regs l)
  | .bcst h ty d a b =>
    let k := (s.rdReg f b 0).toNat % 64
    some (.of f h d ty.regs fun _ => if k < f.g.width ∧ (Frame.lanes f).getLsbD k then s.rd f a ty.regs k else 0)
  | .shfl h mode seg ty d a b =>
    some (.of f h d ty.regs fun l =>
      let n := 8 * 2 ^ seg.toNat
      let b := (s.rdReg f b l).toNat
      let first := l / n * n
      let src : Int := match mode with
        | .at => first + b
        | .lag => l - b
        | .lead => l + b
        | .mirror => first + ((l % n) ^^^ b : Nat)
      if first ≤ src ∧ src < first + n ∧ (Frame.lanes f).getLsbD src.toNat then s.rd f a ty.regs src.toNat
      else s.rd f a ty.regs l)
  | .rdsr h d sr => some (.of f h d (Operand.srWidth sr) (specialValue s f sr))
  | .clk h d => some (.of f h d 2 fun _ => BitVec.ofNat 64 (s.clock (s.coreOf f.g)))
  | _ => none

/-- The predicate words and the votes (R170, R171). -/
def predEffect (i : Instr) (s : State) (f : Frame) : Option Effect :=
  let p (q : PReg) (l : Nat) : Bool := (Gang.pred f.g q).getLsbD l
  match i with
  | .pand h na nb pd pa pb => some (.pred f h pd fun l => (p pa l != na) && (p pb l != nb))
  | .por h na nb pd pa pb => some (.pred f h pd fun l => (p pa l != na) || (p pb l != nb))
  | .pxor h na nb pd pa pb => some (.pred f h pd fun l => (p pa l != na) != (p pb l != nb))
  | .pnot h pd pa => some (.pred f h pd fun l => !p pa l)
  | .pmov h pd pa => some (.pred f h pd (p pa))
  | .pmovNz h pd a => some (.pred f h pd fun l => decide (s.rdReg f a l ≠ 0))
  | .pmovAll h a =>
    some { mask := Frame.part f h
           preds := (List.range 32).map fun k => (BitVec.ofNat 5 k, fun l => (s.rdReg f a l).getLsbD k) }
  | .pget h d =>
    some (.of f h d 1 fun l =>
      BitVec.ofNat 64 ((List.range 32).map fun k => if p (BitVec.ofNat 5 k) l then 2 ^ k else 0).sum)
  | .voteOr h inv pd pa =>
    some (.pred f h pd fun _ => (lanesOf (Frame.part f h)).any fun k => p pa k != inv)
  | .voteAnd h inv pd pa =>
    some (.pred f h pd fun _ => (lanesOf (Frame.part f h)).all fun k => p pa k != inv)
  | .voteSame h _ pd pa =>
    let ls := lanesOf (Frame.part f h)
    some (.pred f h pd fun _ => ls.all fun k => ls.all fun j => p pa k == p pa j)
  | .voteMask h inv d pa =>
    some (.of f h d 2 fun _ => maskOf fun k => (Frame.part f h).getLsbD k && (p pa k != inv))
  | _ => none

/-- The 32-bit function of a slot of a paired word (R42): shift counts are five bits, floats round to nearest even and
overflow to an infinity. -/
def pairResult (op : PairOp) (x y : Word) : Word :=
  let float (v : FRes) : Word := BitVec.ofNat 32 v.1
  let a := fmt32.read x.toNat
  let b := fmt32.read y.toNat
  match op with
  | .add => x + y
  | .sub => x - y
  | .and => x &&& y
  | .or => x ||| y
  | .xor => x ^^^ y
  | .shl => x <<< (y.toNat % 32)
  | .shr => x >>> (y.toNat % 32)
  | .sar => x.sshiftRight (y.toNat % 32)
  | .mini => if y.slt x then y else x
  | .maxi => if x.slt y then y else x
  | .minn => if y.ult x then y else x
  | .maxn => if x.ult y then y else x
  | .mov => y
  | .fadd => float (fmt32.addV .rne .inf a b)
  | .fmul => float (fmt32.roundV .rne .inf (mulV a b))
  | .fmin => BitVec.ofNat 32 (fmt32.minmax false x.toNat y.toNat)
  | .fmax => BitVec.ofNat 32 (fmt32.minmax true x.toNat y.toNat)

/-- The value of a slot of a paired word (R42). -/
def slotEffect (s : State) (f : Frame) : Slot → List (Reg × (Nat → Word))
  | .empty => []
  | .reg op d r => [(d, fun l => pairResult op (s.rdReg f d l) (s.rdReg f r l))]
  | .imm op d r k => [(d, fun l => pairResult op (s.rdReg f r l) (k.signExtend 32))]

/-- The paired word (R43) and the reads of the puppeteer (R194). -/
def otherEffect (i : Instr) (s : State) (f : Frame) : Option Effect :=
  let pc (l : Nat) : Word := if f.u.am.getLsbD l then f.u.ipc else LaneVec.at' f.g.lpc l
  match i with
  | .pairedWord x y => some { mask := Frame.base f, regs := slotEffect s f x ++ slotEffect s f y }
  | .dmin _ d a =>
    let m := s.rd f a 2 0 &&& Frame.lanes f
    let low : Word := (lanesOf m).foldl (fun b l => if (pc l).toNat < b.toNat then pc l else b) 0xFFFFFFFF
    some { mask := Frame.base f, regs := [(d, fun _ => low)] }
  | .dsel _ d a b =>
    let m := s.rd f a 2 0 &&& Frame.lanes f
    some { mask := Frame.base f
           regs := spread d 2 fun _ => maskOf fun l => m.getLsbD l && pc l == s.rdReg f b 0 }
  | .dmaj _ d a => some { mask := Frame.base f, regs := [(d, fun _ => majPc f (s.rd f a 2 0 &&& Frame.lanes f))] }
  | _ => none

/-- One element of a register of codes, widened at scale 0 (R277). -/
def widened (et : Et) (x : Word) (n : Nat) : Word :=
  BitVec.ofNat 32 (widen et (x.toNat / 2 ^ (8 * n) % 256) 0x7F .sat).1

/-- The plain lane words of major 0x8 (R277 to R279). -/
def blockEffect (i : Instr) (s : State) (f : Frame) : Option Effect :=
  match i with
  | .cvtn h et ov d a =>
    let r (l k : Nat) : Nat × Bool := narrow et ov (fmt32.read (s.rdReg f (Reg.next a k) l).toNat)
    some { mask := Frame.part f h
           regs := [(d, fun l => BitVec.ofNat 32 ((r l 0).1 + 256 * ((r l 1).1 + 256 * ((r l 2).1 + 256 * (r l 3).1))))]
           traps := fun l => (r l 0).2 || (r l 1).2 || (r l 2).2 || (r l 3).2 }
  | .cvtw h et d a =>
    some { mask := Frame.part f h
           regs := (List.range 4).map fun k => (Reg.next d k, fun l => widened et (s.rdReg f a l) k) }
  | .flg h d a =>
    some { mask := Frame.part f h
           regs := [(d, fun l => (s.rdReg f d l).extractLsb' 16 16 ++ (s.rdReg f a l).extractLsb' 0 16),
             (Reg.next d 15, fun l =>
               BitVec.ofNat 16 (checkWord fun k => blockByte (s.blockOf f d l) (2 + k)) ++
                 (s.rdReg f (Reg.next d 15) l).extractLsb' 0 16)]
           traps := fun l => (flagEt ((s.rdReg f a l).toNat % 256)).isNone }
  | .chk h pd a =>
    some (.pred f h pd fun l =>
      let block := s.blockOf f a l
      (flagEt (blockByte block 0)).isSome && checkOk block)
  | _ => none

/-! ### What a word leaves alone -/

/-- `t` is `s` after a word of a unit that writes registers: of the machine only the gang has changed and marks of
poisoned registers can have gone; of the gang only its vector, scalar, predicate and handler registers, its scoreboard,
and the unit's PC, which stands at the next word. -/
structure WordRan (s t : State) (f : Frame) : Prop where
  rest : t = { s with gangs := t.gangs, regPoison := t.regPoison }
  poison : ∀ x ∈ t.regPoison, x ∈ s.regPoison
  gang : ∃ (g : Gang) (hs : Vector Word 4), t.gangs = FMap.set s.gangs f.gid g ∧
    g = { f.g with
      v := g.v, hv := g.hv, s := g.s, p := g.p, marks := g.marks
      units := f.g.units.set f.ui { f.u with ipc := f.u.ipc + 8, hs := hs } }

/-- Every register and predicate of the gang holds what an effect says. -/
def Wrote (t : State) (f : Frame) (e : Effect) : Prop :=
  ∀ g, FMap.get? t.gangs f.gid = some g → ∀ loc l, loc.real = true → l < 64 →
    placeVal g loc l = e.after f loc l (placeVal f.g loc l)

/-- The words of a table complete where no lane traps: they write what the table says, and nothing else. -/
def LaneWords (table : Instr → State → Frame → Option Effect) : Prop :=
  ∀ i s f e, s.frame = some f → Legal i f = true → table i s f = some e → e.faults = 0 →
    ∃ t, exec i s = .next t ∧ WordRan s t f ∧ Wrote t f e

/-- The words of a table in which lanes trap: the other lanes are written as the table says, and then the lanes that
trap take a fault of one cause at the word. -/
def TrapWords (table : Instr → State → Frame → Option Effect) (cause : Instr → Cause) : Prop :=
  ∀ i s f e, s.frame = some f → Legal i f = true → table i s f = some e → e.faults ≠ 0 →
    ∃ t, WordRan s t f ∧ Wrote t f e ∧ exec i s = .next (t.laneFault f.gid f.ui e.faults (cause i) f.u.ipc)

/-- `t` is `s` after a windowed word of a unit has issued (R38, R143): a result with a new number waits for its clock,
what it will write is marked, a window with the word's LA is open on a banner core outside Tamut form, and the unit
stands at the next word. No register has changed. -/
def WindowIssued (i : Instr) (s t : State) (f : Frame) (r : Result) : Prop :=
  t = { s with
    nextId := s.nextId + 1
    gangs := FMap.set s.gangs f.gid { f.g with
      results := FMap.set f.g.results s.nextId r
      marks := f.g.marks ++ (writeLocs f (info i)).map fun l => { loc := l, till := .result s.nextId }
      windows :=
        if coreKind (s.coreOf f.g) = .banner ∧ s.imageKind f ≠ .tamut then
          f.g.windows ++ [⟨s.nextId, f.u.ipc, (info i).hdr.la.toNat, 0⟩]
        else f.g.windows
      units := f.g.units.set f.ui { f.u with ipc := f.u.ipc + 8 } } }

/-- The bits of a float stand for a finite value (R148): sign, hidden bit and exponent of the format. -/
def Fmt.holds (f : Fmt) (bits : Nat) (v : ℚ) : Prop :=
  bits < 2 ^ f.width ∧ ∃ neg m e, f.read bits = .num neg m e ∧ v = (if neg then -1 else 1) * m * 2 ^ e

/-- A magnitude overflows a format (R150): the rounding mode, were the exponent unbounded, would take it beyond the largest
finite value. -/
def Fmt.overflows (f : Fmt) (rm : Rm) (neg : Bool) (m : Nat) (e : Int) : Prop :=
  let x : ℚ := m * 2 ^ e
  let top : ℚ := (2 - 2 ^ (1 - (f.p : Int))) * 2 ^ f.emax
  let next : ℚ := 2 ^ (f.emax + 1)
  match rm with
  | .rne => (top + next) / 2 ≤ x
  | .rz => next ≤ x
  | .rdn => if neg then top < x else next ≤ x
  | .rup => if neg then next ≤ x else top < x

/-- The rounding mode, were the exponent unbounded, would take a real beyond the largest finite value of a format (R150). -/
def Fmt.beyond (f : Fmt) (rm : Rm) (x : ℝ) : Prop :=
  let top : ℝ := (2 - 2 ^ (1 - (f.p : ℤ))) * 2 ^ f.emax
  let next : ℝ := 2 ^ (f.emax + 1)
  match rm with
  | .rne => (top + next) / 2 ≤ |x|
  | .rz => next ≤ |x|
  | .rdn => x < -top ∨ next ≤ x
  | .rup => x ≤ -next ∨ top < x

/-- A result is a real other than 0, rounded once (R149, R150): beyond the largest finite value what the policy gives; else
the value of the format that the rounding mode names, a result that rounds to zero keeping its sign. -/
def Fmt.rounds (f : Fmt) (rm : Rm) (ov : Ov) (x : ℝ) (r : FRes) : Prop :=
  ∃ neg : Bool, (neg = true ↔ x < 0) ∧
  (f.beyond rm x → r = match ov with
    | .sat => (f.maxFin neg, false)
    | .inf => (f.infty neg, false)
    | .nan => (f.canon, false)
    | .trap => (f.canon, true)) ∧
  (¬f.beyond rm x → r.2 = false ∧ ∃ v : ℚ, f.holds r.1 v ∧ (v = 0 → r.1 = f.sign neg) ∧
    match rm with
    | .rne => (∀ b y, f.holds b y → |(v : ℝ) - x| ≤ |(y : ℝ) - x|) ∧
        ∀ b y, f.holds b y → |(y : ℝ) - x| = |(v : ℝ) - x| → y ≠ v → r.1 % 2 = 0
    | .rz => |(v : ℝ)| ≤ |x| ∧ ∀ b y, f.holds b y → |(y : ℝ)| ≤ |x| → |y| ≤ |v|
    | .rdn => (v : ℝ) ≤ x ∧ ∀ b y, f.holds b y → (y : ℝ) ≤ x → y ≤ v
    | .rup => x ≤ (v : ℝ) ∧ ∀ b y, f.holds b y → x ≤ (y : ℝ) → v ≤ y)

/-- The integer that a rounding mode takes a number to (R149). -/
def nearestInt (rm : Rm) (x : ℚ) (n : ℤ) : Prop :=
  match rm with
  | .rne => |(n : ℚ) - x| ≤ 1 / 2 ∧ (|(n : ℚ) - x| = 1 / 2 → n % 2 = 0)
  | .rz => n = if x < 0 then ⌈x⌉ else ⌊x⌋
  | .rdn => n = ⌊x⌋
  | .rup => n = ⌈x⌉

/-- The format of a float type's elements (R148). -/
def elemFmt : Ty → Fmt
  | .f16 | .f16x2 => fmt16
  | .bf16 | .bf16x2 => fmtB16
  | _ => fmt32

/-- Element k of a register of a float type: the register, its low 16 bits, or half k (R148). -/
def elemBits (t : Ty) (x : DWord) (k : Nat) : Nat :=
  match t with
  | .f32 => (x.extractLsb' 0 32).toNat
  | .f16 | .bf16 => (x.extractLsb' 0 16).toNat
  | _ => (x.extractLsb' (16 * k) 16).toNat

/-- The register that elements make, and whether its lane traps: a 16-bit element has zeros above it, and a trap in either
half traps (R148). -/
def elemResult (t : Ty) (g : Nat → FRes) : DWord × Bool :=
  match t with
  | .f32 => ((BitVec.ofNat 32 (g 0).1).setWidth 64, (g 0).2)
  | .f16 | .bf16 => ((BitVec.ofNat 16 (g 0).1).setWidth 64, (g 0).2)
  | _ => ((BitVec.ofNat 16 (g 1).1 ++ BitVec.ofNat 16 (g 0).1).setWidth 64, (g 0).2 || (g 1).2)

/-- A code of an element type stands for a finite value (R239, R240, R244, R248). -/
def Et.holds (et : Et) (c : Nat) (v : ℚ) : Prop :=
  match et with
  | .i8 => v = ((BitVec.ofNat 8 c).toInt : ℚ)
  | .e4m3 => c % 128 ≠ 127 ∧ v = (if c / 128 % 2 = 1 then -1 else 1) *
      (if c / 8 % 16 = 0 then (c % 8 : ℚ) / 512 else (1 + (c % 8 : ℚ) / 8) * 2 ^ ((c / 8 % 16 : Int) - 7))
  | .e5m2 => fmt16.holds (256 * c) v
  | .f16 => fmt16.holds c v
  | .bf16 => fmtB16.holds c v
  | .ln6 => False

/-! ### Control -/

/-- `t` is `s` after a word of a unit that moves it: of the machine only the gang has changed and marks of poisoned
registers can have gone; of the gang only its registers, predicates and scoreboard, the PCs of lanes as `lpc` says, and
the unit as `u` says, whose handler registers are among the registers. -/
structure UnitRan (s t : State) (f : Frame) (u : UnitState) (lpc : LaneVec Word) : Prop where
  rest : t = { s with gangs := t.gangs, regPoison := t.regPoison }
  poison : ∀ x ∈ t.regPoison, x ∈ s.regPoison
  gang : ∃ (g : Gang) (hs : Vector Word 4), t.gangs = FMap.set s.gangs f.gid g ∧
    g = { f.g with
      v := g.v, hv := g.hv, s := g.s, p := g.p, marks := g.marks, lpc := lpc
      units := f.g.units.set f.ui { u with hs := hs } }

/-- What a transfer is (R27, R51, R180, R181): its guard, each lane's target or the cause it faults with, the register
that links, and the event of lanes that go different ways. -/
structure Transferring where
  hdr : Hdr
  target : Nat → Except Cause Word
  link : Option Reg
  event : EvCode

/-- The transfers. A target in a register must be a multiple of 8; an index of `brx` must lie in its table, and the
table in the code pages. -/
def transferring (i : Instr) (s : State) (f : Frame) : Option Transferring :=
  let aligned (p : Word) : Except Cause Word := if p.toNat % 8 = 0 then .ok p else .error .misaligned
  match i with
  | .bra h ofs => some ⟨h, fun _ => .ok (f.u.ipc + 8 * ofs.signExtend 32), none, .br⟩
  | .call h d ofs => some ⟨h, fun _ => .ok (f.u.ipc + 8 * ofs.signExtend 32), some d, .br⟩
  | .callx h d a => some ⟨h, fun l => aligned (s.rdReg f a l), some d, .brx⟩
  | .ret h a => some ⟨h, fun l => aligned (s.rdReg f a l), none, .brx⟩
  | .brx h a =>
    let base := f.g.dtb.toNat % 2 ^ 32
    let n := f.g.dtl.toNat
    some ⟨h, fun l =>
      let k := (s.rdReg f a l).toNat
      if n ≤ k then .error .dispatch
      else match s.versionOf f.g with
        | none => .error .protection
        | some v =>
          if v.inCode base ∧ v.inCode (base + 4 * n - 1) then
            aligned (BitVec.ofNat 32 (leNat ((List.range 4).map fun b => v.byteAt (base + 4 * k + b))))
          else .error .protection, none, .brx⟩
  | _ => none

/-- The next PC of a lane: its target where it takes part, the next word where it does not. -/
def Transferring.next (x : Transferring) (f : Frame) (l : Nat) : Word :=
  if (Frame.part f x.hdr).getLsbD l then (match x.target l with
    | .ok p => p
    | .error _ => f.u.ipc) else f.u.ipc + 8

/-- No lane of a transfer faults. -/
def Transferring.fine (x : Transferring) (f : Frame) : Prop :=
  ∀ l, (Frame.part f x.hdr).getLsbD l = true → ∃ p, x.target l = .ok p

/-- The link register of a transfer takes the address behind it in the lanes that take part (R182). -/
def Transferring.links (x : Transferring) (f : Frame) : Effect :=
  { mask := Frame.part f x.hdr, regs := x.link.toList.map fun d => (d, fun _ => f.u.ipc + 8) }

/-- Clocks of a redirect (R179). -/
def redirectClocks (k : CoreKind) (width : Nat) : Nat :=
  match k with
  | .banner => 3
  | .pennant => 2 + (max 1 (width / 16) - 1)

/-- The word that emptied `am` is noted (R184). -/
def emptied (u : UnitState) (am : Mask) (pc : Word) : Option Word := if u.am ≠ 0 ∧ am = 0 then some pc else u.emptyPc

/-- The PC of every lane of a unit after its active lanes have been stored with theirs (R128). -/
def Frame.pcs (f : Frame) (l : Nat) : Word :=
  if f.u.am.getLsbD l && !f.u.hm then f.u.ipc else LaneVec.at' f.g.lpc l

/-- Three gang issue slots pass while every ready lane waits (R179, R198): their lags grow by 3 and saturate, open
windows count 3, and nothing else of the gang changes but the PCs of the lanes that were active. -/
structure Waited (f : Frame) (g : Gang) : Prop where
  rest : g = { f.g with lpc := g.lpc, lag := g.lag, lagSeen := f.g.lag
                        windows := f.g.windows.map fun w => { w with count := w.count + 3 } }
  pcs : ∀ l < 64, LaneVec.at' g.lpc l = Frame.pcs f l
  lags : ∀ l < 64, (LaneVec.at' g.lag l).toNat =
    if (f.u.am ||| f.u.km).getLsbD l then min ((LaneVec.at' f.g.lag l).toNat + 3) (2 ^ 32 - 1)
    else (LaneVec.at' f.g.lag l).toNat

/-- Every ready lane that stands at a PC. -/
def Frame.standing (f : Frame) (p : Word) : Mask :=
  (f.u.am ||| f.u.km) &&& maskOf fun l => Frame.pcs f l == p

/-! ### Faults and the system -/

/-- A mask of one lane. -/
def lane (l : Nat) : Mask := maskOf fun k => k == l

/-- A unit some of whose lanes become trap-parked at a PC (R128, R325). -/
def UnitState.trapped (u : UnitState) (m : Mask) (pc : Word) : UnitState :=
  { u with
    am := u.am &&& ~~~m, km := u.km &&& ~~~m, fm := u.fm &&& ~~~m, tm := (u.tm &&& ~~~m) ||| m
    emptyPc := emptied u (u.am &&& ~~~m) pc }

/-- A unit some of whose parked lanes become ready (R93, R329, R333). -/
def UnitState.readied (u : UnitState) (m : Mask) : UnitState :=
  { u with
    am := u.am &&& ~~~m, km := (u.km &&& ~~~m) ||| m, fm := u.fm &&& ~~~m, tm := u.tm &&& ~~~m
    emptyPc := if u.am = 0 ∧ u.km = 0 then none else u.emptyPc }

/-- A unit some of whose lanes have exited (R183). -/
def UnitState.exited (u : UnitState) (m : Mask) (pc : Word) : UnitState :=
  { u with
    am := u.am &&& ~~~m, km := u.km &&& ~~~m, fm := u.fm &&& ~~~m, tm := u.tm &&& ~~~m, xm := u.xm ||| m
    emptyPc := emptied u (u.am &&& ~~~m) pc }

/-- The gangs of a machine but for their lanes' reservations, which any store can drop (R117). -/
def noRsv (m : FMap Gang) : FMap Gang := m.map fun x => (x.1, { x.2 with rsv := Vector.replicate 64 none })

/-- Teams but for the poison marks of their scratchpads, which a store of a whole sector clears (R339). -/
def noPoison (m : FMap Team) : FMap Team := m.map fun x => (x.1, { x.2 with poison := [] })

/-- What a trace record of a context brings about (R369, R370): with no gap to tell of, room in the buffer, and its page
resident and writable, the record stands at `TRPUT`, which moves on and starts again at the end where the buffer wraps;
with no room nothing is written and the record is counted as dropped. -/
def Traced (s : State) (c core : Nat) (r : Host.Outcome State Fault Refusal) (rec : List Byte) : Prop :=
  let x := s.ctx c
  let size := x.trSize.toNat * 65536
  let va := x.trBase.toNat + x.trPut.toNat
  let put := x.trPut.toNat + 64
  (∀ e b h pa, x.trGap = 0 → x.trPut.toNat < size → s.translate core c va = (.leaf e b, s) → e / 4 % 2 = 1 →
    s.leafLoc e b va = .mem h pa → Memory.wf s.mem = true →
    ∃ t, r = .next t ∧ Memory.readN t.mem (memKey h pa) 64 = rec ∧
      (∀ q, q < memKey h pa ∨ memKey h pa + 64 ≤ q → Memory.read t.mem q = Memory.read s.mem q) ∧
      (t.ctx c).trPut = BitVec.ofNat 64 (if size ≤ put ∧ x.ctl.getLsbD 1 = true then 0 else put) ∧
      (t.ctx c).trDrop = x.trDrop) ∧
  (x.trGap = 0 → size ≤ x.trPut.toNat →
    ∃ t, r = .next t ∧ t.mem = s.mem ∧ (t.ctx c).trPut = x.trPut ∧ (t.ctx c).trDrop = x.trDrop + 1 ∧ (t.ctx c).trGap = 1)

/-- The registers of a gang have passed through a state map (R307, R312): each entry's register holds what its source
held, in every lane; a register that no entry names reads 0, and `dtb` and `dtl` are 0. -/
structure Mapped (g g' : Gang) (es : List MapEntry) : Prop where
  vectors : ∀ e ∈ es, e.cls = 0 → (∀ x ∈ es, x.cls = 0 → x.dst = e.dst → x = e) → g'.vreg e.dst = g.vreg e.src
  vector0 : ∀ n, (∀ x ∈ es, x.cls = 0 → x.dst ≠ n) → g'.vreg n = uniform 0
  scalars : ∀ n (_ : n < 48) m (_ : m < 48), ∀ e ∈ es, e = ⟨0xC0 + m, 0xC0 + n, 1⟩ →
    (∀ x ∈ es, x.cls = 1 → (x.dst - 0xC0) % 48 = n → x = e) → g'.s[n] = g.s[m]
  scalar0 : ∀ n (_ : n < 48), (∀ x ∈ es, x.cls = 1 → (x.dst - 0xC0) % 48 ≠ n) → g'.s[n] = 0
  preds : ∀ n (_ : n < 32) m (_ : m < 32), ∀ e ∈ es, e = ⟨m, n, 2⟩ →
    (∀ x ∈ es, x.cls = 2 → x.dst % 32 = n → x = e) → g'.p[n] = g.p[m]
  pred0 : ∀ n (_ : n < 32), (∀ x ∈ es, x.cls = 2 → x.dst % 32 ≠ n) → g'.p[n] = 0
  tables : g'.dtb = 0 ∧ g'.dtl = 0

/-! ### Operations -/

/-- What a word that accesses memory asks for (R102 to R121): its ordering fields, how an address is checked, the address
step of each lane, what the operation does, the pieces of one lane's access (offset and size), the bytes a lane hands over
for a piece, whether a byte that two lanes name is the higher lane's alone, and whether it stops the gang always, or where
a lane names the system window. -/
structure MemWord where
  ord : Ord
  form : Form
  addr : Nat → LaneEa
  kind : OpKind
  pieces : List (Nat × Nat)
  data : Nat → Nat → Nat → List Byte := fun _ _ _ => []
  own : Bool := false
  stop : Bool := false
  remote : Bool := false

/-- The address of a lane (R78): base + X + OFS × size, modulo 2^64, the base a tile record's or a scalar pair's. -/
def address (s : State) (f : Frame) (ad : Addr) (size l : Nat) : LaneEa :=
  let base : DWord := if ad.base.toNat < 16 then (f.g.record ad.base.toNat).extractLsb' 0 64
    else s.rdU f (BitVec.ofNat 8 (0xC0 + (ad.base.toNat - 16))) 2
  .ea (base + (s.rdReg f ad.x l).setWidth 64 + ad.ofs.signExtend 64 * BitVec.ofNat 64 size)

/-- The words that access memory. A load of n bytes into a scalar is one access for the gang (R107); an access of 16 or 32
bytes is made in pieces of 8 (R86); a tile access takes its size and address from its record (R112). -/
def memWord (i : Instr) (s : State) (f : Frame) : Option MemWord :=
  let cut (n : Nat) : List (Nat × Nat) := if n ≤ 8 then [(0, n)] else (List.range (n / 8)).map fun k => (8 * k, 8)
  let regs (d : Reg) (l o n : Nat) : List Byte :=
    (((List.range 4).flatMap fun j => leBytes 4 (s.rdReg f (Reg.next d j) l).toNat).drop o).take n
  let load (d : Reg) (ad : Addr) (n : Nat) (signed ro once : Bool) : Option MemWord := some
    { ord := ad.ord, form := { size := n, align := n, once := once }, addr := address s f ad n
      kind := .load d n signed ro once false, pieces := cut n, remote := true }
  let store (d : Reg) (ad : Addr) (n : Nat) : Option MemWord := some
    { ord := ad.ord, form := { size := n, align := n, write := true }, addr := address s f ad n
      kind := .store, pieces := cut n, data := regs d, own := true }
  let atomic (op : AtmOp) (d : Reg) (ad : Addr) (n k : Nat) : Option MemWord := some
    { ord := ad.ord, form := { size := n, align := n, write := true }, addr := address s f ad n
      kind := .atomic op d, pieces := [(0, n)], data := fun l _ _ => regs d l 0 (4 * k) }
  let reserve (d : Reg) (ad : Addr) (n : Nat) : Option MemWord := some
    { ord := ad.ord, form := { size := n, align := n, win := .never }, addr := address s f ad n
      kind := .load d n false false false true, pieces := [(0, n)], remote := true }
  let cond (d : Reg) (ad : Addr) (n : Nat) : Option MemWord := some
    { ord := ad.ord, form := { size := n, align := n, write := true, win := .never }, addr := address s f ad n
      kind := .stc d, pieces := [(0, n)], data := regs d }
  let line (ad : Addr) (k : OpKind) : Option MemWord := some
    { ord := ad.ord, form := { size := 128, align := 1, win := .only }, addr := address s f ad 128, kind := k
      pieces := [(0, 1)] }
  let tile (ad : Addr) : BitVec 256 := f.g.record ad.base.toNat
  let size (ad : Addr) : Nat := recordSize (tile ad)
  match i with
  | .ldN8 _ d ad ro => load d ad 1 false ro d.isS
  | .ldN16 _ d ad ro => load d ad 2 false ro d.isS
  | .ld32 _ d ad ro => load d ad 4 false ro d.isS
  | .ld64 _ d ad ro => load d ad 8 false ro d.isS
  | .ld128 _ d ad ro => load d ad 16 false ro d.isS
  | .ldI8 _ d ad ro => load d ad 1 true ro d.isS
  | .ldI16 _ d ad ro => load d ad 2 true ro d.isS
  | .ldc32 _ d ad => load d ad 4 false true true
  | .ldc64 _ d ad => load d ad 8 false true true
  | .ldc128 _ d ad => load d ad 16 false true true
  | .st8 _ d ad => store d ad 1
  | .st16 _ d ad => store d ad 2
  | .st32 _ d ad => store d ad 4
  | .st64 _ d ad => store d ad 8
  | .st128 _ d ad => store d ad 16
  | .ldt _ d ad =>
    if (s.tileBad f d (size ad)).isSome then none
    else some
      { ord := ad.ord, form := { size := size ad, align := size ad, once := d.isS }
        addr := fun l => tileEa (tile ad) (s.rdReg f ad.x l) ad.ofs
        kind := .load d (size ad) false false d.isS false, pieces := cut (size ad), remote := true }
  | .stt _ d ad =>
    if (s.tileBad f d (size ad)).isSome then none
    else some
      { ord := ad.ord, form := { size := size ad, align := size ad, write := true }
        addr := fun l => tileEa (tile ad) (s.rdReg f ad.x l) ad.ofs
        kind := .store, pieces := cut (size ad), data := regs d, own := true }
  | .trec _ t ad => some
      { ord := ad.ord, form := { size := 32, align := 32, once := true }, addr := address s f ad 32, kind := .trec t
        pieces := cut 32 }
  | .ldk _ d ad => some
      { ord := ad.ord, form := { size := 16, align := 16, win := .only }, addr := address s f ad 16, kind := .ldk d
        pieces := [(0, 16)], stop := true }
  | .stf _ d ad => some
      { ord := ad.ord, form := { size := 16, align := 16, write := true, win := .only }, addr := address s f ad 16
        kind := .stf, pieces := [(0, 16)], data := regs d, own := true, stop := true }
  | .fes _ ad => line ad .fes
  | .fec _ ad => line ad .fec
  | .fet _ pd ad => line ad (.fet pd)
  | .ldr32 _ d ad => reserve d ad 4
  | .ldr64 _ d ad => reserve d ad 8
  | .stc32 _ d ad => cond d ad 4
  | .stc64 _ d ad => cond d ad 8
  | .atmAdd32 _ d ad => atomic .add d ad 4 1
  | .atmSub32 _ d ad => atomic .sub d ad 4 1
  | .atmMin32 _ d ad => atomic .min d ad 4 1
  | .atmMax32 _ d ad => atomic .max d ad 4 1
  | .atmAnd32 _ d ad => atomic .and d ad 4 1
  | .atmOr32 _ d ad => atomic .or d ad 4 1
  | .atmXor32 _ d ad => atomic .xor d ad 4 1
  | .atmXchg32 _ d ad => atomic .xchg d ad 4 1
  | .atmFadd32 _ d ad => atomic .fadd d ad 4 1
  | .atmCas32 _ d ad => atomic .cas d ad 4 2
  | .atmMinu32 _ d ad => atomic .minu d ad 4 1
  | .atmMaxu32 _ d ad => atomic .maxu d ad 4 1
  | .atmAdd64 _ d ad => atomic .add d ad 8 2
  | .atmSub64 _ d ad => atomic .sub d ad 8 2
  | .atmMin64 _ d ad => atomic .min d ad 8 2
  | .atmMax64 _ d ad => atomic .max d ad 8 2
  | .atmAnd64 _ d ad => atomic .and d ad 8 2
  | .atmOr64 _ d ad => atomic .or d ad 8 2
  | .atmXor64 _ d ad => atomic .xor d ad 8 2
  | .atmXchg64 _ d ad => atomic .xchg d ad 8 2
  | .atmCas64 _ d ad => atomic .cas d ad 8 4
  | .atmMinu64 _ d ad => atomic .minu d ad 8 2
  | .atmMaxu64 _ d ad => atomic .maxu d ad 8 2
  | _ => none

/-- A higher lane's piece names a byte (R108). -/
def MemWord.covers (w : MemWord) (places : List (Nat × Loc × DWord)) (l : Nat) (p : Loc) : Bool :=
  places.any fun x => decide (l < x.1) && w.pieces.any fun q => (List.range q.2).any fun j => (x.2.1.add q.1).add j == p

/-- What a word that accesses memory issues once its addresses are checked: the accesses of the lanes that have a place,
each at the scope of its word, or the system's in the system window (R106). -/
def MemWord.plan (w : MemWord) (c : Checked) : Plan where
  kind := w.kind
  lanes := c.still
  accs := c.places.flatMap fun x => w.pieces.map fun q =>
    { lane := x.1, ofs := q.1, loc := x.2.1.add q.1, size := q.2
      sc := if regionOf x.2.2.toNat = .system then .system else w.ord.sc
      data := (w.data x.1 q.1 q.2).zipIdx.map fun b =>
        if w.own && w.covers c.places x.1 ((x.2.1.add q.1).add b.2) then none else some b.1
      ea := x.2.2
      remote := decide (regionOf x.2.2.toNat = .system) }
  hits := c.hits
  parks := c.parks
  stop := w.stop || w.remote && c.system

/-- THE ISSUE OF AN OPERATION (R95, R96, R103, R143, R336, R368): under a new number it has one part in each group of the
unit, with the next number of its stream there, which counts on; it belongs to the innermost open region; what it writes
is marked till it completes, in a window of its own where it is windowed; the unit stands at the next word, and does not
run where the operation stops it; a counted word may be the sampled one, and the clocks it waited for leave are noted
(R231). A word that waits at a line or a barrier is remembered till the unit issues an operation that is no load, and a load
with an empty mask may bind from there (R237; log entry 119). -/
def issued (i : Instr) (s : State) (f : Frame) (o : Ord) (p : Plan) : State :=
  let c := s.ctxOf f.g
  let core := s.coreOf f.g
  let x := s.ctx c
  let sampling := x.ctl.getLsbD 5
  let n := FMap.getD (s.core core).samples c 0 + 1
  let id := s.nextId
  let command := match p.kind with
    | .cpc .. => true
    | _ => false
  let marks : List Mark := (writeLocs f (f.infoOf i)).map fun l => { loc := l, till := .result id }
  { s with
    nextId := id + 1
    cores := if sampling then FMap.set s.cores core { s.core core with samples := FMap.set (s.core core).samples c n } else s.cores
    ops := FMap.set s.ops id
      { gang := f.gid, unit := f.ui, pc := f.u.ipc, sn := o.sn, pm := o.pm, sc := o.sc, kind := p.kind, lanes := p.lanes
        parts := f.groups.map fun k =>
          { grp := k, seq := f.g.seq[(8 * k + o.sn.toNat) % 64]'(Nat.mod_lt _ (by decide)), performed := false, completed := false }
        accs := p.accs, units := p.units, buf := [], pending := [], claimed := false
        region := f.g.regions.head?.map fun r => (r.pc, f.g.regions.length), dropped := false, windowed := (info i).windowed
        sample := sampling && n % 2 ^ (min x.sampk 24) == 0 && !command, waited := if f.u.leave then f.u.leaveWait else 0
        early := match p.kind with
          | .load _ _ _ _ _ false => if o.pm = 0 then f.u.stood else none
          | _ => none
        tag := 0, tok := 0, at_ := 0 }
    gangs := FMap.set s.gangs f.gid { f.g with
      seq := Vector.ofFn fun k : Fin 64 =>
        if k.val % 8 = o.sn.toNat ∧ f.groups.contains (k.val / 8) then f.g.seq[k] + 1 else f.g.seq[k]
      marks := f.g.marks ++ marks
      windows := if (info i).windowed ∧ coreKind core = .banner ∧ s.imageKind f ≠ .tamut then
          f.g.windows ++ [⟨id, f.u.ipc, (info i).hdr.la.toNat, 0⟩]
        else f.g.windows
      units := f.g.units.set f.ui { f.u with
        ipc := f.u.ipc + 8, leave := false, stop := if p.stop then .op id else f.u.stop
        stood := match p.kind with
          | .load .. => f.u.stood
          | .ldk _ | .stf | .bar .. => if p.stop then (FMap.get? s.teams f.g.team).map fun t => t.past.length else none
          | _ => none } } }

/-- An operation has been issued: lanes at missing pages park; then each group's part performs that may, its accesses made
with it unless a turn has put them off; then the lanes that failed their checks fault. -/
def issuedThen (i : Instr) (s : State) (f : Frame) (o : Ord) (p : Plan) : State :=
  let t : State := { (issued i s f o p).parkPages f.gid f.ui f.u.ipc p.parks with defer := false }
  let t := f.groups.foldl (fun t k => t.performPart s.nextId k (!s.defer)) t
  if p.hits.isEmpty then t else t.laneFaults f.gid f.ui p.hits f.u.ipc

/-- A gang when an operation is over (R97, R103): its marks and window are gone, and a unit it stopped goes on. -/
def Gang.opOver (g : Gang) (id : Nat) : Gang :=
  { g with
    marks := g.marks.filter fun m => m.till != .result id
    windows := g.windows.filter fun w => w.id != id
    units := g.units.map fun u => if u.stop = .op id then { u with stop := .run } else u }

/-- `t` is `s` after an operation has completed: it is gone, its gang's registers and predicates hold what an effect
says, and nothing else has changed but marks of poisoned registers that it wrote. -/
def OpCompleted (s t : State) (id : Nat) (o : Op) (g : Gang) (e : Effect) : Prop :=
  t = { s with ops := FMap.erase s.ops id, gangs := t.gangs, regPoison := t.regPoison } ∧
  (∀ x ∈ t.regPoison, x ∈ s.regPoison) ∧
  ∃ g' : Gang, t.gangs = FMap.set s.gangs o.gang g' ∧
    g' = { g.opOver id with v := g'.v, s := g'.s, p := g'.p } ∧
    ∀ loc l, loc.real = true → l < 64 →
      placeVal g' loc l = e.after ⟨o.gang, 0, g, { g.units.headD default with hm := false }⟩ loc l (placeVal g loc l)

/-- Registers of a number that fills n of them, by lane. -/
def wide (d : Reg) (n : Nat) (v : Nat → Nat) : List (Reg × (Nat → Word)) :=
  (List.range n).map fun j => (Reg.next d j, fun l => BitVec.ofNat 32 (v l / 2 ^ (32 * j)))

/-- A barrier word (R123): its guard, ordering fields, barrier, what it asks, the register it writes, its operand, and
whether it stops the gang. -/
structure BarWord where
  hdr : Hdr
  ord : Ord
  id : Nat
  kind : BarKind
  d : Reg := 0xF0
  a : Reg := 0xF0
  stop : Bool := false

/-- The barrier words. -/
def barWord? : Instr → Option BarWord
  | .barIni h id a o => some { hdr := h, ord := o, id := id.toNat, kind := .ini, a := a }
  | .barArv h d id a o => some { hdr := h, ord := o, id := id.toNat, kind := .arv, d := d, a := a }
  | .barAwt h d id a o => some { hdr := h, ord := o, id := id.toNat, kind := .awt, d := d, a := a, stop := true }
  | .barWt h id a o => some { hdr := h, ord := o, id := id.toNat, kind := .wt, a := a, stop := true }
  | .barExp h id a nxt o => some { hdr := h, ord := o, id := id.toNat, kind := .exp nxt, a := a }
  | .barTst h d id o => some { hdr := h, ord := o, id := id.toNat, kind := .tst, d := d }
  | _ => none

/-- Teams of a team's cluster (R80). -/
def clusterSize (s : State) (t : Team) : Nat :=
  match FMap.get? s.grids t.grid with
  | some g => g.lr.cw * g.lr.ch
  | none => 1

/-- The side of a copy that an address names (R78, R80, R211): a global side lies in global memory or in the system window;
another one in the local window of its team, or in the window of a rank of its cluster. -/
def SideNamed (s : State) (tid : Nat) (t : Team) (global : Bool) (a : Nat) : Side → Prop
  | .virt va => global = true ∧ va = a ∧ (a < 0x00FE000000000000 ∨ 0x0100000000000000 ≤ a ∧ a < 0x0200000000000000)
  | .scratch x o va => global = false ∧ va = a ∧ o < 0x100000 ∧
    (a = 0x00FF000000000000 + o ∧ x = tid ∨
      ∃ r < 12, a = 0x00FE000000000000 + 0x100000 * r + o ∧
        (r = t.rank ∧ x = tid ∨ r ≠ t.rank ∧ r < clusterSize s t ∧ s.teamAt t r = some x))

/-- A side and n bytes from it lie within the declared scratchpad, if it is one (R79). -/
def Side.within (scratch n : Nat) : Side → Prop
  | .virt _ => True
  | .scratch _ o _ => o + n ≤ scratch

/-- What an atomic of w bits leaves in memory (R115): `o` stands there, `v` is the operand and `c` the new value of `cas`. -/
def atomicValue (op : AtmOp) {w : Nat} (o v c : BitVec w) : BitVec w :=
  match op with
  | .add => o + v
  | .sub => o - v
  | .min => if v.slt o then v else o
  | .max => if o.slt v then v else o
  | .minu => if v.ult o then v else o
  | .maxu => if o.ult v then v else o
  | .and => o &&& v
  | .or => o ||| v
  | .xor => o ^^^ v
  | .xchg => v
  | .cas => if o = v then c else o
  | .fadd => BitVec.ofNat w (fmt32.addV .rne .inf (fmt32.read o.toNat) (fmt32.read v.toNat)).1

/-- The byte an access hands over for a place some bytes on. -/
def Access.hands (a : Access) (k : Nat) (b : Byte) : Prop := a.data[k]? = some (some b)

/-- A map after one place of it has been written: the bytes that an access hands over from a key on, and no others. -/
def Stored (a : Access) (key : Nat → Nat) (old new : Memory) : Prop :=
  (∀ k b, a.hands k b → Memory.read new (key k) = b) ∧
  ∀ x, (∀ k b, a.hands k b → x ≠ key k) → Memory.read new x = Memory.read old x

/-- The parts of an operation that a step on a group concerns (R386) have performed, and none is complete; no other part
is open. -/
def Op.only (o : Op) (grp : Nat) (performed : Bool) : Prop :=
  o.parts ≠ [] ∧ (∀ p ∈ o.parts, o.inStep grp p = true ∧ p.performed = performed ∧ p.completed = false) ∧
  ∀ l < 64, o.lanes.getLsbD l = true → ∃ p ∈ o.parts, p.grp = l / 8

/-- An operation of a living gang, neither sampled (R368) nor ignored (R337). -/
def Op.plain (s : State) (id : Nat) (o : Op) (g : Gang) : Prop :=
  FMap.get? s.ops id = some o ∧ FMap.get? s.gangs o.gang = some g ∧ g.ended = false ∧ o.sample = false ∧ o.dropped = false

end Sys2Proof.Machine
end

