-- ==== Sys2Proof/WellFormed.lean ====
section
/-! DEFINITION. Well-formed instructions: the words decode accepts. -/

namespace Sys2Proof

/-- The instruction is a word that meets every rule of R31, R34, R35 and of its own chapter. -/
abbrev WellFormed (i : Instr) : Prop := wf i = true

end Sys2Proof
end

