-- ==== Sys2Proof/Certificates/Slice0/Obligations.lean ====
section
/-! DEFINITION. The statements about this model: encoding and steps, lane-engine words and their arithmetic, control,
faults and the system, memory, and the events of the engines, the Director, the host and the checkers. -/

open Sys2Proof Sys2Proof.Machine

/-! ### Encoding and decoding -/

/-- R24 to R32, R41, R46: decoding the encoding of any well-formed word gives it back, every operand at every value; and a
word decodes only to a well-formed instruction whose encoding it is, so every bit that its format leaves unused is 0. -/
def Obligations.RoundTrip : Prop :=
  (∀ i, WellFormed i → decodeWord (encode i) = some i) ∧
  ∀ w i, decodeWord w = some i → WellFormed i ∧ encode i = w

/-- R49: the first failing check names the illegal word's cause, in this order: reserved major 0x02, absent unit 0x11,
illegal encoding 0x01 (a word that no format admits is one), register window 0x03; a word that fails none decodes to its
instruction. -/
def Obligations.FirstFailingCheck : Prop :=
  (∀ c (w : BitVec 64), w.getLsbD 63 = false → 12 ≤ (w.extractLsb' 59 4).toNat →
    decodeIn c w = .illegalEncoding .reservedMajor) ∧
  (∀ c (w : BitVec 64), w.getLsbD 63 = false → w.extractLsb' 59 4 = 8 → c.core = .pennant →
    decodeIn c w = .illegalEncoding .absent) ∧
  (∀ c (w : BitVec 64), (w.getLsbD 63 = true ∨ (w.extractLsb' 59 4).toNat < 12 ∧
      (w.extractLsb' 59 4 = 8 → c.core = .banner)) → decodeWord w = none →
    decodeIn c w = .illegalEncoding .illegal) ∧
  ∀ c i, WellFormed i → ((info i).matrix = true → c.core = .banner) →
    decodeIn c (encode i) =
      if ctxLegal c i = false then .illegalEncoding .illegal
      else if inWindow c i = false then .illegalEncoding .window
      else i

/-- R24, R27, R28, R41: words written out from the spec's field positions decode to the instructions they stand for:
`add.i32 v3, v4, v5` under `@!p2`, `ld.32 v1, [s2:s3 + v7]` with stream 5, a `bra` four words back (32 bytes) and a paired
`add`/`mov`. -/
def Obligations.DecodeWords : Prop :=
  decodeWord (0#1 ++ 0x0#4 ++ 0x00#6 ++ 1#1 ++ 2#5 ++ 1#1 ++ 0#4 ++ 3#8 ++ 4#8 ++ 5#8 ++ 0#8 ++ 0#2 ++ 0#4 ++ 3#4) =
    some (.add ⟨.on 2 true, 0⟩ .i32 3 4 5) ∧
  decodeWord (0#1 ++ 0x5#4 ++ 0x02#6 ++ 0#1 ++ 0#5 ++ 0#1 ++ 6#4 ++ 1#8 ++ 18#6 ++ 7#8 ++ 0#6 ++ 5#3 ++ 3#8 ++ 2#2 ++ 0#1) =
    some (.ld32 ⟨.always, 6⟩ 1 ⟨18, 7, 0, ⟨5, 3, .device⟩⟩ false) ∧
  decodeWord (0#1 ++ 0x4#4 ++ 0x00#6 ++ 0#1 ++ 0#5 ++ 0#1 ++ 0#4 ++ 0#8 ++ 0#8 ++ 0x3FFFFFC#26) =
    some (.bra ⟨.always, 0⟩ 0x3FFFFFC) ∧
  decodeWord (1#1 ++ (0#1 ++ 0x01#6 ++ 9#8 ++ 10#8 ++ 0#8) ++ (0#1 ++ 0x0D#6 ++ 12#8 ++ 13#8 ++ 0#8) ++ 0#1) =
    some (.pairedWord (.reg .add 9 10) (.reg .mov 12 13))

/-! ### Steps -/

/-- R138, R49, R142: the step of an issue decision runs the decoded word. Where the quadrant is free and owes no recompute,
the chosen unit owes no rotation, no event, no policy fault and no breakpoint, and its word at its PC decodes to `i`, the
step is `exec i` with what the model puts around it: losers wait one decision longer (the chosen unit's sub-gangs among
them), the unit is the quadrant's last chosen, the word is counted and takes its slot (R38, R198), the unit is the executing one, and afterwards a single step
stops and the machine settles. -/
def Obligations.StepRunsDecoded : Prop :=
  ∀ (s : State) core quad late rest c v x i, s.agenda = .issue core quad late :: rest →
    let s0 : State := { s with agenda := rest }
    let cs := s0.candidates core quad
    let q := FMap.getD (s0.core core).quads quad {}
    q.busy ≤ s0.clock core → q.redoDue (s0.clock core) = none →
    s0.pick core (s0.unitsIn core quad).length q.last cs = some c →
    let f := ((s0.waitOn cs c).frameOf c.gid c.ui).getD c
    let s1 : State := { (s0.waitOn cs c).chosen core quad f with defer := late }
    rotates f = false → raises f = false → invocationOver f.u = false → s1.breakpoint f = none →
    s1.versionOf f.g = some v → v.imageAt f.u.ipc.toNat = some x →
    runsImage (coreKind (s1.coreOf f.g)) x.kind = true → v.codeVa = none →
    decodeIn (s1.decodeCtx f x) (v.word f.u.ipc.toNat) = i →
    collCaught f i = false → s1.asks f i = false → s1.poisonHits f i = 0 → f.g.red = false →
    let clk := s1.clock (s1.coreOf f.g)
    let s2 : State :=
      { (s1.countWord f i).spendSlot f.gid f.ui (slotsOf i) clk (s1.occupancy f i) with cur := some (f.gid, f.ui) }
    step s = andThen (fun t => (t.endDecision (some f)).settle) (exec i s2)

/-- No step of the machine faults or refuses, whatever the state: each fault of the spec has a delivery, after which the device
goes on (R324, R325). -/
def Obligations.StepAlwaysNext : Prop := ∀ s, ∃ t, step s = .next t

/-- Every memory of the machine keeps its canonical form in every step (device memory, host memory and each team's
scratchpad), and the operations stay listed by rising number. -/
def Obligations.StepKeepsForm : Prop :=
  ∀ s t, step s = .next t →
    (Memory.wf s.mem ∧ Memory.wf s.dev.hostMem ∧ (∀ x ∈ s.teams, Memory.wf x.2.mem) ∧ FMap.sorted s.ops) →
    Memory.wf t.mem ∧ Memory.wf t.dev.hostMem ∧ (∀ x ∈ t.teams, Memory.wf x.2.mem) ∧ FMap.sorted t.ops

/-- The memories and the list of operations of the machine after reset have that form. -/
def Obligations.ResetForm : Prop :=
  Memory.wf State.reset.mem ∧ Memory.wf State.reset.dev.hostMem ∧ (∀ x ∈ State.reset.teams, Memory.wf x.2.mem) ∧
    FMap.sorted State.reset.ops

/-- R139: the candidates are the quadrant's units that are ready. The unit chosen is a candidate; with an overdue candidate it
is overdue, else it has the highest class among the candidates; no candidate of that pool has waited longer, and none that
has waited as long stands before it in slot order counted from after the last chosen slot. A candidate that is not chosen
waits one decision longer, every other unit's count stays, and a unit that issues has waited 0. -/
def Obligations.IssueChoice : Prop :=
  (∀ (s : State) core quad f, f ∈ s.candidates core quad ↔
    f ∈ s.unitsIn core quad ∧ s.mayIssue f = true ∧ s.stall f = none) ∧
  (∀ (s : State) core quad last f, let cs := s.candidates core quad
    let n := (s.unitsIn core quad).length
    s.pick core n last cs = some f →
    f ∈ cs ∧
    ((∃ c ∈ cs, 32 * n ≤ c.u.wait) → 32 * n ≤ f.u.wait) ∧
    ((∀ c ∈ cs, c.u.wait < 32 * n) → ∀ c ∈ cs, c.g.cls.toNat ≤ f.g.cls.toNat) ∧
    ∀ c ∈ cs, (32 * n ≤ c.u.wait ∨ (∀ d ∈ cs, d.u.wait < 32 * n) ∧ c.g.cls = f.g.cls) →
      c.u.wait ≤ f.u.wait ∧
      (c.u.wait = f.u.wait →
        slotAfter (quadSlots (coreKind core)) last (s.unitSlot f.g f.u) ≤
          slotAfter (quadSlots (coreKind core)) last (s.unitSlot c.g c.u))) ∧
  (∀ (s : State) core quad last, s.candidates core quad ≠ [] →
    (s.pick core (s.unitsIn core quad).length last (s.candidates core quad)).isSome = true) ∧
  (∀ (s : State) core quad f gid ui x, let cs := (s.candidates core quad).map fun c => (c.gid, c.ui)
    cs.Nodup → s.frameOf gid ui = some x →
    ∃ y, (s.waitOn (s.candidates core quad) f).frameOf gid ui = some y ∧
      ((gid, ui) ∈ cs → (gid, ui) ≠ (f.gid, f.ui) → y.u.wait = x.u.wait + 1) ∧
      ((gid, ui) ∉ cs ∨ (gid, ui) = (f.gid, f.ui) → y.u.wait = x.u.wait)) ∧
  ∀ (s : State) gid ui n clk busy x, s.frameOf gid ui = some x →
    ∃ y, (s.spendSlot gid ui n clk busy).frameOf gid ui = some y ∧ y.u.wait = 0

/-- R142, R344, R345, R360: a decision is made only for a unit of a gang whose context runs and is not about to stop but for
a stop of the running clock, whose team is on its core with no region entry due, which has a ready lane or is in handler
mode, stands at no blocking point and has not itself stopped for the debugger. -/
def Obligations.OnlyRunningContextsIssue : Prop :=
  ∀ (s : State) core quad late f d, s.decision core quad late = some (some f, d) →
    ∃ t, s.teamOf f.g = some t ∧ (s.ctx t.ctx).life = .running ∧ (∀ d, (s.ctx t.ctx).down = some d → d.at_ = s.now) ∧
      t.entries = [] ∧ (t.life = .resident ∨ t.life = .blocked) ∧ f.u.stop = .run ∧ f.u.stopped = false ∧
      (f.u.hm = true ∨ f.u.am ||| f.u.km ≠ 0)

/-! ### Lane-engine words -/

/-- R153 to R159: the integer words of major 0x0 complete; each writes its destination in the lanes that take part,
with its carry or selection predicates, and nothing else. -/
def Obligations.IntegerWords : Prop := LaneWords intEffect

/-- R160 to R164, R166, R167, R169: the plain float words, the long-immediate words and the conversions complete where no
lane traps; each writes its destination in the lanes that take part, and nothing else. -/
def Obligations.FloatAndConvertWords : Prop := LaneWords floatEffect ∧ LaneWords longEffect

/-- R41 to R43, R170 to R175, R194, R364: moves, broadcasts, exchanges, reads of special registers and of the clock,
predicate words and votes, the paired word, and the puppeteer's reads of lane PCs complete. What a special register reads is
R132 to R134; `rdsr` of `lag` gives the lags before the word's own slot counts, the model's choice (log entry 65). -/
def Obligations.MoveAndPredicateWords : Prop := LaneWords moveEffect ∧ LaneWords predEffect ∧ LaneWords otherEffect

/-- R277 to R279: the plain block words complete where no lane traps and every flag is known. -/
def Obligations.BlockWords : Prop := LaneWords blockEffect

/-- R150, R161, R278: a lane that overflows under `.trap` faults with 0x0B and is not written, and a lane of `flg` with
an unknown flag faults with 0x09; with a scalar destination every lane that takes part faults (R146). -/
def Obligations.TrappingWords : Prop :=
  TrapWords floatEffect (fun _ => .overflow) ∧ TrapWords longEffect (fun _ => .overflow) ∧
  TrapWords blockEffect (fun i => match i with
    | .flg .. => .unknownFlag
    | _ => .overflow)

/-- R38, R143, R155, R162, R165, R276: a windowed lane word issues; its result is formed at once, waits for its
latency (and the matrix unit's derating, R258) under a new number, and when it is written leaves what the table says in every
place. R38, R143, R144, R165: a windowed result that is due and that no recompute holds is written, its marks clear and its
window closes, and no other register changes; lanes that trapped then fault with its cause at the word's PC. -/
def Obligations.WindowedWords : Prop :=
  (∀ i s f e, s.frame = some f → Legal i f = true → lateEffect i s f = some e →
    ∃ t r, exec i s = .next t ∧ WindowIssued i s t f r ∧
      r = { pc := f.u.ipc, unit := f.ui, due := some (s.clock (s.coreOf f.g) + e.late + (if (info i).matrix then s.slow else 0)), writes := r.writes
            faults := e.faults, cause := .overflow, ask := none, hm := f.u.hm } ∧
      ∀ g : Gang, f.ui < g.units.length → ∀ loc l, loc.real = true → l < 64 →
        placeVal (g.writes r.writes) loc l = e.after f loc l (placeVal g loc l)) ∧
  (∀ (s : State) gid id g r n, FMap.get? s.gangs gid = some g → FMap.get? g.results id = some r → r.due = some n →
    n ≤ s.clock (s.coreOf g) → r.ask = none → r.faults = 0 → g.ended = false → s.redoHeld gid id = false →
    ∃ t, exec (.windowedComplete gid id) s = .next t ∧
      t = { s with gangs := t.gangs, regPoison := t.regPoison } ∧
      (∀ x ∈ t.regPoison, x ∈ s.regPoison) ∧
      t.gangs = FMap.set s.gangs gid { g.writes r.writes with
        results := FMap.erase g.results id
        marks := g.marks.filter fun m => m.till != .result id
        windows := g.windows.filter fun w => w.id != id }) ∧
  ∀ (s : State) gid id g r n, FMap.get? s.gangs gid = some g → FMap.get? g.results id = some r → r.due = some n →
    n ≤ s.clock (s.coreOf g) → r.ask = none → r.faults ≠ 0 → r.hm = false → s.redoHeld gid id = false →
    let t : State := { s with
      gangs := FMap.set s.gangs gid { g.writes r.writes with results := FMap.erase g.results id }
      regPoison := s.regPoison.filter fun p => !(p.1 == gid && r.writes.any fun w =>
        w.loc == p.2.1 && match p.2.1 with
          | .v _ | .hv _ | .p _ => w.mask.getLsbD p.2.2
          | _ => w.mask != 0) }
    let u := t.takeFaults gid ((lanesOf r.faults).map fun l => ⟨l, r.cause, 0⟩) r.pc
    exec (.windowedComplete gid id) s = .next (({ u with gangs := FMap.adjust u.gangs gid fun g => { g with
      marks := g.marks.filter fun m => m.till != .result id
      windows := g.windows.filter fun w => w.id != id } } : State).reap gid)

/-! ### Arithmetic -/

/-- R147, R153, R158: the integer functions, exactly: a result is the exact value wrapped to the type's width and extended
into its register, sign or zero by its type; `mulh` gives the high half of the exact product; `min` and `max` are signed
or unsigned by type; `abs` of the minimum is the minimum; the bit functions act on the type's width; `addc` and `subc`
give the carry and the borrow; `lea` adds the extended and shifted operand; `.h2` computes each half on its own. -/
def Obligations.IntegerArithmetic : Prop :=
  (∀ (ty : Ty), ty.isInt = true → ∀ a b c : DWord,
    let w := Ty.width ty
    let x := a.setWidth w
    let y := b.setWidth w
    (aluAdd ty a b).setWidth w = x + y ∧ (aluSub ty a b).setWidth w = x - y ∧ (aluMul ty a b).setWidth w = x * y ∧
    (aluMad ty a b c).setWidth w = x * y + c.setWidth w ∧ (aluNeg ty a).setWidth w = -x ∧
    (ty.isSigned = true → (aluMulh ty a b).setWidth w = (x.signExtend (2 * w) * y.signExtend (2 * w)).extractLsb' w w) ∧
    (ty.isSigned = false → (aluMulh ty a b).setWidth w = (x.setWidth (2 * w) * y.setWidth (2 * w)).extractLsb' w w) ∧
    (ty.isSigned = true → (aluMin ty a b).setWidth w = (if y.slt x then y else x) ∧
      (aluMax ty a b).setWidth w = if x.slt y then y else x) ∧
    (ty.isSigned = false → (aluMin ty a b).setWidth w = (if y.ult x then y else x) ∧
      (aluMax ty a b).setWidth w = if x.ult y then y else x) ∧
    (ty.isSigned = true → (aluAbs ty a).setWidth w = if x.msb then -x else x) ∧
    ∀ r ∈ [aluAdd ty a b, aluSub ty a b, aluMul ty a b, aluMulh ty a b, aluMad ty a b c, aluDiv ty a b, aluRem ty a b,
        aluMin ty a b, aluMax ty a b, aluAbs ty a, aluNeg ty a],
      (ty.isSigned = true → r.setWidth (32 * ty.regs) = (r.setWidth w).signExtend (32 * ty.regs)) ∧
      (ty.isSigned = false → r.setWidth (32 * ty.regs) = (r.setWidth w).setWidth (32 * ty.regs))) ∧
  (∀ ty ∈ [Ty.b32, .i64, .n64], ∀ a b : DWord,
    let w := Ty.width ty
    let x := a.setWidth w
    let y := b.setWidth w
    (aluAnd ty a b).setWidth w = x &&& y ∧ (aluOr ty a b).setWidth w = x ||| y ∧ (aluXor ty a b).setWidth w = x ^^^ y ∧
    (aluAndn ty a b).setWidth w = x &&& ~~~y ∧
    (∃ n ≤ w, aluClz ty a = BitVec.ofNat 64 n ∧ (∀ k < n, x.getLsbD (w - 1 - k) = false) ∧
      (n < w → x.getLsbD (w - 1 - n) = true)) ∧
    aluPopc ty a = BitVec.ofNat 64 (Finset.univ.filter fun k : Fin w => x.getLsbD k = true).card ∧
    ∀ k < w, (aluBrev ty a).getLsbD k = x.getLsbD (w - 1 - k)) ∧
  (∀ ty ∈ [Ty.n32, .n64], ∀ (a b : DWord) (c : Bool),
    let w := Ty.width ty
    let x := a.setWidth w
    let y := b.setWidth w
    (aluAddc ty a b c).1.setWidth w = x + y + BitVec.ofNat w c.toNat ∧
    (aluAddc ty a b c).2 = decide (2 ^ w ≤ x.toNat + y.toNat + c.toNat) ∧
    (aluSubc ty a b c).1.setWidth w = x - y - BitVec.ofNat w c.toNat ∧
    (aluSubc ty a b c).2 = decide (x.toNat < y.toNat + c.toNat)) ∧
  (∀ (a b : DWord), ∀ sh < 8,
    aluLea .i32 sh a b = a + ((b.setWidth 32).signExtend 64) * BitVec.ofNat 64 (2 ^ sh) ∧
    aluLea .n32 sh a b = a + BitVec.ofNat 64 (b.toNat % 2 ^ 32) * BitVec.ofNat 64 (2 ^ sh) ∧
    aluLea .i64 sh a b = a + b * BitVec.ofNat 64 (2 ^ sh)) ∧
  ∀ a b c : DWord, ∀ k < 2,
    let h (x : DWord) : BitVec 16 := x.extractLsb' (16 * k) 16
    h (aluAdd .h2 a b) = h a + h b ∧ h (aluSub .h2 a b) = h a - h b ∧ h (aluMul .h2 a b) = h a * h b ∧
    h (aluMad .h2 a b c) = h a * h b + h c ∧ h (aluNeg .h2 a) = -h a ∧
    h (aluAbs .h2 a) = (if (h a).msb then -h a else h a) ∧
    h (aluMin .h2 a b) = (if (h b).slt (h a) then h b else h a) ∧
    h (aluMax .h2 a b) = (if (h a).slt (h b) then h b else h a)

/-- R154: a shift count is unsigned; at the width or beyond, `shl` and `shr` give 0 and `sar` copies of the sign bit,
and `rot` uses the count modulo the width; below it the bits move by the count. -/
def Obligations.ShiftCounts : Prop :=
  (∀ ty ∈ [Ty.b32, .i64, .n64], ∀ a b : DWord,
    let w := Ty.width ty
    let x := a.setWidth w
    let c := (b.setWidth 32).toNat
    (w ≤ c → aluShl ty a b = 0 ∧ aluShr ty a b = 0 ∧
      aluSar ty a b = (if x.msb then BitVec.allOnes w else 0).setWidth 64) ∧
    (c < w → aluShl ty a b = (BitVec.ofNat w (x.toNat * 2 ^ c)).setWidth 64 ∧
      aluShr ty a b = BitVec.ofNat 64 (x.toNat / 2 ^ c) ∧
      aluSar ty a b = (BitVec.ofInt w (x.toInt / 2 ^ c)).setWidth 64) ∧
    aluRot ty a b = (BitVec.ofNat w (x.toNat * 2 ^ (c % w) + x.toNat / 2 ^ (w - c % w))).setWidth 64) ∧
  ∀ a b : DWord, ∀ k < 2,
    let x := (a.setWidth 32).extractLsb' (16 * k) 16
    let c := ((b.setWidth 32).extractLsb' (16 * k) 16).toNat
    (16 ≤ c → half (aluShl .h2 a b) k = 0 ∧ half (aluShr .h2 a b) k = 0 ∧
      half (aluSar .h2 a b) k = (if x.msb then BitVec.allOnes 16 else 0).setWidth 64) ∧
    (c < 16 → half (aluShl .h2 a b) k = (BitVec.ofNat 16 (x.toNat * 2 ^ c)).setWidth 64 ∧
      half (aluShr .h2 a b) k = BitVec.ofNat 64 (x.toNat / 2 ^ c) ∧
      half (aluSar .h2 a b) k = (BitVec.ofInt 16 (x.toInt / 2 ^ c)).setWidth 64)

/-- R155: division by zero gives all ones and the dividend, the signed minimum by −1 gives the minimum and 0, and every
other division truncates toward zero; no lane of `div` or `rem` faults. -/
def Obligations.DivisionCases : Prop :=
  (∀ h ty d a b imm s f e, (lateEffect (.div h ty d a b) s f = some e ∨ lateEffect (.rem h ty d a b) s f = some e ∨
    lateEffect (.divImm h ty d a imm) s f = some e ∨ lateEffect (.remImm h ty d a imm) s f = some e) → e.faults = 0) ∧
  ∀ (ty : Ty), ty.isInt = true → ∀ a b : DWord,
    let w := Ty.width ty
    let x := a.setWidth w
    let y := b.setWidth w
    (y = 0 → (aluDiv ty a b).setWidth w = BitVec.allOnes w ∧ (aluRem ty a b).setWidth w = x) ∧
    (ty.isSigned = true → x = BitVec.intMin w → y = BitVec.allOnes w →
      (aluDiv ty a b).setWidth w = BitVec.intMin w ∧ (aluRem ty a b).setWidth w = 0) ∧
    (ty.isSigned = true → y ≠ 0 → (x = BitVec.intMin w → y ≠ BitVec.allOnes w) →
      ((aluDiv ty a b).setWidth w).toInt = Int.tdiv x.toInt y.toInt ∧
      ((aluRem ty a b).setWidth w).toInt = Int.tmod x.toInt y.toInt) ∧
    (ty.isSigned = false → y ≠ 0 →
      ((aluDiv ty a b).setWidth w).toNat = x.toNat / y.toNat ∧ ((aluRem ty a b).setWidth w).toNat = x.toNat % y.toNat)

/-- R156, R157, R159: comparisons are signed for `.i` types and unsigned for the others; `bfx` takes the bits of a field
clipped to the width, sign-extended by a signed type, and `bfi` replaces exactly those bits; `acs.h2` keeps in each half
the smaller of the two sums, held at 0xFFFF, and reports whether the second was smaller. -/
def Obligations.ComparisonsFieldsAndSelect : Prop :=
  (∀ (ty : Ty), (ty.isInt = true ∨ ty = .b32) → ∀ a b : DWord,
    let w := Ty.width ty
    let x := a.setWidth w
    let y := b.setWidth w
    aluCmp .eq ty a b = decide (x = y) ∧ aluCmp .ne ty a b = decide (x ≠ y) ∧
    (ty.isSigned = true → aluCmp .lt ty a b = x.slt y ∧ aluCmp .le ty a b = x.sle y ∧ aluCmp .gt ty a b = y.slt x ∧
      aluCmp .ge ty a b = y.sle x) ∧
    (ty.isSigned = false → aluCmp .lt ty a b = x.ult y ∧ aluCmp .le ty a b = x.ule y ∧ aluCmp .gt ty a b = y.ult x ∧
      aluCmp .ge ty a b = y.ule x)) ∧
  (∀ (ty : Ty), (ty.isInt = true ∨ ty = .b32) → ∀ a v k : DWord,
    let w := Ty.width ty
    let pos := min (k.extractLsb' 0 8).toNat w
    let len := min (k.extractLsb' 8 8).toNat (w - pos)
    (∀ n < w, (aluBfx ty a k).getLsbD n =
      if n < len then a.getLsbD (pos + n)
      else ty.isSigned && decide (0 < len) && a.getLsbD (pos + len - 1)) ∧
    ∀ n < 64, (aluBfi ty a v k).getLsbD n =
      (decide (n < w) && if pos ≤ n ∧ n < pos + len then v.getLsbD (n - pos) else a.getLsbD n)) ∧
  ∀ a b c : DWord, ∀ k < 2,
    let x := ((a.setWidth 32).extractLsb' (16 * k) 16).toNat + (c.extractLsb' (16 * k) 8).toNat
    let y := ((b.setWidth 32).extractLsb' (16 * k) 16).toNat + (c.extractLsb' (16 * k + 8) 8).toNat
    ((aluAcs a b c).extractLsb' (16 * k) 16).toNat = min (min x y) 0xFFFF ∧ (acsHalf a b c k).2 = decide (y < x)

/-- R149, R150: a non-zero magnitude that does not overflow is rounded once, by the rounding mode: to the nearest value the
format has, the one with an even significand where two are as near, or to the nearest on the side the mode names; a
result that rounds to zero keeps its sign. It overflows where the rounding mode would take it beyond the largest finite
value, were the exponent unbounded. -/
def Obligations.RoundedOnce : Prop :=
  ∀ f ∈ [fmt32, fmt16, fmtB16], ∀ rm ov neg (m : Nat) (e : Int), 0 < m →
    let x : ℚ := (if neg then -1 else 1) * m * 2 ^ e
    ¬f.overflows rm neg m e →
    ∃ v : ℚ, f.holds (f.round rm ov neg m e).1 v ∧ (f.round rm ov neg m e).2 = false ∧
      (v = 0 → (f.round rm ov neg m e).1 = f.sign neg) ∧
      match rm with
      | .rne => (∀ b y, f.holds b y → |v - x| ≤ |y - x|) ∧
          ∀ b y, f.holds b y → |y - x| = |v - x| → y ≠ v → (f.round rm ov neg m e).1 % 2 = 0
      | .rz => |v| ≤ |x| ∧ ∀ b y, f.holds b y → |y| ≤ |x| → |y| ≤ |v|
      | .rdn => v ≤ x ∧ ∀ b y, f.holds b y → y ≤ x → y ≤ v
      | .rup => x ≤ v ∧ ∀ b y, f.holds b y → x ≤ y → v ≤ y

/-- R150: of a magnitude that overflows the policy decides the result, never the rounding mode;
an integer beyond its type takes the nearer end, the low bits or the indefinite value, or traps. R151, R161: NaN
sources, infinities of opposite sign, zero times infinity, zero over zero and infinity over infinity give the
canonical NaN; a division of a finite value by zero gives a signed infinity, and by infinity a signed zero; equal
zeros add to themselves, and opposite ones to +0, or to −0 toward −∞. -/
def Obligations.OverflowAndSpecialCases : Prop :=
  ((∀ f ∈ [fmt32, fmt16, fmtB16], ∀ rm ov neg (m : Nat) (e : Int), 0 < m → f.overflows rm neg m e →
    f.round rm ov neg m e = match ov with
      | .sat => (f.maxFin neg, false)
      | .inf => (f.infty neg, false)
      | .nan => (f.canon, false)
      | .trap => (f.canon, true)) ∧
  ∀ (t : Ty), t.isInt = true → ∀ (i : Int) exact,
    (Ty.maxInt t < i → intFit t .sat i exact = (ofInt t (Ty.maxInt t), false)) ∧
    (i < Ty.minInt t → intFit t .sat i exact = (ofInt t (Ty.minInt t), false)) ∧
    ((Ty.maxInt t < i ∨ i < Ty.minInt t) →
      (intFit t .trap i exact).2 = true ∧ (∀ ov ∈ [Ov.inf, .nan], intFit t ov i true = (ofInt t i, false) ∧
        intFit t ov i false = (ofInt t (if t.isSigned then Ty.minInt t else -1), false)))) ∧
  ∀ (f : Fmt) rm ov,
    (∀ s y, f.addV rm ov (.nan s) y = (f.canon, false) ∧ f.addV rm ov y (.nan s) = (f.canon, false) ∧
      f.roundV rm ov (mulV (.nan s) y) = (f.canon, false) ∧ f.roundV rm ov (mulV y (.nan s)) = (f.canon, false) ∧
      f.divV rm ov (.nan s) y = (f.canon, false) ∧ f.divV rm ov y (.nan s) = (f.canon, false) ∧
      f.rndV rm (.nan s) = (f.canon, false) ∧ f.sqrtV rm (.nan s) = (f.canon, false)) ∧
    (∀ a, f.addV rm ov (.inf a) (.inf (!a)) = (f.canon, false) ∧ f.addV rm ov (.inf a) (.inf a) = (f.infty a, false)) ∧
    (∀ a s m e, f.addV rm ov (.inf a) (.num s m e) = (f.infty a, false) ∧
      f.roundV rm ov (mulV (.inf a) (.num s 0 e)) = (f.canon, false) ∧
      (0 < m → f.roundV rm ov (mulV (.inf a) (.num s m e)) = (f.infty (a != s), false)) ∧
      f.divV rm ov (.num s m e) (.inf a) = (f.sign (s != a), false)) ∧
    (∀ a b, f.divV rm ov (.inf a) (.inf b) = (f.canon, false)) ∧
    (∀ s r m e e', f.divV rm ov (.num s 0 e) (.num r 0 e') = (f.canon, false) ∧
      (0 < m → f.divV rm ov (.num s m e) (.num r 0 e') = (f.infty (s != r), false) ∧
        f.divV rm ov (.num s 0 e) (.num r m e') = (f.sign (s != r), false) ∧
        f.addV rm ov (.num s m e) (.num (!s) m e) = (f.sign (rm == .rdn), false))) ∧
    ∀ s e e', f.addV rm ov (.num s 0 e) (.num s 0 e') = (f.sign s, false) ∧
      f.addV rm ov (.num s 0 e) (.num (!s) 0 e') = (f.sign (rm == .rdn), false)

/-- R163: `fmin` and `fmax` return the smaller or larger source, −0 less than +0, the other source where one is a NaN, the
canonical NaN where both are; nothing is rounded. R164, R166: every comparison but `.ne` and `.un` is false with a NaN; every
other follows the order of the finite values and the infinities; the class mask has exactly one bit for each element. -/
def Obligations.MinMaxCompareClassify : Prop :=
  ∀ f ∈ [fmt32, fmt16, fmtB16], ∀ x y, x < 2 ^ f.width → y < 2 ^ f.width →
    ((f.read x).isNan = true → (f.read y).isNan = true → f.minmax false x y = f.canon ∧ f.minmax true x y = f.canon) ∧
    ((f.read x).isNan = true → (f.read y).isNan = false → f.minmax false x y = y ∧ f.minmax true x y = y) ∧
    ((f.read x).isNan = false → (f.read y).isNan = true → f.minmax false x y = x ∧ f.minmax true x y = x) ∧
    (∀ v w : ℚ, f.holds x v → f.holds y w → (v < w → f.minmax false x y = x ∧ f.minmax true x y = y) ∧
      (w < v → f.minmax false x y = y ∧ f.minmax true x y = x)) ∧
    (f.minmax false 0 (f.sign true) = f.sign true ∧ f.minmax false (f.sign true) 0 = f.sign true ∧
      f.minmax true 0 (f.sign true) = 0 ∧ f.minmax true (f.sign true) 0 = 0) ∧
    ((f.read x).isNan = false →
      f.minmax false x x = x ∧ f.minmax true x x = x ∧
      f.minmax false (f.infty true) x = f.infty true ∧ f.minmax false x (f.infty true) = f.infty true ∧
      f.minmax false (f.infty false) x = x ∧ f.minmax false x (f.infty false) = x ∧
      f.minmax true (f.infty false) x = f.infty false ∧ f.minmax true x (f.infty false) = f.infty false ∧
      f.minmax true (f.infty true) x = x ∧ f.minmax true x (f.infty true) = x) ∧
    ((f.read x).isNan = true ∨ (f.read y).isNan = true →
      ∀ cc, f.cmp cc x y = decide (cc = .ne ∨ cc = .un)) ∧
    (∀ v w : ℚ, f.holds x v → f.holds y w →
      f.cmp .eq x y = decide (v = w) ∧ f.cmp .lt x y = decide (v < w) ∧ f.cmp .le x y = decide (v ≤ w) ∧
      f.cmp .ne x y = decide (v ≠ w) ∧
      f.cmp .gt x y = decide (w < v) ∧ f.cmp .ge x y = decide (w ≤ v) ∧ f.cmp .ord x y = true ∧ f.cmp .un x y = false) ∧
    (∀ (v : ℚ) (r : Bool), f.holds x v →
      f.cmp .eq x (f.infty r) = false ∧ f.cmp .ne x (f.infty r) = true ∧ f.cmp .lt x (f.infty r) = !r ∧
      f.cmp .le x (f.infty r) = !r ∧ f.cmp .gt x (f.infty r) = r ∧ f.cmp .ge x (f.infty r) = r ∧
      f.cmp .ord x (f.infty r) = true ∧ f.cmp .un x (f.infty r) = false ∧
      f.cmp .eq (f.infty r) x = false ∧ f.cmp .ne (f.infty r) x = true ∧ f.cmp .lt (f.infty r) x = r ∧
      f.cmp .le (f.infty r) x = r ∧ f.cmp .gt (f.infty r) x = !r ∧ f.cmp .ge (f.infty r) x = !r ∧
      f.cmp .ord (f.infty r) x = true ∧ f.cmp .un (f.infty r) x = false) ∧
    (∀ r q : Bool, let a := f.infty r
      let b := f.infty q
      f.cmp .eq a b = decide (r = q) ∧ f.cmp .ne a b = decide (r ≠ q) ∧ f.cmp .lt a b = (r && !q) ∧
      f.cmp .le a b = (r || !q) ∧ f.cmp .gt a b = (!r && q) ∧ f.cmp .ge a b = (!r || q) ∧ f.cmp .ord a b = true ∧
      f.cmp .un a b = false) ∧
    (∃ n < 10, f.cls x = 2 ^ n ∧
      (n = 9 ↔ (f.read x).isNan = true ∧ x / 2 ^ (f.p - 2) % 2 = 1) ∧ (n = 8 ↔ f.read x = .nan true) ∧
      (n = 7 ↔ x = f.infty false) ∧ (n = 0 ↔ x = f.infty true) ∧ (n = 4 ↔ x = 0) ∧ (n = 3 ↔ x = f.sign true) ∧
      (n = 1 ↔ f.sign true + 2 ^ (f.p - 1) ≤ x ∧ x < f.infty true) ∧
      (n = 2 ↔ f.sign true < x ∧ x < f.sign true + 2 ^ (f.p - 1)) ∧
      (n = 5 ↔ 0 < x ∧ x < 2 ^ (f.p - 1)) ∧ (n = 6 ↔ 2 ^ (f.p - 1) ≤ x ∧ x < f.infty false))

/-! ### Control -/

/-- R179, R180, R182: a transfer all of whose lanes have the same next PC moves the unit there, after a redirect where
that is not the next word; the link register takes the address behind the transfer. In handler mode a guard of `bra`
and `call` must take all lanes or none (R191). R180, R184: a transfer whose lanes go different ways outside handler
mode sends every active lane to `km` with its next PC, and the event BR or BRX is due with the transfer's PC. -/
def Obligations.Transfers : Prop :=
  (∀ i s f x p, s.frame = some f → Legal i f = true → transferring i s f = some x → x.fine f → Frame.base f ≠ 0 →
    (∀ l < 64, (Frame.base f).getLsbD l = true → x.next f l = p) →
    (f.u.hm = true → x.event = .br → Frame.part f x.hdr = 0 ∨ Frame.part f x.hdr = Frame.base f) →
    let core := s.coreOf f.g
    let near := decide (p = f.u.ipc + 8)
    ∃ t, exec i s = .next t ∧
      UnitRan s t f { f.u with
        ipc := p
        nextIssue :=
          if near then f.u.nextIssue
          else max f.u.nextIssue (s.clock core + redirectClocks (coreKind core) f.g.width)
        serial := if near then f.u.serial else false } f.g.lpc ∧
      Wrote t f (x.links f)) ∧
  ∀ i s f x l l', s.frame = some f → Legal i f = true → transferring i s f = some x → x.fine f → f.u.hm = false →
    l < 64 → l' < 64 → f.u.am.getLsbD l = true → f.u.am.getLsbD l' = true → x.next f l ≠ x.next f l' →
    ∃ t, exec i s = .next t ∧
      UnitRan s t f { f.u with
        am := 0, km := f.u.km ||| f.u.am, due := some (x.event, f.u.ipc), emptyPc := some f.u.ipc }
        (Vector.ofFn fun k : Fin 64 => if f.u.am.getLsbD k.val then x.next f k.val else f.g.lpc[k]) ∧
      Wrote t f (x.links f)

/-- R51, R180, R181, R191: where every active lane takes part and none has a legal target, a transfer moves nothing: the
lanes fault with 0x12, 0x0C or 0x07 at its PC. A transfer in handler mode whose lanes differ, or a `bra` or `call` there
whose guard takes some of the lanes only, is nested divergence: the invocation ends, the lanes of `km` become trap-parked
keeping their PCs, and cause 0x0F is delivered for each in ascending order. -/
def Obligations.TransfersThatFault : Prop :=
  (∀ i s f x (c : Nat → Cause), s.frame = some f → Legal i f = true → transferring i s f = some x → f.u.hm = false →
    Frame.part f x.hdr = f.u.am → (∀ l < 64, f.u.am.getLsbD l = true → x.target l = .error (c l)) →
    exec i s = .next (s.takeFaults f.gid ((lanesOf f.u.am).map fun l => ⟨l, c l, 0⟩) f.u.ipc)) ∧
  ∀ i s f x, s.frame = some f → Legal i f = true → transferring i s f = some x → x.fine f → f.u.hm = true →
    ((∃ l < 64, ∃ l' < 64, (Frame.base f).getLsbD l = true ∧ (Frame.base f).getLsbD l' = true ∧
        x.next f l ≠ x.next f l') ∨
      x.event = .br ∧ Frame.part f x.hdr ≠ 0 ∧ Frame.part f x.hdr ≠ Frame.base f) →
    exec i s = .next ((lanesOf f.u.km).foldl (fun s l => s.deliver f.gid f.u.ipc f.u.km ⟨l, .nested, 0⟩)
      (s.put { f with u := { f.u with hm := false, km := 0, tm := f.u.tm ||| f.u.km }
                      g := { f.g with info := s.faultInfo f.g .nested f.u.ipc } }))

/-- R183, R184, R202: `nop` only moves on; `exit` moves its lanes to `xm` while another lane of the gang lives; `join`
moves on where no lane waits, and else sends the active lanes to `km` with the next PC and makes JOIN due; `park` sends
its lanes to `km` with its target as their PC; `wpark` moves on where no lane is fault-parked, and else stops the unit. -/
def Obligations.ControlWords : Prop :=
  ∀ (s : State) f, s.frame = some f →
    (∀ h, exec (.nop h) s = .next (s.put { f with u := { f.u with ipc := f.u.ipc + 8 } })) ∧
    (∀ h, let m := Frame.part f h
      let u := { f.u with
        ipc := f.u.ipc + 8, am := f.u.am &&& ~~~m, km := f.u.km &&& ~~~m, fm := f.u.fm &&& ~~~m, tm := f.u.tm &&& ~~~m
        xm := f.u.xm ||| m, emptyPc := emptied f.u (f.u.am &&& ~~~m) f.u.ipc }
      (f.g.setUnit f.ui u).ended = false →
      exec (.exit h) s = .next (s.put { f with u := u, g := { f.g with origins := f.g.origins &&& ~~~m } })) ∧
    (∀ h, f.u.km = 0 → exec (.join h) s = .next (s.put { f with u := { f.u with ipc := f.u.ipc + 8 } })) ∧
    (∀ h, f.u.km ≠ 0 → exec (.join h) s = .next (s.put { f with
      u := { f.u with am := 0, km := f.u.km ||| f.u.am, due := some (.join, f.u.ipc), emptyPc := some f.u.ipc }
      g := { f.g with lpc := mergeLanes f.u.am (uniform (f.u.ipc + 8)) f.g.lpc } })) ∧
    (∀ h ofs, let m := Frame.part f h
      exec (.park h ofs) s = .next (s.put { f with
        u := { f.u with ipc := f.u.ipc + 8, am := f.u.am &&& ~~~m, km := f.u.km ||| m
                        emptyPc := emptied f.u (f.u.am &&& ~~~m) f.u.ipc }
        g := { f.g with lpc := mergeLanes m (uniform (f.u.ipc + 8 * ofs.signExtend 32)) f.g.lpc } })) ∧
    (∀ h, f.u.fm = 0 → exec (.wpark h) s = .next (s.put { f with u := { f.u with ipc := f.u.ipc + 8 } })) ∧
    (∀ h, f.u.fm ≠ 0 → exec (.wpark h) s = .next (s.put { f with u := { f.u with stop := .wpark } }))

/-- R186, R190: a raised event enters the handler: every active lane waits in `km` with its PC, `ev` holds the event's
PC and code, and the unit is in handler mode at `hpc`; the step is 3 gang issue slots. -/
def Obligations.HandlerEntry : Prop :=
  ∀ (s : State) f e, s.frame = some f → dueEvent f = some e →
    ∃ t g u, exec .handlerEntry s = .next t ∧ t = s.put { f with g := g, u := u } ∧ Waited f g ∧
      u = { f.u with
        am := 0, km := f.u.km ||| f.u.am, hm := true, ipc := f.g.hpc, inv := 0, emptyPc := none, leave := false
        due := none, ev := BitVec.ofNat 64 (e.2.toNat * 256 + evCode e.1), fready := u.fready, ageFlag := u.ageFlag
        aged := u.aged } ∧
      u.fready = (f.u.fready && e.1 != .fready)

/-- R189, R200: with no handler the default decision runs the ready lanes that stand at the lowest PC of a ready lane, and
COLL at that PC earns a pass for the collective. A forced rotation runs those that stand where the ready lane with the
largest lag stands, the lowest such lane on ties; the unit leaves handler mode and `ev` is not written. -/
def Obligations.DefaultDecisionAndRotation : Prop :=
  (∀ (s : State) f e, s.frame = some f → dueEvent f = some e → f.u.am ||| f.u.km ≠ 0 →
    ∃ t g u, exec .defaultDecision s = .next t ∧ t = s.put { f with g := g, u := u } ∧ Waited f g ∧
      (∃ l < 64, (f.u.am ||| f.u.km).getLsbD l = true ∧ Frame.pcs f l = u.ipc) ∧
      (∀ l < 64, (f.u.am ||| f.u.km).getLsbD l = true → u.ipc.toNat ≤ (Frame.pcs f l).toNat) ∧
      u = { f.u with
        am := f.standing u.ipc, km := (f.u.am ||| f.u.km) &&& ~~~f.standing u.ipc, ipc := u.ipc, emptyPc := none
        leave := false, due := none, ev := BitVec.ofNat 64 (e.2.toNat * 256 + evCode e.1), fready := u.fready
        ageFlag := u.ageFlag, aged := u.aged
        pass := if e.1 = .coll ∧ u.ipc = e.2 then some u.ipc else f.u.pass }) ∧
  ∀ (s : State) f, s.frame = some f → f.u.am ||| f.u.km ≠ 0 → (f.u.hm = true → f.u.am = 0) →
    ∃ t g u o, exec .forcedRotation s = .next t ∧ t = s.put { f with g := g, u := u } ∧ Waited f g ∧
      o < 64 ∧ (f.u.am ||| f.u.km).getLsbD o = true ∧
      (∀ l < 64, (f.u.am ||| f.u.km).getLsbD l = true → (LaneVec.at' g.lag l).toNat ≤ (LaneVec.at' g.lag o).toNat ∧
        (LaneVec.at' g.lag l = LaneVec.at' g.lag o → o ≤ l)) ∧
      u = { f.u with
        am := f.standing (Frame.pcs f o), km := (f.u.am ||| f.u.km) &&& ~~~f.standing (Frame.pcs f o)
        ipc := Frame.pcs f o, hm := false, due := none, rot := false, rotated := true, emptyPc := none, leave := false
        ageFlag := u.ageFlag, aged := u.aged, pass := u.pass, collPc := u.collPc }

/-- R192: `dret` with a legal choice ends the invocation: the chosen lanes are active at the chosen PC, the others of
`km` go on waiting, and after COLL a choice of the collective's PC earns a pass. -/
def Obligations.HandlerReturn : Prop :=
  ∀ (s : State) f h d a, s.frame = some f → Legal (.dret h d a) f = true →
    let pc := s.rdReg f d 0
    let m := s.rd f a 2 0 &&& Frame.lanes f
    pc.toNat % 8 = 0 → m &&& ~~~f.u.km = 0 → (∀ l < 64, m.getLsbD l = true → LaneVec.at' f.g.lpc l = pc) →
    (m ≠ 0 ∨ f.u.km = 0) →
    exec (.dret h d a) s = .next (s.put { f with u := { f.u with
      am := m, km := f.u.km &&& ~~~m, ipc := pc, hm := false, emptyPc := none
      pass := if f.u.ev.extractLsb' 0 8 = 6#8 ∧ pc = f.u.ev.extractLsb' 8 32 then some pc else f.u.pass } })

/-- R193: a word of a unit in handler mode counts for its invocation as it issues; with 256 counted, where no forced
rotation and no event comes first (R185), the decision of the 257th is a policy fault, and with fewer it is none. A policy
fault, and a `dret` or `split` that the rules refuse: `polc` grows and saturates, the unit leaves handler mode and a forced
rotation takes its next decision; under `.strict` the lanes of `km` become trap-parked and cause 0x10 is delivered for
each. The core's signal 0x0E counts it (R365). A misaligned PC of `dret` faults with 0x12. -/
def Obligations.PolicyFaults : Prop :=
  (∀ (s : State) f, f.u.hm = true → rotates f = false → raises f = false →
    (256 ≤ f.u.inv → s.act f = .run .policyFault { s with cur := some (f.gid, f.ui) }) ∧
    (f.u.inv < 256 → ∀ t, s.act f ≠ .run .policyFault t)) ∧
  (∀ (s : State) gid ui n clk busy x, s.frameOf gid ui = some x → x.u.hm = true →
    ∃ y, (s.spendSlot gid ui n clk busy).frameOf gid ui = some y ∧ y.u.inv = x.u.inv + 1) ∧
  ∀ (s : State) f, s.frame = some f → f.u.hm = true →
    let noted := s.signal (s.coreOf f.g) 0x0E 1
    let lax (i : Instr) : Prop := f.g.str = false →
      ∃ t, exec i s = .next t ∧ t = { noted with gangs := t.gangs } ∧
      t.gangs = FMap.set s.gangs f.gid { f.g with
        polc := BitVec.ofNat 32 (min (f.g.polc.toNat + 1) (2 ^ 32 - 1))
        units := f.g.units.set f.ui { f.u with hm := false, rot := true } }
    let fault (i : Instr) (c : Cause) (s' : State) : Prop :=
      exec i s = .next ((lanesOf f.u.km).foldl (fun s l => s.deliver f.gid f.u.ipc f.u.km ⟨l, c, 0⟩)
        (s'.put { f with u := { f.u with hm := false, km := 0, tm := f.u.tm ||| f.u.km }
                         g := { f.g with info := s'.faultInfo f.g c f.u.ipc } }))
    lax .policyFault ∧ (f.g.str = true → fault .policyFault .policy noted) ∧
    (∀ h d a, let pc := s.rdReg f d 0
      let m := s.rd f a 2 0 &&& Frame.lanes f
      (pc.toNat % 8 ≠ 0 → fault (.dret h d a) .misaligned s) ∧
      (pc.toNat % 8 = 0 →
        (m &&& ~~~f.u.km ≠ 0 ∨ (∃ l < 64, m.getLsbD l = true ∧ LaneVec.at' f.g.lpc l ≠ pc) ∨ m = 0 ∧ f.u.km ≠ 0) →
        lax (.dret h d a) ∧ (f.g.str = true → fault (.dret h d a) .policy noted))) ∧
    ∀ h d a, (∀ n : BitVec 8, n ≠ 0 → n &&& ~~~f.u.groups = 0 → n ≠ f.u.groups → s.rd f a 2 0 ≠ groupLanes n 64) →
      lax (.split h d a) ∧ (f.g.str = true → fault (.split h d a) .policy noted)

/-- R196: `split` with a mask of whole groups that is a proper part of the unit makes two sub-gangs: the first keeps
the other groups and reads 0, the second holds the named groups and reads 1; both go on at the next word with their
share of every mask; that both keep the age-pending and fault-ready flags is the model's choice (log entry 94). What is
outstanding on the parent's hs0..hs3 (scoreboard marks, results to be written, poison) is outstanding on both units' (R143).
R197: `regang` of a whole gang moves on; a sub-gang waits while another with a live lane has not
arrived; when all have, the gang is one unit again with the masks united and the longest wait, at the next word of the
first unit, or with every active lane in `km` at its own next PC where they stand at different words; its hs0..hs3 are those
of the first unit, with what is outstanding on them. -/
def Obligations.SubGangs : Prop :=
  (∀ (s : State) f h d a (n : BitVec 8), s.frame = some f → Legal (.split h d a) f = true →
    n ≠ 0 → n &&& ~~~f.u.groups = 0 → n ≠ f.u.groups → s.rd f a 2 0 = groupLanes n 64 →
    let half (k : BitVec 8) (v : Word) : UnitState :=
      let m := groupLanes k f.g.width
      { f.u with
        groups := k, ipc := f.u.ipc + 8, am := f.u.am &&& m, km := f.u.km &&& m, fm := f.u.fm &&& m, tm := f.u.tm &&& m
        xm := f.u.xm &&& m, aged := f.u.aged &&& m
        hs := Vector.ofFn fun r : Fin 4 => if d.toNat = 0xEC + r.val then v else f.u.hs[r] }
    exec (.split h d a) s = .next ((s.setGang f.gid (Gang.copyHs { f.g with
      units := f.g.units.set f.ui (half (f.u.groups &&& ~~~n) 0) ++ [half n 1] } f.ui f.g.units.length)).copyHsPoison
        f.gid f.ui f.g.units.length)) ∧
  (∀ (g : Gang) ui uj, let c := g.copyHs ui uj
    c = { g with marks := c.marks, results := c.results } ∧
    (∀ m, m ∈ c.marks ↔ m ∈ g.marks ∨ ∃ n, m.loc = .hs uj n ∧ { m with loc := .hs ui n } ∈ g.marks) ∧
    ∀ id r, FMap.get? g.results id = some r → ∃ r', FMap.get? c.results id = some r' ∧
      r' = { r with writes := r'.writes } ∧
      ∀ w, w ∈ r'.writes ↔ w ∈ r.writes ∨ ∃ n, w.loc = .hs uj n ∧ { w with loc := .hs ui n } ∈ r.writes) ∧
  (∀ (g : Gang) first, let c := g.mergeHs first
    c = { g with marks := c.marks, results := c.results } ∧
    (∀ m, m ∈ c.marks ↔ (m ∈ g.marks ∧ ∀ u n, m.loc ≠ .hs u n) ∨
      ∃ n, m.loc = .hs 0 n ∧ { m with loc := .hs first n } ∈ g.marks) ∧
    ∀ id r, FMap.get? g.results id = some r → ∃ r', FMap.get? c.results id = some r' ∧
      r' = { r with unit := 0, writes := r'.writes } ∧
      ∀ w, w ∈ r'.writes ↔ (w ∈ r.writes ∧ ∀ u n, w.loc ≠ .hs u n) ∨
        ∃ n, w.loc = .hs 0 n ∧ { w with loc := .hs first n } ∈ r.writes) ∧
  (∀ (s : State) gid ui uj, let c := s.copyHsPoison gid ui uj
    let m := s.mergeHsPoison gid ui
    c = { s with regPoison := c.regPoison } ∧ m = { s with regPoison := m.regPoison } ∧
    (∀ g loc l, (g, loc, l) ∈ c.regPoison ↔ (g, loc, l) ∈ s.regPoison ∨
      g = gid ∧ ∃ n, loc = .hs uj n ∧ (gid, .hs ui n, l) ∈ s.regPoison) ∧
    ∀ g loc l, (g, loc, l) ∈ m.regPoison ↔
      ((g, loc, l) ∈ s.regPoison ∧ (g = gid → ∀ u n, loc ≠ .hs u n)) ∨
        g = gid ∧ ∃ n, loc = .hs 0 n ∧ (gid, .hs ui n, l) ∈ s.regPoison) ∧
  ∀ (s : State) f h, s.frame = some f → Legal (.regang h) f = true →
    (f.g.units = [f.u] → exec (.regang h) s = .next (s.put { f with u := { f.u with ipc := f.u.ipc + 8 } })) ∧
    ((∃ k u, k ≠ f.ui ∧ f.g.units[k]? = some u ∧ u.live f.g.width = true ∧ u.stop ≠ .regang) →
      exec (.regang h) s = .next (s.put { f with u := { f.u with stop := .regang } })) ∧
    ∀ v : UnitState, f.ui = 0 → f.g.units = [f.u, v] → f.u.live f.g.width = true → v.live f.g.width = true →
      v.stop = .regang → lowGroup f.u < lowGroup v →
      ∃ t u lpc, exec (.regang h) s = .next t ∧
        t = (s.setGang f.gid (Gang.mergeHs { f.g with lpc := lpc, units := [u] } 0)).mergeHsPoison f.gid 0 ∧
        u.groups = f.u.groups ||| v.groups ∧ u.fm = f.u.fm ||| v.fm ∧ u.tm = f.u.tm ||| v.tm ∧ u.xm = f.u.xm ||| v.xm ∧
        u.wait = max f.u.wait v.wait ∧ u.stop = .run ∧ u.ipc = f.u.ipc + 8 ∧ u.hm = f.u.hm ∧
        (f.u.ipc = v.ipc → u.am = f.u.am ||| v.am ∧ u.km = f.u.km ||| v.km ∧ lpc = f.g.lpc) ∧
        (f.u.ipc ≠ v.ipc → u.am = 0 ∧ u.km = f.u.km ||| v.km ||| (f.u.am ||| v.am) ∧
          ∀ l < 64, LaneVec.at' lpc l = if v.am.getLsbD l then v.ipc + 8 else if f.u.am.getLsbD l then f.u.ipc + 8
            else LaneVec.at' f.g.lpc l)

/-- R135: `wrsr` writes the named register where a lane takes part, `agl` never below 64; the lane-held ones it writes in
handler mode only, in the lanes that take part, `lpc` in ready ones, where the value of a lane that is not ready is not
looked at (the model's choice, log entry 92); no later word of the gang issues for 4 banner or 2 pennant clocks. A value of
`agl` waits for that clock, and then a lane of `km` may come of age by it; while it is due no unit of the gang is a
candidate. Outside handler mode a lane-held register faults with 0x07. -/
def Obligations.WriteSpecialRegister : Prop :=
  (∀ (s : State) gid g v n, FMap.get? s.gangs gid = some g → g.aglNext = some (v, n) →
    let g' := { g with agl := v, aglNext := none }
    (n ≤ s.clock (s.coreOf g) →
      State.aglDue gid s = .next (s.setGang gid { g' with units := g.units.map (UnitState.age g') })) ∧
    (s.clock (s.coreOf g) < n → State.aglDue gid s = .next s) ∧
    (n ≤ s.clock (s.coreOf g) → ∀ f, f.g = g → s.stall f ≠ none)) ∧
  ∀ (s : State) f h sr a, s.frame = some f → Legal (.wrsr h sr a) f = true → Frame.part f h ≠ 0 →
    let m := Frame.part f h
    let l0 := if a.isUniform then 0 else (lowest m).getD 0
    let ready := m &&& (f.u.am ||| f.u.km)
    let core := s.coreOf f.g
    let till := s.clock core + match coreKind core with
      | .banner => 4
      | .pennant => 2
    let lanes (k : Mask) (old : LaneVec Word) : LaneVec Word :=
      Vector.ofFn fun l : Fin 64 => if k.getLsbD l.val then s.rdReg f a l.val else old[l]
    let wrote (g : Gang) : Prop := ∃ t us, exec (.wrsr h sr a) s = .next t ∧
      t = s.setGang f.gid { g with units := us } ∧ us.length = f.g.units.length ∧
      ∀ (k : Nat), us[k]? = (f.g.units[k]?).map fun (u : UnitState) => UnitState.age g { u with
        ipc := if k = f.ui then f.u.ipc + 8 else u.ipc, nextIssue := max u.nextIssue till, serial := true }
    (sr = 0x0E → wrote { f.g with aglNext := some (BitVec.ofNat 32 (max 64 ((s.rdReg f a l0).toNat % 65536)), till) }) ∧
    (sr = 0x12 → wrote { f.g with dtb := s.rd f a 2 l0 }) ∧
    (sr = 0x14 → wrote { f.g with dtl := s.rdReg f a l0 }) ∧
    (sr = 0x10 → f.u.hm = true → (∀ l < 64, ready.getLsbD l = true → (s.rdReg f a l).toNat % 8 = 0) →
      wrote { f.g with lpc := lanes ready f.g.lpc }) ∧
    (sr = 0x11 → f.u.hm = true → wrote { f.g with lag := lanes m f.g.lag }) ∧
    ((sr = 0x10 ∨ sr = 0x11) → f.u.hm = false → f.u.am ≠ 0 →
      exec (.wrsr h sr a) s = .next (s.laneFault f.gid f.ui f.u.am .protection f.u.ipc))

/-! ### Faults -/

/-- R50, R191, R325: a word that is no instruction faults every active lane with its cause at its PC; in handler mode it
ends the invocation, and the lanes of `km` become trap-parked and take the cause. -/
def Obligations.IllegalWords : Prop :=
  ∀ (s : State) f c, s.frame = some f →
    (f.u.hm = false → f.u.am ≠ 0 →
      exec (.illegalEncoding c) s =
        .next (s.takeFaults f.gid ((lanesOf (f.u.am &&& ~~~f.u.xm)).map fun l => ⟨l, c, 0⟩) f.u.ipc)) ∧
    (f.u.hm = true →
      exec (.illegalEncoding c) s = .next ((lanesOf f.u.km).foldl (fun s l => s.deliver f.gid f.u.ipc f.u.km ⟨l, c, 0⟩)
        (s.put { f with u := { f.u with hm := false, km := 0, tm := f.u.tm ||| f.u.km }
                        g := { f.g with info := s.faultInfo f.g c f.u.ipc } })))

/-- R325, R330, R334, R335, R337: a lane fault. The lane becomes trap-parked with its PC on the word and the trap frame
names the fault. The innermost region whose mask has the cause is asked for its entry; else, where the kernel has a trap
entry, the lane goes to its core's trap bin with its origin tag live; else, and for a trap-handler gang, the context
faults: its flag-down is due, and will name the gang and show its frame as they are now (R359). -/
def Obligations.FaultDelivery : Prop :=
  ∀ (s : State) gid g u l c ea pc, FMap.get? s.gangs gid = some g → g.units = [u] → l < 64 →
    (groupLanes u.groups g.width).getLsbD l = true → u.xm.getLsbD l = false →
    (s.ctx (s.ctxOf g)).life = .running →
    let p : Gang := { g with
      lpc := mergeLanes (lane l) (uniform pc) g.lpc, info := s.faultInfo g c pc, units := [u.trapped (lane l) pc] }
    let t := s.setGang gid p
    let x := s.ctx (s.ctxOf g)
    let why : Down :=
      { cause := causeCode c, pc := pc, value := ea.toNat, lanes := lane l, gang := gid, reason := 0, at_ := s.now
        who := s.nameOf g, frame := t.frameBytes gid p }
    let down := t.setCtx (s.ctxOf g) { x with down := some why }
    (x.down = none → g.trap = true → s.takeFaults gid [⟨l, c, ea⟩] pc = down) ∧
    (∀ h, x.down = none → g.trap = false → (∀ r ∈ g.regions, Region.catches r c = false) → s.headerOf g = some h →
      h.tentry = 0 → s.takeFaults gid [⟨l, c, ea⟩] pc = down) ∧
    (∀ a r b tm, g.trap = false → g.regions = a ++ r :: b → (∀ q ∈ a, Region.catches q c = false) →
      Region.catches r c = true → FMap.get? s.teams g.team = some tm →
      (∀ e ∈ tm.entries, ¬(e.1 = r.pc ∧ e.2.1 = b.length + 1)) →
      s.takeFaults gid [⟨l, c, ea⟩] pc = { t with
        teams := FMap.set s.teams g.team { tm with entries := tm.entries ++ [(r.pc, b.length + 1, causeCode c)] } }) ∧
    ∀ h ths, g.trap = false → (∀ r ∈ g.regions, Region.catches r c = false) → s.headerOf g = some h → h.tentry ≠ 0 →
      ((s.core (s.coreOf g)).trapBin = none ∧ ths = [] ∨
        (s.core (s.coreOf g)).trapBin = some ⟨g.team, h.tentry, ths⟩) →
      ths.length + 1 < h.gang →
      s.takeFaults gid [⟨l, c, ea⟩] pc =
        (s.setGang gid { p with
          origins := g.origins ||| lane l, tagPc := mergeLanes (lane l) (uniform pc) g.tagPc
          tagPlaces := (l, s.coreOf g, s.gslot g (l / 8)) :: g.tagPlaces.filter fun x => x.1 != l }).setCore (s.coreOf g)
          { s.core (s.coreOf g) with
            trapBin := some ⟨g.team, h.tentry, ths ++ [⟨t.trapPayload p l c pc ea, s.now⟩]⟩ }

/-- R335, R338: `copen` pushes a region with its handler, mask and D, and clears D in the lanes that take part; the
fifth region, and `cclose` without one, fault with 0x13; `cclose` pops the innermost region once no operation of it is
left. R337: the entry of a region whose only member is one gang without operations: every lane that has not exited
runs at the region's handler, D holds the mark, depth and cause, the region and those inside it are closed, and
nothing of the gang issues for 8 banner clocks, which a pennant core counts as 20 of its own (R4). -/
def Obligations.Regions : Prop :=
  (∀ (s : State) f, s.frame = some f →
    (∀ h d a ofs, Legal (.copen h d a ofs) f = true → Frame.part f h ≠ 0 → f.g.regions.length < 4 →
      (f.u.ipc + 8 * ofs.signExtend 32).toNat % 8 = 0 →
      let g : Gang := { f.g with regions := ⟨f.u.ipc + 8 * ofs.signExtend 32, s.rdReg f a 0, d⟩ :: f.g.regions }
      ∃ t, exec (.copen h d a ofs) s = .next t ∧ WordRan (s.setGang f.gid g) t { f with g := g } ∧
        Wrote t { f with g := g } (.of f h d 1 fun _ => 0)) ∧
    (∀ h d a ofs, Frame.part f h ≠ 0 → 4 ≤ f.g.regions.length →
      exec (.copen h d a ofs) s = .next (s.laneFault f.gid f.ui (Frame.part f h) .stream f.u.ipc)) ∧
    (∀ h, Frame.part f h ≠ 0 → f.g.regions = [] →
      exec (.cclose h) s = .next (s.laneFault f.gid f.ui (Frame.part f h) .stream f.u.ipc)) ∧
    ∀ h r rs, Frame.part f h ≠ 0 → f.g.regions = r :: rs →
      (∀ o ∈ s.opsOf f.gid, o.2.region ≠ some (r.pc, rs.length + 1)) →
      exec (.cclose h) s = .next (s.put { f with g := { f.g with regions := rs }, u := { f.u with ipc := f.u.ipc + 8 } })) ∧
  ∀ (s : State) tid tm gid g u a r b cause rest, FMap.get? s.teams tid = some tm →
    tm.entries = (r.pc, b.length + 1, cause) :: rest → (s.ctx tm.ctx).life = .running → tm.mig = none →
    s.redoing gid = false → s.teamGangs tid = [(gid, g)] → FMap.get? s.gangs gid = some g → g.team = tid → g.units = [u] →
    g.regions = a ++ r :: b → (∀ o ∈ s.opsOf gid, o.2.region = none) → u.stop ≠ .troupe → u.stop ≠ .mleave →
    ∃ t g', exec (.regionEntry tid) s = .next t ∧
      t = { s with teams := t.teams, gangs := t.gangs, ctxs := t.ctxs, dies := t.dies } ∧
      FMap.get? t.teams tid = some { tm with entries := rest } ∧
      t.gangs = FMap.set s.gangs gid g' ∧ g'.regions = b ∧ g'.origins = 0 ∧
      (∀ l < 64, (lowLanes g.width &&& ~~~u.xm).getLsbD l = true → LaneVec.at' g'.lpc l = r.pc) ∧
      (∃ v, g'.units = [v] ∧ v.am = lowLanes g.width &&& ~~~u.xm ∧ v.km = 0 ∧ v.fm = 0 ∧ v.tm = 0 ∧ v.xm = u.xm ∧
        v.ipc = r.pc ∧ v.hm = false ∧ v.stop = .run ∧ v.due = none ∧ v.nextIssue = s.clock tm.core + match coreKind tm.core with
          | .banner => 8
          | .pennant => 20) ∧
      ∀ loc l, loc.real = true → l < 64 → placeVal g' loc l =
        Effect.after { mask := lowLanes g.width, regs := [(r.d, fun _ => BitVec.ofNat 32 (2 ^ 31 + 256 * (b.length + 1) + cause))] }
          ⟨gid, 0, g, { u with hm := false }⟩ loc l (placeVal g loc l)

/-! ### System calls and origins -/

/-- R327, R328: `trap` with no operation of the gang outstanding parks every active lane behind the word, remembers the
call under the next number, marks what its answer writes (R143), and its 64-byte record waits for the ring; a guard that takes no lane makes it a `nop`. -/
def Obligations.SystemCall : Prop :=
  ∀ (s : State) f h code d a, s.frame = some f →
    (Frame.part f h = 0 → exec (.trap h code d a) s = .next (s.put { f with u := { f.u with ipc := f.u.ipc + 8 } })) ∧
    (Frame.part f h ≠ 0 → s.opsOf f.gid = [] → (∀ l ∈ (s.core (s.coreOf f.g)).gather, l.gangs.contains f.gid = false) →
      let c := s.ctxOf f.g
      let x := s.ctx c
      let id := if x.callId + 1 < 2 ^ 32 then x.callId + 1 else 1
      let w := s.nameOf f.g
      let args : List Byte := (List.range 8).flatMap fun k =>
        leBytes 4 (if a.isZero then 0 else (s.rdReg f (Reg.next a k) 0).toNat)
      let record := leBytes 2 code.toNat ++ leBytes 1 0x17 ++ leBytes 1 c ++ leBytes 4 f.u.ipc.toNat ++
        leBytes 4 w.lseq.toNat ++ leBytes 2 w.core ++ leBytes 2 w.slot ++ leBytes 8 f.u.am.toNat ++ args ++ leBytes 4 id ++
        leBytes 4 0
      exec (.trap h code d a) s = .next ((s.put { f with
        u := { f.u.trapped f.u.am (f.u.ipc + 8) with ipc := f.u.ipc + 8, emptyPc := some f.u.ipc }
        g := { f.g with
          lpc := mergeLanes f.u.am (uniform (f.u.ipc + 8)) f.g.lpc
          marks := f.g.marks ++ (writeLocs f (info (.trap h code d a))).map fun l => { loc := l, till := .call id } } }).setCtx
        c { x with
          callId := id, calls := FMap.set x.calls id ⟨f.gid, f.u.am, d, f.u.ipc⟩
          syscall := { x.syscall with waiting := x.syscall.waiting ++ [record] } }))

/-- R329: a resume register write with a legal result record becomes the call's answer. Action 0 writes the value to
D:D+1 and readies the call's lanes, action 1 also sends them back to the `trap`, action 2 makes them exit; the call is
then over. A halted context keeps the answer till it runs again (R344; the model's choice, log entry 132). A number that
names no parked call is ignored. R375: the oldest waiting record of a ring goes to the ring's place in host memory when it
fits, and `head` moves past it: one entry of 64 bytes, or the nine of a context fault's record and frame; else it waits. -/
def Obligations.SyscallAnswersAndRings : Prop :=
  (∀ (s : State) c id,
    let x := s.ctx c
    (FMap.get? x.calls id = none → exec (.resume c id) s = .next s) ∧
    (∀ k value, (FMap.get? x.calls id).isSome = true → k ≤ 2 → id < 2 ^ 32 → x.result = value * 2 ^ 64 + k * 2 ^ 32 + id →
      exec (.resume c id) s = .next (s.setCtx c { x with answers := FMap.set x.answers id (k, value) })) ∧
    (x.life = .halted → exec (.syscallReturn c id) s = .next s ∧ exec (.syscallRestart c id) s = .next s ∧
      exec (.syscallExit c id) s = .next s) ∧
    ∀ k value call g u, x.life ≠ .halted → FMap.get? x.answers id = some (k, value) → FMap.get? x.calls id = some call →
      FMap.get? s.gangs call.gang = some g → g.units = [u] →
      let m := call.lanes &&& u.tm
      m ≠ 0 → m &&& ~~~groupLanes u.groups g.width = 0 →
      let t0 := s.setCtx c { x with answers := FMap.erase x.answers id, calls := FMap.erase x.calls id }
      let back (i : Instr) (lpc : LaneVec Word) : Prop := ∃ t g', exec i s = .next t ∧
        t = { t0 with gangs := FMap.set s.gangs call.gang g', regPoison := t.regPoison } ∧
        g' = { g with v := g'.v, hv := g'.hv, s := g'.s, p := g'.p, lpc := lpc
                      marks := g.marks.filter fun m => m.till != .call id
                      units := g'.units } ∧
        (∃ hs, g'.units = [{ u.readied m with hs := hs }]) ∧
        ∀ loc l, loc.real = true → l < 64 → placeVal g' loc l =
          Effect.after { mask := m, regs := spread call.d 2 fun _ => BitVec.ofNat 64 value }
            ⟨call.gang, 0, g, { u with hm := false }⟩ loc l (placeVal g loc l)
      (k = 0 → back (.syscallReturn c id) g.lpc) ∧
      (k = 1 → back (.syscallRestart c id) (mergeLanes m (uniform call.pc) g.lpc)) ∧
      (k = 2 → ({ g with units := [u.exited m call.pc] } : Gang).ended = false →
        exec (.syscallExit c id) s = .next (t0.setGang call.gang
          { g with
            marks := g.marks.filter fun m => m.till != .call id
            units := [u.exited m call.pc], origins := g.origins &&& ~~~m }))) ∧
  ∀ (s : State) c rec rest, rec.length = 64 ∨ rec.length = 64 + 512 →
    let n := rec.length / 64
    let entry (r : Ring) (k : Nat) : Nat := r.base.toNat + 64 * ((r.head + k) % 2 ^ r.n)
    let place (r : Ring) : Memory := (List.range n).foldl
      (fun m k => Memory.writeN m (entry r k) ((rec.drop (64 * k)).take 64)) s.dev.hostMem
    (n = 1 ∨ n = 9) ∧
    (∀ r : Ring, 4 ≤ r.n → Memory.wf s.dev.hostMem → (∀ k < n, ∀ j < 64,
        some (Memory.read (place r) (entry r k + j)) = rec[64 * k + j]?) ∧
      ∀ a, (∀ k < n, a < entry r k ∨ entry r k + 64 ≤ a) → Memory.read (place r) a = Memory.read s.dev.hostMem a) ∧
    (∀ x : Ctx, s.ctx c = x → x.syscall.waiting = rec :: rest →
      (n ≤ (x.syscall.tail + 2 * 2 ^ x.syscall.n - x.syscall.head - 1) % 2 ^ x.syscall.n →
        exec (.syscallRingRecord c) s = .next (({ s with dev := { s.dev with hostMem := place x.syscall } } : State).setCtx c
          { x with syscall := { x.syscall with waiting := rest, head := (x.syscall.head + n) % 2 ^ x.syscall.n } })) ∧
      ((x.syscall.tail + 2 * 2 ^ x.syscall.n - x.syscall.head - 1) % 2 ^ x.syscall.n < n →
        exec (.syscallRingRecord c) s = .next s)) ∧
    ∀ x : Ctx, s.ctx c = x → x.faults.waiting = rec :: rest →
      (n ≤ (x.faults.tail + 2 * 2 ^ x.faults.n - x.faults.head - 1) % 2 ^ x.faults.n →
        exec (.faultRingRecord c) s = .next (({ s with dev := { s.dev with hostMem := place x.faults } } : State).setCtx c
          { x with faults := { x.faults with waiting := rest, head := (x.faults.head + n) % 2 ^ x.faults.n } })) ∧
      ((x.faults.tail + 2 * 2 ^ x.faults.n - x.faults.head - 1) % 2 ^ x.faults.n < n →
        exec (.faultRingRecord c) s = .next s)

/-- R332, R333: a lane with a live origin tag resumes its origin at a PC (`tres`), makes it exit (`tkill`), reads one of
its registers, where it is not poisoned, 12 banner clocks later (`orr`; 30 clocks of a pennant core, R4), or writes a
vector element, a scalar or the lane's predicates at once (`orw`), in whatever sub-gang the origin stands; its tag dies
with the first two. `orw` of a special register is no legal word (R326). -/
def Obligations.OriginWords : Prop :=
  ∀ (s : State) f l a o g u, s.frame = some f → l < 64 → f.u.hm = false → s.laneOrigin f a l = some o → o.1 ≠ f.gid →
    o.2.2 < 64 → FMap.get? s.gangs o.1 = some g → g.units[o.2.1]? = some u →
    let moved := FMap.set s.gangs f.gid (f.g.setUnit f.ui { f.u with ipc := f.u.ipc + 8 })
    (∀ h b, Frame.part f h = lane l → s.tagWaits f h = false → (s.rdReg f b l).toNat % 8 = 0 →
      exec (.tres h a b) s = .next { s with gangs := FMap.set moved o.1 { g with
        lpc := mergeLanes (lane o.2.2) (uniform (s.rdReg f b l)) g.lpc, origins := g.origins &&& ~~~lane o.2.2
        units := g.units.set o.2.1 (u.readied (lane o.2.2)) } }) ∧
    (∀ h, Frame.part f h = lane l → s.tagWaits f h = false →
      let v := u.exited (lane o.2.2) (LaneVec.at' g.lpc o.2.2)
      ({ g with units := g.units.set o.2.1 v } : Gang).ended = false →
      exec (.tkill h a) s = .next { s with gangs := FMap.set moved o.1 { g with
        origins := g.origins &&& ~~~lane o.2.2, units := g.units.set o.2.1 v } }) ∧
    (∀ h c r d, Legal (.orr h c r d a) f = true → Frame.part f h = lane l → s.originBusy f h c r a = false →
      s.outOfWindow f c r = false → (∀ p ∈ s.regPoison, p.1 ≠ o.1) →
      let value : DWord := match c with
        | .v => (LaneVec.at' (g.vreg r.toNat) o.2.2).setWidth 64
        | .s => (g.s[(r.toNat - 0xC0) % 48]'(Nat.mod_lt _ (by decide))).setWidth 64
        | .p => BitVec.ofNat 64 ((List.range 32).map fun k => if (Gang.pred g (BitVec.ofNat 5 k)).getLsbD o.2.2 then 2 ^ k else 0).sum
        | .sr => if r = 0x11 then (LaneVec.at' g.lag o.2.2).setWidth 64 else specialValue s ⟨o.1, o.2.1, g, u⟩ r o.2.2
      ∃ t q, exec (.orr h c r d a) s = .next t ∧ WindowIssued (.orr h c r d a) s t f q ∧
        q.due = some (s.clock (s.coreOf f.g) + match coreKind (s.coreOf f.g) with
          | .banner => 12
          | .pennant => 30) ∧ q.faults = 0 ∧
        ∀ k : Gang, f.ui < k.units.length → ∀ loc j, loc.real = true → j < 64 → placeVal (k.writes q.writes) loc j =
          Effect.after { mask := lane l, regs := spread d (if c = .sr ∧ Operand.srWidth r = 2 then 2 else 1) fun _ => value }
            f loc j (placeVal k loc j)) ∧
    ∀ h c r b, (c = .sr → Legal (.orw h c r a b) f = false) ∧
      (Legal (.orw h c r a b) f = true → Frame.part f h = lane l → s.originBusy f h c r a = false →
        s.outOfWindow f c r = false →
        let w := s.rdReg f b l
        ∃ t g', exec (.orw h c r a b) s = .next t ∧ t = { s with gangs := t.gangs, regPoison := t.regPoison } ∧
          (∀ p ∈ t.regPoison, p ∈ s.regPoison) ∧ t.gangs = FMap.set moved o.1 g' ∧
          g' = { g with v := g'.v, s := g'.s, p := g'.p } ∧
          ∀ loc j, loc.real = true → j < 64 → placeVal g' loc j =
            match c, loc with
            | .v, .v n => if n = r.toNat ∧ j = o.2.2 then w else placeVal g loc j
            | .s, .s n => if n = r.toNat - 0xC0 then w else placeVal g loc j
            | .p, .p n => if j = o.2.2 then (if w.getLsbD n then 1 else 0) else placeVal g loc j
            | _, _ => placeVal g loc j)

/-! ### Flag-down and debug -/

/-- R344 to R346, R359: `halt` stops its gang and makes the context's flag-down due with its code, the gang's name and its
512-byte frame; the flag-down makes the context halting and queues a fault record of 64 bytes and that frame, but for a
debug stop. A halting context has halted when each part of its operations has completed, is held for its predecessor
masks, or has performed and waits: at a barrier whose phase is still the awaited one, at a line that is not in the awaited
state, or on a launch (one that finds 65,536 grids of its context performs only when one has ended, R291); else it has not. Which operations count as waiting, those with an unmet mask and unclaimed
multicasts among them, and that windowed results, recomputes and a write of `agl` to come count as left, is the model's
choice: log entry 49. -/
def Obligations.HaltAndFlagDown : Prop :=
  (∀ (s : State) f h a, s.frame = some f → Frame.part f h ≠ 0 → (s.ctx (s.ctxOf f.g)).life = .running →
    (s.ctx (s.ctxOf f.g)).down = none →
    ∃ t frame, exec (.halt h a) s = .next t ∧ frame.length = 512 ∧ t = { s with gangs := t.gangs, ctxs := t.ctxs } ∧
      t.gangs = FMap.set s.gangs f.gid { f.g with units :=
        (f.g.units.set f.ui { f.u with ipc := f.u.ipc + 8 }).map fun u => { u with stopped := true } } ∧
      (∀ k, k ≠ s.ctxOf f.g → t.ctx k = s.ctx k) ∧
      let why : Down :=
        { cause := 0, pc := f.u.ipc, value := (s.rdReg f a 0).toNat, lanes := Frame.part f h, gang := f.gid, reason := 1
          at_ := s.now, who := s.nameOf f.g, frame := frame }
      t.ctx (s.ctxOf f.g) = { s.ctx (s.ctxOf f.g) with down := some why }) ∧
  (∀ (s : State) c d, (s.ctx c).down = some d →
    ∃ w, (d.reason = 2 → w = []) ∧
      (d.reason ≠ 2 → ∃ rec : List Byte, w = [rec] ∧ rec.length = 64 + d.frame.length ∧ rec.drop 64 = d.frame ∧
        rec.take 3 = leBytes 1 2 ++ leBytes 1 c ++ leBytes 1 d.cause ∧
        (rec.drop 4).take 24 = leBytes 4 d.pc.toNat ++ leBytes 8 d.value ++ leBytes 4 d.who.lseq.toNat ++
          leBytes 4 d.who.lpc0.toNat ++ leBytes 2 d.who.core ++ leBytes 2 d.who.slot) ∧
      exec (.flagDown c) s = .next (s.setCtx c { s.ctx c with
        life := .halting, reason := d.reason, faulted := d.reason == 0, down := none, stepping := false, haltAt := s.now
        faults := { (s.ctx c).faults with waiting := (s.ctx c).faults.waiting ++ w } })) ∧
  ∀ (s : State) c, (s.ctx c).life = .halting →
    let mine (gid : Nat) : Prop := ∃ g, FMap.get? s.gangs gid = some g ∧ s.ctxOf g = c
    let unmet (id : Nat) (o : Op) (grp : Nat) : Prop := ∃ x ∈ s.ops, x.1 < id ∧ x.2.gang = o.gang ∧
      o.pm.getLsbD x.2.sn.toNat = true ∧ ∃ p ∈ x.2.parts, p.grp = grp ∧ p.completed = false
    let held (id : Nat) (o : Op) (p : Part) : Prop :=
      if o.kind.gangWide = true then ∃ q ∈ o.parts, unmet id o q.grp else unmet id o p.grp
    let busy (l : Nat × Nat) : Prop := (s.lineOf l.1 l.2).full = true ∨ (s.lineOf l.1 l.2).pend ≠ 0
    let stands (o : Op) : Prop := match o.kind with
      | .launch _ => True
      | .ldk _ => ∃ l ∈ o.touched, (s.lineOf l.1 l.2).full = false
      | .stf => ∃ l ∈ o.touched, busy l
      | .cpm .. => o.claimed = false ∧ ∃ l ∈ s.cpmLines o o.pending, busy l
      | .bar .awt b _ _ | .bar .wt b _ _ => ∃ g, FMap.get? s.gangs o.gang = some g ∧ (s.barOf g.team b).now.ph = o.tok
      | _ => False
    let full (o : Op) : Prop := (∃ a, o.kind = .launch a) ∧ ∃ g, FMap.get? s.gangs o.gang = some g ∧
      65536 ≤ (s.grids.filter fun x => x.2.ctx == s.ctxOf g).length
    let waits (id : Nat) (o : Op) : Prop := ∀ p ∈ o.parts, p.completed = true ∨
      p.performed = false ∧ (held id o p ∨ full o) ∨ p.performed = true ∧ stands o
    let quiet : Prop := (∀ o ∈ s.ops, mine o.2.gang → waits o.1 o.2) ∧
      ∀ g ∈ s.gangs, mine g.1 → g.2.results = [] ∧ g.2.aglNext = none ∧ s.redoing g.1 = false
    (quiet → exec (.contextHalted c) s = .next (s.setCtx c { s.ctx c with life := .halted })) ∧
    (¬quiet → exec (.contextHalted c) s = .next s)

/-- R360, R361, R364 to R369: with its enable bit set and a lane taking part, `brk` moves on and stops the context: a
record of type 4 waits for the fault ring and the flag-down is due; a breakpoint stops it before the word, which then
issues once without matching. `trc` moves on and writes a 64-byte trace record where the buffer has room, its page is
resident and writable and nothing of its sector is gathered, and so does the oldest completed sample, which leaves its
queue; a record that does not fit is dropped and counted. Without their enable bits `brk` and `trc` are `nop`s. `pmk` with
its enable bit reads a counter of its core, and clears it with `.clr`; without the bit every active lane faults with 0x07;
COUNTER_CLEAR zeroes a core's counters. -/
def Obligations.DebugAndCounterWords : Prop :=
  (∀ (s : State) f, s.frame = some f →
    let c := s.ctxOf f.g
    let x := s.ctx c
    let stopped (t : State) (value : Nat) : Prop :=
      (t.ctx c).down = some { cause := 0, pc := f.u.ipc, value := value, lanes := f.u.am, gang := f.gid, reason := 2
                              at_ := s.now, who := s.nameOf f.g } ∧
      (t.ctx c).faults.waiting = x.faults.waiting ++
        [faultRecord 4 c 0 0 f.u.ipc.toNat value (s.nameOf f.g) f.u.am.toNat 0] ∧
      (t.ctx c).life = .running ∧ t.teams = s.teams ∧ t.ops = s.ops
    let moved := FMap.set s.gangs f.gid (f.g.setUnit f.ui { f.u with ipc := f.u.ipc + 8 })
    (∀ h code, Frame.part f h ≠ 0 → x.ctl.getLsbD 4 = true → x.life = .running → x.down = none →
      ∃ t, exec (.brk h code) s = .next t ∧ stopped t code.toNat ∧
        noRsv t.gangs = noRsv (FMap.set s.gangs f.gid (f.g.setUnit f.ui { f.u with ipc := f.u.ipc + 8, stopped := true }))) ∧
    (∀ h code, (Frame.part f h = 0 ∨ x.ctl.getLsbD 4 = false) → exec (.brk h code) s = .next { s with gangs := moved }) ∧
    (∀ k, s.breakpoint f = some k → x.life = .running → x.down = none →
      ∃ t, exec .breakpointStop s = .next t ∧
        noRsv t.gangs = noRsv (FMap.set s.gangs f.gid (f.g.setUnit f.ui { f.u with bpSkip := some f.u.ipc, stopped := true })) ∧
        stopped t 0) ∧
    (∀ h code a, (Frame.part f h = 0 ∨ x.ctl.getLsbD 6 = false) → exec (.trc h code a) s = .next { s with gangs := moved }) ∧
    ∀ h code a, (∃ t, exec (.trc h code a) s = .next t ∧ noRsv t.gangs = noRsv moved ∧ t.teams = s.teams ∧ t.ops = s.ops) ∧
      (Frame.part f h ≠ 0 → x.ctl.getLsbD 6 = true → Traced s c (s.coreOf f.g) (exec (.trc h code a) s)
        (leBytes 1 1 ++ leBytes 1 0xFF ++ leBytes 2 (s.coreOf f.g) ++ leBytes 4 (s.nameOf f.g).lpc0.toNat ++
          leBytes 4 (s.nameOf f.g).lseq.toNat ++ leBytes 4 f.u.ipc.toNat ++ leBytes 2 (s.nameOf f.g).slot ++
          leBytes 2 code.toNat ++ leBytes 4 (s.rdReg f a 0).toNat ++ leBytes 8 (s.clock (s.coreOf f.g)) ++ leBytes 32 0))) ∧
  (∀ (s : State) f h clr d a, s.frame = some f → Legal (.pmk h clr d a) f = true → Frame.part f h ≠ 0 →
    let core := s.coreOf f.g
    let c := s.core core
    let k := (s.rdReg f a 0).toNat % 256
    let v := if k < 104 then FMap.getD c.ctr.vals k 0 else 0
    ((s.ctx (s.ctxOf f.g)).ctl.getLsbD 8 = true →
      let s' := if clr then s.setCore core { c with ctr := { c.ctr with vals := FMap.erase c.ctr.vals k } } else s
      ∃ t, exec (.pmk h clr d a) s = .next t ∧ WordRan s' t f ∧ Wrote t f (.of f h d 2 fun _ => BitVec.ofNat 64 v)) ∧
    ((s.ctx (s.ctxOf f.g)).ctl.getLsbD 8 = false → f.u.am ≠ 0 →
      exec (.pmk h clr d a) s = .next (s.laneFault f.gid f.ui f.u.am .protection f.u.ipc))) ∧
  (∀ (s : State) core, exec (.counterClear core) s =
    .next (s.setCore core { s.core core with ctr := { (s.core core).ctr with vals := [] } })) ∧
  ∀ (s : State) c x rest, (s.ctx c).samples = x :: rest →
    (∃ t, exec (.sampleRecord c) s = .next t ∧ (t.ctx c).samples = rest ∧ noRsv t.gangs = noRsv s.gangs ∧ t.ops = s.ops) ∧
    (x.tail.length = 32 → Traced s c x.who.core (exec (.sampleRecord c) s)
      (leBytes 1 2 ++ leBytes 1 0xFF ++ leBytes 2 x.who.core ++ leBytes 4 x.who.lpc0.toNat ++ leBytes 4 x.who.lseq.toNat ++
        leBytes 4 x.pc.toNat ++ leBytes 2 x.who.slot ++ leBytes 2 0 ++ leBytes 4 0 ++ leBytes 8 x.clk ++ x.tail))

/-- R347: with its enable bit and a piece of a halted context that exists, `ctxrd` issues and is complete within 512 banner clocks
(1,280 clocks of a pennant core, R4) with the piece's 16 bytes in four registers, where none of them is poisoned (R339); `ctxwr` writes the piece at once, and it reads back as written; without
the bit the lanes that take part fault with 0x07. -/
def Obligations.ContextStateWords : Prop :=
  ∀ (s : State) f h a l, s.frame = some f → l < 64 → f.u.hm = false → Frame.part f h = lane l →
    let p := Piece.of (s.rd f a 2 l)
    ((s.ctx (s.ctxOf f.g)).ctl.getLsbD 0 = true → ∀ bytes, s.pieceBytes p = some bytes →
      (∀ d, Legal (.ctxrd h d a) f = true →
        s.pieceBad p = false → ∃ t q n, exec (.ctxrd h d a) s = .next t ∧ WindowIssued (.ctxrd h d a) { s with fresh := s.fresh + 1 } t f q ∧
          q.due = some n ∧ s.clock (s.coreOf f.g) < n ∧ n ≤ (s.clock (s.coreOf f.g) + match coreKind (s.coreOf f.g) with
            | .banner => 512
            | .pennant => 1280) ∧ q.faults = 0 ∧
          ∀ k : Gang, f.ui < k.units.length → ∀ loc j, loc.real = true → j < 64 → placeVal (k.writes q.writes) loc j =
            Effect.after { mask := lane l, regs := (List.range 4).map fun n =>
              (Reg.next d n, fun _ => BitVec.ofNat 32 (leNat ((bytes.drop (4 * n)).take 4))) } f loc j (placeVal k loc j)) ∧
      ∀ b x, Legal (.ctxwr h a b) f = true → s.target p = some x → x.gang.all (fun y => y.1 != f.gid) = true →
        (p.cls = 2 ∧ p.ofs + 16 ≤ 32 * x.t.header.regs ∨ p.cls = 3 ∧ p.ofs + 16 ≤ 4 * x.t.header.scalars ∨
          p.cls = 4 ∧ p.ofs + 16 ≤ 32 ∨ p.cls = 6 ∧ p.ofs + 16 ≤ x.t.header.scratch) → x.t.header.scalars ≤ 48 →
        x.base + 8 ≤ 64 →
        ∃ t, exec (.ctxwr h a b) s = .next t ∧ t = { s with gangs := t.gangs, teams := t.teams, regPoison := t.regPoison } ∧
          t.pieceBytes p = some ((List.range 4).flatMap fun k => leBytes 4 (s.rdReg f (Reg.next b k) l).toNat)) ∧
    ((s.ctx (s.ctxOf f.g)).ctl.getLsbD 0 = false →
      (∀ d, exec (.ctxrd h d a) s = .next (s.laneFault f.gid f.ui (lane l) .protection f.u.ipc)) ∧
      ∀ b, exec (.ctxwr h a b) s = .next (s.laneFault f.gid f.ui (lane l) .protection f.u.ipc))

/-! ### Memory -/

/-- R78, R95, R102 to R121: a word that accesses memory checks the address of every lane that takes part, and then
issues an operation with an access for each lane whose address names a place, by the table of these words. A tile access
whose element D cannot hold (R104) faults every active lane. The model's choices: lanes park, parts perform and lanes fault
in this order (log entry 78); accesses are made with the issue, or put off by a turn (log entry 9); which loads stop their
unit (log entry 19); what a load behind a wait may bind (log entry 119). -/
def Obligations.MemoryWords : Prop :=
  (∀ i s f w, s.frame = some f → memWord i s f = some w →
    let c := s.checkLanes f w.form (Frame.part f (info i).hdr) w.addr
    exec i s = .next (issuedThen i c.2 f w.ord (w.plan c.1))) ∧
  ∀ (s : State) f h d (ad : Addr), s.frame = some f → f.u.hm = false → f.u.am ≠ 0 → d.isZero = false → d.isEven = false →
    8 ≤ recordSize (f.g.record ad.base.toNat) →
    let t := s.takeFaults f.gid ((lanesOf (f.u.am &&& ~~~f.u.xm)).map fun l => ⟨l, .illegal, 0⟩) f.u.ipc
    exec (.ldt h d ad) s = .next t ∧ exec (.stt h d ad) s = .next t

/-- R78 to R80, R87 to R93, R105: where an address leads. A hole is protected; a window is checked for its bound, then
for alignment; any other address for alignment, then by its translation: a level without an entry parks the lane on the
page of that level's size, and the leaf's page must be writable for a write. A walk starts at the present value of `ROOT`
with no bit masked (the model's choice, log entry 81) and is fatal at an entry with FTL, with a reserved bit or a reserved
placement, with a frame that is not aligned or lies beyond installed memory, or where its level allows no such entry.
Memory homed on a fenced die cannot be reached, and a table there is fatal (R343; the model's choice, log entry 131). The
lanes of a word are checked one after the other. -/
def Obligations.AddressChecks : Prop :=
  (∀ (s : State) tid (t : Team) ea size align write win,
    let r := s.resolve tid t ea size align write win
    let window (team o : Nat) : AddrRes :=
      if win = .never then .fault .protection
      else if t.header.scratch < o + size then .fault .scratch
      else if 1 < align ∧ o % align ≠ 0 then .fault .misaligned
      else .loc (.scratch team o)
    let home (plc pa : Nat) : Loc :=
      let d := if 4 ≤ plc then plc - 4 else (pa / 2 ^ 12 % 4) ^^^ (pa / 2 ^ 16 % 4) ^^^ (pa / 2 ^ 20 % 4)
      if (s.die d).fenced then .lost pa else .mem d pa
    (0x00FE000000C00000 ≤ ea ∧ ea < 0x00FF000000000000 ∨ 0x00FF000000100000 ≤ ea ∧ ea < 0x0100000000000000 ∨
      0x0200000000000000 ≤ ea → r = (.fault .protection, s)) ∧
    (∀ o < 0x100000, ea = 0x00FF000000000000 + o → r = (window tid o, s)) ∧
    (∀ o < 0x100000, ∀ rank < 12, ea = 0x00FE000000000000 + 0x100000 * rank + o →
      (rank = t.rank → r = (window tid o, s)) ∧
      ∀ g, rank ≠ t.rank → FMap.get? s.grids t.grid = some g →
        (g.lr.cw * g.lr.ch ≤ rank → r = (.fault .protection, s)) ∧
        ∀ x, rank < g.lr.cw * g.lr.ch → s.teamAt t rank = some x → r = (window x o, s)) ∧
    (ea < 0x00FE000000000000 ∨ 0x0100000000000000 ≤ ea ∧ ea < 0x0200000000000000 →
      (win = .only → r = (.fault .protection, s)) ∧
      (win ≠ .only → 1 < align → ea % align ≠ 0 → r = (.fault .misaligned, s)) ∧
      (win ≠ .only → (align ≤ 1 ∨ ea % align = 0) → ∀ x, s.translate t.core t.ctx ea = x → r.2 = x.2 ∧
        (x.1 = .fatal → r.1 = .fault .protection) ∧
        (∀ lv, x.1 = .pageFault lv → ∀ bits, [48, 39, 30, 21, 16][lv]? = some bits →
          r.1 = .park (ea / 2 ^ bits * 2 ^ bits) lv) ∧
        ∀ e b, x.1 = .leaf e b →
          (write = true → e / 4 % 2 = 0 → r.1 = .fault .protection) ∧
          (write = false ∨ e / 4 % 2 = 1 → ea < 2 ^ 56 →
            let pa := (e / 2 ^ 12 % 2 ^ 40) * 2 ^ 12 + ea % 2 ^ b
            r.1 = .loc (home (e / 2 ^ 60 % 8) pa)) ∧
          (write = false ∨ e / 4 % 2 = 1 → 2 ^ 56 ≤ ea →
            let pa := (e / 2 ^ 12 % 2 ^ 27) * 2 ^ 12 + ea % 2 ^ b
            let dev := e / 2 ^ 39 % 2 ^ 21
            (dev ≠ s.dev.num.toNat → r.1 = .loc (.peer dev pa)) ∧
            (dev = s.dev.num.toNat → r.1 = .loc (home (e / 2 ^ 60 % 8) pa)))))) ∧
  (∀ (s : State) core ctx va, ∀ t ∈ (s.core core).tlb, t.ctx = ctx → va / 2 ^ t.bits = t.page →
    ∃ t' ∈ (s.core core).tlb, t'.ctx = ctx ∧ va / 2 ^ t'.bits = t'.page ∧
      s.translate core ctx va = (.leaf t'.leaf t'.bits, s)) ∧
  (∀ (s : State) core ctx va, (∀ t ∈ (s.core core).tlb, t.ctx = ctx → va / 2 ^ t.bits ≠ t.page) →
    (∀ t ∈ (s.die (coreDie core)).tcache, t.ctx = ctx → va / 2 ^ t.bits ≠ t.page) →
    (s.translate core ctx va).1 =
      if 2 ^ 39 ≤ (s.ctx ctx).root.toNat then .fatal else walkFrom s va walkLevels (s.ctx ctx).root.toNat) ∧
  (∀ (s : State) va lv sh nb leaf table rest at_,
    let e := s.pte (at_ + 8 * (va / 2 ^ sh % 2 ^ nb))
    let w := walkFrom s va ((lv, sh, nb, leaf, table) :: rest) at_
    (e % 2 = 0 → e / 2 ^ 63 % 2 = 0 → w = .pageFault lv) ∧
    (e % 2 = 1 → e / 2 % 2 = 1 → leaf = true → leafOk (decide (2 ^ 56 ≤ va)) e sh = true → w = .leaf e sh) ∧
    (e % 2 = 1 → e / 2 % 2 = 0 → table = true → tableOk e = true →
      w = walkFrom s va rest ((e / 2 ^ 12 % 2 ^ 40) * 2 ^ 12)) ∧
    (e / 2 ^ 63 % 2 = 1 ∨ e % 2 = 1 ∧ (e / 2 % 2 = 1 ∧ leaf = false ∨ e / 2 % 2 = 0 ∧ table = false) → w = .fatal) ∧
    (e % 2 = 1 → e / 2 % 2 = 1 → leafOk (decide (2 ^ 56 ≤ va)) e sh = false → w = .fatal) ∧
    (e % 2 = 1 → e / 2 % 2 = 0 → tableOk e = false → w = .fatal)) ∧
  (∀ (peer : Bool) (e bits : Nat), leafOk peer e bits = true ↔
    e / 2 ^ 63 % 2 = 0 ∧ e / 2 ^ 4 % 2 ^ 8 = 0 ∧ (e / 2 ^ 60 % 8 = 0 ∨ 4 ≤ e / 2 ^ 60 % 8) ∧
    (peer = true → 2 ^ bits ∣ e / 2 ^ 12 % 2 ^ 27 * 2 ^ 12) ∧
    (peer = false → e / 2 ^ 52 % 2 ^ 8 = 0 ∧ 2 ^ bits ∣ e / 2 ^ 12 % 2 ^ 40 * 2 ^ 12 ∧
      e / 2 ^ 12 % 2 ^ 40 * 2 ^ 12 < 2 ^ 39)) ∧
  (∀ e : Nat, tableOk e = true ↔ e / 2 ^ 63 % 2 = 0 ∧ e / 2 ^ 4 % 2 ^ 8 = 0 ∧ e / 2 ^ 60 % 8 = 0 ∧
    e / 2 ^ 52 % 2 ^ 8 = 0 ∧ e / 2 ^ 12 % 2 ^ 40 * 2 ^ 12 < 2 ^ 39) ∧
  (∀ (s : State) pa, let d := homeOf (s.plcOf pa) pa
    s.pte pa = if (s.die d).fenced then 2 ^ 63 else leNat ((List.range 8).map fun k => Memory.read s.mem (memKey d pa + k))) ∧
  ∀ (s : State) f fm m (a : Nat → DWord) (r : Nat → AddrRes) t, s.teamOf f.g = some t → fm.once = false →
    (∀ l < 64, m.getLsbD l = true →
      s.resolve f.g.team t (a l).toNat fm.size fm.align fm.write fm.win = (r l, s)) →
    s.checkLanes f fm m (fun l => .ea (a l)) =
      ({ places := (lanesOf m).filterMap fun l => match r l with
           | .loc p => some (l, p, a l)
           | _ => none
         still := m &&& maskOf fun l => match r l with
           | .loc _ => true
           | _ => false
         hits := (lanesOf m).filterMap fun l => match r l with
           | .fault c => some ⟨l, c, a l⟩
           | _ => none
         parks := (lanesOf m).filterMap fun l => match r l with
           | .park page lv => some (l, page, lv)
           | _ => none
         system := (lanesOf m).any fun l => decide (0x0100000000000000 ≤ (a l).toNat ∧ (a l).toNat < 0x0200000000000000) }, s)

/-- R93, R184: lanes that meet a missing page become fault-parked with their PC on the word, which the host learns from a
record of type 1; when it reports the page resident they become ready and FREADY is noted; records of other pages stay.
Several pages have their records in the order in which the lanes first met them. A halted context keeps what the host
reports till it runs again (R344; the model's choice, log entry 132). -/
def Obligations.PageFaults : Prop :=
  (∀ (s : State) f m page lv, s.frameOf f.gid f.ui = some f → m ≠ 0 →
    let c := s.ctxOf f.g
    let x := s.ctx c
    s.parkPages f.gid f.ui f.u.ipc ((lanesOf m).map fun l => (l, page, lv)) =
      (s.put { f with
        g := { f.g with lpc := mergeLanes m (uniform f.u.ipc) f.g.lpc }
        u := { f.u with
          am := f.u.am &&& ~~~m, km := f.u.km &&& ~~~m, fm := (f.u.fm &&& ~~~m) ||| m, tm := f.u.tm &&& ~~~m
          emptyPc := emptied f.u (f.u.am &&& ~~~m) f.u.ipc } }).setCtx c
        { x with
          parked := x.parked ++ [⟨page, f.gid, m⟩]
          faults := { x.faults with waiting := x.faults.waiting ++
            [faultRecord 1 c 6 0 f.u.ipc.toNat page (s.nameOf f.g) m.toNat lv] } }) ∧
  (∀ (s : State) f m n k page page' lv lv', s.frameOf f.gid f.ui = some f → page ≠ page' → m < 64 → n < 64 → k < 64 →
    let c := s.ctxOf f.g
    let t := s.parkPages f.gid f.ui f.u.ipc [(m, page, lv), (n, page', lv'), (k, page, lv)]
    (t.ctx c).parked = (s.ctx c).parked ++ [⟨page, f.gid, lane m ||| lane k⟩, ⟨page', f.gid, lane n⟩] ∧
    (t.ctx c).faults.waiting = (s.ctx c).faults.waiting ++
      [faultRecord 1 c 6 0 f.u.ipc.toNat page (s.nameOf f.g) (lane m ||| lane k).toNat lv,
        faultRecord 1 c 6 0 f.u.ipc.toNat page' (s.nameOf f.g) (lane n).toNat lv']) ∧
  (∀ (s : State) c va, (s.ctx c).life = .halted →
    exec (.pgres c va) s = .next (s.setCtx c { s.ctx c with resident := (s.ctx c).resident ++ [va.toNat] })) ∧
  ∀ (s : State) c va p g u, (s.ctx c).life ≠ .halted → (s.ctx c).parked.filter (fun q => q.page == va.toNat) = [p] →
    FMap.get? s.gangs p.gang = some g → g.units = [u] → p.lanes &&& u.fm ≠ 0 → u.stop = .run →
    exec (.pgres c va) s = .next ((s.setCtx c { s.ctx c with
      parked := (s.ctx c).parked.filter fun q => q.page != va.toNat }).setGang p.gang
        { g with units := [{ u.readied (p.lanes &&& u.fm) with fready := true }] })

/-- R95, R113, R122, R127, R210 to R222, R290, R296: the other words that become operations: barriers, stream queries,
prefetches, copies, engine commands, launches and spawns. The model's choices: lanes park, parts perform and lanes fault in
the order of `issuedThen` (log entry 78), accesses being made with the issue or put off by a turn (log entry 9); `pf` is
issued without access or translation (log entry 31). A barrier that the kernel does not declare faults with 0x05; a
copy of more than 16 units, and a multicast, wait for leave before they issue (R217). A lane of a copy makes a request, or
faults with the first check that fails (R211; its address in the fault is the model's choice: log entry 86); requests of
one group with one governing line and one source line form one unit; the highest lane's bytes stay where lanes overlap, and
a unit counts each 4-byte unit it writes in a line once (R213, R214). A multicast is checked for all its lanes at once
(R219; address 0 in the fault: log entry 87). -/
def Obligations.OtherOperations : Prop :=
  ∀ (s : State) f, s.frame = some f →
    (∀ i w h, barWord? i = some w → s.headerOf f.g = some h →
      (w.id < h.barriers → exec i s = .next (issuedThen i s f w.ord
        { kind := .bar w.kind w.id w.d ((s.rdU f w.a 1).toNat % 2 ^ 16), lanes := Frame.part f w.hdr, stop := w.stop })) ∧
      (h.barriers ≤ w.id → Frame.part f w.hdr ≠ 0 → exec i s = .next
        ((s.put { f with u := { f.u with ipc := f.u.ipc + 8 } }).laneFault f.gid f.ui (Frame.part f w.hdr) .barrier f.u.ipc))) ∧
    (∀ h d n o, exec (.sqry h d n o) s =
      .next (issuedThen (.sqry h d n o) s f o { kind := .sqry d n.toNat, lanes := Frame.part f h })) ∧
    (∀ h ad, exec (.pf h ad) s = .next (issuedThen (.pf h ad) s f ad.ord { kind := .pf, lanes := Frame.part f h })) ∧
    (∀ h dir fill d a b o, let i : Instr := .cp h dir fill d a b o
      let p := s.cpPlan f h dir fill d a b
      (p.units.length ≤ 16 ∨ f.u.leave = true → exec i s = .next (issuedThen i s f o p)) ∧
      (16 < p.units.length → f.u.leave = false → exec i s = .next (s.askLeave f))) ∧
    (∀ h n d a b o, let i : Instr := .cpm h n d a b o
      let p := s.cpmPlan f h n d a b
      (p.lanes = 0 ∨ f.u.leave = true → exec i s = .next (issuedThen i s f o p)) ∧
      (p.lanes ≠ 0 → f.u.leave = false → exec i s = .next (s.askLeave f))) ∧
    (∀ h dir fill d a b t, s.teamOf f.g = some t →
      let p := s.cpPlan f h dir fill d a b
      let lane (l : Nat) : Prop := l < 64 ∧ (Frame.part f h).getLsbD l = true
      let size (l : Nat) : Nat := (s.rdReg f b l).toNat
      let sized (l : Nat) : Prop := size l = 4 ∨ size l = 8 ∨ size l = 16
      let src (l : Nat) (x : Side) : Prop := SideNamed s f.g.team t (dir == .g2s || dir == .g2g) (s.rd f a 2 l).toNat x
      let dst (l : Nat) (y : Side) : Prop := SideNamed s f.g.team t (dir == .s2g || dir == .g2g) (s.rd f d 2 l).toNat y
      let fits (l : Nat) (x y : Side) : Prop := x.within t.header.scratch (size l) ∧ y.within t.header.scratch (size l)
      let even (l : Nat) : Prop := (s.rd f a 2 l).toNat % size l = 0 ∧ (s.rd f d 2 l).toNat % size l = 0
      let asks (l : Nat) (x y : Side) : Prop := lane l ∧ sized l ∧ src l x ∧ dst l y ∧ fits l x y ∧ even l
      let fails (l : Nat) (c : Cause) : Prop := lane l ∧ size l ≠ 0 ∧
        ((¬sized l ∧ c = .misaligned) ∨
          (sized l ∧ (¬∃ x y, src l x ∧ dst l y) ∧ c = .protection) ∨
          (sized l ∧ (∃ x y, src l x ∧ dst l y ∧ ¬fits l x y) ∧ c = .scratch) ∨
          (sized l ∧ (∃ x y, src l x ∧ dst l y ∧ fits l x y) ∧ ¬even l ∧ c = .misaligned))
      p.kind = .cp dir fill ∧ p.accs = [] ∧ p.parks = [] ∧ p.stop = false ∧
      (∀ l < 64, p.lanes.getLsbD l = true ↔ ∃ x y, asks l x y) ∧
      (∀ q : Hit, q ∈ p.hits ↔ ∃ l c, fails l c ∧ q = ⟨l, c, s.rd f d 2 l⟩) ∧
      (∀ u ∈ p.units, u.held = none ∧ u.done = false ∧ u.reqs ≠ [] ∧ ∀ r ∈ u.reqs, u.grp = r.lane / 8 ∧ r.size = size r.lane ∧
        asks r.lane r.src r.dst ∧ ∀ k, r.own[k]? = some true ↔ k < r.size ∧
          ∀ l x y, asks l x y → r.lane < l → ∀ j < size l, (y.add j).place ≠ (r.dst.add k).place) ∧
      (∀ l x y, asks l x y → ∃ u ∈ p.units, ∃ r ∈ u.reqs, r.lane = l) ∧
      (∀ u ∈ p.units, ∀ v ∈ p.units, ∀ r ∈ u.reqs, ∀ q ∈ v.reqs,
        u = v ↔ r.lane / 8 = q.lane / 8 ∧ r.dst.line = q.dst.line ∧ r.src.line = q.src.line) ∧ p.units.Nodup ∧
      ∀ u ∈ p.units, (fill = false → u.fills = []) ∧
        (fill = true → ∃ written : List (Nat × Nat), written.Nodup ∧
          (∀ w, w ∈ written ↔ ∃ r ∈ u.reqs, ∃ k, 4 * k < r.size ∧ r.own[4 * k]? = some true ∧
            (r.dst.add (4 * k)).place = (w.1 + 1, 4 * w.2) ∧ ∃ x y z, r.dst = .scratch x y z) ∧
          ∀ tm n c, (tm, n, c) ∈ u.fills ↔
            c = (written.filter fun w => w.1 == tm && w.2 / 32 == n).length ∧ 1 ≤ c)) ∧
    (∀ h n d a b t, s.teamOf f.g = some t →
      let m := Frame.part f h
      let len := 128 * (n.toNat + 1)
      let dst := (s.rdU f d 1).toNat
      let src := (s.rdU f a 2).toNat
      let mask := (s.rdU f b 1).toNat
      let ranks : Prop := mask ≠ 0 ∧ mask < 2 ^ clusterSize s t ∧ mask < 2 ^ 12
      let from_ (x : Side) : Prop := SideNamed s f.g.team t true src x ∨
        ∃ o < 0x100000, src = 0x00FF000000000000 + o ∧ x = .scratch f.g.team o src
      let fits (x : Side) : Prop := dst + len ≤ t.header.scratch ∧ x.within t.header.scratch len
      let even : Prop := dst % 128 = 0 ∧ src % 128 = 0
      let idle (hits : List Hit) : Plan := { kind := .cpm dst (.virt src) (n.toNat + 1) mask, lanes := 0, hits := hits }
      let fails (c : Cause) : Prop := s.cpmPlan f h n d a b = idle ((lanesOf m).map fun l => ⟨l, c, 0⟩)
      (m = 0 → s.cpmPlan f h n d a b = idle []) ∧
      (m ≠ 0 → (¬ranks ∨ ¬∃ x, from_ x) → fails .protection) ∧
      ∀ x, m ≠ 0 → ranks → from_ x →
        (¬fits x → fails .scratch) ∧
        (fits x → ¬even → fails .misaligned) ∧
        (fits x → even → s.cpmPlan f h n d a b = { kind := .cpm dst x (n.toNat + 1) mask, lanes := m })) ∧
    (∀ h d a b o, let c := (s.rdU f b 1).toNat
      exec (.cpc h d a b o) s = .next (issuedThen (.cpc h d a b o) s f o
        { kind := .cpc (c % 256) (if c / 2 ^ 10 % 2 = 1 then 4 else c / 2 ^ 8 % 4)
            [(s.rdU f d 2).toNat, (s.rdU f (Reg.next d 2) 2).toNat, (s.rdU f a 2).toNat, (s.rdU f (Reg.next a 2) 2).toNat]
          lanes := Frame.part f h })) ∧
    (∀ h a o t e b, s.teamOf f.g = some t → Frame.part f h ≠ 0 → (s.rdU f a 2).toNat < 0x00FE000000000000 →
      (s.rdU f a 2).toNat % 256 = 0 → s.translate t.core t.ctx (s.rdU f a 2).toNat = (.leaf e b, s) → e / 4 % 2 = 1 →
      exec (.launch h a o) s = .next (issuedThen (.launch h a o) s f o
        { kind := .launch (s.rdU f a 2).toNat, lanes := Frame.part f h
          accs := [{ lane := 0, ofs := 0, loc := s.leafLoc e b (s.rdU f a 2).toNat, size := 256, sc := o.sc, data := [] }] })) ∧
    (∀ h a o, Frame.part f h ≠ 0 → 0x00FE000000000000 ≤ (s.rdU f a 2).toNat →
      exec (.launch h a o) s = .next (issuedThen (.launch h a o) s f o
        { kind := .launch (s.rdU f a 2).toNat, lanes := 0
          hits := (lanesOf (Frame.part f h)).map fun l => ⟨l, .protection, s.rdU f a 2⟩ })) ∧
    ∀ h idx d o t, s.teamOf f.g = some t →
      ((FMap.get? t.bins idx.toNat).isSome = true → exec (.spawn h idx d o) s = .next (issuedThen (.spawn h idx d o) s f o
        { kind := .spawn idx.toNat ((lanesOf (Frame.part f h)).map fun l => (List.range 8).map fun k => s.rdReg f (Reg.next d k) l)
          lanes := Frame.part f h })) ∧
      (FMap.get? t.bins idx.toNat = none → Frame.part f h ≠ 0 →
        exec (.spawn h idx d o) s = .next (issuedThen (.spawn h idx d o) s f o
          { kind := .spawn idx.toNat [], lanes := 0
            hits := (lanesOf (Frame.part f h)).map fun l => ⟨l, .protection, 0⟩ }))

/-- R96, R144, R386: a part waits while an earlier operation of its gang, in a stream its mask names, has a part of the same
group that is not complete, while its word waits for a recompute (log entry 98), and in a halted context (R344); one effect
for the gang waits for every group's mask. A part that may performs: its accesses are then made in later steps (log entry
9). `sqry` counts the stream's other operations (R127), the values with its own number left out being those of log entry 16.
A `spawn` appends its threads to the bin and is complete, or waits at 64 (R296); a `cpc` enters its command into the queue of
the engine it names, or of the least laden one, or waits at 64 (R222); a `launch` numbers its record, and a grid starts with
its clusters in the class queues, or the status says why not (R291). -/
def Obligations.OperationsPerform : Prop :=
  ∀ (s : State) id o grp, FMap.get? s.ops id = some o →
    let earlier (k : Nat) : Prop := ∃ x ∈ s.ops, x.1 < id ∧ x.2.gang = o.gang ∧ o.pm.getLsbD x.2.sn.toNat = true ∧
      ∃ p ∈ x.2.parts, p.grp = k ∧ p.completed = false
    (o.kind.gangWide = false → earlier grp → exec (.operationPerform id grp) s = .next s) ∧
    (o.kind.gangWide = true → (∃ p ∈ o.parts, earlier p.grp) → exec (.operationPerform id grp) s = .next s) ∧
    ((∀ p ∈ o.parts, o.inStep grp p = true → p.performed = true) → exec (.operationPerform id grp) s = .next s) ∧
    (s.redoHeld o.gang id = true ∨ s.opFrozen o = true → exec (.operationPerform id grp) s = .next s) ∧
    (¬earlier grp → s.redoHeld o.gang id = false → s.opFrozen o = false → (∃ p ∈ o.parts, p.grp = grp ∧ p.performed = false) →
      (∃ a ∈ o.accs, a.lane / 8 = grp) →
      (o.kind = .store ∨ (∃ d n x r, o.kind = .load d n x r false false ∨ o.kind = .load d n x false false true) ∨
        (∃ op d, o.kind = .atomic op d) ∨ ∃ d, o.kind = .stc d) →
      ∃ t, exec (.operationPerform id grp) s = .next t ∧
        t = { s with
          nextId := t.nextId, fresh := t.fresh, cores := t.cores
          ops := FMap.set s.ops id { o with parts := o.parts.map fun p => if p.grp = grp then
            { p with performed := true, moment := s.moment, order := if o.kind.reserving then s.nextId else 0 } else p } } ∧
        ∀ c, t.core c = { s.core c with ctr := (t.core c).ctr }) ∧
    (∀ g d n, Op.plain s id o g → o.only grp false → (∀ a ∈ o.accs, a.bad = false) → o.kind = .sqry d n → ¬earlier grp →
      s.redoHeld o.gang id = false → s.opFrozen o = false →
      let rest := (s.outstanding o.gang grp n).filter fun x => x.1 != id
      let next := g.nextSeq grp n - (if o.sn.toNat = n then 1 else 0)
      let oldest := (rest.head?.map fun x => x.2.seq).getD next
      ∃ t, exec (.operationPerform id grp) s = .next t ∧ OpCompleted s t id o g
        { mask := o.lanes, regs := wide d 2 fun _ => rest.length % 64 + 2 ^ 16 * next.toNat + 2 ^ 32 * oldest.toNat }) ∧
    (∀ g idx ts tm b, Op.plain s id o g → o.only grp false → (∀ a ∈ o.accs, a.bad = false) → o.kind = .spawn idx ts →
      (∀ p ∈ o.parts, ¬earlier p.grp) → s.redoHeld o.gang id = false → s.opFrozen o = false → ts ≠ [] →
      FMap.get? s.teams g.team = some tm → FMap.get? tm.bins idx = some b → b.flush = false →
      (64 ≤ b.threads.length → exec (.operationPerform id grp) s = .next (s.setOp id o)) ∧
      (b.width ≤ 64 → b.threads.length + ts.length < b.width →
        ∃ t, exec (.operationPerform id grp) s = .next t ∧ OpCompleted (s.setTeam g.team { tm with
          bins := FMap.set tm.bins idx { b with threads := b.threads ++ ts.map fun th => ⟨th, s.now⟩ } }) t id o g { mask := 0 })) ∧
    (∀ g idx sel args k, FMap.get? s.gangs o.gang = some g → o.kind = .cpc idx sel args → (∀ p ∈ o.parts, ¬earlier p.grp) →
      s.redoHeld o.gang id = false → s.opFrozen o = false → o.lanes ≠ 0 → (∃ p ∈ o.parts, p.performed = false) → k < 4 →
      let die := coreDie (s.coreOf g)
      let e := s.engine die k
      e.up = true → (sel = k ∨ 4 ≤ sel ∧ ∀ j < 4, (s.engine die j).up = true →
        e.queue.length ≤ (s.engine die j).queue.length ∧ (j < k → e.queue.length < (s.engine die j).queue.length)) →
      (64 ≤ e.queue.length → exec (.operationPerform id grp) s = .next s) ∧
      (e.queue.length < 64 → ∃ cmd : Command, exec (.operationPerform id grp) s = .next { s.setEngine die k
          { e with queue := e.queue ++ [cmd] } with
          ops := FMap.set s.ops id { o with parts := o.parts.map fun p => { p with performed := true, moment := 0, order := 0 } } } ∧
        cmd.op = id ∧ cmd.ctx = s.ctxOf g ∧ cmd.idx = idx ∧ cmd.args = args ∧
        cmd.issuer = s.coreOf g + 2 ^ 10 * s.opSlot o + 2 ^ 19 * o.sn.toNat ∧
        ∀ gr, s.gridOf g = some gr → cmd.version = gr.version ∧ cmd.lseq = gr.lseq.toNat)) ∧
    ∀ g tm gr va a h pa, Op.plain s id o g → o.kind = .launch va → (∀ p ∈ o.parts, ¬earlier p.grp) →
      s.redoHeld o.gang id = false → s.opFrozen o = false → o.lanes ≠ 0 → (∃ p ∈ o.parts, p.performed = false) →
      (∀ b ∈ o.accs, b.bad = false) → o.accs.head? = some a → a.loc = .mem h pa → pa % 256 = 0 → s.teamOf g = some tm →
      s.gridOf g = some gr → FMap.sorted s.ops = true →
      -- no core has gathered bytes of the record
      (∀ k < 4, FMap.get? s.filter (memKey h (pa + 64 * k) / 64) = none ∧
        ∀ l ∈ (s.core tm.core).gather, l.key ≠ memKey h (pa + 64 * k) / 64) →
      let c := tm.ctx
      let r := LaunchRec.parse (Memory.readN s.mem (memKey h pa) 256)
      let n := if gr.launches + 1 < 2 ^ 32 then gr.launches + 1 else 1
      let grids := FMap.set s.grids tm.grid { gr with launches := n }
      let wrote (t : State) (ofs v : Nat) : Prop :=
        Memory.wf s.mem = true → Memory.readN t.mem (memKey h pa + ofs) 8 = leBytes 4 v ++ leBytes 4 0
      let refused (st : Nat) : Prop := ∃ t, exec (.operationPerform id grp) s = .next t ∧ t.ops = FMap.erase s.ops id ∧
        noRsv t.gangs = noRsv (FMap.set s.gangs o.gang (g.opOver id)) ∧ t.grids = grids ∧ t.teams = s.teams ∧
        wrote t 240 n ∧ wrote t 248 st
      let dies := s.diesOf r.dmask
      (65536 ≤ (s.grids.filter fun x => x.2.ctx == c).length → exec (.operationPerform id grp) s = .next s) ∧
      ((s.grids.filter fun x => x.2.ctx == c).length < 65536 →
        ((∀ key v, s.versionFor c r = some (key, v) → r.ok v = false) → refused 1) ∧
        ∀ key v, s.versionFor c r = some (key, v) → r.ok v = true →
          ((v.chosen r.core).bind (fun i => i.header r.func) = none ∨ dies = [] ∨
            (∃ x, (v.chosen r.core).bind (fun i => i.header r.func) = some x ∧
              canEver r.core x (gangSizes x (r.groups x)) = false) → refused 2) ∧
          ∀ x, (v.chosen r.core).bind (fun i => i.header r.func) = some x → dies ≠ [] →
            canEver r.core x (gangSizes x (r.groups x)) = true →
            let cls := if r.cls = 0xFF then x.cls.toNat else r.cls
            ∃ t y, exec (.operationPerform id grp) s = .next t ∧ t.grids = FMap.set grids s.nextId y ∧
              t.ops = FMap.set s.ops id { o with parts := o.parts.map fun p =>
                { p with performed := true, moment := 0, order := 0 } } ∧
              y.ctx = c ∧ y.lr = r ∧ y.version = key ∧ y.header = x ∧ y.recLoc = a.loc ∧ y.sc = o.sc ∧ y.op = some id ∧
              y.lpc0 = o.pc ∧ y.lseq = BitVec.ofNat 32 n ∧ y.placed = 0 ∧ y.status = 0 ∧
              (∀ d < 4, FMap.getD (t.die d).queues (4 * c + cls) [] = FMap.getD (s.die d).queues (4 * c + cls) [] ++
                ((List.range r.ncl).filter fun j => dies[j % dies.length]? == some d).map fun j => ⟨s.nextId, j⟩) ∧
              (∀ d < 4, ∀ k, k ≠ 4 * c + cls → FMap.getD (t.die d).queues k [] = FMap.getD (s.die d).queues k []) ∧
              t.teams = s.teams ∧ noRsv t.gangs = noRsv s.gangs ∧ wrote t 240 n ∧
              (Memory.wf s.mem = true → ∀ q, q < memKey h pa + 240 ∨ memKey h pa + 248 ≤ q →
                Memory.read t.mem q = Memory.read s.mem q))

/-- R84, R97, R98, R100, R107, R108, R114 to R118, R339, R344: one access of a performed operation is made, where nothing
holds it: its context has not halted, and no other lane holds its granule; the holder's own goes on at once. A load
binds its scratchpad bytes, or its core's gathered bytes over those at the home; a store enters the core's gather buffer
at core scope and memory beyond it; a device-scope load and an atomic first bring home what another core gathered up to
its mark of the sector; an atomic exchanges the bytes at the home for its new value, a store-conditional
stores where its lane's reservation stands, and `ldr` sets it for 256 clocks. A sector that a store's lanes have written
whole is poisoned no more. Every other byte stays. The model's choices: the holder's own access goes at once (log entry 8), a
team on no core stores at home (84), a reservation names the place and not the address (106), a load that follows a wait may
bind what its own scratchpad held since the wait began (119), memory of a fenced die fails every access (131). -/
def Obligations.AccessesMade : Prop :=
  (∀ (s : State) id grp o k a, FMap.get? s.ops id = some o → (∃ p ∈ o.parts, o.inStep grp p = true ∧ p.performed = true ∧
      p.completed = false) →
    (o.kind = .store ∨ (∃ d n x r b v, o.kind = .load d n x r b v) ∨ (∃ op d, o.kind = .atomic op d) ∨ (∃ d, o.kind = .stc d) ∨
      ∃ t, o.kind = .trec t) →
    s.opFrozen o = false →
    k < 128 → o.accs[k]? = some a → a.done = false → o.accIn grp a = true → o.waitsFor k a = false →
    s.accReady id o a = true → (∃ j b, j ≠ k ∧ o.accs[j]? = some b ∧ o.accIn grp b = true ∧ b.done = false) →
    exec (.operationComplete id grp (BitVec.ofNat 128 (2 ^ k))) s =
      .next ((s.makeAccess o a).2.setOp id { o with accs := o.accs.set k (s.makeAccess o a).1 })) ∧
  (∀ (s : State) id o (a : Access), o.kind.reserving = false →
    (∀ tm x y, a.loc = .scratch tm x → FMap.get? s.teams tm = some y → y.life ≠ .moving) → s.accReady id o a = true) ∧
  (∀ (s : State) id o (a : Access) h g, o.kind.reserving = true → FMap.get? s.holds a.loc.granule = some h →
    FMap.get? s.gangs h.gang = some g → g.rsvOf h.lane = some a.loc.granule → ¬(h.gang = o.gang ∧ h.lane = a.lane) →
    s.accReady id o a = false) ∧
  (∀ (s : State) id o (a : Access) h g, o.kind.reserving = true → FMap.get? s.holds a.loc.granule = some h →
    FMap.get? s.gangs h.gang = some g → g.rsvOf h.lane = some a.loc.granule → h.gang = o.gang → h.lane = a.lane →
    (∀ tm x y, a.loc = .scratch tm x → FMap.get? s.teams tm = some y → y.life ≠ .moving) → s.accReady id o a = true) ∧
  (∀ (s : State) id grp o which, FMap.get? s.ops id = some o → s.opFrozen o = true →
    exec (.operationComplete id grp which) s = .next s) ∧
  ∀ (s : State) o (a : Access),
    let r := (s.makeAccess o a).1
    let t := (s.makeAccess o a).2
    let core := s.liveCore o
    -- a byte that the operation's accesses made so far, this one among them, write at a place
    let wrote (l : Loc) : Prop := ∃ x, (x = a ∨ x ∈ o.accs ∧ x.done = true) ∧ ∃ k b, x.hands k b ∧ x.loc.add k = l
    -- nothing of a sector is gathered in the operation's core, and no store marks it
    let clear (key : Nat) : Prop := FMap.get? s.filter key = none ∧ ∀ c, core = some c → ∀ l ∈ (s.core c).gather, l.key ≠ key
    (∀ d n x v b tm ofs, o.kind = .load d n x v b false → a.loc = .scratch tm ofs →
      (o.early = none ∨ (FMap.get? s.gangs o.gang).map (·.team) ≠ some tm) → t = s ∧
      r = { a with done := true, bad := s.isPoisoned a.loc a.size
                   data := (List.range a.size).map fun k => some (s.scratchByte tm (ofs + k)) }) ∧
    (∀ d n x v b tm ofs m y, o.kind = .load d n x v b false → a.loc = .scratch tm ofs → o.early = some m →
      (FMap.get? s.gangs o.gang).map (·.team) = some tm → FMap.get? s.teams tm = some y → ofs % 8 + a.size ≤ 16 →
      t = { s with fresh := t.fresh } ∧ r.done = true ∧ ∃ w : Nat → DWord,
        (∀ u, w u = y.unit8 u ∨ (u, w u) ∈ y.past.take (y.past.length - m)) ∧
        r.data = (List.range a.size).map fun k => some ((w ((ofs + k) / 8)).extractLsb' (8 * ((ofs + k) % 8)) 8)) ∧
    (∀ pa, a.loc = .lost pa → ((∃ d n x v b rsv, o.kind = .load d n x v b rsv) ∨ (∃ op d, o.kind = .atomic op d) ∨
      (∃ d, o.kind = .stc d) ∨ o.kind = .store) →
      r.done = true ∧ r.bad = true ∧ t.mem = s.mem ∧ t.teams = s.teams) ∧
    (∀ d n x b h pa, o.kind = .load d n x false b false → a.loc = .mem h pa → a.sc = .core →
      t = s ∧ r.done = true ∧
      r.data = (List.range a.size).map fun k => some (s.byByte (if a.remote then none else core) h (pa + k))) ∧
    (∀ d n x b h pa, o.kind = .load d n x true b false → a.loc = .mem h pa →
      (∀ c ∈ s.history, c.key ≠ memKey h pa / 8) → pa % 8 + a.size ≤ 8 →
      t = s ∧ r.data = (List.range a.size).map fun k => some (Memory.read s.mem (memKey h (pa + k)))) ∧
    (∀ c h pa, core = some c → (∀ l ∈ (s.core c).gather, l.key ≠ memKey h pa / 64) →
      s.byByte core h pa = Memory.read s.mem (memKey h pa)) ∧
    (∀ d n h pa, o.kind = .load d n false false false true → a.loc = .mem h pa → s.isPoisoned a.loc a.size = false →
      clear (memKey h pa / 64) → pa % 64 + a.size ≤ 64 →
      t = { s with
        gangs := FMap.adjust s.gangs o.gang fun g =>
          { g with rsv := g.rsv.set (a.lane % 64) (some (memKey h pa / 64)) (Nat.mod_lt _ (by decide)) }
        holds := FMap.set s.holds (memKey h pa / 64)
          ⟨o.gang, a.lane, s.now + 256 * 75⟩ } ∧
      r.data = (List.range a.size).map fun k => some (Memory.read s.mem (memKey h (pa + k)))) ∧
    (∀ tm ofs x, o.kind = .store → a.loc = .scratch tm ofs → FMap.get? s.teams tm = some x → Memory.wf x.mem = true →
      (∃ k b, a.hands k b) → r = { a with done := true } ∧
      ∃ m p y, t = { s with teams := t.teams, poison := t.poison } ∧ (∀ q ∈ t.poison, q ∈ s.poison) ∧
        FMap.get? t.teams tm = some { x with mem := m, poison := p, past := y ++ x.past } ∧
        noPoison t.teams = noPoison (FMap.set s.teams tm { x with mem := m, past := y ++ x.past }) ∧
        (∀ c ∈ y, c.2 = x.unit8 c.1) ∧ (∀ k b, a.hands k b → ∃ c ∈ y, c.1 = (ofs + k) / 8) ∧ (∀ q ∈ p, q ∈ x.poison) ∧
        (∀ q, (∀ j < 64, wrote (.scratch tm (64 * q + j))) → q ∉ p) ∧ Stored a (ofs + ·) x.mem m) ∧
    (∀ h pa c, o.kind = .store → a.loc = .mem h pa → a.sc = .core → core = some c → pa % 64 + a.data.length ≤ 64 →
      (∃ k b, a.hands k b) → ((s.core c).gather.length < 32 ∨ ∃ l ∈ (s.core c).gather, l.key = memKey h pa / 64) →
      r = { a with done := true } ∧ t.mem = s.mem ∧ t.teams = s.teams ∧ noRsv t.gangs = noRsv s.gangs ∧
      (∀ k b, a.hands k b → t.byByte core h (pa + k) = b) ∧
      ∀ h' q, (∀ k b, a.hands k b → memKey h' q ≠ memKey h (pa + k)) → t.byByte core h' q = s.byByte core h' q) ∧
    (∀ h pa, o.kind = .store → a.loc = .mem h pa → (a.sc ≠ .core ∨ core = none) → clear (memKey h pa / 64) →
      pa % 64 + a.data.length ≤ 64 → Memory.wf s.mem = true →
      r = { a with done := true } ∧ noPoison t.teams = noPoison s.teams ∧ noRsv t.gangs = noRsv s.gangs ∧
      (∀ q ∈ t.poison, q ∈ s.poison) ∧
      (∀ q, (∀ j < 64, ∃ d x, wrote (.mem d x) ∧ memKey d x = 64 * q + j) → q ∉ t.poison) ∧
      Stored a (fun k => memKey h (pa + k)) s.mem t.mem) ∧
    (∀ op d h pa, o.kind = .atomic op d → a.loc = .mem h pa → s.isPoisoned a.loc a.size = false →
      clear (memKey h pa / 64) → pa % 64 + a.size ≤ 64 → (a.size = 4 ∨ a.size = 8 ∧ op ≠ .fadd) → Memory.wf s.mem = true →
      let w := 8 * a.size
      let arg (k : Nat) : BitVec w := BitVec.ofNat w (leNat ((a.data.drop (k * a.size)).take a.size |>.map fun b => b.getD 0))
      let old := Memory.readN s.mem (memKey h pa) a.size
      let new := leBytes a.size (atomicValue op (BitVec.ofNat w (leNat old)) (arg 0) (arg 1)).toNat
      t.teams = s.teams ∧ noRsv t.gangs = noRsv s.gangs ∧ r.data = old.map some ∧ r.done = true ∧
      Stored { a with data := new.map some } (fun k => memKey h (pa + k)) s.mem t.mem) ∧
    (∀ h pa c n, a.loc = .mem h pa → FMap.get? s.filter (memKey h pa / 64) = some [⟨c, n⟩] →
      pa % 64 + a.size ≤ 64 → Memory.wf s.mem = true → ((s.core c).gather.map GLine.key).Nodup →
      (∀ l ∈ (s.core c).gather, l.key ≠ memKey h pa / 64 → s.markOf c l.key = none) →
      -- what another core wrote up to its mark of the sector reaches its home first
      let first (m : Memory) : Prop :=
        (∀ l ∈ (s.core c).gather, l.order ≤ n → ∀ k < 64, ∀ b, LaneVec.at' l.bytes k = some b →
          Memory.read m (64 * l.key + k) = b) ∧
        ∀ q, (∀ l ∈ (s.core c).gather, l.order ≤ n → ∀ k < 64, LaneVec.at' l.bytes k ≠ none → q ≠ 64 * l.key + k) →
          Memory.read m q = Memory.read s.mem q
      let apart (x : Option Nat) : Prop := x ≠ some c ∧ ∀ c', x = some c' → ∀ l ∈ (s.core c').gather, l.key ≠ memKey h pa / 64
      (∀ d sz x once rsv, o.kind = .load d sz x false once rsv → (rsv = true ∨ a.sc = .device ∨ a.sc = .system) →
        apart (if a.remote then none else core) → first t.mem ∧
        (t.core c).gather = (s.core c).gather.filter (fun l => decide (n < l.order)) ∧
        r.data = (List.range a.size).map fun k => some (Memory.read t.mem (memKey h (pa + k)))) ∧
      ∀ op d, o.kind = .atomic op d → s.isPoisoned a.loc a.size = false → (a.size = 4 ∨ a.size = 8 ∧ op ≠ .fadd) →
        apart core → ∃ m, first m ∧
          (t.core c).gather = (s.core c).gather.filter (fun l => decide (n < l.order)) ∧
          r.data = (Memory.readN m (memKey h pa) a.size).map some ∧
          let w := 8 * a.size
          let arg (k : Nat) : BitVec w := BitVec.ofNat w (leNat ((a.data.drop (k * a.size)).take a.size |>.map fun b => b.getD 0))
          let new := leBytes a.size
            (atomicValue op (BitVec.ofNat w (leNat (Memory.readN m (memKey h pa) a.size))) (arg 0) (arg 1)).toNat
          Stored { a with data := new.map some } (fun k => memKey h (pa + k)) m t.mem) ∧
    ∀ d h pa g, o.kind = .stc d → a.loc = .mem h pa → FMap.get? s.gangs o.gang = some g →
      (g.rsvOf a.lane ≠ some (memKey h pa / 64) → r.data = (leBytes a.size 1).map some ∧ t.mem = s.mem ∧
        t = s.setGang o.gang { g with rsv := g.rsv.set (a.lane % 64) none (Nat.mod_lt _ (by decide)) }) ∧
      (g.rsvOf a.lane = some (memKey h pa / 64) → clear (memKey h pa / 64) → pa % 64 + a.data.length ≤ 64 →
        Memory.wf s.mem = true → r.data = (leBytes a.size 0).map some ∧ t.teams = s.teams ∧
        Stored { a with data := a.data.map fun b => some (b.getD 0) } (fun k => memKey h (pa + k)) s.mem t.mem ∧
        ∀ g', FMap.get? t.gangs o.gang = some g' → g'.rsvOf a.lane = none)

/-- R97, R107, R111, R115, R116: when every access of an operation is made, its last parts complete, unless its context has
halted: a load writes D
extended by its type, an atomic the value that stood in memory, a store-conditional its status, `trec` the record where it
is legal; the operation leaves its streams, its marks and window go, and a unit it stopped goes on. -/
def Obligations.OperationsComplete : Prop :=
  (∀ (s : State) id o g grp, Op.plain s id o g → o.only grp true → (∀ a ∈ o.accs, a.done = true ∧ a.bad = false) →
    s.opFrozen o = false →
    let bytes (l : Nat) : Nat := leNat ((o.accs.filter fun a => a.lane == l).flatMap fun a => a.data.map fun b => b.getD 0)
    let first := (o.accs.map (·.lane)).headD 0
    let done (e : Effect) : Prop := ∃ t, exec (.operationComplete id grp 0) s = .next t ∧ OpCompleted s t id o g e
    (∀ d n ro once rsv, o.kind = .load d n false ro once rsv →
      done { mask := o.lanes, regs := wide d (max 1 (n / 4)) fun l => bytes (if once then first else l) }) ∧
    (∀ d n ro once rsv, (n = 1 ∨ n = 2) → o.kind = .load d n true ro once rsv → (∀ l, bytes l < 2 ^ (8 * n)) →
      done { mask := o.lanes, regs := [(d, fun l =>
        (BitVec.ofNat (8 * n) (bytes (if once then first else l))).signExtend 32)] }) ∧
    (o.kind = .store → done { mask := 0 }) ∧
    (∀ op d, o.kind = .atomic op d → done { mask := o.lanes, regs := wide d (max 1 (((o.accs.map (·.size)).headD 4) / 4)) bytes }) ∧
    (∀ d, o.kind = .stc d → done { mask := o.lanes, regs := wide d (max 1 (((o.accs.map (·.size)).headD 4) / 4)) bytes }) ∧
    ∀ n, o.kind = .trec n → o.accs ≠ [] →
      let v := BitVec.ofNat 256 (bytes first)
      (v.extractLsb' 234 22 = 0 → v.extractLsb' 104 24 = 0 → (v.extractLsb' 192 8).toNat < 5 →
        ∃ t, exec (.operationComplete id grp 0) s = .next t ∧
          t = { s with ops := FMap.erase s.ops id, gangs := t.gangs, regPoison := t.regPoison } ∧
          t.gangs = FMap.set s.gangs o.gang { g.opOver id with tile := g.tile.set n.toNat v n.isLt })) ∧
  ∀ (s : State) id o grp, FMap.get? s.ops id = some o → (∃ a ∈ o.accs, o.accIn grp a = true ∧ a.done = false) →
    (∀ k b d v, o.kind ≠ .bar k b d v) → exec (.operationComplete id grp 0) s = .next s

/-- R18, R122 to R126: named barriers. A clock's arrivals and expectations add up; when the arrivals reach an expected count
of at least 1 the phase turns, and the next count begins from its base, what was set aside for it and what was posted in
the clock; a count that would exceed 65,535 is held there and `OVR` is set, as it is by surplus arrivals. `bar.ini` starts
a barrier afresh in its phase. `bar.arv` and `bar.exp` perform at once; `bar.awt` and `bar.wt` stay outstanding till the
awaited phase is over, unless the context has halted (R344). The model's choices: a wait completes from the clock after
the one in which its phase completes (log entry 13), and `bar.tst` reads the counts at the start of the clock (log entry
15). -/
def Obligations.BarrierOperations : Prop :=
  (∀ (b : BarCounts) us, (∀ u ∈ us, ∀ g c, u ≠ .ini g c) →
    let a := b.arr + (us.map fun u => match u with
      | .arrive n _ => n
      | _ => 0).sum
    let e := b.exp + (us.map fun u => match u with
      | .arrive _ k => k
      | _ => 0).sum
    let x := (us.map fun u => match u with
      | .expect n false => n
      | _ => 0).sum
    let y := (us.map fun u => match u with
      | .expect n true => n
      | _ => 0).sum
    let held (n : Nat) : Nat := min n 65535
    (held e = 0 ∨ held a < held e → b.clock us = { b with
      arr := held a, exp := held (held e + x), nxt := held (b.nxt + y)
      ovr := b.ovr || decide (65535 < a ∨ 65535 < e + x ∨ 65535 < b.nxt + y) }) ∧
    (1 ≤ held e → held e ≤ held a → b.clock us = { b with
      arr := 0, exp := held (b.base + b.nxt + x), nxt := held y, ph := (b.ph + 1) % 65536
      ovr := b.ovr || decide (held e < held a ∨ 65535 < a ∨ 65535 < e ∨ 65535 < b.base + b.nxt + x ∨ 65535 < y) })) ∧
  (∀ (b : BarCounts) slot n, n ≤ 65535 → b.clock [.ini slot n] = { base := n, exp := n, arr := 0, nxt := 0, ph := b.ph, ovr := false }) ∧
  ∀ (s : State) id o g grp tm kind bar d val, Op.plain s id o g → FMap.sorted s.ops = true → (∀ a ∈ o.accs, a.bad = false) →
    FMap.get? s.teams g.team = some tm → o.kind = .bar kind bar d val → o.lanes ≠ 0 →
    let b := FMap.getD tm.bars bar {}
    let clk := s.clock tm.core
    let start := if b.clk = clk then b.start else b.now
    let after (u : BarUpd) : State :=
      let us := (if b.clk = clk then b.upds else []) ++ [u]
      s.setTeam g.team { tm with bars := FMap.set tm.bars bar ⟨start.clock us, clk, start, us⟩ }
    let n := (lanesOf o.lanes).length
    (o.only grp false → s.mayPerform id o grp = true →
      let ends (s' : State) (e : Effect) : Prop := ∃ t, exec (.operationPerform id grp) s = .next t ∧ OpCompleted s' t id o g e
      (kind = .ini → ends (after (.ini (s.opSlot o) val)) { mask := 0 }) ∧
      (∀ nxt, kind = .exp nxt → ends (after (.expect val nxt)) { mask := 0 }) ∧
      (kind = .arv → ends (after (.arrive n val)) { mask := o.lanes, regs := [(d, fun _ => BitVec.ofNat 32 start.ph)] }) ∧
      (kind = .tst → ends s { mask := o.lanes, regs := wide d 4 fun _ => start.arr + 2 ^ 16 * start.exp + 2 ^ 32 * start.ph +
        2 ^ 48 * start.nxt + 2 ^ 64 * start.base + if start.ovr then 2 ^ 80 else 0 }) ∧
      (kind = .awt → exec (.operationPerform id grp) s = .next ((after (.arrive n val)).setOp id { o with
        parts := o.parts.map fun p => { p with performed := true, moment := 0, order := 0 }, tok := start.ph, at_ := clk })) ∧
      (kind = .wt → start.ph = val % 65536 → exec (.operationPerform id grp) s = .next (s.setOp id { o with
        parts := o.parts.map fun p => { p with performed := true, moment := 0, order := 0 }, tok := val % 65536, at_ := clk })) ∧
      (kind = .wt → start.ph ≠ val % 65536 → ends s { mask := 0 })) ∧
    (o.only grp true → (kind = .awt ∨ kind = .wt) → ∀ w,
      (s.opFrozen o = true → exec (.operationComplete id grp w) s = .next s) ∧
      (clk ≤ o.at_ ∨ start.ph = o.tok → exec (.operationComplete id grp w) s = .next s) ∧
      (s.opFrozen o = false → o.at_ < clk → start.ph ≠ o.tok → ∃ t, exec (.operationComplete id grp w) s = .next t ∧ OpCompleted s t id o g
        (if kind = .awt then { mask := o.lanes, regs := [(d, fun _ => BitVec.ofNat 32 o.tok)] } else { mask := 0 })))

/-- R83, R100, R118 to R121: full/empty lines. `fes` and `fec` set and clear the lines their lanes name, `fet` tests them
as they stood when the clock began; `ldk` waits till its lines are full, takes their bytes and empties them, `stf` till
they are empty, stores and fills them; claims are served as their core's clock ends, when every claim of the clock is there
(log entry 61, with 17 for the states at its start), and none in a halted context (R344). A hold on a granule ends after its 256 clocks; a gathered line may be written to
its home at any moment, and is after 8,192 clocks. -/
def Obligations.LinesHoldsAndGatherBuffer : Prop :=
  (∀ (s : State) id o g grp, Op.plain s id o g → FMap.sorted s.ops = true →
    (∀ a ∈ o.accs, a.bad = false ∧ o.accIn grp a = true ∧ ∃ tm ofs x, a.loc = .scratch tm ofs ∧ FMap.get? s.teams tm = some x ∧ x.life ≠ .moving) →
    let names (a : Access) (tm n : Nat) : Prop := ∃ ofs, a.loc = .scratch tm ofs ∧ ofs / 128 = n
    let turned (t : State) (full : Bool) : Prop := ∀ tm n,
      ((∃ a ∈ o.accs, names a tm n) → (t.lineOf tm n).full = full) ∧
      ((∀ a ∈ o.accs, ¬names a tm n) → t.lineOf tm n = s.lineOf tm n)
    let held (l : Nat) : Nat := leNat ((o.accs.filter fun a => a.lane == l).flatMap fun a => match a.loc with
      | .scratch tm ofs => (List.range a.size).map fun k => s.scratchByte tm (ofs + k)
      | _ => [])
    let began (tm n : Nat) : Bool × Nat := let l := s.lineOf tm n
      if l.clk = s.teamClock tm then (l.sfull, l.spend) else (l.full, l.pend)
    (o.only grp false → s.mayPerform id o grp = true →
      (o.kind = .fes → ∃ t, exec (.operationPerform id grp) s = .next t ∧
        OpCompleted { s with teams := t.teams } t id o g { mask := 0 } ∧ turned t true) ∧
      (o.kind = .fec → ∃ t, exec (.operationPerform id grp) s = .next t ∧
        OpCompleted { s with teams := t.teams } t id o g { mask := 0 } ∧ turned t false) ∧
      ∀ pd, o.kind = .fet pd → (∀ l, ∀ a ∈ o.accs, ∀ b ∈ o.accs, a.lane = l → b.lane = l → a = b) →
        ∃ t p, exec (.operationPerform id grp) s = .next t ∧
          OpCompleted s t id o g { mask := o.lanes, preds := [(pd, p)] } ∧
          ∀ a ∈ o.accs, ∀ tm n, names a tm n → p a.lane = (began tm n).1) ∧
    (o.only grp true →
      let ends : Prop := (s.now + 1) % (match coreKind (s.opCore o) with
        | .banner => 75
        | .pennant => 30) = 0
      (s.opFrozen o = true ∨ ¬ends → exec (.lineClaim id) s = .next s) ∧
      (∀ d, o.kind = .ldk d → s.opFrozen o = false → ends → s.claimServed id o = true →
        (∀ a ∈ o.accs, s.isPoisoned a.loc a.size = false) →
        ∃ t, exec (.lineClaim id) s = .next t ∧ turned t false ∧
        OpCompleted { s with teams := t.teams } t id o g { mask := o.lanes, regs := wide d 4 held }) ∧
      (∀ a tm ofs x, o.kind = .stf → s.opFrozen o = false → ends →
        s.claimServed id o = true → o.accs = [a] → a.loc = .scratch tm ofs →
        FMap.get? s.teams tm = some x → Memory.wf x.mem = true → ofs % 128 + a.data.length ≤ 128 →
        ∃ t m, exec (.lineClaim id) s = .next t ∧ OpCompleted { s with teams := t.teams } t id o g { mask := 0 } ∧
          turned t true ∧ Stored a (ofs + ·) x.mem m ∧ (FMap.get? t.teams tm).map (·.mem) = some m) ∧
      ((∃ d, o.kind = .ldk d) → (∃ a ∈ o.accs, ∃ tm n, names a tm n ∧ (began tm n).1 = false) →
        exec (.lineClaim id) s = .next s) ∧
      (o.kind = .stf → (∃ a ∈ o.accs, ∃ tm n, names a tm n ∧ ((began tm n).1 = true ∨ 0 < (began tm n).2)) →
        exec (.lineClaim id) s = .next s))) ∧
  (∀ (s : State) k h, FMap.get? s.holds k = some h →
    (h.till ≤ s.now → exec (.reservationHoldExpiry k) s = .next { s with holds := FMap.erase s.holds k }) ∧
    (s.now < h.till → exec (.reservationHoldExpiry k) s = .next s)) ∧
  ∀ (s : State) c l, (s.core c).gather.filter (fun x => x.key == l.key) = [l] → Memory.wf s.mem = true →
    let left (i : Instr) : Prop := ∃ t, exec i s = .next t ∧ noRsv t.gangs = noRsv s.gangs ∧ t.teams = s.teams ∧
      (∀ x ∈ (t.core c).gather, x ∈ (s.core c).gather ∧ x.key ≠ l.key) ∧
      (∀ k < 64, Memory.read t.mem (64 * l.key + k) = (LaneVec.at' l.bytes k).getD (Memory.read s.mem (64 * l.key + k))) ∧
      (s.markOf c l.key = none → (t.core c).gather = (s.core c).gather.filter (fun x => x.key != l.key) ∧
        ∀ q, q / 64 ≠ l.key → Memory.read t.mem q = Memory.read s.mem q) ∧
      ∀ m, s.markOf c l.key = some m → ∀ x ∈ (t.core c).gather, m.order < x.order
    left (.gatherLineWriteback c l.key) ∧
    (l.alloc + 8192 * 75 ≤ s.now → left (.gatherLineTimeout c l.key)) ∧
    (s.now < l.alloc + 8192 * 75 → exec (.gatherLineTimeout c l.key) s = .next s)

/-- R212 to R216, R217 to R220, R379: copies. The oldest request for leave of a die whose context has not halted is granted, and its unit goes on to
its word, the clocks of its wait noted (R231). A group of a `cp` performs as its counts rise, and waits where a count would pass 1,023; a `cpm` performs as its
source lines enter the copy engine, one copy of each for each rank of its mask. A transfer unit lands as one piece: the bytes of its source that no higher lane writes, its lines' counts fall,
and a count that reaches 0 fills its line; a global side is translated as it lands. A multicast claims every receiver's lines in one clock, and each lands as a
whole; with the last unit or line the operation is complete. -/
def Obligations.Copies : Prop :=
  (∀ (s : State) d before r rest f, (s.die d).leave = before ++ r :: rest → (∀ x ∈ before, s.gangFrozen x.gang = true) →
    s.gangFrozen r.gang = false → s.frameOf r.gang r.unit = some f → r.troupe = false → f.u.stop = .leave →
    exec (.leaveGrant d) s = .next ((s.setDie d { s.die d with leave := before ++ rest }).put
      { f with u := { f.u with leave := true, stop := .run, leaveWait := (s.now - r.since) / 75 } })) ∧
  (∀ (s : State) d, (∀ x ∈ (s.die d).leave, s.gangFrozen x.gang = true) → exec (.leaveGrant d) s = .next s) ∧
  (∀ (s : State) id o grp dir fill u tm n c x, FMap.get? s.ops id = some o → o.kind = .cp dir fill →
    o.unitsOf grp = [u] → u.done = false → u.fills = [(tm, n, c)] → FMap.get? s.teams tm = some x →
    (∃ p ∈ o.parts, p.grp = grp ∧ p.performed = false) → s.mayPerform id o grp = true →
    let l := s.lineOf tm n
    (x.life ≠ .moving → l.pend + c ≤ 1023 → ∃ t, exec (.operationPerform id grp) s = .next t ∧
      t = { s with
        teams := t.teams
        ops := FMap.set s.ops id { o with
          parts := o.parts.map fun p => if p.grp = grp then { p with performed := true, moment := 0, order := 0 } else p } } ∧
      (t.lineOf tm n).pend = l.pend + c ∧ (t.lineOf tm n).full = l.full ∧
      (∀ a q, t.scratchByte a q = s.scratchByte a q) ∧
      ∀ a m, (a, m) ≠ (tm, n) → t.lineOf a m = s.lineOf a m) ∧
    (x.life = .moving ∨ 1023 < l.pend + c → exec (.operationPerform id grp) s = .next s)) ∧
  (∀ (s : State) id o grp dir fill g, Op.plain s id o g → FMap.sorted s.ops = true → o.kind = .cp dir fill → o.units = [] →
    (∀ q ∈ o.accs, q.bad = false) → o.only grp false → s.mayPerform id o grp = true →
    ∃ t, exec (.operationPerform id grp) s = .next t ∧ OpCompleted s t id o g { mask := 0 }) ∧
  (∀ (s : State) id o grp dst n ranks a x va ta, FMap.get? s.ops id = some o → o.kind = .cpm dst (.scratch a x va) n ranks →
    o.lanes ≠ 0 → 1 ≤ n → FMap.get? s.teams a = some ta → ta.life ≠ .moving →
    (∀ j < n, s.isPoisoned (.scratch a (x + 128 * j)) 128 = false) →
    (∃ p ∈ o.parts, p.performed = false) → s.mayPerform id o grp = true →
    ∃ buf pending, exec (.operationPerform id grp) s = .next (s.setOp id { o with
        parts := o.parts.map fun p => { p with performed := true, moment := 0, order := 0 }
        buf := buf, pending := pending, at_ := s.now }) ∧
      buf.length = 128 * n ∧ (∀ k < 128 * n, buf[k]? = some (s.scratchByte a (x + k))) ∧
      pending.Nodup ∧ ∀ r j, (r, j) ∈ pending ↔ r < 12 ∧ ranks / 2 ^ r % 2 = 1 ∧ j < n) ∧
  (∀ (s : State) id o k u r a x va b y vb n c ta tb, FMap.get? s.ops id = some o → o.units[k]? = some u → u.done = false →
    (∃ p ∈ o.parts, p.grp = u.grp ∧ p.performed = true) → u.reqs = [r] → r.src = .scratch a x va → r.dst = .scratch b y vb →
    FMap.get? s.teams a = some ta → FMap.get? s.teams b = some tb → ta.life ≠ .moving → tb.life ≠ .moving →
    s.isPoisoned (.scratch a x) r.size = false → Memory.wf tb.mem = true → u.fills = [(b, n, c)] →
    ∃ t, exec (.transferUnitLand id k) s = .next t ∧
      (∀ cr, t.core cr = { s.core cr with ctr := (t.core cr).ctr }) ∧
      ((∃ j v, j ≠ k ∧ o.units[j]? = some v ∧ v.done = false) → t = { s with
        teams := t.teams, cores := t.cores
        ops := FMap.set s.ops id { o with units := o.units.set k { u with done := true }, tag := min 63 r.lane } }) ∧
      ((∀ j v, j ≠ k → o.units[j]? = some v → v.done = true) → (∀ p ∈ o.parts, p.performed = true) →
        (∀ q ∈ o.accs, q.bad = false) → (∃ dir fill, o.kind = .cp dir fill) → ∀ g, Op.plain s id o g →
        FMap.sorted s.ops = true → OpCompleted { s with teams := t.teams, cores := t.cores } t id o g { mask := 0 }) ∧
      (∀ j < r.size, r.own[j]? = some true → t.scratchByte b (y + j) = s.scratchByte a (x + j)) ∧
      (∀ tm q, (tm = b → ∀ j < r.size, r.own[j]? = some true → q ≠ y + j) → t.scratchByte tm q = s.scratchByte tm q) ∧
      (let l := s.lineOf b n
       (t.lineOf b n).pend = l.pend - c ∧ (t.lineOf b n).full = (l.full || decide (l.pend ≤ c))) ∧
      ∀ tm m, (tm, m) ≠ (b, n) → t.lineOf tm m = s.lineOf tm m) ∧
  (∀ (s : State) id o k u r g va h pa e bits, FMap.get? s.ops id = some o → o.units[k]? = some u → u.done = false →
    (∃ p ∈ o.parts, p.grp = u.grp ∧ p.performed = true) → u.reqs = [r] → u.fills = [] → FMap.get? s.gangs o.gang = some g →
    (∃ j v, j ≠ k ∧ o.units[j]? = some v ∧ v.done = false) →
    s.translate (s.opCore o) (s.ctxOf g) va = (.leaf e bits, s) → s.leafLoc e bits va = .mem h pa → pa % 64 + r.size ≤ 64 →
    FMap.get? s.filter (memKey h pa / 64) = none → (∀ l ∈ (s.core (s.opCore o)).gather, l.key ≠ memKey h pa / 64) →
    let landed : FMap Op := FMap.set s.ops id { o with units := o.units.set k { u with done := true }, tag := min 63 r.lane }
    (∀ b y vb tb, r.src = .virt va → r.dst = .scratch b y vb → FMap.get? s.teams b = some tb → tb.life ≠ .moving →
      Memory.wf tb.mem = true → s.isPoisoned (.mem h pa) r.size = false →
      ∃ t, exec (.transferUnitLand id k) s = .next t ∧ t = { s with teams := t.teams, cores := t.cores, ops := landed } ∧
        (∀ j < r.size, r.own[j]? = some true → t.scratchByte b (y + j) = Memory.read s.mem (memKey h (pa + j))) ∧
        ∀ tm q, (tm = b → ∀ j < r.size, r.own[j]? = some true → q ≠ y + j) → t.scratchByte tm q = s.scratchByte tm q) ∧
    ∀ a x vb ta, r.src = .scratch a x vb → r.dst = .virt va → e / 4 % 2 = 1 → FMap.get? s.teams a = some ta →
      ta.life ≠ .moving → s.isPoisoned (.scratch a x) r.size = false → Memory.wf s.mem = true →
      ∃ t, exec (.transferUnitLand id k) s = .next t ∧ t.ops = landed ∧ t.teams = s.teams ∧ noRsv t.gangs = noRsv s.gangs ∧
        (∀ j < r.size, r.own[j]? = some true → Memory.read t.mem (memKey h (pa + j)) = s.scratchByte a (x + j)) ∧
        ∀ q, (∀ j < r.size, r.own[j]? = some true → q ≠ memKey h (pa + j)) → Memory.read t.mem q = Memory.read s.mem q) ∧
  (∀ (s : State) id o dst src n ranks, FMap.get? s.ops id = some o → o.kind = .cpm dst src n ranks →
    s.cpmClaimable o = true → (∀ x ∈ s.ops, x.1 ≠ id → ∀ ds sr m rk, x.2.kind ≠ .cpm ds sr m rk) →
    (∀ l ∈ s.cpmLines o o.pending, (FMap.get? s.teams l.1).isSome = true) →
    ∃ t, exec (.multicastClaim id) s = .next t ∧
      t = { s with teams := t.teams, ops := FMap.set s.ops id { o with claimed := true } } ∧
      (∀ tm q, t.scratchByte tm q = s.scratchByte tm q) ∧
      ∀ l, ((t.lineOf l.1 l.2).full = (s.lineOf l.1 l.2).full) ∧
        (t.lineOf l.1 l.2).pend = if l ∈ s.cpmLines o o.pending then 32 else (s.lineOf l.1 l.2).pend) ∧
  ∀ (s : State) id o rank line tm n x, FMap.get? s.ops id = some o → o.claimed = true → (rank, line) ∈ o.pending →
    s.cpmLines o [(rank, line)] = [(tm, n)] → FMap.get? s.teams tm = some x → Memory.wf x.mem = true →
    128 * line + 128 ≤ o.buf.length →
    ∃ t, exec (.multicastLineLand id rank line) s = .next t ∧
      ((∃ p ∈ o.pending, p ≠ (rank, line)) → t = { s with
        teams := t.teams
        ops := FMap.set s.ops id { o with pending := o.pending.filter fun p => p != (rank, line), tag := rank } }) ∧
      (o.pending = [(rank, line)] → (∀ q ∈ o.accs, q.bad = false) → (∃ dst src n ranks, o.kind = .cpm dst src n ranks) →
        ∀ g, Op.plain s id o g → FMap.sorted s.ops = true → OpCompleted { s with teams := t.teams } t id o g { mask := 0 }) ∧
      (∀ k < 128, some (t.scratchByte tm (128 * n + k)) = o.buf[128 * line + k]?) ∧
      (∀ tm' q, (tm', q / 128) ≠ (tm, n) → t.scratchByte tm' q = s.scratchByte tm' q) ∧
      (t.lineOf tm n).full = true ∧ (t.lineOf tm n).pend = 0 ∧
      ∀ l, l ≠ (tm, n) → t.lineOf l.1 l.2 = s.lineOf l.1 l.2

/-! ### Engines -/

/-- R222 to R230, R232, R380: a collective engine. It takes the next command of the context whose firmware it holds and
begins at the command's entry with its arguments in x10..x13, the index in x14 and x2 at the top of its memory; it changes
context by setting local memory aside. A write of `XGO` starts a transfer; an element lands as one read-modify-write at
the home, and `copy` reads its source alone; a bad length, a fault or a lost link drops the transfer and names the first
failure in `XERR`. The command is complete when `DONE` is written and its transfers have landed; a firmware fault ends it
with cause 0x16, and leaves the fault that the gang's frame describes (R334), with the stream, mask and scope of the
command's operation in it (R232; log entry 129). A ninth bad flit takes a link down. The
model's choices: a bad `XLEN` has cause 0x12 (log entry 20), what firmware does are steps of the machine (log entry 21), the
places of a record's fields (log entry 26), zeros beside a loaded image (log entry 108), the entry table of the command's
own object (log entry 110). -/
def Obligations.CollectiveEngines : Prop :=
  (∀ (s : State) d n cmd rest w a0 a1 a2 a3, let e := s.engine d n
    e.running = none → e.up = true → e.ctx = some cmd.ctx → e.streak < 16 → e.queue = cmd :: rest →
    s.firmwareOf cmd = some w → cmd.idx < w.ncmd → cmd.args = [a0, a1, a2, a3] →
    ∃ regs, exec (.commandStart d n) s = .next (s.setEngine d n { e with
      queue := rest, running := some { cmd with started := s.now / 47 }, streak := e.streak + 1
      fw := { regs := regs, mem := if cmd.ctx ∈ e.reload then Memory.writeN [] w.load w.image else e.fw.mem }
      pc := leNat ((w.image.drop (w.etab + 8 * cmd.idx)).take 4), cmd := cmd.idx, args := cmd.args
      issuer := cmd.issuer + 2 ^ 32 * cmd.lseq, done := none, reload := e.reload.filter fun c => c != cmd.ctx }) ∧
      ∀ r, FMap.get? regs r = if r = 2 then some 0x40000 else if r = 10 then some a0 else if r = 11 then some a1
        else if r = 12 then some a2 else if r = 13 then some a3 else if r = 14 then some cmd.idx
        else FMap.get? e.fw.regs r) ∧
  (∀ (s : State) d n cmd c x, let e := s.engine d n
    e.running = none → e.up = true → e.ctx = some c → (∀ q ∈ e.queue, q.ctx ≠ c) → e.queue = cmd :: x →
    ∃ fw, exec (.firmwareContextSwitch d n) s = .next (s.setEngine d n { e with
        ctx := some cmd.ctx, streak := 0, saved := FMap.set e.saved c e.fw, fw := fw }) ∧
      (∀ f, FMap.get? e.saved cmd.ctx = some f → fw = f) ∧
      (FMap.get? e.saved cmd.ctx = none → ∀ f, s.firmwareOf cmd = some f →
        fw = { regs := [], mem := Memory.writeN [] f.load f.image })) ∧
  (∀ (s : State) d n i op, let e := s.engine d n
    (i, op) ∈ [(Instr.xgoCopy d n, XgoOp.copy), (.xgoAddF32 d n, .addF32), (.xgoAddBf16x2 d n, .addBf16x2),
      (.xgoAddI32 d n, .addI32), (.xgoMaxF32 d n, .maxF32), (.xgoMinF32 d n, .minF32)] →
    (∀ c, e.running = some c → e.done = none → e.inflight.length < 64 →
      let tag := (e.xtag + 1) % 65536
      exec i s = .next (s.setEngine d n { e with
        xtag := tag, inflight := e.inflight ++ [⟨c.ctx, c.op, tag, op, e.xsrc, e.xdst, e.xlen, e.xlnk, []⟩] })) ∧
    (64 ≤ e.inflight.length → exec i s = .next s)) ∧
  (∀ (s : State) d n tag k t h pa h' pa', let e := s.engine d n
    e.inflight = [t] → t.tag = tag →
    let dropped (cause : Nat) : Prop := exec (.collectiveTransferLand d n tag k) s = .next (s.setEngine d n { e with
      inflight := [], xerr := if e.xerr = 0 then 2 ^ 63 + 2 ^ 16 * cause + tag else e.xerr })
    let whole : Prop := t.len % 4 = 0 ∧ 4 ≤ t.len ∧ t.len ≤ 2 ^ 24
    (¬whole → dropped 0x12) ∧ (whole → s.linkDown t = true → dropped 0x14) ∧
    (whole → s.linkDown t = false → k < t.len / 4 → t.done.contains k = false →
      (s.xLoc t.ctx (t.src + 4 * k) false = .inr (some .protection) → dropped 0x07) ∧
      (s.xLoc t.ctx (t.src + 4 * k) false = .inl (.mem h pa) → s.xLoc t.ctx (t.dst + 4 * k) true = .inl (.mem h' pa') →
        s.isPoisoned (.mem h pa) 4 = false → FMap.get? s.filter (memKey h pa / 64) = none →
        (t.op ≠ .copy → s.isPoisoned (.mem h' pa') 4 = false ∧ FMap.get? s.filter (memKey h' pa' / 64) = none) →
        Memory.wf s.mem = true →
        let word (a p : Nat) : Word := BitVec.ofNat 32 (leNat (Memory.readN s.mem (memKey a p) 4))
        let x := word h pa
        let y := word h' pa'
        let halves (f : Nat → Nat → Nat) : Word :=
          BitVec.ofNat 16 (f (y.extractLsb' 16 16).toNat (x.extractLsb' 16 16).toNat) ++
            BitVec.ofNat 16 (f (y.extractLsb' 0 16).toNat (x.extractLsb' 0 16).toNat)
        let value : Word := match t.op with
          | .copy => x
          | .addI32 => y + x
          | .addF32 => BitVec.ofNat 32 (fmt32.addV .rne .inf (fmt32.read y.toNat) (fmt32.read x.toNat)).1
          | .addBf16x2 => halves fun u v => (fmtB16.addV .rne .inf (fmtB16.read u) (fmtB16.read v)).1
          | .maxF32 => BitVec.ofNat 32 (fmt32.minmax true y.toNat x.toNat)
          | .minF32 => BitVec.ofNat 32 (fmt32.minmax false y.toNat x.toNat)
        ∃ u, exec (.collectiveTransferLand d n tag k) s = .next u ∧ u.teams = s.teams ∧ u.ops = s.ops ∧
          noRsv u.gangs = noRsv s.gangs ∧ u.dies = (s.setEngine d n { e with
            inflight := if t.done.length + 1 = t.len / 4 then [] else [{ t with done := k :: t.done }] }).dies ∧
          (∀ j < 4, some (Memory.read u.mem (memKey h' (pa' + j))) = (leBytes 4 value.toNat)[j]?) ∧
          ∀ q, (∀ j < 4, q ≠ memKey h' (pa' + j)) → Memory.read u.mem q = Memory.read s.mem q))) ∧
  (∀ (s : State) d n c o g x, let e := s.engine d n
    e.running = some c → Op.plain s c.op o g → (∀ a ∈ o.accs, a.bad = false) → o.region = none →
    (∃ i a b, o.kind = .cpc i a b) →
    s.ctx (s.ctxOf g) = x → x.life = .running → x.down = none →
    let ended (i : Instr) (s' : State) : Prop := ∃ t, exec i s = .next t ∧ OpCompleted s' t c.op o g { mask := 0 }
    let s1 := s.setEngine d n { e with running := none, done := none, reload := c.ctx :: e.reload }
    let failed (i : Instr) (status : Nat) : Prop :=
      let why : Down :=
        { cause := 0x16, pc := o.pc, value := status, lanes := o.lanes, gang := o.gang, at_ := s.now, who := s1.nameOf g
          frame := s1.frameBytes o.gang { g with info := { g.info with sn := o.sn, pm := o.pm, sc := scCode o.sc, mem := true } }
          fw := some ⟨c.idx, 4 * (d % 4) + n % 4, e.pc, status⟩ }
      ∃ t, exec i s = .next t ∧ OpCompleted (s1.setCtx (s.ctxOf g) { x with down := some why }) t c.op o g { mask := 0 }
    (e.done = none → exec (.done d n 0) s = .next (s.setEngine d n { e with done := some 0 })) ∧
    (∀ v, v ≠ 0 → e.done = none → failed (.done d n v) v.toNat) ∧
    (∀ v, e.done = some v → (∀ t ∈ e.inflight, t.cmd ≠ c.op) →
      ended (.commandComplete d n) (s.setEngine d n { e with running := none, done := none })) ∧
    (e.done = none ∨ (∃ t ∈ e.inflight, t.cmd = c.op) → exec (.commandComplete d n) s = .next s) ∧
    (∀ v, failed (.firmwareFault d n (.exception v)) v ∧ (v ≠ 0 → failed (.firmwareFault d n (.status v)) v)) ∧
    (∀ a, (0x40000 ≤ a ∧ a < 0x10000000 ∨ 0x10001000 ≤ a → failed (.firmwareFault d n (.access a)) 0) ∧
      (a < 0x40000 ∨ 0x10000000 ≤ a ∧ a < 0x10001000 → exec (.firmwareFault d n (.access a)) s = .next s)) ∧
    (∀ k, (k = 0 ∨ 6 < k → failed (.firmwareFault d n (.badXgo k)) 0) ∧
      (1 ≤ k → k ≤ 6 → exec (.firmwareFault d n (.badXgo k)) s = .next s)) ∧
    (2 ^ 31 < s.now / 47 - c.started → failed (.firmwareTimeout d n) 0) ∧
    (s.now / 47 - c.started ≤ 2 ^ 31 → exec (.firmwareTimeout d n) s = .next s)) ∧
  (∀ (s : State) d n, exec (.xerrRead d n) s = .next (s.setEngine d n { s.engine d n with xerr := 0 })) ∧
  ∀ (s : State) k, k < 24 → let l := s.link k
    exec (.flitCrcFail k) s = .next (s.setLink k (if l.tries < 8 then
        { l with crc := l.crc + 1, retries := l.retries + 1, tries := l.tries + 1 }
      else { l with crc := l.crc + 1, tries := 0, state := 0 }))

/-! ### The matrix unit -/

/-- R257 to R274: `trp` names a troupe, or faults with 0x0E; `mma` needs a troupe and waits at its core's latch till every
member has come, when the troupe asks for leave; its release issues the word in every member, whose rows enter a free
slot; in a context that does not run none is released (R344), and in a single step only one that is all one unit, with
which the step is over (R362). A block step adds each element's block, the slot of the
highest class first and the earliest release within it, and signal 0x0B counts it (R365). A
sum of products is exact, scaled by both codes, and added with one rounding; a residue mismatch is logged and its step
recomputed, and where that differs too the `mma` is abandoned with 0x15; after the fourth step C is written in every
member's lanes and the slot is free. The model's choices: an earlier release which is not ready holds its whole class (log
entry 95), a corrected error of the unit counts under 0x10000 and its core (log entry 43), and each member of an abandoned
`mma` has a report (log entry 77). -/
def Obligations.MatrixUnit : Prop :=
  (∀ (s : State) f h a, s.frame = some f →
    let v : Word := (s.rdU f a 1).setWidth 32
    let hold (u : UnitState) : UnitState := { u with nextIssue := max u.nextIssue (s.clock (s.coreOf f.g) + 4), serial := true }
    (s.trpOk f v = true → exec (.trp h a) s = .next (s.put { f with
      g := { f.g with trp := v, units := f.g.units.map hold }
      u := { hold f.u with ipc := f.u.ipc + 8 } })) ∧
    (s.trpOk f v = false → f.u.am ≠ 0 → exec (.trp h a) s = .next (s.laneFault f.gid f.ui f.u.am .troupe f.u.ipc)) ∧
    (s.trpOk f 0 = !f.g.trap) ∧ (f.g.trap = true → s.trpOk f v = false) ∧
    ∀ x, v ≠ 0 → s.headerOf f.g = some x → (s.trpOk f v = true ↔ f.g.trap = false ∧
      let g := v.toNat % 8
      let base := v.toNat / 2 ^ 7 % 128
      let stride := v.toNat / 2 ^ 16 % 128
      2 ≤ g ∧ g ≤ 6 ∧ 1 ≤ stride ∧ v.toNat < 2 ^ 23 ∧ v.toNat / 2 ^ 14 % 4 = 0 ∧ v.toNat / 2 ^ 3 % 16 = 0 ∧
      (∀ k < g, base + k * stride < x.team) ∧ ∀ j ∈ f.groups, ∃ k < g, base + k * stride = f.g.grpn + j)) ∧
  (∀ (s : State) f h et sm sel ov z a b c r, s.frame = some f →
    let i : Instr := .mma h et sm sel ov z a b c r
    let held := s.put { f with u := { f.u with stop := .troupe } }
    (f.g.trp = 0 → f.u.am ≠ 0 → exec i s = .next (s.laneFault f.gid f.ui f.u.am .troupe f.u.ipc)) ∧
    (f.g.trp ≠ 0 → s.atOdds f = [] → held.troupe f.g.team f.g.trp .troupe = none → exec i s = .next held) ∧
    ∀ m ms y, f.g.trp ≠ 0 → s.atOdds f = [] → held.troupe f.g.team f.g.trp .troupe = some (m :: ms) →
      held.frameOf m.1 m.2.1 = some y → held.instrAt y.g y.u.ipc = some i → held.mmaCheck (m :: ms) i = none →
      (s.core (s.coreOf f.g)).slots.length + (held.awaiting (s.coreOf f.g)).length < 8 →
      ∃ t, exec i s = .next t ∧ t = { s with gangs := t.gangs, dies := t.dies } ∧
        (∀ x ∈ m :: ms, ∃ y', t.frameOf x.1 x.2.1 = some y' ∧ y'.u.stop = .mleave) ∧
        t.dies = (s.setDie (coreDie (s.coreOf f.g)) { s.die (coreDie (s.coreOf f.g)) with
          leave := (s.die (coreDie (s.coreOf f.g))).leave ++ [⟨s.coreOf f.g, y.gid, y.ui, true, s.now⟩] }).dies) ∧
  (∀ (s : State) core n y m ms f h et sm sel ov z a b c r slot, FMap.get? s.gangs n = some y → s.coreOf y = core →
    s.troupe y.team y.trp .mleave = some (m :: ms) → s.frameOf m.1 m.2.1 = some f → f.u.leave = true →
    let i : Instr := .mma h et sm sel ov z a b c r
    s.instrAt f.g f.u.ipc = some i → (s.core core).freeSlot = some slot →
    let x := s.ctx (s.ctxOf f.g)
    let released (t : State) : Prop := ∃ q,
      t = { s with nextId := s.nextId + 1, gangs := t.gangs, cores := t.cores } ∧
      FMap.get? (t.core core).slots slot = some q ∧ q.word = i ∧ q.step = 0 ∧ q.res = s.nextId ∧
      q.members = (m :: ms).map (fun x => (x.1, x.2.2)) ∧ q.a = s.rowsOf (m :: ms) a.toNat 64 ∧
      q.b = s.rowsOf (m :: ms) b.toNat 64 ∧
      (z = false → q.acc = s.rowsOf (m :: ms) c.toNat (8 * (ms.length + 1))) ∧
      (z = true → ∀ row ∈ q.acc, ∀ w ∈ row, w = 0) ∧
      q.ready = s.clock core + 12 + (if z then 0 else ((ms.length + 1) ^ 2 + 15) / 16) ∧
      ∀ x ∈ m :: ms, ∃ y' k, t.frameOf x.1 x.2.1 = some y' ∧ s.frameOf x.1 x.2.1 = some k ∧
        y'.u.ipc = k.u.ipc + 8 ∧ y'.u.stop = .run ∧ y'.u.leave = false ∧ FMap.get? y'.g.results s.nextId ≠ none
    (x.life ≠ .running → exec (.troupeRelease core n) s = .next s) ∧
    (x.life = .running → x.stepping = false → ∃ t, exec (.troupeRelease core n) s = .next t ∧ released t) ∧
    (x.stepping = true → (x.down.isSome = true ∨ ∃ y ∈ m :: ms, (y.1, y.2.1) ≠ (f.gid, f.ui)) →
      exec (.troupeRelease core n) s = .next s) ∧
    (x.life = .running → x.stepping = true → x.down = none → (∀ y ∈ m :: ms, (y.1, y.2.1) = (f.gid, f.ui)) →
      s.stepNames f core x = true → ∃ t, released t ∧ exec (.troupeRelease core n) s = .next (t.stepStop f))) ∧
  (∀ (s : State) core,
    let slots := (s.core core).slots
    -- the first release of a class with steps to run is not ready: its class waits
    let waits (m : MatSlot) : Prop := ∃ y ∈ slots, y.2.cls = m.cls ∧ y.2.step < 4 ∧ y.2.order ≤ m.order ∧ s.clock core < y.2.ready
    (s.nextSlot core = none → ∀ x ∈ slots, x.2.step < 4 → waits x.2) ∧
    ∀ slot m, s.nextSlot core = some (slot, m) → (slot, m) ∈ slots ∧ m.step < 4 ∧ m.ready ≤ s.clock core ∧
      ∀ x ∈ slots, x.2.step < 4 → (x.2.cls = m.cls → m.order ≤ x.2.order) ∧ (m.cls < x.2.cls → waits x.2)) ∧
  (∀ (s : State) core slot m, (s.core core).matBusy ≤ s.clock core → s.failingSlot core = none →
    s.nextSlot core = some (slot, m) → m.bad = false → m.checksOk = true →
    let n := 8 * m.members.length
    (FMap.get? s.glitches (2 * core + 1) = none → (∀ i < n, ∀ j < n, (m.element m.step i j).2 = false) →
      ∃ t m' busy, exec (.mmaBlockStep core) s = .next t ∧
        t = { s with glitches := t.glitches, cores := FMap.set s.cores core { s.core core with
          slots := FMap.set (s.core core).slots slot m', matBusy := busy
          ctr := { (s.core core).ctr with
            sig := FMap.set (s.core core).ctr.sig 0x0B (FMap.getD (s.core core).ctr.sig 0x0B 0 + 1) } } } ∧
        m' = { m with acc := m'.acc, step := m.step + 1, ready := m'.ready } ∧ s.clock core ≤ busy ∧ busy ≤ m'.ready ∧
        ∀ i < n, ∀ j < n, ((rowAt m'.acc i)[j]?).getD 0 = (m.element m.step i j).1) ∧
    (FMap.get? s.glitches (2 * core + 1) = some 1 → (∀ i < n, ∀ j < n, (m.element m.step i j).2 = false) →
      let unit := 0x10000 + core
      ∃ t m', exec (.mmaBlockStep core) s = .next t ∧
        t.dev = { s.dev with corrected := FMap.set s.dev.corrected unit (FMap.getD s.dev.corrected unit 0 + 1) } ∧
        FMap.get? (t.core core).slots slot = some m' ∧ m' = { m with acc := m'.acc, step := m.step + 1, ready := m'.ready } ∧
        ∀ i < n, ∀ j < n, ((rowAt m'.acc i)[j]?).getD 0 = (m.element m.step i j).1) ∧
    ∀ k, FMap.get? s.glitches (2 * core + 1) = some k → 2 ≤ k →
      let unit := 0x10000 + core
      let till := s.clock core + stepClocks m.clocks m.step + (m.clocks + 3) / 4
      ∃ t, exec (.mmaBlockStep core) s = .next t ∧ t.gangs = s.gangs ∧
        t.dev = { s.dev with corrected := FMap.set s.dev.corrected unit (FMap.getD s.dev.corrected unit 0 + 1) } ∧
        FMap.get? (t.core core).slots slot = some { m with failing := true, ready := till } ∧ (t.core core).matBusy = till) ∧
  (∀ (s : State) core slot m gid pc g, s.failingSlot core = some (slot, m) →
    (s.clock core < (s.core core).matBusy → exec (.mmaBlockStep core) s = .next s) ∧
    ((s.core core).matBusy ≤ s.clock core → m.pcs = [(gid, pc)] → FMap.get? s.gangs gid = some g →
      let told := s.unitReport g .compute pc 0 [.matrix core] m.step
      let left := (told.setCore core { s.core core with slots := FMap.erase (s.core core).slots slot }).setGang gid { g with
        results := FMap.erase g.results m.res, marks := g.marks.filter fun k => k.mma != some m.res }
      exec (.mmaBlockStep core) s = .next ((((left.takeFaults gid
        ((lanesOf (g.allOf fun u => if u.hm then 0 else u.am)).map fun l => ⟨l, .compute, 0⟩) pc).closeWindow gid m.res).reap
          gid).latch core))) ∧
  (∀ (m : MatSlot) h et sm sel ov z a b c r k i j, m.word = .mma h et sm sel ov z a b c r → sm ≠ .flag →
    (et = .i8 → sm ≠ .unit) → et ≠ .ln6 → k < 4 →
    let codes (rows : List (List Word)) (i n : Nat) : Nat := ((plainCodes et (rowBlock (rowAt rows i) k))[n]?).getD 0
    let depth := if et = .bf16 ∨ et = .f16 then 32 else 64
    let pick := match sel.toNat with
      | 0 => k
      | 1 => 0
      | 2 => 1
      | _ => k ^^^ 1
    let scale (l : List Word) (i : Nat) : Nat := match sm with
      | .unit => 0x7F
      | .bcst => ((l[i / 8 * 8]?).getD 0).toNat / 2 ^ (8 * pick) % 256
      | _ => ((l[i]?).getD 0).toNat / 2 ^ (8 * pick) % 256
    let acc := ((rowAt m.acc i)[j]?).getD 0
    (scale m.sa i = 255 ∨ scale m.sb j = 255 → m.element k i j = (0x7FC00000, false)) ∧
    (scale m.sa i ≠ 255 → scale m.sb j ≠ 255 → ∀ va vb : Nat → ℚ,
      (∀ n < depth, Et.holds et (codes m.a i n) (va n) ∧ Et.holds et (codes m.b j n) (vb n)) →
      ∃ (neg : Bool) (mg : Nat) (e : Int), (if neg then (-1 : ℚ) else 1) * (mg : ℚ) * 2 ^ e =
          ((List.range depth).map fun n => va n * vb n).sum * 2 ^ ((scale m.sa i : Int) + scale m.sb j - 254) ∧
        (neg = true → mg ≠ 0) ∧
        m.element k i j = let x := fmt32.addV .rne ov (fmt32.read acc.toNat) (.num neg mg e)
          (BitVec.ofNat 32 x.1, x.2))) ∧
  (∀ (m : MatSlot) h sel ov z a b c r k i j, m.word = .mma h .i8 .unit sel ov z a b c r →
    let codes (rows : List (List Word)) (i : Nat) : List Int :=
      (plainCodes .i8 (rowBlock (rowAt rows i) k)).map fun x => (BitVec.ofNat 8 x).toInt
    m.element k i j = (((rowAt m.acc i)[j]?).getD 0 +
      BitVec.ofInt 32 ((List.zipWith (· * ·) (codes m.a i) (codes m.b j)).sum), false)) ∧
  ∀ (s : State) core slot m h et sm sel ov z a b c r, FMap.get? (s.core core).slots slot = some m → m.step = 4 →
    m.ready ≤ s.clock core → m.word = .mma h et sm sel ov z a b c r → m.members.Nodup → (m.pcs.map (·.1)).Nodup →
    (∀ x ∈ m.members, x.2 < 8 ∧ ∃ p ∈ m.pcs, p.1 = x.1) →
    (∀ p ∈ m.pcs, ∀ g, FMap.get? s.gangs p.1 = some g → g.ended = false) →
    (∀ g ∈ s.gangs, ∀ u ∈ g.2.units, u.stop ≠ .troupe) →
    ∃ t, exec (.mmaComplete core slot) s = .next t ∧
      t = { s with gangs := t.gangs, cores := t.cores, regPoison := t.regPoison } ∧
      t.cores = FMap.set s.cores core { s.core core with slots := FMap.erase (s.core core).slots slot } ∧
      ∀ x k, m.members[k]? = some x → ∀ g, FMap.get? s.gangs x.1 = some g →
        ∃ g', FMap.get? t.gangs x.1 = some g' ∧
          g' = { g with
            v := g'.v, results := FMap.erase g.results m.res, marks := g.marks.filter fun y => y.till != .result m.res
            windows := g.windows.filter fun w => w.id != m.res } ∧
          (∀ col < 8 * m.members.length, c.toNat + col < 192 → ∀ q < 8,
            LaneVec.at' (g'.vreg (c.toNat + col)) (8 * x.2 + q) = ((rowAt m.acc (8 * k + q))[col]?).getD 0) ∧
          ∀ v l, l < 64 → (v < c.toNat ∨ c.toNat + 8 * m.members.length ≤ v ∨ ∀ y ∈ m.members, y.1 = x.1 → l / 8 ≠ y.2) →
            LaneVec.at' (g'.vreg v) l = LaneVec.at' (g.vreg v) l

/-! ### The Director -/

/-- R290 to R297, R330: spawn bins. `bin.cfg` owns or re-keys a bin and says whether it could, `bin.q` counts its threads,
`bin.rel` frees it; a bin's timer, the trap bin's, both still in a halted context (R344), and `bin.fl` form a gang of the
threads that wait, where it fits: its
lanes start at the key with a thread's eight words in v0 on, the arguments in s0:s1, and every other register 0. -/
def Obligations.SpawnBins : Prop :=
  (∀ (s : State) f h idx d a b tm, s.frame = some f → s.teamOf f.g = some tm → Frame.part f h ≠ 0 →
    Legal (.binCfg h idx d a b) f = true →
    let pc : Word := (s.rdU f a 1).setWidth 32
    let cfg : Word := (s.rdU f b 1).setWidth 32
    let inside : Prop := ∃ v x, s.versionOf f.g = some v ∧ v.imageAt f.u.ipc.toNat = some x ∧
      x.base ≤ pc.toNat ∧ pc.toNat < x.base + x.size
    let bin : Bin := { key := pc, width := 8 * 2 ^ (cfg.toNat % 4), timer := cfg.toNat / 2 ^ 16, threads := [] }
    let answers (s' : State) (n : Nat) : Prop := ∃ t, exec (.binCfg h idx d a b) s = .next t ∧ WordRan s' t f ∧
      Wrote t f (.of f h d 1 fun _ => BitVec.ofNat 64 n)
    let owned := s.setTeam f.g.team { tm with bins := FMap.set tm.bins idx.toNat bin }
    (pc.toNat % 8 ≠ 0 → f.u.am ≠ 0 → exec (.binCfg h idx d a b) s = .next (s.laneFault f.gid f.ui f.u.am .misaligned f.u.ipc)) ∧
    (pc.toNat % 8 = 0 → f.u.am ≠ 0 → ¬inside ∨ cfg.extractLsb' 2 14 ≠ 0 →
      exec (.binCfg h idx d a b) s = .next (s.laneFault f.gid f.ui f.u.am .protection f.u.ipc)) ∧
    (pc.toNat % 8 = 0 → inside → cfg.extractLsb' 2 14 = 0 →
      (∀ old, FMap.get? tm.bins idx.toNat = some old → old.threads = [] → answers owned 1) ∧
      (FMap.get? tm.bins idx.toNat = none → s.binsOn tm.core < 15 → answers owned 1) ∧
      (FMap.get? tm.bins idx.toNat = none → 15 ≤ s.binsOn tm.core → answers s 0))) ∧
  (∀ (s : State) f h idx d tm, s.frame = some f → s.teamOf f.g = some tm → Legal (.binQ h idx d) f = true →
    ∃ t, exec (.binQ h idx d) s = .next t ∧ WordRan s t f ∧ Wrote t f (.of f h d 1 fun _ => BitVec.ofNat 64
      ((FMap.get? tm.bins idx.toNat).elim 0 fun b => b.threads.length + 2 ^ 31))) ∧
  (∀ (s : State) f h idx tm, s.frame = some f → s.teamOf f.g = some tm → Frame.part f h ≠ 0 →
    let moved := s.put { f with u := { f.u with ipc := f.u.ipc + 8 } }
    (∀ b, FMap.get? tm.bins idx.toNat = some b → b.threads = [] →
      exec (.binRel h idx) s = .next (moved.setTeam f.g.team { tm with bins := FMap.erase tm.bins idx.toNat }) ∧
      exec (.binFl h idx) s = .next (moved.setTeam f.g.team { tm with bins := FMap.set tm.bins idx.toNat { b with flush := false } })) ∧
    (FMap.get? tm.bins idx.toNat = none → exec (.binFl h idx) s = .next moved) ∧
    ∀ b s', FMap.get? tm.bins idx.toNat = some b → b.threads ≠ [] → b.threads.length ≤ b.width → tm.life = .resident →
      moved.formGang f.g.team b.width b.key b.threads false = some s' →
      exec (.binFl h idx) s = .next (s'.setTeam f.g.team
        { tm with bins := FMap.set tm.bins idx.toNat { b with threads := [], flush := false } })) ∧
  (∀ (s : State) tid tm width pc ts trap s', FMap.get? s.teams tid = some tm → s.formGang tid width pc ts trap = some s' →
    ∃ g, s' = { s with nextId := s.nextId + 1, gangs := FMap.set s.gangs s.nextId g } ∧ g.team = tid ∧ g.width = width ∧
      g.trap = trap ∧ g.units = [UnitState.start width (lowLanes ts.length) pc] ∧ g.p = Vector.replicate 32 0 ∧
      (trap = true → g.grpn = 128) ∧
      (∀ n l, l < 64 → LaneVec.at' (g.vreg n) l = if n < min 8 tm.header.regs then
        ((ts[l]?).bind fun t => t.pay[n]?).getD 0 else 0) ∧
      ∀ n, n < 48 → ∀ args, s.gridArgs tm = args → vget g.s (n % 48) (Nat.mod_lt _ (by decide)) =
        if 2 ≤ tm.header.scalars ∧ n < 2 then args.extractLsb' (32 * n) 32 else 0) ∧
  (∀ (s : State) tid idx tm b th rest, FMap.get? s.teams tid = some tm → FMap.get? tm.bins idx = some b →
    b.threads = th :: rest →
    (b.timer = 0 ∨ s.now < th.at_ + 64 * b.timer * 75 → exec (.binTimerExpiry tid idx) s = .next s) ∧
    (s.frozen tm.ctx = true → exec (.binTimerExpiry tid idx) s = .next s) ∧
    (s.frozen tm.ctx = false → tm.life = .resident → b.timer ≠ 0 → th.at_ + 64 * b.timer * 75 ≤ s.now →
      b.threads.length ≤ b.width →
      (s.formGang tid b.width b.key b.threads false = none → exec (.binTimerExpiry tid idx) s = .next
        (s.setTeam tid { tm with bins := FMap.set tm.bins idx { b with flush := true } })) ∧
      ∀ s', s.formGang tid b.width b.key b.threads false = some s' → exec (.binTimerExpiry tid idx) s = .next
        (s'.setTeam tid { tm with bins := FMap.set tm.bins idx { b with threads := [], flush := false } }))) ∧
  ∀ (s : State) core b th rest tm, (s.core core).trapBin = some b → b.threads = th :: rest →
    (s.now < th.at_ + 1024 * 75 → exec (.trapBinTimer core) s = .next s) ∧
    (s.teamFrozen b.team = true → exec (.trapBinTimer core) s = .next s) ∧
    (th.at_ + 1024 * 75 ≤ s.now → s.teamFrozen b.team = false → (s.core core).trapWait = [] →
      FMap.get? s.teams b.team = some tm →
      let gone := s.setCore core { s.core core with trapBin := none, trapWait := [b] }
      (gone.formGang b.team tm.header.gang b.tentry b.threads true = none → exec (.trapBinTimer core) s = .next gone) ∧
      ∀ s', tm.life = .resident → gone.formGang b.team tm.header.gang b.tentry b.threads true = some s' →
        exec (.trapBinTimer core) s = .next ({ s' with teams := FMap.set s'.teams b.team tm }.setCore core
          { s.core core with trapBin := none, trapWait := [] }))

/-- R287 to R293, R298 to R305: grids and teams. `DIRSTART` refuses a misplaced record, and accepts one within the limits of
R288: the record is numbered, and a grid starts that `DIRSTART` holds till it is over, its clusters dealt out over the dies
of its mask into the queues of its class, or status 2 is written where no image serves. A retired grid leaves status 0 in
its record, and a `launch` that started it completes (R97), unless its context has halted (R344); a decision places what the
order of R300 gives, saved teams that wake first, then
class by class, a banner cluster on the first rectangle that serves; a placed cluster's teams stand on their cores with gangs
at the entry; a team that a case of R303 names is saved where there is room, its core's gathered lines at home and its
reservations gone; a queue head that has waited 2^20 banner clocks holds up the lower classes. The model's choices: the sum
that decides whether a save has room (log entry 22), what `canEver` calls a core that could hold a team (log entry 23), and
that with no candidate a team whose wake condition does not hold may be let in (log entry 12). -/
def Obligations.GridsAndTeams : Prop :=
  (∀ (s : State) c va, (s.ctx c).life ≠ .running ∨ (s.ctx c).dirGrid.isSome = true ∨ (s.ctx c).dirHeld.isSome = true ∨
      va.toNat % 256 ≠ 0 ∨ 0x00FE000000000000 ≤ va.toNat →
    exec (.dirstart c va) s = .next (s.setCtx c { s.ctx c with dirStatus := 1 })) ∧
  (∀ (s : State) c va h pa bytes v key, s.running c = true → (s.ctx c).dirGrid = none →
    (s.ctx c).dirHeld = none → va.toNat % 256 = 0 →
    va.toNat < 0x00FE000000000000 → s.vaLoc c va.toNat true = some (.mem h pa) →
    (∀ k < 4, FMap.get? s.filter (memKey h (pa + 64 * k) / 64) = none) →
    bytes = Memory.readN s.mem (memKey h pa) 256 →
    let r := LaunchRec.parse bytes
    (r.kind ≠ 1 ∨ s.versionFor c r = none →
      exec (.dirstart c va) s = .next (s.setCtx c { s.ctx c with dirStatus := 1 })) ∧
    -- with 65,536 grids of the context the launch is held at its perform
    (r.kind = 1 → s.versionFor c r = some (key, v) → r.ok v = true → 65536 ≤ (s.grids.filter fun x => x.2.ctx == c).length →
      exec (.dirstart c va) s = .next (s.setCtx c { s.ctx c with dirStatus := 0, dirHeld := some (.mem h pa) })) ∧
    (r.kind = 1 → s.versionFor c r = some (key, v) → r.ok v = true →
      ((v.chosen .pennant).bind (fun i => i.header r.func) = none ∨ s.diesOf r.dmask = [] ∨
        ∃ x, (v.chosen .pennant).bind (fun i => i.header r.func) = some x ∧
          canEver .pennant x (gangSizes x (r.groups x)) = false) →
      (s.grids.filter fun x => x.2.ctx == c).length < 65536 →
      ∃ t, exec (.dirstart c va) s = .next t ∧ (t.ctx c).dirStatus = 0 ∧ (t.ctx c).dirGrid = none ∧
        (t.ctx c).launches = (if (s.ctx c).launches + 1 < 2 ^ 32 then (s.ctx c).launches + 1 else 1) ∧ t.grids = s.grids ∧
        (Memory.wf s.mem = true → Memory.readN t.mem (memKey h pa + 248) 8 = leBytes 4 2 ++ leBytes 4 0)) ∧
    -- the grid starts
    ∀ x, r.kind = 1 → s.versionFor c r = some (key, v) → r.ok v = true →
      (v.chosen .pennant).bind (fun i => i.header r.func) = some x → s.diesOf r.dmask ≠ [] →
      canEver .pennant x (gangSizes x (r.groups x)) = true → (s.grids.filter fun x => x.2.ctx == c).length < 65536 →
      (∀ e ∈ s.grids, e.1 < s.nextId) →
      let n := if (s.ctx c).launches + 1 < 2 ^ 32 then (s.ctx c).launches + 1 else 1
      let cls := if r.cls = 0xFF then x.cls.toNat else r.cls
      let dies := s.diesOf r.dmask
      ∃ t g, exec (.dirstart c va) s = .next t ∧
        t.ctx c = { s.ctx c with dirStatus := 0, launches := n, dirGrid := some s.nextId } ∧
        t.grids = FMap.set s.grids s.nextId g ∧ g.ctx = c ∧ g.lr = r ∧ g.version = key ∧ g.header = x ∧
        g.recLoc = .mem h pa ∧ g.op = none ∧ g.lpc0 = 0 ∧ g.lseq = BitVec.ofNat 32 n ∧ g.placed = 0 ∧ g.status = 0 ∧
        (∀ d < 4, FMap.getD (t.die d).queues (4 * c + cls) [] = FMap.getD (s.die d).queues (4 * c + cls) [] ++
          ((List.range r.ncl).filter fun j => dies[j % dies.length]? == some d).map fun j => ⟨s.nextId, j⟩) ∧
        (∀ d < 4, ∀ k, k ≠ 4 * c + cls → FMap.getD (t.die d).queues k [] = FMap.getD (s.die d).queues k []) ∧
        t.teams = s.teams ∧ t.ops = s.ops ∧ noRsv t.gangs = noRsv s.gangs ∧
        (Memory.wf s.mem = true → Memory.readN t.mem (memKey h pa + 240) 8 = leBytes 4 n ++ leBytes 4 0 ∧
          ∀ q, q < memKey h pa + 240 ∨ memKey h pa + 248 ≤ q → Memory.read t.mem q = Memory.read s.mem q)) ∧
  (∀ (s : State) n g, FMap.get? s.grids n = some g → g.placed = g.lr.ncl →
    (∀ t ∈ s.teams, t.2.grid = n → t.2.life = .exited ∧ ∀ x ∈ s.gangs, x.2.team ≠ t.1) →
    (∀ id, g.op = some id → ∃ o y va, Op.plain s id o y ∧ o.kind = .launch va ∧ ∀ a ∈ o.accs, a.bad = false) →
    (s.ctx g.ctx).dirHeld = none → s.frozen g.ctx = false →
    ∀ h pa, g.recLoc = .mem h pa → Memory.wf s.mem = true → pa % 256 = 0 →
    ∃ t, exec (.gridRetire n) s = .next t ∧ t.grids = FMap.erase s.grids n ∧
      t.teams = s.teams.filter (fun x => x.2.grid != n) ∧
      (g.op = none → t.ops = s.ops ∧ noRsv t.gangs = noRsv s.gangs) ∧
      -- the launch that started it completes
      (∀ id o y, g.op = some id → Op.plain s id o y →
        t.ops = FMap.erase s.ops id ∧ noRsv t.gangs = noRsv (FMap.set s.gangs o.gang (y.opOver id))) ∧
      Memory.readN t.mem (memKey h pa + 248) 8 = leBytes 8 0 ∧
      (∀ q, q < memKey h pa + 248 ∨ memKey h pa + 256 ≤ q → Memory.read t.mem q = Memory.read s.mem q) ∧
      ((s.ctx g.ctx).dirGrid = some n → (t.ctx g.ctx).dirGrid = none)) ∧
  (∀ (s : State) n g, FMap.get? s.grids n = some g → (g.placed ≠ g.lr.ncl ∨ s.frozen g.ctx = true ∨
      ∃ t ∈ s.teams, t.2.grid = n ∧ t.2.life ≠ .exited) →
    exec (.gridRetire n) s = .next s) ∧
  (∀ (s : State) d c, d < 4 →
    (s.running c = false → exec (.placementDecision d c) s = .next s) ∧
    (s.running c = true → (∀ x ∈ s.ctxs, x.1 ≠ c → s.running x.1 = true → s.furtherBelow d x.1 c = false) →
      -- with no candidate the scheduler restores a team whose wake condition does not hold, or none (log entry 12)
      (s.decide' d c = none → ∃ t, exec (.placementDecision d c) s = .next t ∧
        (s.sleepers d c = [] → t = s) ∧ (t = s ∨ t = { s with fresh := s.fresh + 1 } ∨
          ∃ x ∈ s.sleepers d c, ({ s with fresh := s.fresh + 1 } : State).restore d x.1 x.2 = some t)) ∧
      (∀ front x back s', s.savedTeams d c = front ++ x :: back →
        (∀ y ∈ front, s.classBlocked d (s.teamClass y.2) = true ∨ s.restore d y.1 y.2 = none) →
        s.classBlocked d (s.teamClass x.2) = false → s.restore d x.1 x.2 = some s' →
        exec (.placementDecision d c) s = .next s' ∧ ∃ core runs tm, s.restoreFit d x.1 x.2 = some (core, runs) ∧
          FMap.get? s'.teams x.1 = some tm ∧ tm.life = .resident ∧ tm.core = core ∧ tm.mem = x.2.mem ∧
          tm.resumeAt = s.now + (s.teamBytes x.1 x.2 + 255) / 256 * 75) ∧
      (∀ k q rest g sites, s.savedTeams d c = [] → (s.die d).starved = [] → k < 4 →
        (∀ j, k < j → j < 4 → FMap.getD (s.die d).queues (4 * c + j) [] = []) →
        FMap.getD (s.die d).queues (4 * c + k) [] = q :: rest → FMap.get? s.grids q.grid = some g → g.lr.kind ≠ 1 →
        s.firstRect d g.lr.cw g.lr.ch c g.version g.header (gangSizes g.header (g.lr.groups g.header)) = some sites →
        ∃ t, exec (.placementDecision d c) s = .next t ∧ (FMap.get? t.grids q.grid).map (·.placed) = some (g.placed + 1) ∧
          ∀ j x, sites[j]? = some x → ∃ n tm, FMap.get? t.teams n = some tm ∧ s.nextId ≤ n ∧ tm.life = .resident ∧
            tm.core = x.1 ∧ tm.grid = q.grid ∧ tm.cluster = q.cluster ∧ tm.rank = j ∧ tm.header = g.header ∧ tm.mem = [] ∧
            ∀ i r, x.2[i]? = some r → ∃ y, FMap.get? t.gangs (n + 1 + i) = some y ∧ y.team = n ∧
              y.width = g.header.gang ∧ y.grpn = i * (g.header.gang / 8) ∧ y.quad = r.1 ∧ y.slot = r.2 ∧
              y.units = [UnitState.start g.header.gang (lowLanes g.header.gang) g.header.entry] ∧ y.v = [] ∧
              y.p = Vector.replicate 32 0) ∧
      ∀ k q rest g core runs, s.savedTeams d c = [] → (s.die d).starved = [] → k < 4 →
        (∀ j, k < j → j < 4 → FMap.getD (s.die d).queues (4 * c + j) [] = []) →
        FMap.getD (s.die d).queues (4 * c + k) [] = q :: rest → FMap.get? s.grids q.grid = some g → g.lr.kind = 1 →
        s.firstFit (coresOf d .pennant) c g.version g.header (gangSizes g.header (g.lr.groups g.header)) 0 = some (core, runs) →
        ∃ t tm, exec (.placementDecision d c) s = .next t ∧
          (t.die d).queues = (if rest = [] then FMap.erase (s.die d).queues (4 * c + k)
            else FMap.set (s.die d).queues (4 * c + k) rest) ∧
          (FMap.get? t.grids q.grid).map (·.placed) = some (g.placed + 1) ∧
          FMap.get? t.teams s.nextId = some tm ∧ tm.life = .resident ∧ tm.core = core ∧ tm.grid = q.grid ∧
          tm.cluster = q.cluster ∧ tm.rank = 0 ∧ tm.header = g.header ∧ tm.mem = [] ∧
          ∀ j r, runs[j]? = some r → ∃ x, FMap.get? t.gangs (s.nextId + 1 + j) = some x ∧ x.team = s.nextId ∧
            x.width = g.header.gang ∧ x.grpn = j * (g.header.gang / 8) ∧ x.quad = r.1 ∧ x.slot = r.2 ∧
            x.units = [UnitState.start g.header.gang (lowLanes g.header.gang) g.header.entry] ∧ x.v = [] ∧
            x.p = Vector.replicate 32 0)) ∧
  (∀ (s : State) tid tm, FMap.get? s.teams tid = some tm →
    let room : Prop := ((s.teams.filter fun x => x.2.ctx == tm.ctx && x.2.life == .saved).map fun x =>
      s.teamBytes x.1 x.2).sum + s.teamBytes tid tm ≤ (s.ctx tm.ctx).saveArea
    let named := s.evictForClass (coreDie tm.core) tm || s.evictForGrid (coreDie tm.core) tm ||
      s.evictForContext (coreDie tm.core) tm || s.evictForFence tid tm
    (s.savable tid tm = false ∨ named = false → exec (.teamSave tid) s = .next s) ∧
    (s.savable tid tm = true → named = true → ∃ t, exec (.teamSave tid) s = .next t ∧ (¬room → t = s) ∧ (room → ∃ tm',
      FMap.get? t.teams tid = some tm' ∧ tm'.life = .saved ∧ tm'.mem = tm.mem ∧ tm'.bins = tm.bins ∧
      tm'.resumeAt = s.now + (s.teamBytes tid tm + 255) / 256 * 75 ∧
      (t.core tm.core).gather = [] ∧
      -- every byte its core had gathered is at home, and no other has changed
      (Memory.wf s.mem = true → ((s.core tm.core).gather.map GLine.key).Nodup →
        (∀ l ∈ (s.core tm.core).gather, ∀ k < 64, ∀ b, LaneVec.at' l.bytes k = some b →
          Memory.read t.mem (64 * l.key + k) = b) ∧
        ∀ q, (∀ l ∈ (s.core tm.core).gather, ∀ k < 64, LaneVec.at' l.bytes k ≠ none → q ≠ 64 * l.key + k) →
          Memory.read t.mem q = Memory.read s.mem q) ∧
      (∀ x ∈ t.gangs, x.2.team = tid → ∀ l < 64, x.2.rsvOf l = none) ∧ t.ops = s.ops))) ∧
  -- saved teams come before queue heads, the highest class first; a starved head holds up what lies below its class
  (∀ (s : State) d c, (∀ x ∈ s.savedTeams d c, s.mayRestore d c x.2 = true ∧ s.teamAwake x.1 = true) ∧
    (∀ (i j : Nat) (x y : Nat × Team), i < j → (s.savedTeams d c)[i]? = some x → (s.savedTeams d c)[j]? = some y → s.teamClass y.2 ≤ s.teamClass x.2) ∧
    ∀ e ∈ (s.die d).starved, (∀ k, e % 4 ≤ k → k < 4 → s.headFit d c k = none) →
      (∀ x ∈ s.savedTeams d c, s.teamClass x.2 < e % 4) → s.decide' d c = none) ∧
  -- the first rectangle in site order whose every site is a banner core that fits a team
  (∀ (s : State) d cw ch c ver h sizes sites, s.firstRect d cw ch c ver h sizes = some sites → d < 4 → 1 ≤ cw → 1 ≤ ch →
    let site (i a b : Nat) : Nat := 144 * d + 12 * (i / 12 + b) + i % 12 + a
    let serves (i : Nat) : Prop := i % 12 + cw ≤ 12 ∧ i / 12 + ch ≤ 12 ∧ ∀ a < cw, ∀ b < ch,
      coreKind (site i a b) = .banner ∧ (s.fits (site i a b) c ver h sizes 0).isSome = true
    ∃ i < 144, serves i ∧ (∀ j < i, ¬serves j) ∧
      sites.map (·.1) = (List.range ch).flatMap fun b => (List.range cw).map fun a => site i a b) ∧
  ∀ (s : State) d c k at_, FMap.get? (s.die d).headAt (4 * c + k) = some at_ → s.running c = true →
    (s.die d).starved.contains (4 * c + k) = false →
    (at_ + 2 ^ 20 * 75 ≤ s.now → exec (.queueHeadStarvation d c k) s = .next
      (s.setDie d { s.die d with starved := (4 * c + k) :: (s.die d).starved })) ∧
    (s.now < at_ + 2 ^ 20 * 75 → exec (.queueHeadStarvation d c k) s = .next s)

/-- R70, R77, R306 to R315: equivalence points, migration and version queries. `eqp` records its number, and in Tamut form a
gang whose function is translated goes on at the native image's word, its registers through the map; `migr` must stand
behind an `eqp`, writes true at once for the kind the team is on, false at once, in every gang at the rendezvous, while a
gang of the team has a region open (R335), and else waits at the rendezvous; at its deadline it writes false. A move takes every gang's registers through the
map to a core of the other kind, to the target it then fixes; in an even pair of registers or of a spawned thread the core
and slot of a live tag follow its origin (R332; which words are rewritten is log entry 24); and the resume sets them going behind the target's `migr` with
true (`hpc` then is the target's, log entry 115). Of the candidates for a kind of core the loader and the translator
choose a native image, the higher `tune`, the more optional features, the lower index, in this order (R77). `vqry` completes within 4,096 banner clocks, 10,240 of a pennant core (R4). -/
def Obligations.EquivalenceAndMigration : Prop :=
  (∀ (s : State) f h n, s.frame = some f →
    (s.eqpEntry f n.toNat = none → exec (.eqp h n) s = .next (s.put { f with
      g := { f.g with eqid := n.setWidth 32 }, u := { f.u with ipc := f.u.ipc + 8 } })) ∧
    ∀ v func pc es, s.eqpEntry f n.toNat = some (v, func) → s.eqpSwap f n.toNat = some (pc, es) → s.writing f.g = false →
      (s.core (s.coreOf f.g)).ready.contains (s.readyKey f func) = true →
      ∃ t g, exec (.eqp h n) s = .next t ∧ t = { s.put { f with g := g, u := { f.u with ipc := pc + 8 } } with
          regPoison := t.regPoison } ∧
        g = { f.g with eqid := n.setWidth 32, v := g.v, s := g.s, p := g.p, dtb := 0, dtl := 0 } ∧ Mapped f.g g es ∧
        -- a register that no entry names is poisoned no more
        ∀ x ∈ t.regPoison, x.1 = f.gid → ∀ r, x.2.1 = .v r → ∃ e ∈ es, e.cls = 0 ∧ e.dst = r) ∧
  (∀ (s : State) f h pd kind a, s.frame = some f →
    (s.eqpBefore f = none → f.u.am ≠ 0 →
      exec (.migr h pd kind a) s = .next (s.laneFault f.gid f.ui f.u.am .illegal f.u.ipc)) ∧
    (∀ n, s.eqpBefore f = some n → coreKind (s.coreOf f.g) = kind → f.g.ended = false → s.migrOp f.gid = none →
      (∀ o ∈ s.ops, o.1 < s.nextId) → FMap.sorted s.ops = true → (s.ctx (s.ctxOf f.g)).ctl.getLsbD 5 = false →
      ∃ t g, exec (.migr h pd kind a) s = .next t ∧ t.ops = s.ops ∧ t.teams = s.teams ∧ t.nextId = s.nextId + 1 ∧
        t.gangs = FMap.set s.gangs f.gid g ∧ (∀ l < 64, (Gang.pred g pd).getLsbD l =
          (f.g.liveLanes.getLsbD l || (Gang.pred f.g pd).getLsbD l)) ∧ g.v = f.g.v ∧ g.s = f.g.s ∧
        (g.units[f.ui]?).map (·.ipc) = some (f.u.ipc + 8)) ∧
    (∀ n tm, s.eqpBefore f = some n → coreKind (s.coreOf f.g) ≠ kind → s.regionOpen f.g.team = true →
      s.teamOf f.g = some tm → f.g.ended = false →
      s.migrOp f.gid = none → (∀ o ∈ s.ops, o.1 < s.nextId) → FMap.sorted s.ops = true →
      (s.ctx (s.ctxOf f.g)).ctl.getLsbD 5 = false →
      let no (g g' : Gang) (p : PReg) : Prop := (∀ l < 64, p ≠ 31 → (Gang.pred g' p).getLsbD l =
        (!g.liveLanes.getLsbD l && (Gang.pred g p).getLsbD l)) ∧ g'.v = g.v ∧ g'.s = g.s
      ∃ t g, exec (.migr h pd kind a) s = .next t ∧ t.teams = FMap.set s.teams f.g.team { tm with mig := none } ∧
        t.nextId = s.nextId + 1 ∧ FMap.get? t.gangs f.gid = some g ∧ no f.g g pd ∧
        (g.units[f.ui]?).map (·.ipc) = some (f.u.ipc + 8) ∧
        (tm.mig = none → t.ops = s.ops ∧ t.gangs = FMap.set s.gangs f.gid g) ∧
        ∀ m k id o y p, tm.mig = some m → m.gangs = [k] → k ≠ f.gid → s.migrOp k = some (id, o) → Op.plain s id o y →
          o.gang = k → (∀ a ∈ o.accs, a.bad = false) → o.kind = .migr p → t.ops = FMap.erase s.ops id ∧
          ∃ y', FMap.get? t.gangs k = some y' ∧ no y y' p ∧ ∀ u ∈ y'.units, u.stop ≠ .migr) ∧
    (∀ n tm k, s.eqpBefore f = some n → coreKind (s.coreOf f.g) ≠ kind → s.regionOpen f.g.team = false →
      s.teamOf f.g = some tm → tm.mig = none →
      FMap.get? s.gangs k ≠ none → k ≠ f.gid → (FMap.get? s.gangs k).map (·.team) = some f.g.team →
      (s.ctx (s.ctxOf f.g)).ctl.getLsbD 5 = false →
      ∃ t, exec (.migr h pd kind a) s = .next t ∧
        (FMap.get? t.teams f.g.team).map (·.mig) = some (some { gangs := [f.gid], n := n, kind := kind, deadline :=
          s.now + (s.rdU f a 1).toNat * 75 }) ∧
        (FMap.get? t.gangs f.gid).bind (fun g => (g.units[f.ui]?).map (·.stop)) = some .migr ∧
        (FMap.get? t.ops s.nextId).map (·.kind) = some (.migr pd))) ∧
  (∀ (s : State) tid tm m gid oid o g pd, FMap.get? s.teams tid = some tm → tm.mig = some m → tm.life ≠ .moving →
    (s.now < m.deadline → exec (.migrationBudgetExpiry tid) s = .next s) ∧
    (m.deadline ≤ s.now → s.tryMove tid = none → m.gangs = [gid] → s.migrOp gid = some (oid, o) → Op.plain s oid o g → o.gang = gid →
      (∀ a ∈ o.accs, a.bad = false) → o.kind = .migr pd →
      let g1 : Gang := { g with units := g.units.map fun u => if u.stop = .migr then { u with stop := .run } else u }
      ∃ t, exec (.migrationBudgetExpiry tid) s = .next t ∧
        OpCompleted (s.setTeam tid { tm with mig := none }) t oid o g1
          { mask := lowLanes g.width &&& ~~~g.allOf (·.xm), preds := [(pd, fun _ => false)] })) ∧
  (∀ (s : State) tid tm m, FMap.get? s.teams tid = some tm → tm.mig = some m →
    (tm.life = .moving ∨ s.allArrived tid m = false → exec (.migrationMove tid) s = .next s) ∧
    (∀ s1, tm.life ≠ .moving → s.allArrived tid m = true → s.migrTarget tid tm m.n m.kind = (none, s1) →
      exec (.migrationMove tid) s = .next (s1.failMigr tid m.gangs)) ∧
    ∀ img pc pd h s1, tm.life ≠ .moving → s.allArrived tid m = true →
      s.migrTarget tid tm m.n m.kind = (some (img, pc, pd, h), s1) →
      (s1.drained tid = false ∨ s1.now < tm.resumeAt ∨ s1.running tm.ctx = false →
        exec (.migrationMove tid) s = .next s) ∧
      ∀ core runs, s1.allArrived tid m = true → s1.drained tid = true → tm.resumeAt ≤ s1.now → s1.running tm.ctx = true →
        FMap.sorted s1.gangs = true →
        s1.firstFit (s1.migrCores tm m.kind) tm.ctx (s1.versionKey tm) h (s1.teamSizes tid) tm.bins.length = some (core, runs) →
        ∃ t tm', exec (.migrationMove tid) s = .next t ∧ FMap.get? t.teams tid = some tm' ∧ tm'.life = .moving ∧
          tm'.core = core ∧ tm'.kind = coreKind core ∧ tm'.mem = tm.mem ∧ tm'.header = h ∧
          tm'.mig = some { m with goal := some ⟨img, pc, pd, h⟩ } ∧ (tm.life ≠ .saved → (t.core tm.core).gather = []) ∧
          (∀ x ∈ t.gangs, x.2.team = tid → x.2.marks = [] ∧ ∀ l < 64, x.2.rsvOf l = none) ∧
          -- of a tag only bits 35 to 53 follow, its slot and core
          let kept (x y : DWord) : Prop := y = x ∨ (s1.originOf tid tm.core x).isSome = true ∧
            y &&& ~~~(0x7FFFF#64 <<< 35) = x &&& ~~~(0x7FFFF#64 <<< 35)
          (∀ k b, FMap.get? tm.bins k = some b → ∃ b', FMap.get? tm'.bins k = some b' ∧
            b' = { b with threads := b'.threads } ∧ b'.threads.length = b.threads.length ∧
            ∀ (j : Nat) (th : Thread), b.threads[j]? = some th → ∃ th', b'.threads[j]? = some th' ∧ th'.at_ = th.at_ ∧
              th'.pay.length = th.pay.length ∧ ∀ n lo hi, th.pay[2 * n]? = some lo → th.pay[2 * n + 1]? = some hi →
                ∃ lo' hi', th'.pay[2 * n]? = some lo' ∧ th'.pay[2 * n + 1]? = some hi' ∧ kept (hi ++ lo) (hi' ++ lo')) ∧
          ∀ gid g v gr, FMap.get? s1.gangs gid = some g → g.team = tid → g.trap = false →
            FMap.get? s1.grids tm.grid = some gr → FMap.get? (s1.ctx tm.ctx).versions gr.version = some v →
            let pair (g : Gang) (n l : Nat) : DWord := LaneVec.at' (g.vreg (2 * n + 1)) l ++ LaneVec.at' (g.vreg (2 * n)) l
            let two (g : Gang) (n : Nat) : DWord :=
              vget g.s ((2 * n + 1) % 48) (Nat.mod_lt _ (by decide)) ++ vget g.s (2 * n % 48) (Nat.mod_lt _ (by decide))
            ∃ g' g0, FMap.get? t.gangs gid = some g' ∧
              Mapped g g0 ((v.mapFor m.n (s1.gangImage gid g) img.kind).elim [] (·.entries)) ∧
              (∀ n l, l < 64 → kept (pair g0 n l) (pair g' n l)) ∧ (∀ n < 24, kept (two g0 n) (two g' n)) ∧
              g'.p = g0.p ∧ g'.dtb = 0 ∧ g'.dtl = 0) ∧
  (∀ (s : State) tid tm m, FMap.get? s.teams tid = some tm → tm.mig = some m →
    (tm.life ≠ .moving ∨ s.now < tm.resumeAt → exec (.migrationResume tid) s = .next s) ∧
    ∀ img pc pd h gid oid o g, tm.life = .moving → tm.resumeAt ≤ s.now → m.goal = some ⟨img, pc, pd, h⟩ →
      m.gangs = [gid] → s.migrOp gid = some (oid, o) → Op.plain s oid o g → o.gang = gid → (∀ a ∈ o.accs, a.bad = false) →
      tm.bins = [] → tm.batches = [] → s.teamsOn tm.core = [(tid, tm)] → (s.core tm.core).trapWait = [] →
      ∃ t tm' g', exec (.migrationResume tid) s = .next t ∧ FMap.get? t.teams tid = some tm' ∧ tm'.life = .resident ∧
        tm'.mig = none ∧ tm'.header = tm.header ∧ FMap.get? t.gangs gid = some g' ∧ g'.mpc = o.pc ∧ g'.hpc = h.hpc ∧
        (∀ u ∈ g'.units, u.ipc = pc + 16 ∧ u.stop = .run) ∧
        ∀ l < 64, (lowLanes g.width &&& ~~~g.allOf (·.xm)).getLsbD l = true → (Gang.pred g' pd).getLsbD l = true) ∧
  (∀ (s : State) f h k d a, s.frame = some f → Frame.part f h ≠ 0 →
    ∃ t r n, exec (.vqry h k d a) s = .next t ∧ WindowIssued (.vqry h k d a) { s with fresh := s.fresh + 1 } t f r ∧
      r = { pc := f.u.ipc, unit := f.ui, due := some n, writes := [], faults := 0, cause := .overflow
            ask := some (k.toNat, (s.rdU f a 1).setWidth 32, d) } ∧
      s.clock (s.coreOf f.g) < n ∧ n ≤ s.clock (s.coreOf f.g) + match coreKind (s.coreOf f.g) with
        | .banner => 4096
        | .pennant => 10240) ∧
  (∀ feats k (is : List Image),
    let native (i : Image) : Prop := i.kind = CoreKind.image k
    let candidate (i : Image) : Prop := (native i ∨ i.kind = .tamut) ∧ i.genmask.getLsbD 0 = true ∧
      ∀ b < 64, i.req.getLsbD b = true → feats.getLsbD b = true
    let options (i : Image) : Nat := ((List.range 64).filter fun b => i.opt.getLsbD b && feats.getLsbD b).length
    let above (i j : Image) : Prop := (native i ∧ ¬native j) ∨
      (native i ↔ native j) ∧ (j.tune < i.tune ∨ i.tune = j.tune ∧ options j < options i)
    (chooseImage feats k is = none → ∀ i ∈ is, ¬candidate i) ∧
    ∀ n, chooseImage feats k is = some n → ∃ i, is[n]? = some i ∧ candidate i ∧
      ∀ (m : Nat) (j : Image), is[m]? = some j → candidate j → ¬above j i ∧ (m < n → above i j)) ∧
  ∀ (s : State) gid id g r n v d a, FMap.get? s.gangs gid = some g → FMap.get? g.results id = some r → r.due = some n →
    n ≤ s.clock (s.coreOf g) → r.ask = some (0, a, d) → r.writes = [] → r.faults = 0 → g.ended = false →
    s.redoHeld gid id = false → s.versionOf g = some v →
    ∃ t g', exec (.windowedComplete gid id) s = .next t ∧ t = { s with gangs := t.gangs, regPoison := t.regPoison } ∧
      FMap.get? t.gangs gid = some g' ∧ ∀ loc l, loc.real = true → l < 64 → placeVal g' loc l =
        Effect.after { mask := lane 0, regs := wide d 2 fun _ => v.ver + 2 ^ 32 * v.obj }
          ⟨gid, 0, g, { g.units.headD default with hm := false }⟩ loc l (placeVal g loc l)

/-! ### The host, peers, and the hardware's own errors -/

/-- R344, R360, R362, R374, R376, R377: contexts. Only a free one is created, of a device that is ready, only one halted by
itself or a debug stop goes on or steps, the pages named meanwhile resident (log entry 132), and only a halted one ends, when
nothing of it is left and each of its launches, the held ones too, has status 3. `INVAL` is busy until every translation it names has gone from every TLB and cache, and no other. The model's
choices: commands elsewhere are ignored (log entry 42), none is created while `DEVSTAT` bit 0 is clear (log entry 71), what
an end drops (log entry 75), the size of the save area (log entry 22), a write of `INVAL` while it is busy (log entry 47). -/
def Obligations.ContextsAndInvalidation : Prop :=
  (∀ (s : State) c, let x := s.ctx c
    (s.dev.stat.getLsbD 0 = true → c < 64 → x.life = .free → exec (.ctxCreate c) s = .next (s.setCtx c
      { x with life := .running, saveArea := Config.saveArea c })) ∧
    (s.dev.stat.getLsbD 0 = false ∨ 64 ≤ c ∨ x.life ≠ .free → exec (.ctxCreate c) s = .next s) ∧
    (x.life = .halted → x.faulted = false → ∀ va : DWord, x.resident = [va.toNat] → exec (.ctxResume c) s =
      match exec (.ctxResume c) (s.setCtx c { x with resident := [] }) with
      | .next t => exec (.pgres c va) t
      | o => o) ∧
    (x.life = .halted → x.faulted = false → x.resident = [] →
      -- units that a debug stop had stopped go on
      let awake (i : Instr) (step : Bool) : Prop := ∃ t, exec i s = .next t ∧
        t = { s with dies := t.dies, ctxs := t.ctxs, gangs := t.gangs } ∧
        t.ctx c = { x with life := .running, stepping := step } ∧
        ∀ gid g, FMap.get? s.gangs gid = some g → FMap.get? t.gangs gid = some (if s.ctxOf g = c then
          { g with units := g.units.map fun u => { u with stopped := false } } else g)
      awake (.ctxResume c) false ∧ awake (.ctxStep c) true) ∧
    (x.life ≠ .halted ∨ x.faulted = true → exec (.ctxResume c) s = .next s ∧ exec (.ctxStep c) s = .next s) ∧
    (x.life ≠ .halted → exec (.ctxEnd c) s = .next s) ∧
    -- the records of its launches: of its grids, of the host's that is held, of those that its gangs' `launch`es name
    let names (l : Loc) : Prop := (∃ g ∈ s.grids, g.2.ctx = c ∧ g.2.recLoc = l) ∨ x.dirHeld = some l ∨
      ∃ o ∈ s.ops, ∃ va g y, o.2.kind = .launch va ∧ (o.2.gang, g) ∈ s.gangs ∧ (g.team, y) ∈ s.teams ∧ y.ctx = c ∧
        (∃ p ∈ o.2.parts, p.performed = false) ∧ (o.2.accs.head?).map (·.loc) = some l
    (x.life = .halted → ∃ t, exec (.ctxEnd c) s = .next t ∧ (t.ctx c).life = .ended ∧ (∀ g ∈ t.grids, g.2.ctx ≠ c) ∧
      (∀ y ∈ t.teams, y.2.ctx ≠ c) ∧ ((∀ l, names l → ∀ tm o, l ≠ .scratch tm o) → ∀ y ∈ s.teams, y.2.ctx ≠ c → y ∈ t.teams) ∧
      (∀ y ∈ s.teams, y.2.ctx = c → ∀ g ∈ t.gangs, g.2.team ≠ y.1) ∧
      (∀ k, k ≠ c → t.ctx k = s.ctx k) ∧
      (Memory.wf s.mem = true → (∀ l, names l → ∃ h pa, l = .mem h pa ∧ pa % 256 = 0) → ∀ h pa, names (.mem h pa) →
        Memory.readN t.mem (memKey h pa + 248) 8 = leBytes 4 3 ++ leBytes 4 0))) ∧
  (∀ (s : State) c v, (s.ctx c).inval.getLsbD 63 = false →
    exec (.inval c v) s = .next (s.setCtx c { s.ctx c with inval := (v &&& 0x01FFFFFFFFFF0003) ||| 0x8000000000000000 })) ∧
  (∀ (s : State) c, let v := (s.ctx c).inval
    let lo := fun (t : Tlb) => t.page * 2 ^ t.bits
    let bits := if v.toNat % 4 = 0 then 16 else if v.toNat % 4 = 1 then 21 else if v.toNat % 4 = 2 then 30 else 57
    let base := (v.toNat % 2 ^ 57) / 2 ^ bits * 2 ^ bits
    let named := fun (t : Tlb) => t.ctx = c ∧ lo t < base + 2 ^ bits ∧ base < lo t + 2 ^ t.bits
    (v.getLsbD 63 = false → exec (.invalComplete c) s = .next s) ∧
    (v.getLsbD 63 = true → ∃ t, exec (.invalComplete c) s = .next t ∧
      t = { s with cores := t.cores, dies := t.dies, ctxs := t.ctxs } ∧
      t.ctx c = { s.ctx c with inval := v &&& 0x7FFFFFFFFFFFFFFF } ∧
      (∀ x ∈ t.cores, ∀ e ∈ x.2.tlb, ¬named e) ∧ (∀ d < 4, ∀ e ∈ (t.die d).tcache, ¬named e) ∧
      ∀ k e, e ∈ (s.core k).tlb → ¬named e → e ∈ (t.core k).tlb)) ∧
  -- a write of `INVAL` while one is busy finishes that one first (the model's choice, log entry 47)
  ∀ (s : State) c v, (s.ctx c).inval.getLsbD 63 = true → ∃ t, exec (.inval c v) s = .next t ∧
    (t.ctx c).inval = (v &&& 0x01FFFFFFFFFF0003) ||| 0x8000000000000000 ∧ t.mem = s.mem ∧ t.gangs = s.gangs

/-- R81, R226, R372 to R379: registers, windows and commands of the host. A command register that is busy ignores a
write, and its end clears the busy bit: `RESYNC` writes its summary, `ATTEST` a report with the nonce, identity and `ENABLED`,
`FWLOAD` takes the new firmware on result 0 only. Writes through BAR2 and a peer's stores change the bytes they name; a
peer's atomic and element return what stood there. `DEVICE_RESET` leaves the reset machine with what the boot found. The
model's choices: the places in the attestation report (log entry 101) and in the summary (log entry 100), what
`DEVICE_RESET` keeps (log entry 71), the offsets of the engines' control pages (log entry 27), and the home of a byte that
BAR2 reaches, by the placement of its block (log entry 5). -/
def Obligations.HostCommands : Prop :=
  (∀ (s : State) v, (s.dev.resync.getLsbD 63 = true → exec (.resync v) s = .next s) ∧
    (s.dev.resync.getLsbD 63 = false → exec (.resync v) s = .next
      { s with dev := { s.dev with resync := (v &&& 0x7FFFFFFFFFFFF000) ||| 0x8000000000000000 } }) ∧
    (s.dev.attest.getLsbD 63 = true → exec (.attest v) s = .next s) ∧
    (s.dev.attest.getLsbD 63 = false → exec (.attest v) s = .next
      { s with dev := { s.dev with attest := v ||| 0x8000000000000000 } }) ∧
    (s.dev.fwbusy = true → exec (.fwload v) s = .next s) ∧
    (s.dev.fwbusy = false → exec (.fwload v) s = .next
      { s with dev := { s.dev with fwload := v &&& 0x7FFFFFFFFFFFFFFF, fwbusy := true, fwstat := 2 } })) ∧
  (∀ (s : State), (s.dev.resync.getLsbD 63 = false → exec .resyncDone s = .next s) ∧
    (s.dev.resync.getLsbD 63 = true → Memory.wf s.dev.hostMem = true →
      let a := s.dev.resync &&& 0x7FFFFFFFFFFFFFFF
      ∃ t, exec .resyncDone s = .next t ∧ t = { s with dev := t.dev } ∧ t.dev.resync = a ∧
        -- the places of the fields within the spec's ranges are the model's choice (log entry 100)
        let at_ (k n : Nat) : List Byte := Memory.readN t.dev.hostMem (a.toNat + k) n
        at_ 0 8 = [0x50, 0x48, 0x43, 0x4E, 0x53, 0x59, 0x4E, 0x43] ∧ at_ 8 8 = leBytes 8 s.dev.num.toNat ∧
        at_ 16 8 = leBytes 8 s.dev.stat.toNat ∧ at_ 24 8 = leBytes 8 (s.now / 75) ∧ at_ 32 32 = List.replicate 32 0 ∧
        (∀ c < 64, at_ (64 + 16 * c + 1) 1 = leBytes 1 (s.ctx c).weight ∧
          at_ (64 + 16 * c + 4) 8 = leBytes 2 (s.ctx c).syscall.head ++ leBytes 2 (s.ctx c).syscall.tail ++
            leBytes 2 (s.ctx c).faults.head ++ leBytes 2 (s.ctx c).faults.tail ∧
          at_ (64 + 16 * c + 2) 2 = leBytes 2 (s.teams.filter fun y => y.2.ctx == c && y.2.placed).length) ∧
        (∀ d < 4, at_ (1088 + 128 * d) 4 = leBytes 2 (if (s.die d).fenced then 1 else 0) ++ leBytes 2 (s.die d).dtemp.toNat) ∧
        (∀ k < 24, at_ (1600 + 16 * k) 1 = leBytes 1 (s.link k).state) ∧ at_ 1984 2112 = List.replicate 2112 0 ∧
        ∀ q, q < a.toNat ∨ a.toNat + 4096 ≤ q → Memory.read t.dev.hostMem q = Memory.read s.dev.hostMem q) ∧
    (s.dev.attest.getLsbD 63 = false → exec .attestDone s = .next s) ∧
    (s.dev.attest.getLsbD 63 = true → Memory.wf s.dev.hostMem = true →
      let a := s.dev.attest &&& 0x7FFFFFFFFFFFFFFF
      ∃ t, exec .attestDone s = .next t ∧ t = { s with fresh := t.fresh, dev := t.dev } ∧ t.dev.attest = a ∧
        Memory.readN t.dev.hostMem a.toNat 32 =
          Memory.readN s.dev.hostMem (s.dev.nonce &&& 0x7FFFFFFFFFFFFFFF).toNat 32 ∧
        Memory.readN t.dev.hostMem (a.toNat + 40) 16 = leBytes 4 s.dev.part.toNat ++ leBytes 4 0 ++
          leBytes 4 s.dev.keyId.toNat ++ leBytes 4 s.dev.fwver.toNat ∧
        ∃ n, Memory.readN t.dev.hostMem (a.toNat + 56 + n) 8 = leBytes 8 s.dev.featEnabled.toNat)) ∧
  (∀ (s : State) r ver, (s.dev.fwbusy = true → r ≠ 2 →
      let dev : Dev := { s.dev with fwbusy := false, fwstat := r, fwver := if r = 0 then ver else s.dev.fwver }
      exec (.fwloadDone r ver) s = .next { s with dev := dev }) ∧
    (s.dev.fwbusy = false ∨ r = 2 → exec (.fwloadDone r ver) s = .next s)) ∧
  (∀ (s : State) ofs bytes, Memory.wf s.mem = true →
    (∀ k < bytes.length, s.reachable (s.dev.b2base.toNat + (ofs + k)) = true) →
    let key (k : Nat) : Nat := let pa := s.dev.b2base.toNat + (ofs + k)
      memKey (homeOf (s.plcOf pa) pa) pa
    ∃ t, exec (.bar2Write ofs bytes) s = .next t ∧ noRsv t.gangs = noRsv s.gangs ∧ t.teams = s.teams ∧
      (∀ k, k < bytes.length → some (Memory.read t.mem (key k)) = bytes[k]?) ∧
      ∀ q, (∀ k < bytes.length, q ≠ key k) → Memory.read t.mem q = Memory.read s.mem q) ∧
  (∀ (s : State) ofs len, (∀ k < len, s.reachable (s.dev.b2base.toNat + (ofs + k)) = true) → s.filter = [] →
    let byte (k : Nat) : Byte := let pa := s.dev.b2base.toNat + (ofs + k)
      Memory.read s.mem (memKey (homeOf (s.plcOf pa) pa) pa)
    exec (.bar2Read ofs len) s = .next { s with dev := { s.dev with lastRead := (List.range len).map byte } }) ∧
  (∀ (s : State) home pa acc, (2 ^ 39 ≤ pa ∨ (s.die (home % 4)).fenced = true) →
    exec (.systemWindowAccessFromPeer home pa acc) s = .next { s with dev := { s.dev with peerReply := none } }) ∧
  (∀ (s : State) home pa, home < 4 → pa < 2 ^ 39 → (s.die home).fenced = false →
    FMap.get? s.filter (memKey home pa / 64) = none → Memory.wf s.mem = true →
    let said (acc : PeerAccess) (n : Nat) (new reply : List Byte) : Prop :=
      ∃ t, exec (.systemWindowAccessFromPeer home pa acc) s = .next t ∧ t.dev = { s.dev with peerReply := some reply } ∧
        t.teams = s.teams ∧ noRsv t.gangs = noRsv s.gangs ∧ (∀ k < n, some (Memory.read t.mem (memKey home pa + k)) = new[k]?) ∧
        ∀ q, q < memKey home pa ∨ memKey home pa + n ≤ q → Memory.read t.mem q = Memory.read s.mem q
    let old := Memory.readN s.mem (memKey home pa)
    (∀ n, s.isPoisoned (.mem home pa) n = false → said (.load n) 0 [] (old n)) ∧
    (∀ bytes, said (.store bytes) bytes.length bytes []) ∧
    (∀ op x y, s.isPoisoned (.mem home pa) 4 = false → said (.atomic op false x y) 4
      (leBytes 4 (atomicValue op (BitVec.ofNat 32 (leNat (old 4))) (x.setWidth 32) (y.setWidth 32)).toNat) (old 4)) ∧
    ∀ src, said (.element .copy src) 4 (leBytes 4 src.toNat) [] ∧
      (s.isPoisoned (.mem home pa) 4 = false →
        said (.element .addI32 src) 4 (leBytes 4 (BitVec.ofNat 32 (leNat (old 4)) + src).toNat) [])) ∧
  (∀ (s : State) v,
    exec (.registerWrite 0x10018 v) s = .next { s with dev := { s.dev with b2base := v &&& 0x000FFFFFC0000000 } } ∧
    exec (.registerWrite 0x10030 v) s = .next { s with dev := { s.dev with nonce := v &&& 0x7FFFFFFFFFFFFFFF } } ∧
    (∀ c < 64, exec (.registerWrite (0x20000 + 0x400 * c + 0x018) v) s = .next (s.setCtx c { s.ctx c with root := v }) ∧
      exec (.registerWrite (0x20000 + 0x400 * c + 0x020) v) s =
        .next (s.setCtx c { s.ctx c with weight := max 1 (v.toNat % 256) }) ∧
      exec (.registerWrite (0x20000 + 0x400 * c + 0x060) v) s =
        .next (s.setCtx c { s.ctx c with syscall := { (s.ctx c).syscall with base := v } })) ∧
    (∀ d < 4, exec (.registerWrite (0x200018 + 0x20 * d) v) s =
      .next (s.setDie d { s.die d with powcap := min 1000 (v.toNat % 2 ^ 16) })) ∧
    (∀ core < 576, exec (.registerWrite (0x1000800 + 0x1000 * core) v) s = .next (s.setCore core { s.core core with ctr :=
      { (s.core core).ctr with ctl := v.getLsbD 0, vals := if v.getLsbD 1 then [] else (s.core core).ctr.vals } })) ∧
    (∀ d < 4, ∀ n < 4, exec (.registerWrite (0x10000040 + 0x1000 * (4 * d + n)) v) s =
      .next (s.setEngine d n { s.engine d n with xsrc := v.toNat })) ∧
    ∀ ofs, ofs % 8 ≠ 0 → exec (.registerWrite ofs v) s = .next s) ∧
  ∀ (s : State) fw hbm links num, ∃ t, exec (.deviceReset fw hbm links num) s = .next t ∧
    t = { State.reset with fresh := s.fresh, nextId := s.nextId, agenda := s.agenda, dies := t.dies, dev := t.dev } ∧
    t.dev.hostMem = s.dev.hostMem ∧ t.dev.part = s.dev.part ∧ t.dev.keyId = s.dev.keyId ∧ t.dev.htemp = s.dev.htemp ∧
    (∀ d < 4, t.die d = { (State.reset.die d) with
        present := (s.die d).present, dtemp := (s.die d).dtemp, dvolt := (s.die d).dvolt, dproc := (s.die d).dproc } ∧
      t.dev.stat.getLsbD (4 + d) = (s.die d).present) ∧
    t.dev.stat.getLsbD 0 = (fw && hbm) ∧ t.dev.stat.getLsbD 1 = !fw ∧ t.dev.stat.getLsbD 2 = (fw && !hbm) ∧
    t.dev.stat.getLsbD 3 = (fw && hbm && links) ∧ t.dev.num = (if fw && hbm then num else 0)

/-- R339 to R343: errors and tests. An uncorrectable error poisons its sector or register, and one that cannot be pinned
fences its die; a corrected one is counted for its unit; a second failed test, or one after a machine check, fences the
unit, and a fenced unit is tested no more. A slice takes an idle unit, a suspect one that idles before any other; a
feature is lost with the last unit that carries it. The numbers of the units are the model's choice (log entry 43), and which
units carry a feature is too (log entry 44). -/
def Obligations.ErrorsAndTests : Prop :=
  (∀ (s : State) home pa, exec (.uncorrectableError (.sector home pa)) s = .next { s with poison := memKey home pa / 64 :: s.poison }) ∧
  (∀ (s : State) g r l, exec (.uncorrectableError (.reg g r l)) s = .next { s with regPoison := (g, eccPlace r, l) :: s.regPoison }) ∧
  (∀ (s : State) t x sector, FMap.get? s.teams t = some x → exec (.uncorrectableError (.scratch t sector)) s =
    .next (s.setTeam t { x with poison := sector :: x.poison })) ∧
  (∀ (s : State) core k m, FMap.get? (s.core core).slots k = some m → exec (.uncorrectableError (.slot core k)) s =
    .next (s.setCore core { s.core core with slots := FMap.set (s.core core).slots k { m with bad := true } })) ∧
  (∀ (s : State) d, d < 4 → ∃ t, exec (.uncorrectableError (.unpinned d)) s = .next t ∧ (t.die d).fenced = true ∧
    t.dev.stat = s.dev.stat ||| BitVec.ofNat 64 (2 ^ (8 + d)) ∧
    ∀ c x, FMap.get? s.ctxs c = some x → x.life = .running → s.onDie c d = true → (t.ctx c).life = .ended) ∧
  (∀ (s : State) die n, let k := 0x30000 + 4 * die + n
    let counts := FMap.set s.dev.corrected k (FMap.getD s.dev.corrected k 0 + 1)
    exec (.correctedError (.engine die n)) s = .next { s with dev := { s.dev with corrected := counts } }) ∧
  (∀ (s : State) core, ∃ t, exec (.correctedError (.copy core)) s = .next t ∧
    t = { s with dev := t.dev, cores := t.cores } ∧
    t.dev.corrected = FMap.set s.dev.corrected (0x20000 + core) (FMap.getD s.dev.corrected (0x20000 + core) 0 + 1)) ∧
  ∀ (s : State) u, let n := unitNum u
    let l := FMap.getD s.dev.tests n {}
    let logged (k : TestLog) : State := { s with dev := { s.dev with
      tests := FMap.set s.dev.tests n k, testFirst := s.dev.testFirst.filter fun x => x != n } }
    (l.state = 2 ∨ s.idle u = false ∨ (∃ k, s.testNext = some k ∧ k ≠ n) → ∀ b, exec (.testSlice u b) s = .next s) ∧
    (l.state ≠ 2 → s.idle u = true → (∀ k, s.testNext = some k → k = n) →
      exec (.testSlice u true) s = .next (logged { l with passed := l.passed + 1 }) ∧
      (l.failed = 0 → l.checked = false → exec (.testSlice u false) s = .next (logged { l with failed := 1 })) ∧
      (1 ≤ l.failed ∨ l.checked = true →
        -- fenced: the features without a unit that carries them are gone, and no other
        let fenced (core : Nat) (x : CoreState) : Prop := ∃ t, exec (.testSlice u false) s = .next t ∧
          let s' := (logged { l with failed := l.failed + 1, state := 2 }).setCore core x
          t = { s' with dev := t.dev } ∧
          t.dev = { s'.dev with featPresent := t.dev.featPresent, featEnabled := t.dev.featEnabled } ∧
          ∀ b < 64, t.dev.featPresent.getLsbD b = true ↔ s.dev.featPresent.getLsbD b = true ∧
            (b < 4 → ∃ c < 576, coreKind c = .banner ∧ t.coreUp c = true) ∧
            (b = 11 → ∃ c < 576, coreKind c = .pennant ∧ t.coreUp c = true) ∧ (b = 6 → ∃ d < 4, t.enginesUp d ≠ 0)
        (∀ core quad pos, u = .lanes core quad pos → quad < 8 → ∃ up : BitVec 8,
          fenced core { s.core core with quadsUp := up } ∧ ∀ q < 8, up.getLsbD q = ((s.core core).quadsUp.getLsbD q && q != quad)) ∧
        (∀ core, u = .matrix core → fenced core { s.core core with matrixUp := false }) ∧
        ∀ core, u = .copy core → fenced core { s.core core with copyUp := false }))

/-! ### Completion -/

/-- R21, R213 to R220, R260 to R275, R287 to R289, R300 to R313, R360 to R370, R344, R345: the system's words and events
complete. `trp` takes its value; a complete troupe's `mma` arrives, is granted leave, and is released with its word issued
in every member, its block steps run, and its last step leaves a free slot; `eqp` records its number and moves on; `migr`
writes true for the kind its team is on, and the rendezvous moves its team, resumes it, or ends at its deadline; `vqry`
issues; `brk` stops its context and `trc` and `pmk` move on, each by its enable bit; copies and multicasts land; `DIRSTART`
starts a grid; grids retire, queue heads are placed, named teams are saved, and a context halts. -/
def Obligations.SystemFormsComplete : Prop :=
  let done (i : Instr) (s : State) (p : State → Prop) : Prop := ∃ t, exec i s = .next t ∧ p t
  -- the unit of a frame, and its gang, afterwards
  let left (t : State) (f : Frame) (p : Gang → UnitState → Prop) : Prop :=
    ∃ g u, FMap.get? t.gangs f.gid = some g ∧ g.units[f.ui]? = some u ∧ p g u
  (∀ (s : State) f h a x, s.frame = some f → s.headerOf f.g = some x → f.g.trap = false →
    let v : Word := (s.rdU f a 1).setWidth 32
    let member (k : Nat) : Nat := v.toNat / 2 ^ 7 % 128 + k * (v.toNat / 2 ^ 16 % 128)
    (v = 0 ∨ 2 ≤ v.toNat % 8 ∧ v.toNat % 8 ≤ 6 ∧ 1 ≤ v.toNat / 2 ^ 16 % 128 ∧ v.toNat < 2 ^ 23 ∧ v.toNat / 2 ^ 14 % 4 = 0 ∧
      v.toNat / 2 ^ 3 % 16 = 0 ∧ (∀ k < v.toNat % 8, member k < x.team) ∧
      ∀ j ∈ f.groups, ∃ k < v.toNat % 8, member k = f.g.grpn + j) →
    done (.trp h a) s fun t => left t f fun g u => g.trp = v ∧ u.ipc = f.u.ipc + 8) ∧
  (∀ (s : State) f h et sm sel ov z a b c r m ms y, s.frame = some f → f.g.trp ≠ 0 → s.atOdds f = [] →
    let i : Instr := .mma h et sm sel ov z a b c r
    let core := s.coreOf f.g
    let held := s.put { f with u := { f.u with stop := .troupe } }
    held.troupe f.g.team f.g.trp .troupe = some (m :: ms) → held.frameOf m.1 m.2.1 = some y →
    held.instrAt y.g y.u.ipc = some i → held.mmaCheck (m :: ms) i = none →
    s.running (s.ctxOf f.g) = true → (s.core core).slots.length < 8 → (∀ g ∈ s.gangs, ∀ u ∈ g.2.units, u.stop ≠ .mleave) → (s.die (coreDie core)).leave = [] →
    FMap.sorted s.gangs = true →
    ∃ t t' t'' slot q, exec i s = .next t ∧ exec (.leaveGrant (coreDie core)) t = .next t' ∧
      exec (.troupeRelease core f.gid) t' = .next t'' ∧ FMap.get? (s.core core).slots slot = none ∧
      FMap.get? (t''.core core).slots slot = some q ∧ q.word = i ∧ q.step = 0 ∧ q.members.length = ms.length + 1 ∧
      ∀ x ∈ m :: ms, ∃ k y', s.frameOf x.1 x.2.1 = some k ∧ t''.frameOf x.1 x.2.1 = some y' ∧
        y'.u.ipc = k.u.ipc + 8 ∧ y'.u.stop = .run ∧ FMap.get? y'.g.results q.res ≠ none) ∧
  (∀ (s : State) core slot m, (s.core core).matBusy ≤ s.clock core → s.failingSlot core = none → s.nextSlot core = some (slot, m) → m.bad = false →
    m.checksOk = true → FMap.get? s.glitches (2 * core + 1) = none →
    (∀ i < 8 * m.members.length, ∀ j < 8 * m.members.length, (m.element m.step i j).2 = false) →
    done (.mmaBlockStep core) s fun t => (FMap.get? (t.core core).slots slot).map (·.step) = some (m.step + 1)) ∧
  (∀ (s : State) core slot m h et sm sel ov z a b c r, FMap.get? (s.core core).slots slot = some m → m.step = 4 →
    m.ready ≤ s.clock core → m.word = .mma h et sm sel ov z a b c r → (m.pcs.map (·.1)).Nodup →
    (∀ p ∈ m.pcs, ∀ g, FMap.get? s.gangs p.1 = some g → g.ended = false) →
    (∀ g ∈ s.gangs, ∀ u ∈ g.2.units, u.stop ≠ .troupe) →
    done (.mmaComplete core slot) s fun t => (t.core core).slots = FMap.erase (s.core core).slots slot ∧
      ∀ p ∈ m.pcs, ∀ g, FMap.get? t.gangs p.1 = some g → ∀ k ∈ g.marks, k.till ≠ .result m.res) ∧
  (∀ (s : State) f h n, s.frame = some f → s.writing f.g = false →
    done (.eqp h n) s fun t => left t f fun g u => g.eqid = n.setWidth 32 ∧
      u.ipc = 8 + match s.eqpSwap f n.toNat with
        | none => f.u.ipc
        | some (pc, _) => pc) ∧
  (∀ (s : State) f h pd kind a n, s.frame = some f → s.eqpBefore f = some n → coreKind (s.coreOf f.g) = kind →
    f.g.ended = false → s.migrOp f.gid = none → (∀ o ∈ s.ops, o.1 < s.nextId) → FMap.sorted s.ops = true →
    (s.ctx (s.ctxOf f.g)).ctl.getLsbD 5 = false →
    done (.migr h pd kind a) s fun t => left t f fun g u => u.ipc = f.u.ipc + 8 ∧
      ∀ l < 64, f.g.liveLanes.getLsbD l = true → (Gang.pred g pd).getLsbD l = true) ∧
  (∀ (s : State) tid tm m gid oid o g pd, FMap.get? s.teams tid = some tm → tm.mig = some m → tm.life ≠ .moving →
    m.deadline ≤ s.now → s.tryMove tid = none → m.gangs = [gid] → s.migrOp gid = some (oid, o) → Op.plain s oid o g →
    o.gang = gid → (∀ a ∈ o.accs, a.bad = false) → o.kind = .migr pd → FMap.sorted s.ops = true →
    done (.migrationBudgetExpiry tid) s fun t => FMap.get? t.ops oid = none ∧
      (FMap.get? t.teams tid).map (·.mig) = some none) ∧
  (∀ (s s1 : State) tid tm m img pc pd h core runs, FMap.get? s.teams tid = some tm → tm.mig = some m → tm.life ≠ .moving →
    s.allArrived tid m = true → s.migrTarget tid tm m.n m.kind = (some (img, pc, pd, h), s1) → s1.allArrived tid m = true →
    s1.drained tid = true → tm.resumeAt ≤ s1.now → s1.running tm.ctx = true → FMap.sorted s1.gangs = true →
    s1.firstFit (s1.migrCores tm m.kind) tm.ctx (s1.versionKey tm) h (s1.teamSizes tid) tm.bins.length = some (core, runs) →
    done (.migrationMove tid) s fun t => (FMap.get? t.teams tid).map (fun x => (x.life, x.core)) = some (.moving, core)) ∧
  (∀ (s : State) tid tm m img pc pd h gid oid o g, FMap.get? s.teams tid = some tm → tm.mig = some m → tm.life = .moving →
    tm.resumeAt ≤ s.now → m.goal = some ⟨img, pc, pd, h⟩ → m.gangs = [gid] → s.migrOp gid = some (oid, o) →
    Op.plain s oid o g → o.gang = gid → (∀ a ∈ o.accs, a.bad = false) → tm.bins = [] → tm.batches = [] →
    s.teamsOn tm.core = [(tid, tm)] → (s.core tm.core).trapWait = [] →
    done (.migrationResume tid) s fun t => (FMap.get? t.teams tid).map (·.life) = some .resident ∧
      ∃ g', FMap.get? t.gangs gid = some g' ∧ ∀ u ∈ g'.units, u.ipc = pc + 16 ∧ u.stop = .run) ∧
  (∀ (s : State) f h k d a, s.frame = some f → Frame.part f h ≠ 0 →
    done (.vqry h k d a) s fun t => left t f fun g u => u.ipc = f.u.ipc + 8 ∧
      ∃ r n, FMap.get? g.results s.nextId = some r ∧ r.due = some n ∧ n ≤ s.clock (s.coreOf f.g) + match coreKind (s.coreOf f.g) with
        | .banner => 4096
        | .pennant => 10240) ∧
  (∀ (s : State) f, s.frame = some f →
    let x := s.ctx (s.ctxOf f.g)
    (∀ h code, x.life = .running → x.down = none → Frame.part f h ≠ 0 → x.ctl.getLsbD 4 = true →
      done (.brk h code) s fun t => ((t.ctx (s.ctxOf f.g)).down.map (·.reason)) = some 2 ∧
        left t f fun _ u => u.ipc = f.u.ipc + 8) ∧
    (∀ h code, Frame.part f h = 0 ∨ x.ctl.getLsbD 4 = false →
      done (.brk h code) s fun t => left t f fun _ u => u.ipc = f.u.ipc + 8) ∧
    (∀ h code a, done (.trc h code a) s fun t => left t f fun _ u => u.ipc = f.u.ipc + 8) ∧
    (∀ h clr d a, Legal (.pmk h clr d a) f = true → Frame.part f h ≠ 0 → x.ctl.getLsbD 8 = true →
      done (.pmk h clr d a) s fun t => left t f fun _ u => u.ipc = f.u.ipc + 8) ∧
    ∀ k, s.breakpoint f = some k → x.life = .running → x.down = none →
      done .breakpointStop s fun t => ((t.ctx (s.ctxOf f.g)).down.map (·.reason)) = some 2 ∧
        left t f fun _ u => u.ipc = f.u.ipc ∧ u.bpSkip = some f.u.ipc) ∧
  (∀ (s : State) c x rest, (s.ctx c).samples = x :: rest → done (.sampleRecord c) s fun t => (t.ctx c).samples = rest) ∧
  (∀ (s : State) core, done (.counterClear core) s fun t => (t.core core).ctr.vals = []) ∧
  (∀ (s : State) d r rest f, (s.die d).leave = r :: rest → s.frameOf r.gang r.unit = some f → r.troupe = false →
    f.u.stop = .leave → s.gangFrozen r.gang = false →
    done (.leaveGrant d) s fun t => (t.die d).leave = rest ∧ left t f fun _ u => u.leave = true ∧ u.stop = .run) ∧
  (∀ (s : State) id o k u r a x va b y vb ta tb, FMap.get? s.ops id = some o → o.units[k]? = some u → u.done = false →
    (∃ p ∈ o.parts, p.grp = u.grp ∧ p.performed = true) → u.reqs = [r] → r.src = .scratch a x va → r.dst = .scratch b y vb →
    FMap.get? s.teams a = some ta → FMap.get? s.teams b = some tb → ta.life ≠ .moving → tb.life ≠ .moving →
    s.isPoisoned (.scratch a x) r.size = false → Memory.wf tb.mem = true →
    (∃ j v, j ≠ k ∧ o.units[j]? = some v ∧ v.done = false) →
    done (.transferUnitLand id k) s fun t =>
      ∀ j < r.size, r.own[j]? = some true → t.scratchByte b (y + j) = s.scratchByte a (x + j)) ∧
  (∀ (s : State) id o dst src n ranks, FMap.get? s.ops id = some o → o.kind = .cpm dst src n ranks → o.claimed = false →
    (∀ p ∈ o.parts, p.performed = true) → (∀ x ∈ s.ops, x.1 ≠ id → ∀ ds sr m rk, x.2.kind ≠ .cpm ds sr m rk) →
    (∀ l ∈ s.cpmLines o o.pending, s.lineEmpty l.1 l.2 = true ∧ ∃ tm, FMap.get? s.teams l.1 = some tm ∧ tm.life ≠ .moving) →
    done (.multicastClaim id) s fun t => (FMap.get? t.ops id).map (·.claimed) = some true ∧
      ∀ l ∈ s.cpmLines o o.pending, (t.lineOf l.1 l.2).pend = 32) ∧
  (∀ (s : State) id o rank line tm n x, FMap.get? s.ops id = some o → o.claimed = true → (rank, line) ∈ o.pending →
    s.cpmLines o [(rank, line)] = [(tm, n)] → FMap.get? s.teams tm = some x → Memory.wf x.mem = true →
    128 * line + 128 ≤ o.buf.length →
    done (.multicastLineLand id rank line) s fun t => (t.lineOf tm n).full = true ∧ (t.lineOf tm n).pend = 0 ∧
      ∀ k < 128, some (t.scratchByte tm (128 * n + k)) = o.buf[128 * line + k]?) ∧
  (∀ (s : State) c va h pa key v x, s.running c = true → (s.ctx c).dirGrid = none → (s.ctx c).dirHeld = none →
    va.toNat % 256 = 0 → va.toNat < 0x00FE000000000000 → s.vaLoc c va.toNat true = some (.mem h pa) →
    (∀ k < 4, FMap.get? s.filter (memKey h (pa + 64 * k) / 64) = none) →
    let r := LaunchRec.parse (Memory.readN s.mem (memKey h pa) 256)
    r.kind = 1 → s.versionFor c r = some (key, v) → r.ok v = true →
    (v.chosen .pennant).bind (fun i => i.header r.func) = some x → s.diesOf r.dmask ≠ [] →
    canEver .pennant x (gangSizes x (r.groups x)) = true → (s.grids.filter fun y => y.2.ctx == c).length < 65536 →
    (∀ e ∈ s.grids, e.1 < s.nextId) →
    done (.dirstart c va) s fun t => (t.ctx c).dirStatus = 0 ∧ (t.ctx c).dirGrid = some s.nextId ∧
      (FMap.get? t.grids s.nextId).map (fun g => (g.ctx, g.lr, g.placed)) = some (c, r, 0)) ∧
  (∀ (s : State) n g h pa, FMap.get? s.grids n = some g → g.placed = g.lr.ncl →
    (∀ t ∈ s.teams, t.2.grid = n → t.2.life = .exited ∧ ∀ x ∈ s.gangs, x.2.team ≠ t.1) → g.op = none →
    (s.ctx g.ctx).dirHeld = none → s.frozen g.ctx = false → g.recLoc = .mem h pa → Memory.wf s.mem = true → pa % 256 = 0 →
    done (.gridRetire n) s fun t => t.grids = FMap.erase s.grids n ∧ Memory.readN t.mem (memKey h pa + 248) 8 = leBytes 8 0) ∧
  (∀ (s : State) d c k q rest g core runs, d < 4 → s.running c = true →
    (∀ x ∈ s.ctxs, x.1 ≠ c → s.running x.1 = true → s.furtherBelow d x.1 c = false) → s.savedTeams d c = [] →
    (s.die d).starved = [] → k < 4 → (∀ j, k < j → j < 4 → FMap.getD (s.die d).queues (4 * c + j) [] = []) →
    FMap.getD (s.die d).queues (4 * c + k) [] = q :: rest → FMap.get? s.grids q.grid = some g → g.lr.kind = 1 →
    s.firstFit (coresOf d .pennant) c g.version g.header (gangSizes g.header (g.lr.groups g.header)) 0 = some (core, runs) →
    done (.placementDecision d c) s fun t => (FMap.get? t.grids q.grid).map (·.placed) = some (g.placed + 1) ∧
      (FMap.get? t.teams s.nextId).map (fun x => (x.life, x.core)) = some (.resident, core)) ∧
  (∀ (s : State) tid tm, FMap.get? s.teams tid = some tm → s.savable tid tm = true →
    (s.evictForClass (coreDie tm.core) tm || s.evictForGrid (coreDie tm.core) tm ||
      s.evictForContext (coreDie tm.core) tm || s.evictForFence tid tm) = true →
    ((s.teams.filter fun x => x.2.ctx == tm.ctx && x.2.life == .saved).map fun x => s.teamBytes x.1 x.2).sum +
      s.teamBytes tid tm ≤ (s.ctx tm.ctx).saveArea →
    done (.teamSave tid) s fun t => (FMap.get? t.teams tid).map (·.life) = some .saved) ∧
  (∀ (s : State) d c k at_, FMap.get? (s.die d).headAt (4 * c + k) = some at_ → s.running c = true →
    (s.die d).starved.contains (4 * c + k) = false → at_ + 2 ^ 20 * 75 ≤ s.now →
    done (.queueHeadStarvation d c k) s fun t => 4 * c + k ∈ (t.die d).starved) ∧
  (∀ (s : State) f h a, s.frame = some f → Frame.part f h ≠ 0 → (s.ctx (s.ctxOf f.g)).life = .running →
    (s.ctx (s.ctxOf f.g)).down = none →
    done (.halt h a) s fun t => ((t.ctx (s.ctxOf f.g)).down.map fun w => (w.reason, w.pc)) = some (1, f.u.ipc) ∧
      left t f fun _ u => u.ipc = f.u.ipc + 8) ∧
  (∀ (s : State) c d, (s.ctx c).down = some d →
    done (.flagDown c) s fun t => (t.ctx c).life = .halting ∧ (t.ctx c).down = none ∧ (t.ctx c).reason = d.reason) ∧
  ∀ (s : State) c, (s.ctx c).life = .halting → (∀ o ∈ s.ops, ∀ g, FMap.get? s.gangs o.2.gang = some g → s.ctxOf g ≠ c) →
    (∀ g ∈ s.gangs, ∀ x, FMap.get? s.gangs g.1 = some x → s.ctxOf x = c →
      g.2.results = [] ∧ g.2.aglNext = none ∧ s.redoing g.1 = false) →
    done (.contextHalted c) s fun t => (t.ctx c).life = .halted

/-! ### The values of float words -/

/-- R148 to R151, R160 to R162, R166 to R169: what the float words and conversions give. A word of a float type acts on each
element, the register, its low 16 bits, or each half; a trap in either half traps. On finite elements each result is the exact
sum, difference, product, fused sum, quotient, reciprocal, root or reciprocal root, rounded once; `fex2` and `flg2` are so at
the points where their value is a power of two or an integer; `frnd` gives the integer its mode names with the sign kept.
NaN, infinities and zeros give what R162 lists. A conversion rounds the source's value into the destination, and an integer
destination takes a value in range as it is, and by policy what is not. -/
def Obligations.FloatValues : Prop :=
  (∀ t : Ty, t.isFloat = true → ∀ rm ov (a b c : DWord),
    let f := elemFmt t
    let x (k : Nat) : FVal := f.read (elemBits t a k)
    let y (k : Nat) : FVal := f.read (elemBits t b k)
    let z (k : Nat) : FVal := f.read (elemBits t c k)
    fltAdd t rm ov a b = elemResult t (fun k => f.addV rm ov (x k) (y k)) ∧
    fltSub t rm ov a b = elemResult t (fun k => f.addV rm ov (x k) (negV (y k))) ∧
    fltMul t rm ov a b = elemResult t (fun k => f.roundV rm ov (mulV (x k) (y k))) ∧
    fltFma t rm ov a b c = elemResult t (fun k => f.addV rm ov (mulV (x k) (y k)) (z k)) ∧
    fltDiv t rm ov a b = elemResult t (fun k => f.divV rm ov (x k) (y k)) ∧
    fltRcp t rm ov a = elemResult t (fun k => f.divV rm ov (.num false 1 0) (x k)) ∧
    fltRsq t rm a = elemResult t (fun k => f.rsqV rm (x k)) ∧ fltSqrt t rm a = elemResult t (fun k => f.sqrtV rm (x k)) ∧
    fltEx2 t rm ov a = elemResult t (fun k => f.exp2V rm ov (x k)) ∧ fltLg2 t rm a = elemResult t (fun k => f.log2V rm (x k)) ∧
    fltRnd t rm a = elemResult t (fun k => f.rndV rm (x k)) ∧
    fltMin t a b = elemResult t (fun k => (f.minmax false (elemBits t a k) (elemBits t b k), false)) ∧
    fltMax t a b = elemResult t (fun k => (f.minmax true (elemBits t a k) (elemBits t b k), false)) ∧
    (∀ cc, t = .f32 ∨ t = .f16 ∨ t = .bf16 → fltCmp cc t a b = f.cmp cc (elemBits t a 0) (elemBits t b 0)) ∧
    (fltClass t a).toNat = f.cls (elemBits t a 0) +
      if t = .f16x2 ∨ t = .bf16x2 then 2 ^ 16 * f.cls (elemBits t a 1) else 0) ∧
  (∀ f ∈ [fmt32, fmt16, fmtB16], ∀ rm ov a b c (x y z : ℚ), f.holds a x → f.holds b y → f.holds c z →
    let p := f.read a
    let q := f.read b
    let r := f.read c
    let sum (v w : FVal) : FRes := f.addV rm ov v w
    -- a sum of exactly 0: zeros of one sign keep it
    let none_ (v w : FVal) (both : Prop) (t : FRes) : Prop :=
      (both → v.neg = w.neg → t = (f.sign v.neg, false)) ∧ (¬both ∨ v.neg ≠ w.neg → t = (f.sign (rm == .rdn), false))
    (x + y ≠ 0 → f.rounds rm ov (x + y) (sum p q)) ∧ (x + y = 0 → none_ p q (x = 0) (sum p q)) ∧
    (x - y ≠ 0 → f.rounds rm ov (x - y) (sum p (negV q))) ∧ (x - y = 0 → none_ p (negV q) (x = 0) (sum p (negV q))) ∧
    (x * y ≠ 0 → f.rounds rm ov (x * y) (f.roundV rm ov (mulV p q))) ∧
    (x * y = 0 → f.roundV rm ov (mulV p q) = (f.sign (p.neg != q.neg), false)) ∧
    (x * y + z ≠ 0 → f.rounds rm ov (x * y + z) (sum (mulV p q) r)) ∧
    (x * y + z = 0 → none_ (.num (p.neg != q.neg) 0 0) r (z = 0) (sum (mulV p q) r)) ∧
    (x ≠ 0 → y ≠ 0 → f.rounds rm ov (x / y) (f.divV rm ov p q)) ∧
    (x ≠ 0 → f.rounds rm ov (1 / x) (f.divV rm ov (.num false 1 0) p)) ∧
    (0 < x → f.rounds rm .sat (Real.sqrt x) (f.sqrtV rm p) ∧ f.rounds rm .sat (1 / Real.sqrt x) (f.rsqV rm p)) ∧
    (x < 0 → f.sqrtV rm p = (f.canon, false) ∧ f.rsqV rm p = (f.canon, false) ∧ f.log2V rm p = (f.canon, false)) ∧
    (∀ n : ℤ, x = n → f.rounds rm ov ((2 : ℝ) ^ n) (f.exp2V rm ov p)) ∧
    (∀ n : ℤ, x = (2 : ℚ) ^ n → (n = 0 → f.log2V rm p = (0, false)) ∧ (n ≠ 0 → f.rounds rm .sat n (f.log2V rm p))) ∧
    ∃ n : ℤ, nearestInt rm x n ∧ f.holds (f.rndV rm p).1 n ∧ (f.rndV rm p).2 = false ∧ (f.read (f.rndV rm p).1).neg = p.neg) ∧
  (∀ f ∈ [fmt32, fmt16, fmtB16], ∀ rm ov, let one : FVal := .num false 1 0
    (∀ s, f.divV rm ov one (.nan s) = (f.canon, false) ∧ f.rsqV rm (.nan s) = (f.canon, false) ∧
      f.sqrtV rm (.nan s) = (f.canon, false) ∧ f.exp2V rm ov (.nan s) = (f.canon, false) ∧
      f.log2V rm (.nan s) = (f.canon, false) ∧ f.rndV rm (.nan s) = (f.canon, false)) ∧
    (∀ neg e, f.divV rm ov one (.num neg 0 e) = (f.infty neg, false) ∧ f.rsqV rm (.num neg 0 e) = (f.infty neg, false) ∧
      f.sqrtV rm (.num neg 0 e) = (f.sign neg, false) ∧ f.log2V rm (.num neg 0 e) = (f.infty true, false)) ∧
    (∀ neg, f.divV rm ov one (.inf neg) = (f.sign neg, false) ∧ f.rndV rm (.inf neg) = (f.infty neg, false)) ∧
    f.rsqV rm (.inf true) = (f.canon, false) ∧ f.sqrtV rm (.inf true) = (f.canon, false) ∧
    f.exp2V rm ov (.inf true) = (0, false) ∧ f.log2V rm (.inf true) = (f.canon, false) ∧
    f.rsqV rm (.inf false) = (0, false) ∧ f.sqrtV rm (.inf false) = (f.infty false, false) ∧
    f.exp2V rm ov (.inf false) = (f.infty false, false) ∧ f.log2V rm (.inf false) = (f.infty false, false) ∧
    (∀ neg e z, f.addV rm ov (mulV (.inf neg) (.num neg 0 e)) z = (f.canon, false) ∧
      f.addV rm ov (mulV (.num neg 0 e) (.inf neg)) z = (f.canon, false))) ∧
  (∀ (d s : Ty) rm ov (a c : DWord),
    let x := cvtVal d s rm ov a c
    let of (r : DWord) (k : Nat) : FRes := (elemFmt d).roundV rm ov ((elemFmt s).read (elemBits s r k))
    (d ≠ s → d ∈ [Ty.f32, .f16, .bf16] → s ∈ [Ty.f32, .f16, .bf16] → x = elemResult d (of a)) ∧
    (d ≠ s → d ∈ [Ty.f16x2, .bf16x2] → s ∈ [Ty.f16x2, .bf16x2] → x = elemResult d (of a)) ∧
    (d ∈ [Ty.f16x2, .bf16x2] → s = .f32 → x = elemResult d fun k => of (if k = 0 then a else c) 0) ∧
    (∀ v : ℚ, (elemFmt s).holds (elemBits s a 0) v →
      (v ≠ 0 → (elemFmt d).rounds rm ov v (of a 0)) ∧
      (v = 0 → of a 0 = ((elemFmt d).sign ((elemFmt s).read (elemBits s a 0)).neg, false))) ∧
    (d.isInt = true → s ∈ [Ty.f32, .f16, .bf16] → let value := (elemFmt s).read (elemBits s a 0)
      (∀ v : ℚ, (elemFmt s).holds (elemBits s a 0) v → ∃ n : ℤ, nearestInt rm v n ∧ x = intFit d ov n false) ∧
      (∀ k, value = .nan k → (ov = .sat → x = (0, false)) ∧ (ov = .trap → x.2 = true) ∧
        (ov = .inf ∨ ov = .nan → x = (ofInt d (if d.isSigned then Ty.minInt d else -1), false))) ∧
      ∀ neg, value = .inf neg → (ov = .sat → x = (ofInt d (if neg then Ty.minInt d else Ty.maxInt d), false)) ∧
        (ov = .trap → x.2 = true) ∧
        (ov = .inf ∨ ov = .nan → x = (ofInt d (if d.isSigned then Ty.minInt d else -1), false))) ∧
    (s.isInt = true → let n : ℤ := if s.isSigned then (a.setWidth (Ty.width s)).toInt else (a.setWidth (Ty.width s)).toNat
      (d.isInt = true → d ≠ s → x = intFit d ov n true) ∧
      (d ∈ [Ty.f32, .f16, .bf16] → ∃ r, x = elemResult d (fun _ => r) ∧ (n = 0 → r = (0, false)) ∧
        (n ≠ 0 → (elemFmt d).rounds rm ov n r)))) ∧
  ∀ d : Ty, d.isInt = true → ∀ (n : ℤ) ov exact, Ty.minInt d ≤ n → n ≤ Ty.maxInt d →
    (intFit d ov n exact).2 = false ∧
    let r := (intFit d ov n exact).1.setWidth (max 32 (Ty.width d))
    if d.isSigned = true then r.toInt = n else (r.toNat : ℤ) = n
end

