-- ==== Sys2Proof/Laws/Map.lean ====
section
/-! SUPPORT. Maps and memories: a read after a write, independence of keys, and that every memory operation keeps the
canonical form `Memory.wf`. -/

namespace Sys2Proof.Machine

/-! ### Reading what was written -/

@[simp] theorem FMap.get?_set_self {α : Type} (m : FMap α) (n : Nat) (v : α) : FMap.get? (FMap.set m n v) n = some v := by
  induction m with
  | nil => simp [FMap.set, FMap.get?]
  | cons c m ih =>
    obtain ⟨k, w⟩ := c
    simp only [FMap.set]
    split
    · simp [FMap.get?]
    · split
      · simp [FMap.get?]
      · rename_i h; simp [FMap.get?, Ne.symm h, ih]

theorem FMap.get?_set_ne {α : Type} (m : FMap α) {n k : Nat} (v : α) (h : k ≠ n) :
    FMap.get? (FMap.set m n v) k = FMap.get? m k := by
  induction m with
  | nil => simp [FMap.set, FMap.get?, h.symm]
  | cons c m ih =>
    obtain ⟨j, w⟩ := c
    simp only [FMap.set]
    split
    · simp [FMap.get?, h.symm]
    · split
      · rename_i h'; subst h'; simp [FMap.get?, h.symm]
      · simp [FMap.get?, ih]

theorem FMap.get?_set {α : Type} (m : FMap α) (n k : Nat) (v : α) :
    FMap.get? (FMap.set m n v) k = if k = n then some v else FMap.get? m k := by
  split
  · subst k; exact FMap.get?_set_self m n v
  · exact FMap.get?_set_ne m v ‹_›

@[simp] theorem FMap.set_set {α : Type} (m : FMap α) (n : Nat) (v w : α) :
    FMap.set (FMap.set m n v) n w = FMap.set m n w := by
  induction m with
  | nil => simp [FMap.set]
  | cons c m ih =>
    obtain ⟨k, x⟩ := c
    simp only [FMap.set]
    split
    · simp [FMap.set]
    · split
      · rename_i h _; simp [FMap.set]
      · rename_i h h'; simp [FMap.set, h, h', ih]

theorem FMap.set_get? {α : Type} (m : FMap α) (n : Nat) (v : α) (h : FMap.get? m n = some v) (hs : FMap.sorted m = true) :
    FMap.set m n v = m := by
  induction m with
  | nil => simp [FMap.get?] at h
  | cons c m ih =>
    obtain ⟨k, w⟩ := c
    simp only [FMap.get?] at h
    simp only [FMap.set]
    split at h
    · subst k; cases h; simp
    · rename_i hk
      have hlt : ¬ n < k := by
        intro hlt
        have : ∀ (m : FMap α) (j : Nat) (w : α), FMap.sorted ((j, w) :: m) = true → n < j → FMap.get? m n = none := by
          intro m
          induction m with
          | nil => intros; rfl
          | cons d m ih' =>
            obtain ⟨j', w'⟩ := d
            intro j w hs hj
            simp only [FMap.sorted, Bool.and_eq_true, decide_eq_true_eq] at hs
            simp only [FMap.get?]
            rw [if_neg (by omega)]
            exact ih' j' w' hs.2 (by omega)
        rw [this m k w hs hlt] at h; cases h
      have hs' : FMap.sorted m = true := by
        cases m with
        | nil => rfl
        | cons d m => simp only [FMap.sorted, Bool.and_eq_true] at hs; exact hs.2
      simp [hlt, Ne.symm hk, ih h hs']

@[simp] theorem FMap.getD_set_self {α : Type} (m : FMap α) (n : Nat) (v d : α) : FMap.getD (FMap.set m n v) n d = v := by
  simp [FMap.getD]

theorem FMap.getD_set_ne {α : Type} (m : FMap α) {n k : Nat} (v d : α) (h : k ≠ n) :
    FMap.getD (FMap.set m n v) k d = FMap.getD m k d := by
  simp [FMap.getD, FMap.get?_set_ne m v h]

/-- `adjust` on a key that is there. -/
theorem FMap.adjust_some {α : Type} (m : FMap α) (n : Nat) (k : α → α) (v : α) (h : FMap.get? m n = some v) :
    FMap.adjust m n k = FMap.set m n (k v) := by
  simp [FMap.adjust, h]

/-- `adjust` on a key that is not there. -/
theorem FMap.adjust_none {α : Type} (m : FMap α) (n : Nat) (k : α → α) (h : FMap.get? m n = none) :
    FMap.adjust m n k = m := by
  simp [FMap.adjust, h]

/-- What `adjust` leaves at every key. -/
theorem FMap.get?_adjust {α : Type} (m : FMap α) (n j : Nat) (k : α → α) :
    FMap.get? (FMap.adjust m n k) j = if j = n then (FMap.get? m n).map k else FMap.get? m j := by
  unfold FMap.adjust
  split
  · rename_i h; split <;> simp_all
  · rename_i v h; rw [FMap.get?_set]; split <;> simp_all

/-! ### The canonical form -/

/-- Keys of a sorted map are above a bound. -/
def FMap.above {α : Type} (b : Nat) (m : FMap α) : Prop := ∀ c ∈ m, b < c.1

theorem FMap.sorted_cons {α : Type} (k : Nat) (v : α) (m : FMap α) :
    FMap.sorted ((k, v) :: m) = true ↔ FMap.above k m ∧ FMap.sorted m = true := by
  induction m generalizing k v with
  | nil => simp [FMap.sorted, FMap.above]
  | cons c m ih =>
    obtain ⟨j, w⟩ := c
    simp only [FMap.sorted, Bool.and_eq_true, decide_eq_true_eq, ih]
    constructor
    · rintro ⟨h, ha, hs⟩
      refine ⟨?_, ha, hs⟩
      intro c hc
      rcases List.mem_cons.1 hc with rfl | hc
      · exact h
      · exact Nat.lt_trans h (ha c hc)
    · rintro ⟨ha, hs⟩
      exact ⟨ha (j, w) (by simp), hs⟩

theorem FMap.mem_set {α : Type} (m : FMap α) (n : Nat) (v : α) (c : Nat × α) (h : c ∈ FMap.set m n v) :
    c = (n, v) ∨ c ∈ m := by
  induction m with
  | nil => simpa [FMap.set] using h
  | cons d m ih =>
    obtain ⟨k, w⟩ := d
    simp only [FMap.set] at h
    split at h
    · simpa using h
    · split at h
      · rcases List.mem_cons.1 h with h | h
        · exact .inl h
        · exact .inr (by simp [h])
      · rcases List.mem_cons.1 h with h | h
        · exact .inr (by simp [h])
        · rcases ih h with h | h
          · exact .inl h
          · exact .inr (by simp [h])

theorem FMap.mem_erase {α : Type} (m : FMap α) (n : Nat) (c : Nat × α) (h : c ∈ FMap.erase m n) : c ∈ m := by
  induction m with
  | nil => simp [FMap.erase] at h
  | cons d m ih =>
    obtain ⟨k, w⟩ := d
    simp only [FMap.erase] at h
    split at h
    · simp [h]
    · rcases List.mem_cons.1 h with h | h
      · simp [h]
      · simp [ih h]

theorem FMap.sorted_set {α : Type} (m : FMap α) (n : Nat) (v : α) (h : FMap.sorted m = true) :
    FMap.sorted (FMap.set m n v) = true := by
  induction m with
  | nil => rfl
  | cons d m ih =>
    obtain ⟨k, w⟩ := d
    have ⟨ha, hs⟩ := (FMap.sorted_cons k w m).1 h
    simp only [FMap.set]
    split
    · rename_i hlt
      rw [FMap.sorted_cons]
      refine ⟨?_, h⟩
      intro c hc
      rcases List.mem_cons.1 hc with rfl | hc
      · exact hlt
      · exact Nat.lt_trans hlt (ha c hc)
    · split
      · rename_i h'; subst h'; rw [FMap.sorted_cons]; exact ⟨ha, hs⟩
      · rw [FMap.sorted_cons]
        refine ⟨?_, ih hs⟩
        intro c hc
        rcases FMap.mem_set m n v c hc with rfl | hc
        · omega
        · exact ha c hc

theorem FMap.sorted_erase {α : Type} (m : FMap α) (n : Nat) (h : FMap.sorted m = true) :
    FMap.sorted (FMap.erase m n) = true := by
  induction m with
  | nil => rfl
  | cons d m ih =>
    obtain ⟨k, w⟩ := d
    have ⟨ha, hs⟩ := (FMap.sorted_cons k w m).1 h
    simp only [FMap.erase]
    split
    · exact hs
    · rw [FMap.sorted_cons]
      exact ⟨fun c hc => ha c (FMap.mem_erase m n c hc), ih hs⟩

theorem FMap.get?_erase {α : Type} (m : FMap α) (n k : Nat) (h : FMap.sorted m = true) :
    FMap.get? (FMap.erase m n) k = if k = n then none else FMap.get? m k := by
  induction m with
  | nil => simp [FMap.erase, FMap.get?]
  | cons d m ih =>
    obtain ⟨j, w⟩ := d
    have ⟨ha, hs⟩ := (FMap.sorted_cons j w m).1 h
    have none_below : ∀ (m : FMap α), FMap.above j m → FMap.get? m j = none := by
      intro m
      induction m with
      | nil => intro _; rfl
      | cons e m ih' =>
        intro hb
        have h1 := hb e (by simp)
        simp only [FMap.get?]
        rw [if_neg (by omega)]
        exact ih' fun c hc => hb c (by simp [hc])
    simp only [FMap.erase]
    by_cases hj : j = n
    · subst hj
      simp only [if_true]
      by_cases hk : k = j
      · subst hk; simp [none_below m ha]
      · simp [hk, FMap.get?, Ne.symm hk]
    · simp only [hj, if_false, FMap.get?]
      by_cases hk : j = k
      · subst hk; simp [hj]
      · simp [hk, ih hs]

/-- The canonical form in words: keys rise and no listed byte is 0. -/
theorem Memory.wf_iff (m : Memory) : Memory.wf m = true ↔ FMap.sorted m = true ∧ ∀ c ∈ m, c.2 ≠ 0 := by
  simp [Memory.wf, List.all_eq_true]

@[simp] theorem Memory.wf_nil : Memory.wf [] = true := rfl

/-- A write keeps the canonical form. -/
theorem Memory.wf_write (m : Memory) (a : Nat) (b : Byte) (h : Memory.wf m = true) : Memory.wf (Memory.write m a b) = true := by
  rw [Memory.wf_iff] at *
  unfold Memory.write
  split
  · exact ⟨FMap.sorted_erase m a h.1, fun c hc => h.2 c (FMap.mem_erase m a c hc)⟩
  · refine ⟨FMap.sorted_set m a b h.1, fun c hc => ?_⟩
    rcases FMap.mem_set m a b c hc with rfl | hc
    · assumption
    · exact h.2 c hc

/-- Several writes keep it. -/
theorem Memory.wf_writeN (bs : List Byte) (m : Memory) (a : Nat) (h : Memory.wf m = true) :
    Memory.wf (Memory.writeN m a bs) = true := by
  induction bs generalizing m a with
  | nil => exact h
  | cons b bs ih => exact ih _ _ (Memory.wf_write m a b h)

/-- Writes of cells keep it. -/
theorem Memory.wf_foldl (cells : List (Nat × Byte)) (m : Memory) (h : Memory.wf m = true) :
    Memory.wf (cells.foldl (fun m c => Memory.write m c.1 c.2) m) = true := by
  induction cells generalizing m with
  | nil => exact h
  | cons c cells ih => exact ih _ (Memory.wf_write m c.1 c.2 h)

/-- A byte reads as it was written. -/
theorem Memory.read_write_self (m : Memory) (a : Nat) (b : Byte) (h : Memory.wf m = true) :
    Memory.read (Memory.write m a b) a = b := by
  unfold Memory.read Memory.write FMap.getD
  split
  · rename_i hb; rw [FMap.get?_erase m a a ((Memory.wf_iff m).1 h).1]; simp [hb]
  · simp

/-- Every other byte reads as before. -/
theorem Memory.read_write_ne (m : Memory) {a k : Nat} (b : Byte) (h : Memory.wf m = true) (hk : k ≠ a) :
    Memory.read (Memory.write m a b) k = Memory.read m k := by
  unfold Memory.read Memory.write FMap.getD
  split
  · rw [FMap.get?_erase m a k ((Memory.wf_iff m).1 h).1]; simp [hk]
  · rw [FMap.get?_set_ne m b hk]

end Sys2Proof.Machine
end

