-- ==== Sys2Proof/Laws/State.lean ====
section
/-! SUPPORT. What each update of the state leaves alone: one lemma per field per update. -/

namespace Sys2Proof.Machine

@[simp] theorem State.setGang_now (s : State) (n : Nat) (g : Gang) : (s.setGang n g).now = s.now := rfl
@[simp] theorem State.setGang_fresh (s : State) (n : Nat) (g : Gang) : (s.setGang n g).fresh = s.fresh := rfl
@[simp] theorem State.setGang_nextId (s : State) (n : Nat) (g : Gang) : (s.setGang n g).nextId = s.nextId := rfl
@[simp] theorem State.setGang_agenda (s : State) (n : Nat) (g : Gang) : (s.setGang n g).agenda = s.agenda := rfl
@[simp] theorem State.setGang_cur (s : State) (n : Nat) (g : Gang) : (s.setGang n g).cur = s.cur := rfl
@[simp] theorem State.setGang_defer (s : State) (n : Nat) (g : Gang) : (s.setGang n g).defer = s.defer := rfl
@[simp] theorem State.setGang_slow (s : State) (n : Nat) (g : Gang) : (s.setGang n g).slow = s.slow := rfl
@[simp] theorem State.setGang_glitches (s : State) (n : Nat) (g : Gang) : (s.setGang n g).glitches = s.glitches := rfl
@[simp] theorem State.setGang_mem (s : State) (n : Nat) (g : Gang) : (s.setGang n g).mem = s.mem := rfl
@[simp] theorem State.setGang_history (s : State) (n : Nat) (g : Gang) : (s.setGang n g).history = s.history := rfl
@[simp] theorem State.setGang_poison (s : State) (n : Nat) (g : Gang) : (s.setGang n g).poison = s.poison := rfl
@[simp] theorem State.setGang_regPoison (s : State) (n : Nat) (g : Gang) : (s.setGang n g).regPoison = s.regPoison := rfl
@[simp] theorem State.setGang_filter (s : State) (n : Nat) (g : Gang) : (s.setGang n g).filter = s.filter := rfl
@[simp] theorem State.setGang_holds (s : State) (n : Nat) (g : Gang) : (s.setGang n g).holds = s.holds := rfl
@[simp] theorem State.setGang_placement (s : State) (n : Nat) (g : Gang) : (s.setGang n g).placement = s.placement := rfl
@[simp] theorem State.setGang_ctxs (s : State) (n : Nat) (g : Gang) : (s.setGang n g).ctxs = s.ctxs := rfl
@[simp] theorem State.setGang_grids (s : State) (n : Nat) (g : Gang) : (s.setGang n g).grids = s.grids := rfl
@[simp] theorem State.setGang_teams (s : State) (n : Nat) (g : Gang) : (s.setGang n g).teams = s.teams := rfl
@[simp] theorem State.setGang_gangs (s : State) (n : Nat) (g : Gang) : (s.setGang n g).gangs = FMap.set s.gangs n g := rfl
@[simp] theorem State.setGang_cores (s : State) (n : Nat) (g : Gang) : (s.setGang n g).cores = s.cores := rfl
@[simp] theorem State.setGang_dies (s : State) (n : Nat) (g : Gang) : (s.setGang n g).dies = s.dies := rfl
@[simp] theorem State.setGang_ops (s : State) (n : Nat) (g : Gang) : (s.setGang n g).ops = s.ops := rfl
@[simp] theorem State.setGang_dev (s : State) (n : Nat) (g : Gang) : (s.setGang n g).dev = s.dev := rfl

@[simp] theorem State.setCtx_now (s : State) (n : Nat) (x : Ctx) : (s.setCtx n x).now = s.now := rfl
@[simp] theorem State.setCtx_fresh (s : State) (n : Nat) (x : Ctx) : (s.setCtx n x).fresh = s.fresh := rfl
@[simp] theorem State.setCtx_nextId (s : State) (n : Nat) (x : Ctx) : (s.setCtx n x).nextId = s.nextId := rfl
@[simp] theorem State.setCtx_agenda (s : State) (n : Nat) (x : Ctx) : (s.setCtx n x).agenda = s.agenda := rfl
@[simp] theorem State.setCtx_cur (s : State) (n : Nat) (x : Ctx) : (s.setCtx n x).cur = s.cur := rfl
@[simp] theorem State.setCtx_defer (s : State) (n : Nat) (x : Ctx) : (s.setCtx n x).defer = s.defer := rfl
@[simp] theorem State.setCtx_slow (s : State) (n : Nat) (x : Ctx) : (s.setCtx n x).slow = s.slow := rfl
@[simp] theorem State.setCtx_glitches (s : State) (n : Nat) (x : Ctx) : (s.setCtx n x).glitches = s.glitches := rfl
@[simp] theorem State.setCtx_mem (s : State) (n : Nat) (x : Ctx) : (s.setCtx n x).mem = s.mem := rfl
@[simp] theorem State.setCtx_history (s : State) (n : Nat) (x : Ctx) : (s.setCtx n x).history = s.history := rfl
@[simp] theorem State.setCtx_poison (s : State) (n : Nat) (x : Ctx) : (s.setCtx n x).poison = s.poison := rfl
@[simp] theorem State.setCtx_regPoison (s : State) (n : Nat) (x : Ctx) : (s.setCtx n x).regPoison = s.regPoison := rfl
@[simp] theorem State.setCtx_filter (s : State) (n : Nat) (x : Ctx) : (s.setCtx n x).filter = s.filter := rfl
@[simp] theorem State.setCtx_holds (s : State) (n : Nat) (x : Ctx) : (s.setCtx n x).holds = s.holds := rfl
@[simp] theorem State.setCtx_placement (s : State) (n : Nat) (x : Ctx) : (s.setCtx n x).placement = s.placement := rfl
@[simp] theorem State.setCtx_ctxs (s : State) (n : Nat) (x : Ctx) : (s.setCtx n x).ctxs = FMap.set s.ctxs n x := rfl
@[simp] theorem State.setCtx_grids (s : State) (n : Nat) (x : Ctx) : (s.setCtx n x).grids = s.grids := rfl
@[simp] theorem State.setCtx_teams (s : State) (n : Nat) (x : Ctx) : (s.setCtx n x).teams = s.teams := rfl
@[simp] theorem State.setCtx_gangs (s : State) (n : Nat) (x : Ctx) : (s.setCtx n x).gangs = s.gangs := rfl
@[simp] theorem State.setCtx_cores (s : State) (n : Nat) (x : Ctx) : (s.setCtx n x).cores = s.cores := rfl
@[simp] theorem State.setCtx_dies (s : State) (n : Nat) (x : Ctx) : (s.setCtx n x).dies = s.dies := rfl
@[simp] theorem State.setCtx_ops (s : State) (n : Nat) (x : Ctx) : (s.setCtx n x).ops = s.ops := rfl
@[simp] theorem State.setCtx_dev (s : State) (n : Nat) (x : Ctx) : (s.setCtx n x).dev = s.dev := rfl

@[simp] theorem State.setCore_now (s : State) (n : Nat) (c : CoreState) : (s.setCore n c).now = s.now := rfl
@[simp] theorem State.setCore_fresh (s : State) (n : Nat) (c : CoreState) : (s.setCore n c).fresh = s.fresh := rfl
@[simp] theorem State.setCore_nextId (s : State) (n : Nat) (c : CoreState) : (s.setCore n c).nextId = s.nextId := rfl
@[simp] theorem State.setCore_agenda (s : State) (n : Nat) (c : CoreState) : (s.setCore n c).agenda = s.agenda := rfl
@[simp] theorem State.setCore_cur (s : State) (n : Nat) (c : CoreState) : (s.setCore n c).cur = s.cur := rfl
@[simp] theorem State.setCore_defer (s : State) (n : Nat) (c : CoreState) : (s.setCore n c).defer = s.defer := rfl
@[simp] theorem State.setCore_slow (s : State) (n : Nat) (c : CoreState) : (s.setCore n c).slow = s.slow := rfl
@[simp] theorem State.setCore_glitches (s : State) (n : Nat) (c : CoreState) : (s.setCore n c).glitches = s.glitches := rfl
@[simp] theorem State.setCore_mem (s : State) (n : Nat) (c : CoreState) : (s.setCore n c).mem = s.mem := rfl
@[simp] theorem State.setCore_history (s : State) (n : Nat) (c : CoreState) : (s.setCore n c).history = s.history := rfl
@[simp] theorem State.setCore_poison (s : State) (n : Nat) (c : CoreState) : (s.setCore n c).poison = s.poison := rfl
@[simp] theorem State.setCore_regPoison (s : State) (n : Nat) (c : CoreState) : (s.setCore n c).regPoison = s.regPoison := rfl
@[simp] theorem State.setCore_filter (s : State) (n : Nat) (c : CoreState) : (s.setCore n c).filter = s.filter := rfl
@[simp] theorem State.setCore_holds (s : State) (n : Nat) (c : CoreState) : (s.setCore n c).holds = s.holds := rfl
@[simp] theorem State.setCore_placement (s : State) (n : Nat) (c : CoreState) : (s.setCore n c).placement = s.placement := rfl
@[simp] theorem State.setCore_ctxs (s : State) (n : Nat) (c : CoreState) : (s.setCore n c).ctxs = s.ctxs := rfl
@[simp] theorem State.setCore_grids (s : State) (n : Nat) (c : CoreState) : (s.setCore n c).grids = s.grids := rfl
@[simp] theorem State.setCore_teams (s : State) (n : Nat) (c : CoreState) : (s.setCore n c).teams = s.teams := rfl
@[simp] theorem State.setCore_gangs (s : State) (n : Nat) (c : CoreState) : (s.setCore n c).gangs = s.gangs := rfl
@[simp] theorem State.setCore_cores (s : State) (n : Nat) (c : CoreState) : (s.setCore n c).cores = FMap.set s.cores n c := rfl
@[simp] theorem State.setCore_dies (s : State) (n : Nat) (c : CoreState) : (s.setCore n c).dies = s.dies := rfl
@[simp] theorem State.setCore_ops (s : State) (n : Nat) (c : CoreState) : (s.setCore n c).ops = s.ops := rfl
@[simp] theorem State.setCore_dev (s : State) (n : Nat) (c : CoreState) : (s.setCore n c).dev = s.dev := rfl

@[simp] theorem State.setTeam_now (s : State) (n : Nat) (t : Team) : (s.setTeam n t).now = s.now := rfl
@[simp] theorem State.setTeam_fresh (s : State) (n : Nat) (t : Team) : (s.setTeam n t).fresh = s.fresh := rfl
@[simp] theorem State.setTeam_nextId (s : State) (n : Nat) (t : Team) : (s.setTeam n t).nextId = s.nextId := rfl
@[simp] theorem State.setTeam_agenda (s : State) (n : Nat) (t : Team) : (s.setTeam n t).agenda = s.agenda := rfl
@[simp] theorem State.setTeam_cur (s : State) (n : Nat) (t : Team) : (s.setTeam n t).cur = s.cur := rfl
@[simp] theorem State.setTeam_defer (s : State) (n : Nat) (t : Team) : (s.setTeam n t).defer = s.defer := rfl
@[simp] theorem State.setTeam_slow (s : State) (n : Nat) (t : Team) : (s.setTeam n t).slow = s.slow := rfl
@[simp] theorem State.setTeam_glitches (s : State) (n : Nat) (t : Team) : (s.setTeam n t).glitches = s.glitches := rfl
@[simp] theorem State.setTeam_mem (s : State) (n : Nat) (t : Team) : (s.setTeam n t).mem = s.mem := rfl
@[simp] theorem State.setTeam_history (s : State) (n : Nat) (t : Team) : (s.setTeam n t).history = s.history := rfl
@[simp] theorem State.setTeam_poison (s : State) (n : Nat) (t : Team) : (s.setTeam n t).poison = s.poison := rfl
@[simp] theorem State.setTeam_regPoison (s : State) (n : Nat) (t : Team) : (s.setTeam n t).regPoison = s.regPoison := rfl
@[simp] theorem State.setTeam_filter (s : State) (n : Nat) (t : Team) : (s.setTeam n t).filter = s.filter := rfl
@[simp] theorem State.setTeam_holds (s : State) (n : Nat) (t : Team) : (s.setTeam n t).holds = s.holds := rfl
@[simp] theorem State.setTeam_placement (s : State) (n : Nat) (t : Team) : (s.setTeam n t).placement = s.placement := rfl
@[simp] theorem State.setTeam_ctxs (s : State) (n : Nat) (t : Team) : (s.setTeam n t).ctxs = s.ctxs := rfl
@[simp] theorem State.setTeam_grids (s : State) (n : Nat) (t : Team) : (s.setTeam n t).grids = s.grids := rfl
@[simp] theorem State.setTeam_teams (s : State) (n : Nat) (t : Team) : (s.setTeam n t).teams = FMap.set s.teams n t := rfl
@[simp] theorem State.setTeam_gangs (s : State) (n : Nat) (t : Team) : (s.setTeam n t).gangs = s.gangs := rfl
@[simp] theorem State.setTeam_cores (s : State) (n : Nat) (t : Team) : (s.setTeam n t).cores = s.cores := rfl
@[simp] theorem State.setTeam_dies (s : State) (n : Nat) (t : Team) : (s.setTeam n t).dies = s.dies := rfl
@[simp] theorem State.setTeam_ops (s : State) (n : Nat) (t : Team) : (s.setTeam n t).ops = s.ops := rfl
@[simp] theorem State.setTeam_dev (s : State) (n : Nat) (t : Team) : (s.setTeam n t).dev = s.dev := rfl

@[simp] theorem State.setOp_now (s : State) (n : Nat) (o : Op) : (s.setOp n o).now = s.now := rfl
@[simp] theorem State.setOp_fresh (s : State) (n : Nat) (o : Op) : (s.setOp n o).fresh = s.fresh := rfl
@[simp] theorem State.setOp_nextId (s : State) (n : Nat) (o : Op) : (s.setOp n o).nextId = s.nextId := rfl
@[simp] theorem State.setOp_agenda (s : State) (n : Nat) (o : Op) : (s.setOp n o).agenda = s.agenda := rfl
@[simp] theorem State.setOp_cur (s : State) (n : Nat) (o : Op) : (s.setOp n o).cur = s.cur := rfl
@[simp] theorem State.setOp_defer (s : State) (n : Nat) (o : Op) : (s.setOp n o).defer = s.defer := rfl
@[simp] theorem State.setOp_slow (s : State) (n : Nat) (o : Op) : (s.setOp n o).slow = s.slow := rfl
@[simp] theorem State.setOp_glitches (s : State) (n : Nat) (o : Op) : (s.setOp n o).glitches = s.glitches := rfl
@[simp] theorem State.setOp_mem (s : State) (n : Nat) (o : Op) : (s.setOp n o).mem = s.mem := rfl
@[simp] theorem State.setOp_history (s : State) (n : Nat) (o : Op) : (s.setOp n o).history = s.history := rfl
@[simp] theorem State.setOp_poison (s : State) (n : Nat) (o : Op) : (s.setOp n o).poison = s.poison := rfl
@[simp] theorem State.setOp_regPoison (s : State) (n : Nat) (o : Op) : (s.setOp n o).regPoison = s.regPoison := rfl
@[simp] theorem State.setOp_filter (s : State) (n : Nat) (o : Op) : (s.setOp n o).filter = s.filter := rfl
@[simp] theorem State.setOp_holds (s : State) (n : Nat) (o : Op) : (s.setOp n o).holds = s.holds := rfl
@[simp] theorem State.setOp_placement (s : State) (n : Nat) (o : Op) : (s.setOp n o).placement = s.placement := rfl
@[simp] theorem State.setOp_ctxs (s : State) (n : Nat) (o : Op) : (s.setOp n o).ctxs = s.ctxs := rfl
@[simp] theorem State.setOp_grids (s : State) (n : Nat) (o : Op) : (s.setOp n o).grids = s.grids := rfl
@[simp] theorem State.setOp_teams (s : State) (n : Nat) (o : Op) : (s.setOp n o).teams = s.teams := rfl
@[simp] theorem State.setOp_gangs (s : State) (n : Nat) (o : Op) : (s.setOp n o).gangs = s.gangs := rfl
@[simp] theorem State.setOp_cores (s : State) (n : Nat) (o : Op) : (s.setOp n o).cores = s.cores := rfl
@[simp] theorem State.setOp_dies (s : State) (n : Nat) (o : Op) : (s.setOp n o).dies = s.dies := rfl
@[simp] theorem State.setOp_ops (s : State) (n : Nat) (o : Op) : (s.setOp n o).ops = FMap.set s.ops n o := rfl
@[simp] theorem State.setOp_dev (s : State) (n : Nat) (o : Op) : (s.setOp n o).dev = s.dev := rfl

@[simp] theorem State.setGrid_now (s : State) (n : Nat) (g : Grid) : (s.setGrid n g).now = s.now := rfl
@[simp] theorem State.setGrid_fresh (s : State) (n : Nat) (g : Grid) : (s.setGrid n g).fresh = s.fresh := rfl
@[simp] theorem State.setGrid_nextId (s : State) (n : Nat) (g : Grid) : (s.setGrid n g).nextId = s.nextId := rfl
@[simp] theorem State.setGrid_agenda (s : State) (n : Nat) (g : Grid) : (s.setGrid n g).agenda = s.agenda := rfl
@[simp] theorem State.setGrid_cur (s : State) (n : Nat) (g : Grid) : (s.setGrid n g).cur = s.cur := rfl
@[simp] theorem State.setGrid_defer (s : State) (n : Nat) (g : Grid) : (s.setGrid n g).defer = s.defer := rfl
@[simp] theorem State.setGrid_slow (s : State) (n : Nat) (g : Grid) : (s.setGrid n g).slow = s.slow := rfl
@[simp] theorem State.setGrid_glitches (s : State) (n : Nat) (g : Grid) : (s.setGrid n g).glitches = s.glitches := rfl
@[simp] theorem State.setGrid_mem (s : State) (n : Nat) (g : Grid) : (s.setGrid n g).mem = s.mem := rfl
@[simp] theorem State.setGrid_history (s : State) (n : Nat) (g : Grid) : (s.setGrid n g).history = s.history := rfl
@[simp] theorem State.setGrid_poison (s : State) (n : Nat) (g : Grid) : (s.setGrid n g).poison = s.poison := rfl
@[simp] theorem State.setGrid_regPoison (s : State) (n : Nat) (g : Grid) : (s.setGrid n g).regPoison = s.regPoison := rfl
@[simp] theorem State.setGrid_filter (s : State) (n : Nat) (g : Grid) : (s.setGrid n g).filter = s.filter := rfl
@[simp] theorem State.setGrid_holds (s : State) (n : Nat) (g : Grid) : (s.setGrid n g).holds = s.holds := rfl
@[simp] theorem State.setGrid_placement (s : State) (n : Nat) (g : Grid) : (s.setGrid n g).placement = s.placement := rfl
@[simp] theorem State.setGrid_ctxs (s : State) (n : Nat) (g : Grid) : (s.setGrid n g).ctxs = s.ctxs := rfl
@[simp] theorem State.setGrid_grids (s : State) (n : Nat) (g : Grid) : (s.setGrid n g).grids = FMap.set s.grids n g := rfl
@[simp] theorem State.setGrid_teams (s : State) (n : Nat) (g : Grid) : (s.setGrid n g).teams = s.teams := rfl
@[simp] theorem State.setGrid_gangs (s : State) (n : Nat) (g : Grid) : (s.setGrid n g).gangs = s.gangs := rfl
@[simp] theorem State.setGrid_cores (s : State) (n : Nat) (g : Grid) : (s.setGrid n g).cores = s.cores := rfl
@[simp] theorem State.setGrid_dies (s : State) (n : Nat) (g : Grid) : (s.setGrid n g).dies = s.dies := rfl
@[simp] theorem State.setGrid_ops (s : State) (n : Nat) (g : Grid) : (s.setGrid n g).ops = s.ops := rfl
@[simp] theorem State.setGrid_dev (s : State) (n : Nat) (g : Grid) : (s.setGrid n g).dev = s.dev := rfl

@[simp] theorem State.setDie_now (s : State) (n : Nat) (x : Die) : (s.setDie n x).now = s.now := rfl
@[simp] theorem State.setDie_fresh (s : State) (n : Nat) (x : Die) : (s.setDie n x).fresh = s.fresh := rfl
@[simp] theorem State.setDie_nextId (s : State) (n : Nat) (x : Die) : (s.setDie n x).nextId = s.nextId := rfl
@[simp] theorem State.setDie_agenda (s : State) (n : Nat) (x : Die) : (s.setDie n x).agenda = s.agenda := rfl
@[simp] theorem State.setDie_cur (s : State) (n : Nat) (x : Die) : (s.setDie n x).cur = s.cur := rfl
@[simp] theorem State.setDie_defer (s : State) (n : Nat) (x : Die) : (s.setDie n x).defer = s.defer := rfl
@[simp] theorem State.setDie_slow (s : State) (n : Nat) (x : Die) : (s.setDie n x).slow = s.slow := rfl
@[simp] theorem State.setDie_glitches (s : State) (n : Nat) (x : Die) : (s.setDie n x).glitches = s.glitches := rfl
@[simp] theorem State.setDie_mem (s : State) (n : Nat) (x : Die) : (s.setDie n x).mem = s.mem := rfl
@[simp] theorem State.setDie_history (s : State) (n : Nat) (x : Die) : (s.setDie n x).history = s.history := rfl
@[simp] theorem State.setDie_poison (s : State) (n : Nat) (x : Die) : (s.setDie n x).poison = s.poison := rfl
@[simp] theorem State.setDie_regPoison (s : State) (n : Nat) (x : Die) : (s.setDie n x).regPoison = s.regPoison := rfl
@[simp] theorem State.setDie_filter (s : State) (n : Nat) (x : Die) : (s.setDie n x).filter = s.filter := rfl
@[simp] theorem State.setDie_holds (s : State) (n : Nat) (x : Die) : (s.setDie n x).holds = s.holds := rfl
@[simp] theorem State.setDie_placement (s : State) (n : Nat) (x : Die) : (s.setDie n x).placement = s.placement := rfl
@[simp] theorem State.setDie_ctxs (s : State) (n : Nat) (x : Die) : (s.setDie n x).ctxs = s.ctxs := rfl
@[simp] theorem State.setDie_grids (s : State) (n : Nat) (x : Die) : (s.setDie n x).grids = s.grids := rfl
@[simp] theorem State.setDie_teams (s : State) (n : Nat) (x : Die) : (s.setDie n x).teams = s.teams := rfl
@[simp] theorem State.setDie_gangs (s : State) (n : Nat) (x : Die) : (s.setDie n x).gangs = s.gangs := rfl
@[simp] theorem State.setDie_cores (s : State) (n : Nat) (x : Die) : (s.setDie n x).cores = s.cores := rfl
@[simp] theorem State.setDie_dies (s : State) (n : Nat) (x : Die) : (s.setDie n x).dies = s.dies.set (n % 4) x (Nat.mod_lt _ (by decide)) := rfl
@[simp] theorem State.setDie_ops (s : State) (n : Nat) (x : Die) : (s.setDie n x).ops = s.ops := rfl
@[simp] theorem State.setDie_dev (s : State) (n : Nat) (x : Die) : (s.setDie n x).dev = s.dev := rfl

@[simp] theorem State.put_now (s : State) (f : Frame) : (s.put f).now = s.now := rfl
@[simp] theorem State.put_fresh (s : State) (f : Frame) : (s.put f).fresh = s.fresh := rfl
@[simp] theorem State.put_nextId (s : State) (f : Frame) : (s.put f).nextId = s.nextId := rfl
@[simp] theorem State.put_agenda (s : State) (f : Frame) : (s.put f).agenda = s.agenda := rfl
@[simp] theorem State.put_cur (s : State) (f : Frame) : (s.put f).cur = s.cur := rfl
@[simp] theorem State.put_defer (s : State) (f : Frame) : (s.put f).defer = s.defer := rfl
@[simp] theorem State.put_slow (s : State) (f : Frame) : (s.put f).slow = s.slow := rfl
@[simp] theorem State.put_glitches (s : State) (f : Frame) : (s.put f).glitches = s.glitches := rfl
@[simp] theorem State.put_mem (s : State) (f : Frame) : (s.put f).mem = s.mem := rfl
@[simp] theorem State.put_history (s : State) (f : Frame) : (s.put f).history = s.history := rfl
@[simp] theorem State.put_poison (s : State) (f : Frame) : (s.put f).poison = s.poison := rfl
@[simp] theorem State.put_regPoison (s : State) (f : Frame) : (s.put f).regPoison = s.regPoison := rfl
@[simp] theorem State.put_filter (s : State) (f : Frame) : (s.put f).filter = s.filter := rfl
@[simp] theorem State.put_holds (s : State) (f : Frame) : (s.put f).holds = s.holds := rfl
@[simp] theorem State.put_placement (s : State) (f : Frame) : (s.put f).placement = s.placement := rfl
@[simp] theorem State.put_ctxs (s : State) (f : Frame) : (s.put f).ctxs = s.ctxs := rfl
@[simp] theorem State.put_grids (s : State) (f : Frame) : (s.put f).grids = s.grids := rfl
@[simp] theorem State.put_teams (s : State) (f : Frame) : (s.put f).teams = s.teams := rfl
@[simp] theorem State.put_gangs (s : State) (f : Frame) : (s.put f).gangs = FMap.set s.gangs f.gid (f.g.setUnit f.ui f.u) := rfl
@[simp] theorem State.put_cores (s : State) (f : Frame) : (s.put f).cores = s.cores := rfl
@[simp] theorem State.put_dies (s : State) (f : Frame) : (s.put f).dies = s.dies := rfl
@[simp] theorem State.put_ops (s : State) (f : Frame) : (s.put f).ops = s.ops := rfl
@[simp] theorem State.put_dev (s : State) (f : Frame) : (s.put f).dev = s.dev := rfl

@[simp] theorem State.advance_now (s : State) (f : Frame) : (s.advance f).now = s.now := rfl
@[simp] theorem State.advance_fresh (s : State) (f : Frame) : (s.advance f).fresh = s.fresh := rfl
@[simp] theorem State.advance_nextId (s : State) (f : Frame) : (s.advance f).nextId = s.nextId := rfl
@[simp] theorem State.advance_agenda (s : State) (f : Frame) : (s.advance f).agenda = s.agenda := rfl
@[simp] theorem State.advance_cur (s : State) (f : Frame) : (s.advance f).cur = s.cur := rfl
@[simp] theorem State.advance_defer (s : State) (f : Frame) : (s.advance f).defer = s.defer := rfl
@[simp] theorem State.advance_slow (s : State) (f : Frame) : (s.advance f).slow = s.slow := rfl
@[simp] theorem State.advance_glitches (s : State) (f : Frame) : (s.advance f).glitches = s.glitches := rfl
@[simp] theorem State.advance_mem (s : State) (f : Frame) : (s.advance f).mem = s.mem := rfl
@[simp] theorem State.advance_history (s : State) (f : Frame) : (s.advance f).history = s.history := rfl
@[simp] theorem State.advance_poison (s : State) (f : Frame) : (s.advance f).poison = s.poison := rfl
@[simp] theorem State.advance_regPoison (s : State) (f : Frame) : (s.advance f).regPoison = s.regPoison := rfl
@[simp] theorem State.advance_filter (s : State) (f : Frame) : (s.advance f).filter = s.filter := rfl
@[simp] theorem State.advance_holds (s : State) (f : Frame) : (s.advance f).holds = s.holds := rfl
@[simp] theorem State.advance_placement (s : State) (f : Frame) : (s.advance f).placement = s.placement := rfl
@[simp] theorem State.advance_ctxs (s : State) (f : Frame) : (s.advance f).ctxs = s.ctxs := rfl
@[simp] theorem State.advance_grids (s : State) (f : Frame) : (s.advance f).grids = s.grids := rfl
@[simp] theorem State.advance_teams (s : State) (f : Frame) : (s.advance f).teams = s.teams := rfl
@[simp] theorem State.advance_cores (s : State) (f : Frame) : (s.advance f).cores = s.cores := rfl
@[simp] theorem State.advance_dies (s : State) (f : Frame) : (s.advance f).dies = s.dies := rfl
@[simp] theorem State.advance_ops (s : State) (f : Frame) : (s.advance f).ops = s.ops := rfl
@[simp] theorem State.advance_dev (s : State) (f : Frame) : (s.advance f).dev = s.dev := rfl

@[simp] theorem State.apply_now (s : State) (n : Nat) (ws : List LaneWrite) : (s.apply n ws).now = s.now := rfl
@[simp] theorem State.apply_fresh (s : State) (n : Nat) (ws : List LaneWrite) : (s.apply n ws).fresh = s.fresh := rfl
@[simp] theorem State.apply_nextId (s : State) (n : Nat) (ws : List LaneWrite) : (s.apply n ws).nextId = s.nextId := rfl
@[simp] theorem State.apply_agenda (s : State) (n : Nat) (ws : List LaneWrite) : (s.apply n ws).agenda = s.agenda := rfl
@[simp] theorem State.apply_cur (s : State) (n : Nat) (ws : List LaneWrite) : (s.apply n ws).cur = s.cur := rfl
@[simp] theorem State.apply_defer (s : State) (n : Nat) (ws : List LaneWrite) : (s.apply n ws).defer = s.defer := rfl
@[simp] theorem State.apply_slow (s : State) (n : Nat) (ws : List LaneWrite) : (s.apply n ws).slow = s.slow := rfl
@[simp] theorem State.apply_glitches (s : State) (n : Nat) (ws : List LaneWrite) : (s.apply n ws).glitches = s.glitches := rfl
@[simp] theorem State.apply_mem (s : State) (n : Nat) (ws : List LaneWrite) : (s.apply n ws).mem = s.mem := rfl
@[simp] theorem State.apply_history (s : State) (n : Nat) (ws : List LaneWrite) : (s.apply n ws).history = s.history := rfl
@[simp] theorem State.apply_poison (s : State) (n : Nat) (ws : List LaneWrite) : (s.apply n ws).poison = s.poison := rfl
@[simp] theorem State.apply_filter (s : State) (n : Nat) (ws : List LaneWrite) : (s.apply n ws).filter = s.filter := rfl
@[simp] theorem State.apply_holds (s : State) (n : Nat) (ws : List LaneWrite) : (s.apply n ws).holds = s.holds := rfl
@[simp] theorem State.apply_placement (s : State) (n : Nat) (ws : List LaneWrite) : (s.apply n ws).placement = s.placement := rfl
@[simp] theorem State.apply_ctxs (s : State) (n : Nat) (ws : List LaneWrite) : (s.apply n ws).ctxs = s.ctxs := rfl
@[simp] theorem State.apply_grids (s : State) (n : Nat) (ws : List LaneWrite) : (s.apply n ws).grids = s.grids := rfl
@[simp] theorem State.apply_teams (s : State) (n : Nat) (ws : List LaneWrite) : (s.apply n ws).teams = s.teams := rfl
@[simp] theorem State.apply_cores (s : State) (n : Nat) (ws : List LaneWrite) : (s.apply n ws).cores = s.cores := rfl
@[simp] theorem State.apply_dies (s : State) (n : Nat) (ws : List LaneWrite) : (s.apply n ws).dies = s.dies := rfl
@[simp] theorem State.apply_ops (s : State) (n : Nat) (ws : List LaneWrite) : (s.apply n ws).ops = s.ops := rfl
@[simp] theorem State.apply_dev (s : State) (n : Nat) (ws : List LaneWrite) : (s.apply n ws).dev = s.dev := rfl

@[simp] theorem State.markPlain_now (s : State) (f : Frame) (i : Info) : (s.markPlain f i).now = s.now := rfl
@[simp] theorem State.markPlain_fresh (s : State) (f : Frame) (i : Info) : (s.markPlain f i).fresh = s.fresh := rfl
@[simp] theorem State.markPlain_nextId (s : State) (f : Frame) (i : Info) : (s.markPlain f i).nextId = s.nextId := rfl
@[simp] theorem State.markPlain_agenda (s : State) (f : Frame) (i : Info) : (s.markPlain f i).agenda = s.agenda := rfl
@[simp] theorem State.markPlain_cur (s : State) (f : Frame) (i : Info) : (s.markPlain f i).cur = s.cur := rfl
@[simp] theorem State.markPlain_defer (s : State) (f : Frame) (i : Info) : (s.markPlain f i).defer = s.defer := rfl
@[simp] theorem State.markPlain_slow (s : State) (f : Frame) (i : Info) : (s.markPlain f i).slow = s.slow := rfl
@[simp] theorem State.markPlain_glitches (s : State) (f : Frame) (i : Info) : (s.markPlain f i).glitches = s.glitches := rfl
@[simp] theorem State.markPlain_mem (s : State) (f : Frame) (i : Info) : (s.markPlain f i).mem = s.mem := rfl
@[simp] theorem State.markPlain_history (s : State) (f : Frame) (i : Info) : (s.markPlain f i).history = s.history := rfl
@[simp] theorem State.markPlain_poison (s : State) (f : Frame) (i : Info) : (s.markPlain f i).poison = s.poison := rfl
@[simp] theorem State.markPlain_regPoison (s : State) (f : Frame) (i : Info) : (s.markPlain f i).regPoison = s.regPoison := rfl
@[simp] theorem State.markPlain_filter (s : State) (f : Frame) (i : Info) : (s.markPlain f i).filter = s.filter := rfl
@[simp] theorem State.markPlain_holds (s : State) (f : Frame) (i : Info) : (s.markPlain f i).holds = s.holds := rfl
@[simp] theorem State.markPlain_placement (s : State) (f : Frame) (i : Info) : (s.markPlain f i).placement = s.placement := rfl
@[simp] theorem State.markPlain_ctxs (s : State) (f : Frame) (i : Info) : (s.markPlain f i).ctxs = s.ctxs := rfl
@[simp] theorem State.markPlain_grids (s : State) (f : Frame) (i : Info) : (s.markPlain f i).grids = s.grids := rfl
@[simp] theorem State.markPlain_teams (s : State) (f : Frame) (i : Info) : (s.markPlain f i).teams = s.teams := rfl
@[simp] theorem State.markPlain_cores (s : State) (f : Frame) (i : Info) : (s.markPlain f i).cores = s.cores := rfl
@[simp] theorem State.markPlain_dies (s : State) (f : Frame) (i : Info) : (s.markPlain f i).dies = s.dies := rfl
@[simp] theorem State.markPlain_ops (s : State) (f : Frame) (i : Info) : (s.markPlain f i).ops = s.ops := rfl
@[simp] theorem State.markPlain_dev (s : State) (f : Frame) (i : Info) : (s.markPlain f i).dev = s.dev := rfl

@[simp] theorem State.openWindow_now (s : State) (f : Frame) (i : Info) (n : Nat) : (s.openWindow f i n).now = s.now := rfl
@[simp] theorem State.openWindow_fresh (s : State) (f : Frame) (i : Info) (n : Nat) : (s.openWindow f i n).fresh = s.fresh := rfl
@[simp] theorem State.openWindow_nextId (s : State) (f : Frame) (i : Info) (n : Nat) : (s.openWindow f i n).nextId = s.nextId := rfl
@[simp] theorem State.openWindow_agenda (s : State) (f : Frame) (i : Info) (n : Nat) : (s.openWindow f i n).agenda = s.agenda := rfl
@[simp] theorem State.openWindow_cur (s : State) (f : Frame) (i : Info) (n : Nat) : (s.openWindow f i n).cur = s.cur := rfl
@[simp] theorem State.openWindow_defer (s : State) (f : Frame) (i : Info) (n : Nat) : (s.openWindow f i n).defer = s.defer := rfl
@[simp] theorem State.openWindow_slow (s : State) (f : Frame) (i : Info) (n : Nat) : (s.openWindow f i n).slow = s.slow := rfl
@[simp] theorem State.openWindow_glitches (s : State) (f : Frame) (i : Info) (n : Nat) : (s.openWindow f i n).glitches = s.glitches := rfl
@[simp] theorem State.openWindow_mem (s : State) (f : Frame) (i : Info) (n : Nat) : (s.openWindow f i n).mem = s.mem := rfl
@[simp] theorem State.openWindow_history (s : State) (f : Frame) (i : Info) (n : Nat) : (s.openWindow f i n).history = s.history := rfl
@[simp] theorem State.openWindow_poison (s : State) (f : Frame) (i : Info) (n : Nat) : (s.openWindow f i n).poison = s.poison := rfl
@[simp] theorem State.openWindow_regPoison (s : State) (f : Frame) (i : Info) (n : Nat) : (s.openWindow f i n).regPoison = s.regPoison := rfl
@[simp] theorem State.openWindow_filter (s : State) (f : Frame) (i : Info) (n : Nat) : (s.openWindow f i n).filter = s.filter := rfl
@[simp] theorem State.openWindow_holds (s : State) (f : Frame) (i : Info) (n : Nat) : (s.openWindow f i n).holds = s.holds := rfl
@[simp] theorem State.openWindow_placement (s : State) (f : Frame) (i : Info) (n : Nat) : (s.openWindow f i n).placement = s.placement := rfl
@[simp] theorem State.openWindow_ctxs (s : State) (f : Frame) (i : Info) (n : Nat) : (s.openWindow f i n).ctxs = s.ctxs := rfl
@[simp] theorem State.openWindow_grids (s : State) (f : Frame) (i : Info) (n : Nat) : (s.openWindow f i n).grids = s.grids := rfl
@[simp] theorem State.openWindow_teams (s : State) (f : Frame) (i : Info) (n : Nat) : (s.openWindow f i n).teams = s.teams := rfl
@[simp] theorem State.openWindow_cores (s : State) (f : Frame) (i : Info) (n : Nat) : (s.openWindow f i n).cores = s.cores := rfl
@[simp] theorem State.openWindow_dies (s : State) (f : Frame) (i : Info) (n : Nat) : (s.openWindow f i n).dies = s.dies := rfl
@[simp] theorem State.openWindow_ops (s : State) (f : Frame) (i : Info) (n : Nat) : (s.openWindow f i n).ops = s.ops := rfl
@[simp] theorem State.openWindow_dev (s : State) (f : Frame) (i : Info) (n : Nat) : (s.openWindow f i n).dev = s.dev := rfl

@[simp] theorem State.closeWindow_now (s : State) (n id : Nat) : (s.closeWindow n id).now = s.now := rfl
@[simp] theorem State.closeWindow_fresh (s : State) (n id : Nat) : (s.closeWindow n id).fresh = s.fresh := rfl
@[simp] theorem State.closeWindow_nextId (s : State) (n id : Nat) : (s.closeWindow n id).nextId = s.nextId := rfl
@[simp] theorem State.closeWindow_agenda (s : State) (n id : Nat) : (s.closeWindow n id).agenda = s.agenda := rfl
@[simp] theorem State.closeWindow_cur (s : State) (n id : Nat) : (s.closeWindow n id).cur = s.cur := rfl
@[simp] theorem State.closeWindow_defer (s : State) (n id : Nat) : (s.closeWindow n id).defer = s.defer := rfl
@[simp] theorem State.closeWindow_slow (s : State) (n id : Nat) : (s.closeWindow n id).slow = s.slow := rfl
@[simp] theorem State.closeWindow_glitches (s : State) (n id : Nat) : (s.closeWindow n id).glitches = s.glitches := rfl
@[simp] theorem State.closeWindow_mem (s : State) (n id : Nat) : (s.closeWindow n id).mem = s.mem := rfl
@[simp] theorem State.closeWindow_history (s : State) (n id : Nat) : (s.closeWindow n id).history = s.history := rfl
@[simp] theorem State.closeWindow_poison (s : State) (n id : Nat) : (s.closeWindow n id).poison = s.poison := rfl
@[simp] theorem State.closeWindow_regPoison (s : State) (n id : Nat) : (s.closeWindow n id).regPoison = s.regPoison := rfl
@[simp] theorem State.closeWindow_filter (s : State) (n id : Nat) : (s.closeWindow n id).filter = s.filter := rfl
@[simp] theorem State.closeWindow_holds (s : State) (n id : Nat) : (s.closeWindow n id).holds = s.holds := rfl
@[simp] theorem State.closeWindow_placement (s : State) (n id : Nat) : (s.closeWindow n id).placement = s.placement := rfl
@[simp] theorem State.closeWindow_ctxs (s : State) (n id : Nat) : (s.closeWindow n id).ctxs = s.ctxs := rfl
@[simp] theorem State.closeWindow_grids (s : State) (n id : Nat) : (s.closeWindow n id).grids = s.grids := rfl
@[simp] theorem State.closeWindow_teams (s : State) (n id : Nat) : (s.closeWindow n id).teams = s.teams := rfl
@[simp] theorem State.closeWindow_cores (s : State) (n id : Nat) : (s.closeWindow n id).cores = s.cores := rfl
@[simp] theorem State.closeWindow_dies (s : State) (n id : Nat) : (s.closeWindow n id).dies = s.dies := rfl
@[simp] theorem State.closeWindow_ops (s : State) (n id : Nat) : (s.closeWindow n id).ops = s.ops := rfl
@[simp] theorem State.closeWindow_dev (s : State) (n id : Nat) : (s.closeWindow n id).dev = s.dev := rfl

@[simp] theorem State.holdIssue_now (s : State) (f : Frame) (b p : Nat) (x : Bool) : (s.holdIssue f b p x).now = s.now := rfl
@[simp] theorem State.holdIssue_fresh (s : State) (f : Frame) (b p : Nat) (x : Bool) : (s.holdIssue f b p x).fresh = s.fresh := rfl
@[simp] theorem State.holdIssue_nextId (s : State) (f : Frame) (b p : Nat) (x : Bool) : (s.holdIssue f b p x).nextId = s.nextId := rfl
@[simp] theorem State.holdIssue_agenda (s : State) (f : Frame) (b p : Nat) (x : Bool) : (s.holdIssue f b p x).agenda = s.agenda := rfl
@[simp] theorem State.holdIssue_cur (s : State) (f : Frame) (b p : Nat) (x : Bool) : (s.holdIssue f b p x).cur = s.cur := rfl
@[simp] theorem State.holdIssue_defer (s : State) (f : Frame) (b p : Nat) (x : Bool) : (s.holdIssue f b p x).defer = s.defer := rfl
@[simp] theorem State.holdIssue_slow (s : State) (f : Frame) (b p : Nat) (x : Bool) : (s.holdIssue f b p x).slow = s.slow := rfl
@[simp] theorem State.holdIssue_glitches (s : State) (f : Frame) (b p : Nat) (x : Bool) : (s.holdIssue f b p x).glitches = s.glitches := rfl
@[simp] theorem State.holdIssue_mem (s : State) (f : Frame) (b p : Nat) (x : Bool) : (s.holdIssue f b p x).mem = s.mem := rfl
@[simp] theorem State.holdIssue_history (s : State) (f : Frame) (b p : Nat) (x : Bool) : (s.holdIssue f b p x).history = s.history := rfl
@[simp] theorem State.holdIssue_poison (s : State) (f : Frame) (b p : Nat) (x : Bool) : (s.holdIssue f b p x).poison = s.poison := rfl
@[simp] theorem State.holdIssue_regPoison (s : State) (f : Frame) (b p : Nat) (x : Bool) : (s.holdIssue f b p x).regPoison = s.regPoison := rfl
@[simp] theorem State.holdIssue_filter (s : State) (f : Frame) (b p : Nat) (x : Bool) : (s.holdIssue f b p x).filter = s.filter := rfl
@[simp] theorem State.holdIssue_holds (s : State) (f : Frame) (b p : Nat) (x : Bool) : (s.holdIssue f b p x).holds = s.holds := rfl
@[simp] theorem State.holdIssue_placement (s : State) (f : Frame) (b p : Nat) (x : Bool) : (s.holdIssue f b p x).placement = s.placement := rfl
@[simp] theorem State.holdIssue_ctxs (s : State) (f : Frame) (b p : Nat) (x : Bool) : (s.holdIssue f b p x).ctxs = s.ctxs := rfl
@[simp] theorem State.holdIssue_grids (s : State) (f : Frame) (b p : Nat) (x : Bool) : (s.holdIssue f b p x).grids = s.grids := rfl
@[simp] theorem State.holdIssue_teams (s : State) (f : Frame) (b p : Nat) (x : Bool) : (s.holdIssue f b p x).teams = s.teams := rfl
@[simp] theorem State.holdIssue_cores (s : State) (f : Frame) (b p : Nat) (x : Bool) : (s.holdIssue f b p x).cores = s.cores := rfl
@[simp] theorem State.holdIssue_dies (s : State) (f : Frame) (b p : Nat) (x : Bool) : (s.holdIssue f b p x).dies = s.dies := rfl
@[simp] theorem State.holdIssue_ops (s : State) (f : Frame) (b p : Nat) (x : Bool) : (s.holdIssue f b p x).ops = s.ops := rfl
@[simp] theorem State.holdIssue_dev (s : State) (f : Frame) (b p : Nat) (x : Bool) : (s.holdIssue f b p x).dev = s.dev := rfl

@[simp] theorem State.holdGang_now (s : State) (f : Frame) (b p : Nat) : (s.holdGang f b p).now = s.now := rfl
@[simp] theorem State.holdGang_fresh (s : State) (f : Frame) (b p : Nat) : (s.holdGang f b p).fresh = s.fresh := rfl
@[simp] theorem State.holdGang_nextId (s : State) (f : Frame) (b p : Nat) : (s.holdGang f b p).nextId = s.nextId := rfl
@[simp] theorem State.holdGang_agenda (s : State) (f : Frame) (b p : Nat) : (s.holdGang f b p).agenda = s.agenda := rfl
@[simp] theorem State.holdGang_cur (s : State) (f : Frame) (b p : Nat) : (s.holdGang f b p).cur = s.cur := rfl
@[simp] theorem State.holdGang_defer (s : State) (f : Frame) (b p : Nat) : (s.holdGang f b p).defer = s.defer := rfl
@[simp] theorem State.holdGang_slow (s : State) (f : Frame) (b p : Nat) : (s.holdGang f b p).slow = s.slow := rfl
@[simp] theorem State.holdGang_glitches (s : State) (f : Frame) (b p : Nat) : (s.holdGang f b p).glitches = s.glitches := rfl
@[simp] theorem State.holdGang_mem (s : State) (f : Frame) (b p : Nat) : (s.holdGang f b p).mem = s.mem := rfl
@[simp] theorem State.holdGang_history (s : State) (f : Frame) (b p : Nat) : (s.holdGang f b p).history = s.history := rfl
@[simp] theorem State.holdGang_poison (s : State) (f : Frame) (b p : Nat) : (s.holdGang f b p).poison = s.poison := rfl
@[simp] theorem State.holdGang_regPoison (s : State) (f : Frame) (b p : Nat) : (s.holdGang f b p).regPoison = s.regPoison := rfl
@[simp] theorem State.holdGang_filter (s : State) (f : Frame) (b p : Nat) : (s.holdGang f b p).filter = s.filter := rfl
@[simp] theorem State.holdGang_holds (s : State) (f : Frame) (b p : Nat) : (s.holdGang f b p).holds = s.holds := rfl
@[simp] theorem State.holdGang_placement (s : State) (f : Frame) (b p : Nat) : (s.holdGang f b p).placement = s.placement := rfl
@[simp] theorem State.holdGang_ctxs (s : State) (f : Frame) (b p : Nat) : (s.holdGang f b p).ctxs = s.ctxs := rfl
@[simp] theorem State.holdGang_grids (s : State) (f : Frame) (b p : Nat) : (s.holdGang f b p).grids = s.grids := rfl
@[simp] theorem State.holdGang_teams (s : State) (f : Frame) (b p : Nat) : (s.holdGang f b p).teams = s.teams := rfl
@[simp] theorem State.holdGang_cores (s : State) (f : Frame) (b p : Nat) : (s.holdGang f b p).cores = s.cores := rfl
@[simp] theorem State.holdGang_dies (s : State) (f : Frame) (b p : Nat) : (s.holdGang f b p).dies = s.dies := rfl
@[simp] theorem State.holdGang_ops (s : State) (f : Frame) (b p : Nat) : (s.holdGang f b p).ops = s.ops := rfl
@[simp] theorem State.holdGang_dev (s : State) (f : Frame) (b p : Nat) : (s.holdGang f b p).dev = s.dev := rfl

@[simp] theorem State.setRsv_now (s : State) (n l : Nat) (r : Option Nat) : (s.setRsv n l r).now = s.now := rfl
@[simp] theorem State.setRsv_fresh (s : State) (n l : Nat) (r : Option Nat) : (s.setRsv n l r).fresh = s.fresh := rfl
@[simp] theorem State.setRsv_nextId (s : State) (n l : Nat) (r : Option Nat) : (s.setRsv n l r).nextId = s.nextId := rfl
@[simp] theorem State.setRsv_agenda (s : State) (n l : Nat) (r : Option Nat) : (s.setRsv n l r).agenda = s.agenda := rfl
@[simp] theorem State.setRsv_cur (s : State) (n l : Nat) (r : Option Nat) : (s.setRsv n l r).cur = s.cur := rfl
@[simp] theorem State.setRsv_defer (s : State) (n l : Nat) (r : Option Nat) : (s.setRsv n l r).defer = s.defer := rfl
@[simp] theorem State.setRsv_slow (s : State) (n l : Nat) (r : Option Nat) : (s.setRsv n l r).slow = s.slow := rfl
@[simp] theorem State.setRsv_glitches (s : State) (n l : Nat) (r : Option Nat) : (s.setRsv n l r).glitches = s.glitches := rfl
@[simp] theorem State.setRsv_mem (s : State) (n l : Nat) (r : Option Nat) : (s.setRsv n l r).mem = s.mem := rfl
@[simp] theorem State.setRsv_history (s : State) (n l : Nat) (r : Option Nat) : (s.setRsv n l r).history = s.history := rfl
@[simp] theorem State.setRsv_poison (s : State) (n l : Nat) (r : Option Nat) : (s.setRsv n l r).poison = s.poison := rfl
@[simp] theorem State.setRsv_regPoison (s : State) (n l : Nat) (r : Option Nat) : (s.setRsv n l r).regPoison = s.regPoison := rfl
@[simp] theorem State.setRsv_filter (s : State) (n l : Nat) (r : Option Nat) : (s.setRsv n l r).filter = s.filter := rfl
@[simp] theorem State.setRsv_holds (s : State) (n l : Nat) (r : Option Nat) : (s.setRsv n l r).holds = s.holds := rfl
@[simp] theorem State.setRsv_placement (s : State) (n l : Nat) (r : Option Nat) : (s.setRsv n l r).placement = s.placement := rfl
@[simp] theorem State.setRsv_ctxs (s : State) (n l : Nat) (r : Option Nat) : (s.setRsv n l r).ctxs = s.ctxs := rfl
@[simp] theorem State.setRsv_grids (s : State) (n l : Nat) (r : Option Nat) : (s.setRsv n l r).grids = s.grids := rfl
@[simp] theorem State.setRsv_teams (s : State) (n l : Nat) (r : Option Nat) : (s.setRsv n l r).teams = s.teams := rfl
@[simp] theorem State.setRsv_cores (s : State) (n l : Nat) (r : Option Nat) : (s.setRsv n l r).cores = s.cores := rfl
@[simp] theorem State.setRsv_dies (s : State) (n l : Nat) (r : Option Nat) : (s.setRsv n l r).dies = s.dies := rfl
@[simp] theorem State.setRsv_ops (s : State) (n l : Nat) (r : Option Nat) : (s.setRsv n l r).ops = s.ops := rfl
@[simp] theorem State.setRsv_dev (s : State) (n l : Nat) (r : Option Nat) : (s.setRsv n l r).dev = s.dev := rfl

@[simp] theorem State.dropRsv_now (s : State) (l : List Nat) (k : Gang → Bool) : (s.dropRsv l k).now = s.now := rfl
@[simp] theorem State.dropRsv_fresh (s : State) (l : List Nat) (k : Gang → Bool) : (s.dropRsv l k).fresh = s.fresh := rfl
@[simp] theorem State.dropRsv_nextId (s : State) (l : List Nat) (k : Gang → Bool) : (s.dropRsv l k).nextId = s.nextId := rfl
@[simp] theorem State.dropRsv_agenda (s : State) (l : List Nat) (k : Gang → Bool) : (s.dropRsv l k).agenda = s.agenda := rfl
@[simp] theorem State.dropRsv_cur (s : State) (l : List Nat) (k : Gang → Bool) : (s.dropRsv l k).cur = s.cur := rfl
@[simp] theorem State.dropRsv_defer (s : State) (l : List Nat) (k : Gang → Bool) : (s.dropRsv l k).defer = s.defer := rfl
@[simp] theorem State.dropRsv_slow (s : State) (l : List Nat) (k : Gang → Bool) : (s.dropRsv l k).slow = s.slow := rfl
@[simp] theorem State.dropRsv_glitches (s : State) (l : List Nat) (k : Gang → Bool) : (s.dropRsv l k).glitches = s.glitches := rfl
@[simp] theorem State.dropRsv_mem (s : State) (l : List Nat) (k : Gang → Bool) : (s.dropRsv l k).mem = s.mem := rfl
@[simp] theorem State.dropRsv_history (s : State) (l : List Nat) (k : Gang → Bool) : (s.dropRsv l k).history = s.history := rfl
@[simp] theorem State.dropRsv_poison (s : State) (l : List Nat) (k : Gang → Bool) : (s.dropRsv l k).poison = s.poison := rfl
@[simp] theorem State.dropRsv_regPoison (s : State) (l : List Nat) (k : Gang → Bool) : (s.dropRsv l k).regPoison = s.regPoison := rfl
@[simp] theorem State.dropRsv_filter (s : State) (l : List Nat) (k : Gang → Bool) : (s.dropRsv l k).filter = s.filter := rfl
@[simp] theorem State.dropRsv_placement (s : State) (l : List Nat) (k : Gang → Bool) : (s.dropRsv l k).placement = s.placement := rfl
@[simp] theorem State.dropRsv_ctxs (s : State) (l : List Nat) (k : Gang → Bool) : (s.dropRsv l k).ctxs = s.ctxs := rfl
@[simp] theorem State.dropRsv_grids (s : State) (l : List Nat) (k : Gang → Bool) : (s.dropRsv l k).grids = s.grids := rfl
@[simp] theorem State.dropRsv_teams (s : State) (l : List Nat) (k : Gang → Bool) : (s.dropRsv l k).teams = s.teams := rfl
@[simp] theorem State.dropRsv_cores (s : State) (l : List Nat) (k : Gang → Bool) : (s.dropRsv l k).cores = s.cores := rfl
@[simp] theorem State.dropRsv_dies (s : State) (l : List Nat) (k : Gang → Bool) : (s.dropRsv l k).dies = s.dies := rfl
@[simp] theorem State.dropRsv_ops (s : State) (l : List Nat) (k : Gang → Bool) : (s.dropRsv l k).ops = s.ops := rfl
@[simp] theorem State.dropRsv_dev (s : State) (l : List Nat) (k : Gang → Bool) : (s.dropRsv l k).dev = s.dev := rfl

@[simp] theorem State.signal_now (s : State) (c k n : Nat) : (s.signal c k n).now = s.now := rfl
@[simp] theorem State.signal_fresh (s : State) (c k n : Nat) : (s.signal c k n).fresh = s.fresh := rfl
@[simp] theorem State.signal_nextId (s : State) (c k n : Nat) : (s.signal c k n).nextId = s.nextId := rfl
@[simp] theorem State.signal_agenda (s : State) (c k n : Nat) : (s.signal c k n).agenda = s.agenda := rfl
@[simp] theorem State.signal_cur (s : State) (c k n : Nat) : (s.signal c k n).cur = s.cur := rfl
@[simp] theorem State.signal_defer (s : State) (c k n : Nat) : (s.signal c k n).defer = s.defer := rfl
@[simp] theorem State.signal_slow (s : State) (c k n : Nat) : (s.signal c k n).slow = s.slow := rfl
@[simp] theorem State.signal_glitches (s : State) (c k n : Nat) : (s.signal c k n).glitches = s.glitches := rfl
@[simp] theorem State.signal_mem (s : State) (c k n : Nat) : (s.signal c k n).mem = s.mem := rfl
@[simp] theorem State.signal_history (s : State) (c k n : Nat) : (s.signal c k n).history = s.history := rfl
@[simp] theorem State.signal_poison (s : State) (c k n : Nat) : (s.signal c k n).poison = s.poison := rfl
@[simp] theorem State.signal_regPoison (s : State) (c k n : Nat) : (s.signal c k n).regPoison = s.regPoison := rfl
@[simp] theorem State.signal_filter (s : State) (c k n : Nat) : (s.signal c k n).filter = s.filter := rfl
@[simp] theorem State.signal_holds (s : State) (c k n : Nat) : (s.signal c k n).holds = s.holds := rfl
@[simp] theorem State.signal_placement (s : State) (c k n : Nat) : (s.signal c k n).placement = s.placement := rfl
@[simp] theorem State.signal_ctxs (s : State) (c k n : Nat) : (s.signal c k n).ctxs = s.ctxs := rfl
@[simp] theorem State.signal_grids (s : State) (c k n : Nat) : (s.signal c k n).grids = s.grids := rfl
@[simp] theorem State.signal_teams (s : State) (c k n : Nat) : (s.signal c k n).teams = s.teams := rfl
@[simp] theorem State.signal_gangs (s : State) (c k n : Nat) : (s.signal c k n).gangs = s.gangs := rfl
@[simp] theorem State.signal_dies (s : State) (c k n : Nat) : (s.signal c k n).dies = s.dies := rfl
@[simp] theorem State.signal_ops (s : State) (c k n : Nat) : (s.signal c k n).ops = s.ops := rfl
@[simp] theorem State.signal_dev (s : State) (c k n : Nat) : (s.signal c k n).dev = s.dev := rfl

@[simp] theorem State.setBin_now (s : State) (t n : Nat) (b : Bin) : (s.setBin t n b).now = s.now := rfl
@[simp] theorem State.setBin_fresh (s : State) (t n : Nat) (b : Bin) : (s.setBin t n b).fresh = s.fresh := rfl
@[simp] theorem State.setBin_nextId (s : State) (t n : Nat) (b : Bin) : (s.setBin t n b).nextId = s.nextId := rfl
@[simp] theorem State.setBin_agenda (s : State) (t n : Nat) (b : Bin) : (s.setBin t n b).agenda = s.agenda := rfl
@[simp] theorem State.setBin_cur (s : State) (t n : Nat) (b : Bin) : (s.setBin t n b).cur = s.cur := rfl
@[simp] theorem State.setBin_defer (s : State) (t n : Nat) (b : Bin) : (s.setBin t n b).defer = s.defer := rfl
@[simp] theorem State.setBin_slow (s : State) (t n : Nat) (b : Bin) : (s.setBin t n b).slow = s.slow := rfl
@[simp] theorem State.setBin_glitches (s : State) (t n : Nat) (b : Bin) : (s.setBin t n b).glitches = s.glitches := rfl
@[simp] theorem State.setBin_mem (s : State) (t n : Nat) (b : Bin) : (s.setBin t n b).mem = s.mem := rfl
@[simp] theorem State.setBin_history (s : State) (t n : Nat) (b : Bin) : (s.setBin t n b).history = s.history := rfl
@[simp] theorem State.setBin_poison (s : State) (t n : Nat) (b : Bin) : (s.setBin t n b).poison = s.poison := rfl
@[simp] theorem State.setBin_regPoison (s : State) (t n : Nat) (b : Bin) : (s.setBin t n b).regPoison = s.regPoison := rfl
@[simp] theorem State.setBin_filter (s : State) (t n : Nat) (b : Bin) : (s.setBin t n b).filter = s.filter := rfl
@[simp] theorem State.setBin_holds (s : State) (t n : Nat) (b : Bin) : (s.setBin t n b).holds = s.holds := rfl
@[simp] theorem State.setBin_placement (s : State) (t n : Nat) (b : Bin) : (s.setBin t n b).placement = s.placement := rfl
@[simp] theorem State.setBin_ctxs (s : State) (t n : Nat) (b : Bin) : (s.setBin t n b).ctxs = s.ctxs := rfl
@[simp] theorem State.setBin_grids (s : State) (t n : Nat) (b : Bin) : (s.setBin t n b).grids = s.grids := rfl
@[simp] theorem State.setBin_gangs (s : State) (t n : Nat) (b : Bin) : (s.setBin t n b).gangs = s.gangs := rfl
@[simp] theorem State.setBin_cores (s : State) (t n : Nat) (b : Bin) : (s.setBin t n b).cores = s.cores := rfl
@[simp] theorem State.setBin_dies (s : State) (t n : Nat) (b : Bin) : (s.setBin t n b).dies = s.dies := rfl
@[simp] theorem State.setBin_ops (s : State) (t n : Nat) (b : Bin) : (s.setBin t n b).ops = s.ops := rfl
@[simp] theorem State.setBin_dev (s : State) (t n : Nat) (b : Bin) : (s.setBin t n b).dev = s.dev := rfl

@[simp] theorem State.setLine_now (s : State) (t n : Nat) (k : Line → Line) : (s.setLine t n k).now = s.now := rfl
@[simp] theorem State.setLine_fresh (s : State) (t n : Nat) (k : Line → Line) : (s.setLine t n k).fresh = s.fresh := rfl
@[simp] theorem State.setLine_nextId (s : State) (t n : Nat) (k : Line → Line) : (s.setLine t n k).nextId = s.nextId := rfl
@[simp] theorem State.setLine_agenda (s : State) (t n : Nat) (k : Line → Line) : (s.setLine t n k).agenda = s.agenda := rfl
@[simp] theorem State.setLine_cur (s : State) (t n : Nat) (k : Line → Line) : (s.setLine t n k).cur = s.cur := rfl
@[simp] theorem State.setLine_defer (s : State) (t n : Nat) (k : Line → Line) : (s.setLine t n k).defer = s.defer := rfl
@[simp] theorem State.setLine_slow (s : State) (t n : Nat) (k : Line → Line) : (s.setLine t n k).slow = s.slow := rfl
@[simp] theorem State.setLine_glitches (s : State) (t n : Nat) (k : Line → Line) : (s.setLine t n k).glitches = s.glitches := rfl
@[simp] theorem State.setLine_mem (s : State) (t n : Nat) (k : Line → Line) : (s.setLine t n k).mem = s.mem := rfl
@[simp] theorem State.setLine_history (s : State) (t n : Nat) (k : Line → Line) : (s.setLine t n k).history = s.history := rfl
@[simp] theorem State.setLine_poison (s : State) (t n : Nat) (k : Line → Line) : (s.setLine t n k).poison = s.poison := rfl
@[simp] theorem State.setLine_regPoison (s : State) (t n : Nat) (k : Line → Line) : (s.setLine t n k).regPoison = s.regPoison := rfl
@[simp] theorem State.setLine_filter (s : State) (t n : Nat) (k : Line → Line) : (s.setLine t n k).filter = s.filter := rfl
@[simp] theorem State.setLine_holds (s : State) (t n : Nat) (k : Line → Line) : (s.setLine t n k).holds = s.holds := rfl
@[simp] theorem State.setLine_placement (s : State) (t n : Nat) (k : Line → Line) : (s.setLine t n k).placement = s.placement := rfl
@[simp] theorem State.setLine_ctxs (s : State) (t n : Nat) (k : Line → Line) : (s.setLine t n k).ctxs = s.ctxs := rfl
@[simp] theorem State.setLine_grids (s : State) (t n : Nat) (k : Line → Line) : (s.setLine t n k).grids = s.grids := rfl
@[simp] theorem State.setLine_gangs (s : State) (t n : Nat) (k : Line → Line) : (s.setLine t n k).gangs = s.gangs := rfl
@[simp] theorem State.setLine_cores (s : State) (t n : Nat) (k : Line → Line) : (s.setLine t n k).cores = s.cores := rfl
@[simp] theorem State.setLine_dies (s : State) (t n : Nat) (k : Line → Line) : (s.setLine t n k).dies = s.dies := rfl
@[simp] theorem State.setLine_ops (s : State) (t n : Nat) (k : Line → Line) : (s.setLine t n k).ops = s.ops := rfl
@[simp] theorem State.setLine_dev (s : State) (t n : Nat) (k : Line → Line) : (s.setLine t n k).dev = s.dev := rfl

@[simp] theorem State.barUpdate_now (s : State) (t n : Nat) (u : BarUpd) : (s.barUpdate t n u).now = s.now := rfl
@[simp] theorem State.barUpdate_fresh (s : State) (t n : Nat) (u : BarUpd) : (s.barUpdate t n u).fresh = s.fresh := rfl
@[simp] theorem State.barUpdate_nextId (s : State) (t n : Nat) (u : BarUpd) : (s.barUpdate t n u).nextId = s.nextId := rfl
@[simp] theorem State.barUpdate_agenda (s : State) (t n : Nat) (u : BarUpd) : (s.barUpdate t n u).agenda = s.agenda := rfl
@[simp] theorem State.barUpdate_cur (s : State) (t n : Nat) (u : BarUpd) : (s.barUpdate t n u).cur = s.cur := rfl
@[simp] theorem State.barUpdate_defer (s : State) (t n : Nat) (u : BarUpd) : (s.barUpdate t n u).defer = s.defer := rfl
@[simp] theorem State.barUpdate_slow (s : State) (t n : Nat) (u : BarUpd) : (s.barUpdate t n u).slow = s.slow := rfl
@[simp] theorem State.barUpdate_glitches (s : State) (t n : Nat) (u : BarUpd) : (s.barUpdate t n u).glitches = s.glitches := rfl
@[simp] theorem State.barUpdate_mem (s : State) (t n : Nat) (u : BarUpd) : (s.barUpdate t n u).mem = s.mem := rfl
@[simp] theorem State.barUpdate_history (s : State) (t n : Nat) (u : BarUpd) : (s.barUpdate t n u).history = s.history := rfl
@[simp] theorem State.barUpdate_poison (s : State) (t n : Nat) (u : BarUpd) : (s.barUpdate t n u).poison = s.poison := rfl
@[simp] theorem State.barUpdate_regPoison (s : State) (t n : Nat) (u : BarUpd) : (s.barUpdate t n u).regPoison = s.regPoison := rfl
@[simp] theorem State.barUpdate_filter (s : State) (t n : Nat) (u : BarUpd) : (s.barUpdate t n u).filter = s.filter := rfl
@[simp] theorem State.barUpdate_holds (s : State) (t n : Nat) (u : BarUpd) : (s.barUpdate t n u).holds = s.holds := rfl
@[simp] theorem State.barUpdate_placement (s : State) (t n : Nat) (u : BarUpd) : (s.barUpdate t n u).placement = s.placement := rfl
@[simp] theorem State.barUpdate_ctxs (s : State) (t n : Nat) (u : BarUpd) : (s.barUpdate t n u).ctxs = s.ctxs := rfl
@[simp] theorem State.barUpdate_grids (s : State) (t n : Nat) (u : BarUpd) : (s.barUpdate t n u).grids = s.grids := rfl
@[simp] theorem State.barUpdate_gangs (s : State) (t n : Nat) (u : BarUpd) : (s.barUpdate t n u).gangs = s.gangs := rfl
@[simp] theorem State.barUpdate_cores (s : State) (t n : Nat) (u : BarUpd) : (s.barUpdate t n u).cores = s.cores := rfl
@[simp] theorem State.barUpdate_dies (s : State) (t n : Nat) (u : BarUpd) : (s.barUpdate t n u).dies = s.dies := rfl
@[simp] theorem State.barUpdate_ops (s : State) (t n : Nat) (u : BarUpd) : (s.barUpdate t n u).ops = s.ops := rfl
@[simp] theorem State.barUpdate_dev (s : State) (t n : Nat) (u : BarUpd) : (s.barUpdate t n u).dev = s.dev := rfl

@[simp] theorem State.writeScratch_now (s : State) (t : Nat) (l : List (Nat × Byte)) : (s.writeScratch t l).now = s.now := rfl
@[simp] theorem State.writeScratch_fresh (s : State) (t : Nat) (l : List (Nat × Byte)) : (s.writeScratch t l).fresh = s.fresh := rfl
@[simp] theorem State.writeScratch_nextId (s : State) (t : Nat) (l : List (Nat × Byte)) : (s.writeScratch t l).nextId = s.nextId := rfl
@[simp] theorem State.writeScratch_agenda (s : State) (t : Nat) (l : List (Nat × Byte)) : (s.writeScratch t l).agenda = s.agenda := rfl
@[simp] theorem State.writeScratch_cur (s : State) (t : Nat) (l : List (Nat × Byte)) : (s.writeScratch t l).cur = s.cur := rfl
@[simp] theorem State.writeScratch_defer (s : State) (t : Nat) (l : List (Nat × Byte)) : (s.writeScratch t l).defer = s.defer := rfl
@[simp] theorem State.writeScratch_slow (s : State) (t : Nat) (l : List (Nat × Byte)) : (s.writeScratch t l).slow = s.slow := rfl
@[simp] theorem State.writeScratch_glitches (s : State) (t : Nat) (l : List (Nat × Byte)) : (s.writeScratch t l).glitches = s.glitches := rfl
@[simp] theorem State.writeScratch_mem (s : State) (t : Nat) (l : List (Nat × Byte)) : (s.writeScratch t l).mem = s.mem := rfl
@[simp] theorem State.writeScratch_history (s : State) (t : Nat) (l : List (Nat × Byte)) : (s.writeScratch t l).history = s.history := rfl
@[simp] theorem State.writeScratch_poison (s : State) (t : Nat) (l : List (Nat × Byte)) : (s.writeScratch t l).poison = s.poison := rfl
@[simp] theorem State.writeScratch_regPoison (s : State) (t : Nat) (l : List (Nat × Byte)) : (s.writeScratch t l).regPoison = s.regPoison := rfl
@[simp] theorem State.writeScratch_filter (s : State) (t : Nat) (l : List (Nat × Byte)) : (s.writeScratch t l).filter = s.filter := rfl
@[simp] theorem State.writeScratch_holds (s : State) (t : Nat) (l : List (Nat × Byte)) : (s.writeScratch t l).holds = s.holds := rfl
@[simp] theorem State.writeScratch_placement (s : State) (t : Nat) (l : List (Nat × Byte)) : (s.writeScratch t l).placement = s.placement := rfl
@[simp] theorem State.writeScratch_ctxs (s : State) (t : Nat) (l : List (Nat × Byte)) : (s.writeScratch t l).ctxs = s.ctxs := rfl
@[simp] theorem State.writeScratch_grids (s : State) (t : Nat) (l : List (Nat × Byte)) : (s.writeScratch t l).grids = s.grids := rfl
@[simp] theorem State.writeScratch_gangs (s : State) (t : Nat) (l : List (Nat × Byte)) : (s.writeScratch t l).gangs = s.gangs := rfl
@[simp] theorem State.writeScratch_cores (s : State) (t : Nat) (l : List (Nat × Byte)) : (s.writeScratch t l).cores = s.cores := rfl
@[simp] theorem State.writeScratch_dies (s : State) (t : Nat) (l : List (Nat × Byte)) : (s.writeScratch t l).dies = s.dies := rfl
@[simp] theorem State.writeScratch_ops (s : State) (t : Nat) (l : List (Nat × Byte)) : (s.writeScratch t l).ops = s.ops := rfl
@[simp] theorem State.writeScratch_dev (s : State) (t : Nat) (l : List (Nat × Byte)) : (s.writeScratch t l).dev = s.dev := rfl

@[simp] theorem State.writeCells_now (s : State) (l : List (Nat × Byte)) : (s.writeCells l).now = s.now := rfl
@[simp] theorem State.writeCells_fresh (s : State) (l : List (Nat × Byte)) : (s.writeCells l).fresh = s.fresh := rfl
@[simp] theorem State.writeCells_nextId (s : State) (l : List (Nat × Byte)) : (s.writeCells l).nextId = s.nextId := rfl
@[simp] theorem State.writeCells_agenda (s : State) (l : List (Nat × Byte)) : (s.writeCells l).agenda = s.agenda := rfl
@[simp] theorem State.writeCells_cur (s : State) (l : List (Nat × Byte)) : (s.writeCells l).cur = s.cur := rfl
@[simp] theorem State.writeCells_defer (s : State) (l : List (Nat × Byte)) : (s.writeCells l).defer = s.defer := rfl
@[simp] theorem State.writeCells_slow (s : State) (l : List (Nat × Byte)) : (s.writeCells l).slow = s.slow := rfl
@[simp] theorem State.writeCells_glitches (s : State) (l : List (Nat × Byte)) : (s.writeCells l).glitches = s.glitches := rfl
@[simp] theorem State.writeCells_regPoison (s : State) (l : List (Nat × Byte)) : (s.writeCells l).regPoison = s.regPoison := rfl
@[simp] theorem State.writeCells_filter (s : State) (l : List (Nat × Byte)) : (s.writeCells l).filter = s.filter := rfl
@[simp] theorem State.writeCells_placement (s : State) (l : List (Nat × Byte)) : (s.writeCells l).placement = s.placement := rfl
@[simp] theorem State.writeCells_ctxs (s : State) (l : List (Nat × Byte)) : (s.writeCells l).ctxs = s.ctxs := rfl
@[simp] theorem State.writeCells_grids (s : State) (l : List (Nat × Byte)) : (s.writeCells l).grids = s.grids := rfl
@[simp] theorem State.writeCells_teams (s : State) (l : List (Nat × Byte)) : (s.writeCells l).teams = s.teams := rfl
@[simp] theorem State.writeCells_cores (s : State) (l : List (Nat × Byte)) : (s.writeCells l).cores = s.cores := rfl
@[simp] theorem State.writeCells_dies (s : State) (l : List (Nat × Byte)) : (s.writeCells l).dies = s.dies := rfl
@[simp] theorem State.writeCells_ops (s : State) (l : List (Nat × Byte)) : (s.writeCells l).ops = s.ops := rfl
@[simp] theorem State.writeCells_dev (s : State) (l : List (Nat × Byte)) : (s.writeCells l).dev = s.dev := rfl

@[simp] theorem State.faultRec_now (s : State) (c : Nat) (r : List Byte) : (s.faultRec c r).now = s.now := rfl
@[simp] theorem State.faultRec_fresh (s : State) (c : Nat) (r : List Byte) : (s.faultRec c r).fresh = s.fresh := rfl
@[simp] theorem State.faultRec_nextId (s : State) (c : Nat) (r : List Byte) : (s.faultRec c r).nextId = s.nextId := rfl
@[simp] theorem State.faultRec_agenda (s : State) (c : Nat) (r : List Byte) : (s.faultRec c r).agenda = s.agenda := rfl
@[simp] theorem State.faultRec_cur (s : State) (c : Nat) (r : List Byte) : (s.faultRec c r).cur = s.cur := rfl
@[simp] theorem State.faultRec_defer (s : State) (c : Nat) (r : List Byte) : (s.faultRec c r).defer = s.defer := rfl
@[simp] theorem State.faultRec_slow (s : State) (c : Nat) (r : List Byte) : (s.faultRec c r).slow = s.slow := rfl
@[simp] theorem State.faultRec_glitches (s : State) (c : Nat) (r : List Byte) : (s.faultRec c r).glitches = s.glitches := rfl
@[simp] theorem State.faultRec_mem (s : State) (c : Nat) (r : List Byte) : (s.faultRec c r).mem = s.mem := rfl
@[simp] theorem State.faultRec_history (s : State) (c : Nat) (r : List Byte) : (s.faultRec c r).history = s.history := rfl
@[simp] theorem State.faultRec_poison (s : State) (c : Nat) (r : List Byte) : (s.faultRec c r).poison = s.poison := rfl
@[simp] theorem State.faultRec_regPoison (s : State) (c : Nat) (r : List Byte) : (s.faultRec c r).regPoison = s.regPoison := rfl
@[simp] theorem State.faultRec_filter (s : State) (c : Nat) (r : List Byte) : (s.faultRec c r).filter = s.filter := rfl
@[simp] theorem State.faultRec_holds (s : State) (c : Nat) (r : List Byte) : (s.faultRec c r).holds = s.holds := rfl
@[simp] theorem State.faultRec_placement (s : State) (c : Nat) (r : List Byte) : (s.faultRec c r).placement = s.placement := rfl
@[simp] theorem State.faultRec_grids (s : State) (c : Nat) (r : List Byte) : (s.faultRec c r).grids = s.grids := rfl
@[simp] theorem State.faultRec_teams (s : State) (c : Nat) (r : List Byte) : (s.faultRec c r).teams = s.teams := rfl
@[simp] theorem State.faultRec_gangs (s : State) (c : Nat) (r : List Byte) : (s.faultRec c r).gangs = s.gangs := rfl
@[simp] theorem State.faultRec_cores (s : State) (c : Nat) (r : List Byte) : (s.faultRec c r).cores = s.cores := rfl
@[simp] theorem State.faultRec_dies (s : State) (c : Nat) (r : List Byte) : (s.faultRec c r).dies = s.dies := rfl
@[simp] theorem State.faultRec_ops (s : State) (c : Nat) (r : List Byte) : (s.faultRec c r).ops = s.ops := rfl
@[simp] theorem State.faultRec_dev (s : State) (c : Nat) (r : List Byte) : (s.faultRec c r).dev = s.dev := rfl

@[simp] theorem State.traceDrop_now (s : State) (c : Nat) : (s.traceDrop c).now = s.now := rfl
@[simp] theorem State.traceDrop_fresh (s : State) (c : Nat) : (s.traceDrop c).fresh = s.fresh := rfl
@[simp] theorem State.traceDrop_nextId (s : State) (c : Nat) : (s.traceDrop c).nextId = s.nextId := rfl
@[simp] theorem State.traceDrop_agenda (s : State) (c : Nat) : (s.traceDrop c).agenda = s.agenda := rfl
@[simp] theorem State.traceDrop_cur (s : State) (c : Nat) : (s.traceDrop c).cur = s.cur := rfl
@[simp] theorem State.traceDrop_defer (s : State) (c : Nat) : (s.traceDrop c).defer = s.defer := rfl
@[simp] theorem State.traceDrop_slow (s : State) (c : Nat) : (s.traceDrop c).slow = s.slow := rfl
@[simp] theorem State.traceDrop_glitches (s : State) (c : Nat) : (s.traceDrop c).glitches = s.glitches := rfl
@[simp] theorem State.traceDrop_mem (s : State) (c : Nat) : (s.traceDrop c).mem = s.mem := rfl
@[simp] theorem State.traceDrop_history (s : State) (c : Nat) : (s.traceDrop c).history = s.history := rfl
@[simp] theorem State.traceDrop_poison (s : State) (c : Nat) : (s.traceDrop c).poison = s.poison := rfl
@[simp] theorem State.traceDrop_regPoison (s : State) (c : Nat) : (s.traceDrop c).regPoison = s.regPoison := rfl
@[simp] theorem State.traceDrop_filter (s : State) (c : Nat) : (s.traceDrop c).filter = s.filter := rfl
@[simp] theorem State.traceDrop_holds (s : State) (c : Nat) : (s.traceDrop c).holds = s.holds := rfl
@[simp] theorem State.traceDrop_placement (s : State) (c : Nat) : (s.traceDrop c).placement = s.placement := rfl
@[simp] theorem State.traceDrop_grids (s : State) (c : Nat) : (s.traceDrop c).grids = s.grids := rfl
@[simp] theorem State.traceDrop_teams (s : State) (c : Nat) : (s.traceDrop c).teams = s.teams := rfl
@[simp] theorem State.traceDrop_gangs (s : State) (c : Nat) : (s.traceDrop c).gangs = s.gangs := rfl
@[simp] theorem State.traceDrop_cores (s : State) (c : Nat) : (s.traceDrop c).cores = s.cores := rfl
@[simp] theorem State.traceDrop_dies (s : State) (c : Nat) : (s.traceDrop c).dies = s.dies := rfl
@[simp] theorem State.traceDrop_ops (s : State) (c : Nat) : (s.traceDrop c).ops = s.ops := rfl
@[simp] theorem State.traceDrop_dev (s : State) (c : Nat) : (s.traceDrop c).dev = s.dev := rfl

@[simp] theorem State.newId_now (s : State) : s.newId.2.now = s.now := rfl
@[simp] theorem State.newId_fresh (s : State) : s.newId.2.fresh = s.fresh := rfl
@[simp] theorem State.newId_agenda (s : State) : s.newId.2.agenda = s.agenda := rfl
@[simp] theorem State.newId_cur (s : State) : s.newId.2.cur = s.cur := rfl
@[simp] theorem State.newId_defer (s : State) : s.newId.2.defer = s.defer := rfl
@[simp] theorem State.newId_slow (s : State) : s.newId.2.slow = s.slow := rfl
@[simp] theorem State.newId_glitches (s : State) : s.newId.2.glitches = s.glitches := rfl
@[simp] theorem State.newId_mem (s : State) : s.newId.2.mem = s.mem := rfl
@[simp] theorem State.newId_history (s : State) : s.newId.2.history = s.history := rfl
@[simp] theorem State.newId_poison (s : State) : s.newId.2.poison = s.poison := rfl
@[simp] theorem State.newId_regPoison (s : State) : s.newId.2.regPoison = s.regPoison := rfl
@[simp] theorem State.newId_filter (s : State) : s.newId.2.filter = s.filter := rfl
@[simp] theorem State.newId_holds (s : State) : s.newId.2.holds = s.holds := rfl
@[simp] theorem State.newId_placement (s : State) : s.newId.2.placement = s.placement := rfl
@[simp] theorem State.newId_ctxs (s : State) : s.newId.2.ctxs = s.ctxs := rfl
@[simp] theorem State.newId_grids (s : State) : s.newId.2.grids = s.grids := rfl
@[simp] theorem State.newId_teams (s : State) : s.newId.2.teams = s.teams := rfl
@[simp] theorem State.newId_gangs (s : State) : s.newId.2.gangs = s.gangs := rfl
@[simp] theorem State.newId_cores (s : State) : s.newId.2.cores = s.cores := rfl
@[simp] theorem State.newId_dies (s : State) : s.newId.2.dies = s.dies := rfl
@[simp] theorem State.newId_ops (s : State) : s.newId.2.ops = s.ops := rfl
@[simp] theorem State.newId_dev (s : State) : s.newId.2.dev = s.dev := rfl
@[simp] theorem State.newId_nextId (s : State) : s.newId.2.nextId = s.nextId + 1 := rfl
@[simp] theorem State.newId_fst (s : State) : s.newId.1 = s.nextId := rfl

end Sys2Proof.Machine
end

