-- ==== Sys2Proof/Laws/Device.lean ====
section
/-! SUPPORT. What the loader's choice, the capability list, early loads and a write of `agl` can do. -/

namespace Sys2Proof.Machine

/-! ### The loader's choice (R77) -/

/-- A fold that keeps what it has or takes the next element ends with one of them. -/
theorem foldl_keeps {α : Type} (f : Option α → α → Option α) (hf : ∀ x y z, f x y = some z → x = some z ∨ y = z)
    (xs : List α) (x : Option α) (z : α) (h : xs.foldl f x = some z) : x = some z ∨ z ∈ xs := by
  induction xs generalizing x with
  | nil => exact .inl h
  | cons a xs ih =>
    rcases ih _ h with h | h
    · exact (hf _ _ _ h).imp_right (by simp_all)
    · exact .inr (List.mem_cons_of_mem _ h)

/-- The chosen image is one of the object's, and a candidate. -/
theorem chooseImage_candidate {feats : DWord} {k : CoreKind} {is : List Image} {n : Nat}
    (h : chooseImage feats k is = some n) : ∃ i, is[n]? = some i ∧ i.candidate feats k = true := by
  simp only [chooseImage, Option.map_eq_some_iff] at h
  obtain ⟨y, hy, rfl⟩ := h
  have hm := (foldl_keeps _ (fun x y z h => by
    cases x with
    | none => exact .inr (by simpa using h)
    | some x => dsimp only at h; split at h <;> simp_all) _ none y hy).resolve_left (by simp)
  obtain ⟨hz, hc⟩ := List.mem_filter.1 hm
  exact ⟨y.1, by simpa using List.mem_zipIdx_iff_getElem?.1 hz, hc⟩

/-! ### The capability list (R373) -/

/-- Entries 1 to 3 stand apart from one another and from entry 0, inside the block. -/
theorem capPlace_apart : ∀ k ∈ [1, 2, 3], capApart capPlace k = true := by
  by_cases h : ([1, 2, 3].all (capApart fun k => if k = 0 then 0 else Config.capOffset k)) = true
  · have e : capPlace = fun k => if k = 0 then 0 else Config.capOffset k := by
      funext k; simp only [capPlace]; rw [if_pos h]
    rw [e]; simpa using h
  · have e : capPlace = fun k => (((List.range k).map fun j => (capLen j + 7) / 8 * 8)).sum := by
      funext k; simp only [capPlace]; rw [if_neg h]
    rw [e]; decide

theorem capPlace_zero : capPlace 0 = 0 := by
  simp only [capPlace]; split <;> simp

/-! ### Early loads (R237) -/

/-- What stands in the unit now is always among what a load may bind. -/
@[simp] theorem Team.unit8_mem (t : Team) (u since : Nat) : t.unit8 u ∈ t.valuesSince u since := by
  simp [Team.valuesSince]

/-- With no change since, it is all. -/
theorem Team.valuesSince_now (t : Team) (u since : Nat) (h : t.past.length ≤ since) : t.valuesSince u since = [t.unit8 u] := by
  simp [Team.valuesSince, Nat.sub_eq_zero_of_le h]

/-! ### A write of `agl` (R135) -/

@[simp] theorem Gang.takeAgl_none (g : Gang) (h : g.aglNext = none) : g.takeAgl = g := by simp [Gang.takeAgl, h]

theorem Gang.takeAgl_some (g : Gang) (v : Word) (c : Nat) (h : g.aglNext = some (v, c)) :
    g.takeAgl.agl = v ∧ g.takeAgl.aglNext = none ∧ g.takeAgl.marks = g.marks ∧ g.takeAgl.results = g.results := by
  simp [Gang.takeAgl, h]

end Sys2Proof.Machine
end

