-- ==== Sys2Proof/Laws/Encoding.lean ====
section
/-! SUPPORT. Codes read back, and the fields of the words that `full` and the bodies of the formats build. -/

namespace Sys2Proof

@[simp] theorem tyOfCode_tyCode (t : Ty) : tyOfCode (tyCode t) = some t := by cases t <;> rfl
@[simp] theorem ccOf_ccCode (c : Cc) : ccOf (ccCode c) = some c := by cases c <;> rfl
@[simp] theorem fccOf_fccCode (c : Fcc) : fccOf (fccCode c) = c := by cases c <;> rfl
@[simp] theorem rmOf_rmCode (c : Rm) : rmOf (rmCode c) = c := by cases c <;> rfl
@[simp] theorem ovOf_ovCode (c : Ov) : ovOf (ovCode c) = c := by cases c <;> rfl
@[simp] theorem scOf_scCode (c : Scope) : scOf (scCode c) = c := by cases c <;> rfl
@[simp] theorem etOf_etCode (c : Et) : etOf (etCode c) = some c := by cases c <;> rfl
@[simp] theorem smOf_smCode (c : Sm) : smOf (smCode c) = c := by cases c <;> rfl
@[simp] theorem shflOf_shflCode (c : ShflMode) : shflOf (shflCode c) = c := by cases c <;> rfl
@[simp] theorem dirOf_dirCode (c : CopyDir) : dirOf (dirCode c) = c := by cases c <;> rfl
@[simp] theorem orClassOf_orClassCode (c : OrClass) : orClassOf (orClassCode c) = c := by cases c <;> rfl
@[simp] theorem pairOpOf_pairOpCode (c : PairOp) : pairOpOf (pairOpCode c) = some c := by cases c <;> rfl

/-- A field above the low part of a word. -/
theorem extract_hi {v w : Nat} (x : BitVec v) (y : BitVec w) {k n : Nat} (h : w ≤ k) :
    (x ++ y).extractLsb' k n = x.extractLsb' (k - w) n := BitVec.extractLsb'_append_eq_of_le h

/-- A field within the low part of a word. -/
theorem extract_lo {v w : Nat} (x : BitVec v) (y : BitVec w) {k n : Nat} (h : k + n ≤ w) :
    (x ++ y).extractLsb' k n = y.extractLsb' k n := BitVec.extractLsb'_append_eq_of_add_le h

/-- A bit above the low part of a word. -/
theorem get_hi {v w : Nat} (x : BitVec v) (y : BitVec w) {k : Nat} (h : w ≤ k) :
    (x ++ y).getLsbD k = x.getLsbD (k - w) := by rw [BitVec.getLsbD_append, if_neg (Nat.not_lt.2 h)]

/-- A bit within the low part of a word. -/
theorem get_lo {v w : Nat} (x : BitVec v) (y : BitVec w) {k : Nat} (h : k < w) :
    (x ++ y).getLsbD k = y.getLsbD k := by rw [BitVec.getLsbD_append, if_pos h]

/-- A field of a full word lies in its body. -/
theorem full_body (maj : BitVec 4) (min : BitVec 6) (h : Hdr) (body : BitVec 42) {k n : Nat} (hk : k + n ≤ 42) :
    (full maj min h body).extractLsb' k n = body.extractLsb' k n := extract_lo _ _ hk

@[simp] theorem full_paired (maj : BitVec 4) (min : BitVec 6) (h : Hdr) (body : BitVec 42) :
    (full maj min h body).getLsbD 63 = false := by
  simp (disch := decide) only [full, get_hi, Nat.reduceSub]; decide

@[simp] theorem full_major (maj : BitVec 4) (min : BitVec 6) (h : Hdr) (body : BitVec 42) :
    (full maj min h body).extractLsb' 59 4 = maj := by
  simp (disch := decide) only [full, extract_hi, extract_lo, Nat.reduceSub, BitVec.extractLsb'_eq_self]

@[simp] theorem full_minor (maj : BitVec 4) (min : BitVec 6) (h : Hdr) (body : BitVec 42) :
    (full maj min h body).extractLsb' 53 6 = min := by
  simp (disch := decide) only [full, extract_hi, extract_lo, Nat.reduceSub, BitVec.extractLsb'_eq_self]

theorem full_bit (maj : BitVec 4) (min : BitVec 6) (h : Hdr) (body : BitVec 42) {k : Nat} (hk : k < 42) :
    (full maj min h body).getLsbD k = body.getLsbD k := get_lo _ _ hk

@[simp] theorem bit_get (b : Bool) : (bit b).getLsbD 0 = b := by cases b <;> rfl

@[simp] theorem hdrOf_full (maj : BitVec 4) (min : BitVec 6) (h : Hdr) (body : BitVec 42) :
    hdrOf (full maj min h body) = h := by
  obtain ⟨g, la⟩ := h
  have hla : (full maj min ⟨g, la⟩ body).extractLsb' 42 4 = la := by
    simp (disch := decide) only [full, extract_hi, extract_lo, Nat.reduceSub, BitVec.extractLsb'_eq_self]
  unfold hdrOf
  rw [hla]
  cases g with
  | always =>
    have : (full maj min ⟨.always, la⟩ body).getLsbD 52 = false := by
      simp (disch := decide) only [full, guardBits, get_hi, get_lo, Nat.reduceSub]; decide
    rw [this]; rfl
  | on p n =>
    have h1 : (full maj min ⟨.on p n, la⟩ body).getLsbD 52 = true := by
      simp (disch := decide) only [full, guardBits, get_hi, get_lo, Nat.reduceSub]; decide
    have h2 : (full maj min ⟨.on p n, la⟩ body).extractLsb' 47 5 = p := by
      simp (disch := decide) only [full, guardBits, extract_hi, extract_lo, Nat.reduceSub, BitVec.extractLsb'_eq_self]
    have h3 : (full maj min ⟨.on p n, la⟩ body).getLsbD 46 = n := by
      simp (disch := decide) only [full, guardBits, get_hi, get_lo, bit_get, Nat.reduceSub];
    rw [h1, h2, h3]; rfl

/-! ### Fields of the formats -/

section

variable (maj : BitVec 4) (min : BitVec 6) (h : Hdr) (d a b c : Reg)

@[simp] theorem fD_A (m : BitVec 10) :
    fD (full maj min h (bodyA d a b c m)) = d := by
  have e : (bodyA d a b c m).extractLsb' 34 8 = d := by
    simp (disch := decide) only [bodyA, extract_hi, extract_lo, Nat.reduceSub, BitVec.extractLsb'_eq_self]
  exact (full_body _ _ _ _ (by decide)).trans e

@[simp] theorem fA_A (m : BitVec 10) :
    fA (full maj min h (bodyA d a b c m)) = a := by
  have e : (bodyA d a b c m).extractLsb' 26 8 = a := by
    simp (disch := decide) only [bodyA, extract_hi, extract_lo, Nat.reduceSub, BitVec.extractLsb'_eq_self]
  exact (full_body _ _ _ _ (by decide)).trans e

@[simp] theorem fB_A (m : BitVec 10) :
    fB (full maj min h (bodyA d a b c m)) = b := by
  have e : (bodyA d a b c m).extractLsb' 18 8 = b := by
    simp (disch := decide) only [bodyA, extract_hi, extract_lo, Nat.reduceSub, BitVec.extractLsb'_eq_self]
  exact (full_body _ _ _ _ (by decide)).trans e

@[simp] theorem fC_A (m : BitVec 10) :
    fC (full maj min h (bodyA d a b c m)) = c := by
  have e : (bodyA d a b c m).extractLsb' 10 8 = c := by
    simp (disch := decide) only [bodyA, extract_hi, extract_lo, Nat.reduceSub, BitVec.extractLsb'_eq_self]
  exact (full_body _ _ _ _ (by decide)).trans e

/-- A field of the modifier. -/
theorem low_A (m : BitVec 10) {k n : Nat} (hk : k + n ≤ 10) :
    (full maj min h (bodyA d a b c m)).extractLsb' k n = m.extractLsb' k n :=
  (full_body _ _ _ _ (by omega)).trans (extract_lo _ _ hk)

/-- A bit of the modifier. -/
theorem bit_A (m : BitVec 10) {k : Nat} (hk : k < 10) : (full maj min h (bodyA d a b c m)).getLsbD k = m.getLsbD k :=
  (full_bit _ _ _ _ (by omega)).trans (get_lo _ _ hk)

@[simp] theorem fD_I (i : BitVec 18) (m : BitVec 8) :
    fD (full maj min h (bodyI d a i m)) = d := by
  have e : (bodyI d a i m).extractLsb' 34 8 = d := by
    simp (disch := decide) only [bodyI, extract_hi, extract_lo, Nat.reduceSub, BitVec.extractLsb'_eq_self]
  exact (full_body _ _ _ _ (by decide)).trans e

@[simp] theorem fA_I (i : BitVec 18) (m : BitVec 8) :
    fA (full maj min h (bodyI d a i m)) = a := by
  have e : (bodyI d a i m).extractLsb' 26 8 = a := by
    simp (disch := decide) only [bodyI, extract_hi, extract_lo, Nat.reduceSub, BitVec.extractLsb'_eq_self]
  exact (full_body _ _ _ _ (by decide)).trans e

@[simp] theorem fImm18_I (i : BitVec 18) (m : BitVec 8) :
    fImm18 (full maj min h (bodyI d a i m)) = i := by
  have e : (bodyI d a i m).extractLsb' 8 18 = i := by
    simp (disch := decide) only [bodyI, extract_hi, extract_lo, Nat.reduceSub, BitVec.extractLsb'_eq_self]
  exact (full_body _ _ _ _ (by decide)).trans e

/-- A field of the modifier of format I. -/
theorem low_I (i : BitVec 18) (m : BitVec 8) {k n : Nat} (hk : k + n ≤ 8) :
    (full maj min h (bodyI d a i m)).extractLsb' k n = m.extractLsb' k n :=
  (full_body _ _ _ _ (by omega)).trans (extract_lo _ _ hk)

@[simp] theorem fD_B (ofs : BitVec 26) :
    fD (full maj min h (bodyB d a ofs)) = d := by
  have e : (bodyB d a ofs).extractLsb' 34 8 = d := by
    simp (disch := decide) only [bodyB, extract_hi, extract_lo, Nat.reduceSub, BitVec.extractLsb'_eq_self]
  exact (full_body _ _ _ _ (by decide)).trans e

@[simp] theorem fA_B (ofs : BitVec 26) :
    fA (full maj min h (bodyB d a ofs)) = a := by
  have e : (bodyB d a ofs).extractLsb' 26 8 = a := by
    simp (disch := decide) only [bodyB, extract_hi, extract_lo, Nat.reduceSub, BitVec.extractLsb'_eq_self]
  exact (full_body _ _ _ _ (by decide)).trans e

@[simp] theorem fOfs_B (ofs : BitVec 26) :
    fOfs (full maj min h (bodyB d a ofs)) = ofs := by
  have e : (bodyB d a ofs).extractLsb' 0 26 = ofs := by
    simp (disch := decide) only [bodyB, extract_hi, extract_lo, Nat.reduceSub, BitVec.extractLsb'_eq_self]
  exact (full_body _ _ _ _ (by decide)).trans e

@[simp] theorem fD_M (ad : Addr) (q : BitVec 1) :
    fD (full maj min h (bodyM d ad q)) = d := by
  have e : (bodyM d ad q).extractLsb' 34 8 = d := by
    simp (disch := decide) only [bodyM, extract_hi, extract_lo, Nat.reduceSub, BitVec.extractLsb'_eq_self]
  exact (full_body _ _ _ _ (by decide)).trans e

@[simp] theorem base_M (ad : Addr) (q : BitVec 1) :
    (full maj min h (bodyM d ad q)).extractLsb' 28 6 = ad.base := by
  have e : (bodyM d ad q).extractLsb' 28 6 = ad.base := by
    simp (disch := decide) only [bodyM, extract_hi, extract_lo, Nat.reduceSub, BitVec.extractLsb'_eq_self]
  exact (full_body _ _ _ _ (by decide)).trans e

@[simp] theorem x_M (ad : Addr) (q : BitVec 1) :
    (full maj min h (bodyM d ad q)).extractLsb' 20 8 = ad.x := by
  have e : (bodyM d ad q).extractLsb' 20 8 = ad.x := by
    simp (disch := decide) only [bodyM, extract_hi, extract_lo, Nat.reduceSub, BitVec.extractLsb'_eq_self]
  exact (full_body _ _ _ _ (by decide)).trans e

@[simp] theorem ofs_M (ad : Addr) (q : BitVec 1) :
    (full maj min h (bodyM d ad q)).extractLsb' 14 6 = ad.ofs := by
  have e : (bodyM d ad q).extractLsb' 14 6 = ad.ofs := by
    simp (disch := decide) only [bodyM, extract_hi, extract_lo, Nat.reduceSub, BitVec.extractLsb'_eq_self]
  exact (full_body _ _ _ _ (by decide)).trans e

@[simp] theorem fOrd_M (ad : Addr) (q : BitVec 1) :
    fOrd (full maj min h (bodyM d ad q)) = ad.ord := by
  have h1 : (full maj min h (bodyM d ad q)).extractLsb' 11 3 = ad.ord.sn := by
    have e : (bodyM d ad q).extractLsb' 11 3 = ad.ord.sn := by
      simp (disch := decide) only [bodyM, ordBits, extract_hi, extract_lo, Nat.reduceSub, BitVec.extractLsb'_eq_self]
    exact (full_body _ _ _ _ (by decide)).trans e
  have h2 : (full maj min h (bodyM d ad q)).extractLsb' 3 8 = ad.ord.pm := by
    have e : (bodyM d ad q).extractLsb' 3 8 = ad.ord.pm := by
      simp (disch := decide) only [bodyM, ordBits, extract_hi, extract_lo, Nat.reduceSub, BitVec.extractLsb'_eq_self]
    exact (full_body _ _ _ _ (by decide)).trans e
  have h3 : (full maj min h (bodyM d ad q)).extractLsb' 1 2 = scCode ad.ord.sc := by
    have e : (bodyM d ad q).extractLsb' 1 2 = scCode ad.ord.sc := by
      simp (disch := decide) only [bodyM, ordBits, extract_hi, extract_lo, Nat.reduceSub, BitVec.extractLsb'_eq_self]
    exact (full_body _ _ _ _ (by decide)).trans e
  unfold fOrd
  rw [h1, h2, h3, scOf_scCode]

@[simp] theorem fAddr_M (ad : Addr) (q : BitVec 1) :
    fAddr (full maj min h (bodyM d ad q)) = ad := by
  unfold fAddr
  rw [base_M, x_M, ofs_M, fOrd_M]

@[simp] theorem bit_M (ad : Addr) (q : BitVec 1) :
    (full maj min h (bodyM d ad q)).getLsbD 0 = q.getLsbD 0 := by
  exact (full_bit _ _ _ _ (by decide)).trans (get_lo _ _ (by decide))

@[simp] theorem fD_O (k : BitVec 4) (q : BitVec 1) (o : Ord) :
    fD (full maj min h (bodyO d a b k q o)) = d := by
  have e : (bodyO d a b k q o).extractLsb' 34 8 = d := by
    simp (disch := decide) only [bodyO, extract_hi, extract_lo, Nat.reduceSub, BitVec.extractLsb'_eq_self]
  exact (full_body _ _ _ _ (by decide)).trans e

@[simp] theorem fA_O (k : BitVec 4) (q : BitVec 1) (o : Ord) :
    fA (full maj min h (bodyO d a b k q o)) = a := by
  have e : (bodyO d a b k q o).extractLsb' 26 8 = a := by
    simp (disch := decide) only [bodyO, extract_hi, extract_lo, Nat.reduceSub, BitVec.extractLsb'_eq_self]
  exact (full_body _ _ _ _ (by decide)).trans e

@[simp] theorem fB_O (k : BitVec 4) (q : BitVec 1) (o : Ord) :
    fB (full maj min h (bodyO d a b k q o)) = b := by
  have e : (bodyO d a b k q o).extractLsb' 18 8 = b := by
    simp (disch := decide) only [bodyO, extract_hi, extract_lo, Nat.reduceSub, BitVec.extractLsb'_eq_self]
  exact (full_body _ _ _ _ (by decide)).trans e

@[simp] theorem fK_O (k : BitVec 4) (q : BitVec 1) (o : Ord) :
    fK (full maj min h (bodyO d a b k q o)) = k := by
  have e : (bodyO d a b k q o).extractLsb' 14 4 = k := by
    simp (disch := decide) only [bodyO, extract_hi, extract_lo, Nat.reduceSub, BitVec.extractLsb'_eq_self]
  exact (full_body _ _ _ _ (by decide)).trans e

@[simp] theorem fOrd_O (k : BitVec 4) (q : BitVec 1) (o : Ord) :
    fOrd (full maj min h (bodyO d a b k q o)) = o := by
  have h1 : (full maj min h (bodyO d a b k q o)).extractLsb' 11 3 = o.sn := by
    have e : (bodyO d a b k q o).extractLsb' 11 3 = o.sn := by
      simp (disch := decide) only [bodyO, ordBits, extract_hi, extract_lo, Nat.reduceSub, BitVec.extractLsb'_eq_self]
    exact (full_body _ _ _ _ (by decide)).trans e
  have h2 : (full maj min h (bodyO d a b k q o)).extractLsb' 3 8 = o.pm := by
    have e : (bodyO d a b k q o).extractLsb' 3 8 = o.pm := by
      simp (disch := decide) only [bodyO, ordBits, extract_hi, extract_lo, Nat.reduceSub, BitVec.extractLsb'_eq_self]
    exact (full_body _ _ _ _ (by decide)).trans e
  have h3 : (full maj min h (bodyO d a b k q o)).extractLsb' 1 2 = scCode o.sc := by
    have e : (bodyO d a b k q o).extractLsb' 1 2 = scCode o.sc := by
      simp (disch := decide) only [bodyO, ordBits, extract_hi, extract_lo, Nat.reduceSub, BitVec.extractLsb'_eq_self]
    exact (full_body _ _ _ _ (by decide)).trans e
  unfold fOrd
  rw [h1, h2, h3, scOf_scCode]

@[simp] theorem bit_O (k : BitVec 4) (q : BitVec 1) (o : Ord) :
    (full maj min h (bodyO d a b k q o)).getLsbD 0 = q.getLsbD 0 := by
  exact (full_bit _ _ _ _ (by decide)).trans (get_lo _ _ (by decide))

end

@[simp] theorem low_preg (p : PReg) : (preg p).extractLsb' 0 5 = p := by
  simp (disch := decide) only [preg, extract_lo, BitVec.extractLsb'_eq_self]

/-- A predicate field is the low part of a register field. -/
theorem pred_field (w : BitVec 64) (k : Nat) : w.extractLsb' k 5 = (w.extractLsb' k 8).extractLsb' 0 5 := by
  apply BitVec.eq_of_getLsbD_eq
  intro i hi
  simp only [BitVec.getLsbD_extractLsb', Nat.zero_add]
  have : i < 8 := by omega
  simp [hi, this]

theorem fPd_eq (w : BitVec 64) : fPd w = (fD w).extractLsb' 0 5 := pred_field w 34
theorem fPa_eq (w : BitVec 64) : fPa w = (fA w).extractLsb' 0 5 := pred_field w 26
theorem fPb_eq (w : BitVec 64) : fPb w = (fB w).extractLsb' 0 5 := pred_field w 18

end Sys2Proof
end

