-- ==== Sys2Proof/Laws/Lane.lean ====
section
/-! SUPPORT. Writing places: what `Gang.write` and `Gang.writes` leave at every place, and what the shared shapes of a
lane-engine word (`finish`, `finishWindowed`, `laneWord`) do. -/

namespace Sys2Proof.Machine

/-! ### Lanes and masks -/

@[simp] theorem LaneVec.at'_ofFn {α : Type} (f : Fin 64 → α) (l : Nat) :
    LaneVec.at' (Vector.ofFn f) l = f ⟨l % 64, Nat.mod_lt _ (by decide)⟩ := by
  simp [LaneVec.at']

@[simp] theorem LaneVec.at'_uniform {α : Type} (a : α) (l : Nat) : LaneVec.at' (uniform a) l = a := by
  simp [LaneVec.at', uniform]

@[simp] theorem LaneVec.at'_map {α β : Type} (k : α → β) (v : LaneVec α) (l : Nat) :
    LaneVec.at' (v.map k) l = k (LaneVec.at' v l) := by
  simp [LaneVec.at']

theorem LaneVec.at'_mergeLanes (m : Mask) (a b : LaneVec Word) (l : Nat) (hl : l < 64) :
    LaneVec.at' (mergeLanes m a b) l = if m.getLsbD l then LaneVec.at' a l else LaneVec.at' b l := by
  rw [BitVec.getLsbD_eq_getElem hl]
  simp [mergeLanes, LaneVec.at', Nat.mod_eq_of_lt hl]

theorem getLsbD_maskOf (p : Nat → Bool) (l : Nat) : (maskOf p).getLsbD l = (decide (l < 64) && p l) := by
  simp only [maskOf, BitVec.getLsbD_ofFnLE]
  by_cases h : l < 64 <;> simp [h]

@[simp] theorem vget_vset_self {α : Type} {n : Nat} (v : Vector α n) (i : Nat) (a : α) (h h' : i < n) :
    vget (vset v i a h) i h' = a := by
  simp [vget, vset]

theorem vget_vset_ne {α : Type} {n : Nat} (v : Vector α n) {i j : Nat} (a : α) (h : i < n) (h' : j < n) (hn : i ≠ j) :
    vget (vset v i a h) j h' = vget v j h' := by
  simp [vget, vset, Vector.getElem_set_ne _ _ hn]

/-! ### One write -/

/-- What a write leaves in a lane of its own place. -/
def LaneWrite.put (w : LaneWrite) (l : Nat) (old : Word) : Word :=
  match w.loc with
  | .v _ | .hv _ => if w.mask.getLsbD l then LaneVec.at' w.val l else old
  | .p _ => if w.mask.getLsbD l then (if (LaneVec.at' w.val l).getLsbD 0 then 1 else 0) else old
  | _ => if w.mask = 0 then old else LaneVec.at' w.val 0

/-- A write changes its own place only. -/
theorem placeVal_write (g : Gang) (w : LaneWrite) (loc : RegLoc) (l : Nat) (hl : l < 64) (hw : w.loc.real = true)
    (h : loc.real = true) (hu : ∀ u n, w.loc = .hs u n → u < g.units.length) :
    placeVal (g.write w) loc l = if w.loc = loc then w.put l (placeVal g loc l) else placeVal g loc l := by
  obtain ⟨wl, m, val⟩ := w
  cases wl <;> cases loc <;>
    first
    | (simp [RegLoc.real] at hw; done)
    | (simp [RegLoc.real] at h; done)
    | (rw [if_neg (by simp)]; first | rfl | (simp only [Gang.write]; split <;> rfl))
    | skip
  · rename_i n k
    by_cases hk : n = k
    · subst hk
      simp [placeVal, Gang.write, LaneWrite.put, Gang.vreg, LaneVec.at'_mergeLanes _ _ _ _ hl]
    · simp [placeVal, Gang.write, Gang.vreg, hk, FMap.getD_set_ne _ _ _ (Ne.symm hk)]
  · rename_i n k
    simp only [RegLoc.real, decide_eq_true_eq] at hw h
    by_cases hk : n = k
    · subst hk
      simp [placeVal, Gang.write, LaneWrite.put, LaneVec.at'_mergeLanes _ _ _ _ hl]
    · simp only [placeVal, Gang.write, RegLoc.hv.injEq, hk, if_false]
      rw [vget_vset_ne]; omega
  · rename_i n k
    simp only [RegLoc.real, decide_eq_true_eq] at hw h
    by_cases hk : n = k
    · subst hk
      simp only [placeVal, Gang.write, LaneWrite.put, if_true]
      split <;> simp
    · simp only [placeVal, Gang.write, RegLoc.s.injEq, hk, if_false]
      split
      · rfl
      · rw [vget_vset_ne]; omega
  · rename_i u n u' k
    have hu' := hu u n rfl
    simp only [RegLoc.real, decide_eq_true_eq] at hw h
    simp only [placeVal, Gang.write, LaneWrite.put, RegLoc.hs.injEq]
    split
    · split <;> rfl
    · by_cases hk : u = u'
      · subst hk
        simp only [List.getElem?_modify_eq, List.getElem?_eq_getElem hu', Option.map_eq_map, Option.map_some,
          Option.elim_some, UnitState.setHs, true_and]
        by_cases hn : n = k
        · subst hn; simp [vget]
        · simp only [hn, if_false, vget]
          rw [Vector.getElem_set_ne]; omega
      · rw [List.getElem?_modify_ne _ _ hk]; simp [hk]
  · rename_i n k
    simp only [RegLoc.real, decide_eq_true_eq] at hw h
    by_cases hk : n = k
    · subst hk
      simp only [placeVal, Gang.write, LaneWrite.put, vget_vset_self, BitVec.getLsbD_or, BitVec.getLsbD_and,
        BitVec.getLsbD_not, getLsbD_maskOf, hl, if_true]
      by_cases hm : m.getLsbD l <;> simp [hm]
    · have e : vget (g.write ⟨.p n, m, val⟩).p (k % 32) (Nat.mod_lt _ (by decide)) =
          vget g.p (k % 32) (Nat.mod_lt _ (by decide)) := by
        simp only [Gang.write]; rw [vget_vset_ne]; omega
      rw [if_neg (by simpa using hk)]
      unfold placeVal
      simp only [e]

@[simp] theorem Gang.write_units_length (g : Gang) (w : LaneWrite) : (g.write w).units.length = g.units.length := by
  unfold Gang.write; split <;> (try split) <;> simp

theorem Gang.writes_units_length (ws : List LaneWrite) (g : Gang) : (g.writes ws).units.length = g.units.length := by
  induction ws generalizing g with
  | nil => rfl
  | cons w ws ih => exact (ih (g.write w)).trans (Gang.write_units_length g w)

/-- Writes of different places: each place holds what its own write leaves. -/
theorem placeVal_writes (ws : List LaneWrite) (g : Gang) (loc : RegLoc) (l : Nat) (hl : l < 64) (h : loc.real = true)
    (hr : ∀ w ∈ ws, w.loc.real = true) (hu : ∀ w ∈ ws, ∀ u n, w.loc = .hs u n → u < g.units.length)
    (hd : (ws.map (·.loc)).Nodup) :
    placeVal (g.writes ws) loc l =
      (ws.find? fun w => w.loc == loc).elim (placeVal g loc l) fun w => w.put l (placeVal g loc l) := by
  induction ws generalizing g with
  | nil => rfl
  | cons w ws ih =>
    simp only [List.map_cons, List.nodup_cons] at hd
    have hw := placeVal_write g w loc l hl (hr w (by simp)) h (hu w (by simp))
    have step : g.writes (w :: ws) = (g.write w).writes ws := rfl
    rw [step, ih (g.write w) (fun x hx => hr x (by simp [hx]))
      (fun x hx u n e => by rw [Gang.write_units_length]; exact hu x (by simp [hx]) u n e) hd.2, hw]
    by_cases e : w.loc = loc
    · have : (ws.find? fun w => w.loc == loc) = none := by
        rw [List.find?_eq_none]
        intro x hx
        simp only [beq_iff_eq]
        intro ex
        exact hd.1 (List.mem_map.2 ⟨x, hx, ex.trans e.symm⟩)
      simp [e, this]
    · have : (w.loc == loc) = false := by simpa using e
      simp [this, e]

/-! ### Effects as writes -/

/-- The write of a register by lane in the lanes of a mask. -/
def regWrite (m : Mask) (loc : RegLoc) (v : Nat → Word) : LaneWrite :=
  match loc with
  | .v _ | .hv _ => ⟨loc, m, Vector.ofFn fun l : Fin 64 => v l.val⟩
  | _ => ⟨loc, m, uniform (v ((lowest m).getD 0))⟩

@[simp] theorem regWrite_loc (m : Mask) (loc : RegLoc) (v : Nat → Word) : (regWrite m loc v).loc = loc := by
  unfold regWrite; split <;> rfl

/-- The writes of an effect. -/
def Effect.writes (e : Effect) (f : Frame) : List LaneWrite :=
  let m := e.mask &&& ~~~e.faults
  (e.regs.filterMap fun x => (regLoc f x.1).map fun loc => regWrite m loc x.2) ++ e.preds.map fun x => predWrite x.1 m x.2

/-- A register code names a place that exists. -/
theorem regLoc_real (f : Frame) (r : Reg) (loc : RegLoc) (h : regLoc f r = some loc) : loc.real = true := by
  unfold regLoc at h
  simp only [Reg.isV, Reg.isHv, Reg.isS, Reg.isHs, decide_eq_true_eq, Bool.and_eq_true] at h
  split at h
  · split at h <;> cases h <;> simp [RegLoc.real] <;> omega
  · split at h
    · split at h <;> cases h <;> simp [RegLoc.real] <;> omega
    · cases h

/-- A unit's `hs` place names the unit itself. -/
theorem regLoc_hs (f : Frame) (r : Reg) (u n : Nat) (h : regLoc f r = some (.hs u n)) : u = f.ui := by
  unfold regLoc at h
  split at h
  · split at h <;> cases h
  · split at h
    · split at h <;> cases h; rfl
    · cases h

/-- The code that names a place (R33, R36). -/
def RegLoc.code : RegLoc → Nat
  | .v n => n
  | .hv n => 0xBC + n
  | .s n => 0xC0 + n
  | .hs _ n => 0xEC + n
  | _ => 0

theorem regLoc_code (f : Frame) (r : Reg) (loc : RegLoc) (h : regLoc f r = some loc) : loc.code = r.toNat := by
  unfold regLoc at h
  simp only [Reg.isV, Reg.isHv, Reg.isS, Reg.isHs, decide_eq_true_eq, Bool.and_eq_true] at h
  split at h
  · split at h <;> cases h <;> simp [RegLoc.code] <;> omega
  · split at h
    · split at h <;> cases h <;> (simp [RegLoc.code]; omega)
    · cases h

/-- Different codes name different places. -/
theorem regLoc_inj (f : Frame) (r q : Reg) (loc : RegLoc) (h : regLoc f r = some loc) (h' : regLoc f q = some loc) : r = q :=
  BitVec.eq_of_toNat_eq ((regLoc_code f r loc h).symm.trans (regLoc_code f q loc h'))

/-- A register that is no vector and no scalar has no place. -/
theorem regLoc_none (f : Frame) (r : Reg) (h : 0xF0 ≤ r.toNat) : regLoc f r = none := by
  unfold regLoc
  have h1 : r.isV = false := by simp [Reg.isV]; omega
  have h2 : r.isS = false := by simp [Reg.isS]; omega
  simp [h1, h2]

/-- The lowest lane of a mask is none just where the mask is 0. -/
theorem lowest_none (m : Mask) : lowest m = none ↔ m = 0 := by
  unfold lowest
  rw [List.find?_eq_none]
  constructor
  · intro h
    apply BitVec.eq_of_getLsbD_eq
    intro i hi
    have := h i (by simpa using hi)
    simpa using this
  · rintro rfl
    simp

/-- What a register write leaves in its own place. -/
theorem regWrite_put (m : Mask) (loc : RegLoc) (v : Nat → Word) (l : Nat) (old : Word) (hl : l < 64)
    (hv : ∀ n, loc ≠ .p n) :
    (regWrite m loc v).put l old = match loc with
      | .v _ | .hv _ => if m.getLsbD l then v l else old
      | _ => match lowest m with
        | none => old
        | some l0 => v l0 := by
  have low : ∀ old : Word, (if m = 0 then old else v ((lowest m).getD 0)) = match lowest m with
      | none => old
      | some l0 => v l0 := by
    intro old
    cases h : lowest m with
    | none => rw [if_pos ((lowest_none m).1 h)]
    | some k =>
      rw [if_neg fun hz => by rw [(lowest_none m).2 hz] at h; cases h]
      rfl
  cases loc with
  | v n => simp [regWrite, LaneWrite.put, Nat.mod_eq_of_lt hl]
  | hv n => simp [regWrite, LaneWrite.put, Nat.mod_eq_of_lt hl]
  | p n => exact absurd rfl (hv n)
  | s n => simpa [regWrite, LaneWrite.put] using low old
  | hs u n => simpa [regWrite, LaneWrite.put] using low old
  | t n => simpa [regWrite, LaneWrite.put] using low old
  | ipc n => simpa [regWrite, LaneWrite.put] using low old

/-- What a predicate write leaves in its own place. -/
theorem predWrite_put (p : PReg) (m : Mask) (v : Nat → Bool) (l : Nat) (old : Word) (hl : l < 64) :
    (predWrite p m v).put l old = if m.getLsbD l then (if v l then 1 else 0) else old := by
  simp only [predWrite, LaneWrite.put, LaneVec.at'_ofFn, Nat.mod_eq_of_lt hl]
  cases v l <;> simp

/-- The places an effect writes are all different. -/
structure Effect.Ok (e : Effect) : Prop where
  regs : (e.regs.map (·.1)).Nodup
  preds : (e.preds.map (·.1)).Nodup

/-- A register code never names a predicate. -/
theorem regLoc_ne_p (f : Frame) (r : Reg) (n : Nat) : regLoc f r ≠ some (.p n) := by
  unfold regLoc
  split
  · split <;> simp
  · split
    · split <;> simp
    · simp

/-- The register writes of an effect. -/
def Effect.regWrites (e : Effect) (f : Frame) : List LaneWrite :=
  e.regs.filterMap fun x => (regLoc f x.1).map fun loc => regWrite (e.mask &&& ~~~e.faults) loc x.2

/-- The predicate writes of an effect. -/
def Effect.predWrites (e : Effect) : List LaneWrite :=
  e.preds.map fun x => predWrite x.1 (e.mask &&& ~~~e.faults) x.2

theorem Effect.writes_eq (e : Effect) (f : Frame) : e.writes f = e.regWrites f ++ e.predWrites := rfl

theorem Effect.mem_regWrites {e : Effect} {f : Frame} {w : LaneWrite} (h : w ∈ e.regWrites f) :
    ∃ x ∈ e.regs, ∃ loc, regLoc f x.1 = some loc ∧ w = regWrite (e.mask &&& ~~~e.faults) loc x.2 := by
  simp only [Effect.regWrites, List.mem_filterMap, Option.map_eq_some_iff] at h
  obtain ⟨x, hx, loc, hl, rfl⟩ := h
  exact ⟨x, hx, loc, hl, rfl⟩

theorem nodup_regWrites (m : Mask) (f : Frame) (l : List (Reg × (Nat → Word))) (h : (l.map (·.1)).Nodup) :
    ((l.filterMap fun x => (regLoc f x.1).map fun loc => regWrite m loc x.2).map (·.loc)).Nodup := by
  induction l with
  | nil => simp
  | cons x l ih =>
    simp only [List.map_cons, List.nodup_cons] at h
    cases e : regLoc f x.1 with
    | none => simpa [List.filterMap_cons, e] using ih h.2
    | some loc =>
      simp only [List.filterMap_cons, e, Option.map_some, List.map_cons, List.nodup_cons, regWrite_loc]
      refine ⟨?_, ih h.2⟩
      intro hm
      simp only [List.mem_map, List.mem_filterMap, Option.map_eq_some_iff] at hm
      obtain ⟨w, ⟨y, hy, loc', hl, rfl⟩, e2⟩ := hm
      rw [regWrite_loc] at e2
      subst e2
      exact h.1 (List.mem_map.2 ⟨y, hy, regLoc_inj f y.1 x.1 loc' hl e⟩)

theorem Effect.writes_nodup (e : Effect) (f : Frame) (h : e.Ok) : ((e.writes f).map (·.loc)).Nodup := by
  rw [Effect.writes_eq, List.map_append, List.nodup_append]
  refine ⟨nodup_regWrites _ f e.regs h.regs, ?_, ?_⟩
  · have : (e.predWrites.map (·.loc)) = (e.preds.map (·.1)).map fun p => RegLoc.p p.toNat := by
      simp [Effect.predWrites, predWrite]
    rw [this]
    refine (List.nodup_map_iff ?_).2 h.preds
    intro a b hab
    exact BitVec.eq_of_toNat_eq (by simpa using hab)
  · intro a ha b hb hab
    obtain ⟨w, hw, rfl⟩ := List.mem_map.1 ha
    obtain ⟨x, -, loc, hl, rfl⟩ := Effect.mem_regWrites hw
    obtain ⟨w', hw', rfl⟩ := List.mem_map.1 hb
    simp only [Effect.predWrites, List.mem_map] at hw'
    obtain ⟨y, -, rfl⟩ := hw'
    simp only [regWrite_loc, predWrite] at hab
    exact regLoc_ne_p f x.1 _ (hab ▸ hl)

theorem find?_regWrites (m : Mask) (f : Frame) (l : List (Reg × (Nat → Word))) (loc : RegLoc) :
    (l.filterMap fun x => (regLoc f x.1).map fun loc => regWrite m loc x.2).find? (fun w => w.loc == loc) =
      (l.find? fun x => regLoc f x.1 == some loc).map fun x => regWrite m loc x.2 := by
  induction l with
  | nil => rfl
  | cons x l ih =>
    cases e : regLoc f x.1 with
    | none => simpa [List.filterMap_cons, e] using ih
    | some loc' =>
      by_cases h : loc' = loc
      · subst h; simp [e]
      · have h' : (loc' == loc) = false := by simpa using h
        have h2 : (some loc' == some loc) = false := by simpa using h
        simp only [List.filterMap_cons, e, Option.map_some, List.find?_cons, regWrite_loc, h', h2]
        exact ih

/-- The writes of an effect leave at every place what `Effect.after` says. -/
theorem placeVal_effect (e : Effect) (f : Frame) (g : Gang) (h : e.Ok) (hu : f.ui < g.units.length) (loc : RegLoc) (l : Nat)
    (hr : loc.real = true) (hl : l < 64) :
    placeVal (g.writes (e.writes f)) loc l = e.after f loc l (placeVal g loc l) := by
  rw [placeVal_writes (e.writes f) g loc l hl hr ?_ ?_ (e.writes_nodup f h)]
  · rw [Effect.writes_eq, List.find?_append]
    simp only [Effect.regWrites, find?_regWrites]
    unfold Effect.after
    cases hf : e.regs.find? fun x => regLoc f x.1 == some loc with
    | some x =>
      simp only [Option.map_some, Option.some_or, Option.elim_some]
      have hx := List.find?_some hf
      simp only [beq_iff_eq] at hx
      rw [regWrite_put _ _ _ _ _ hl fun n hn => regLoc_ne_p f x.1 n (hn ▸ hx)]
      cases loc <;> rfl
    | none =>
      simp only [Option.map_none, Option.none_or]
      cases loc with
      | p n =>
        have : e.predWrites.find? (fun w => w.loc == RegLoc.p n) =
            (e.preds.find? fun x => x.1.toNat == n).map fun x => predWrite x.1 (e.mask &&& ~~~e.faults) x.2 := by
          simp only [Effect.predWrites, List.find?_map]
          congr 2
          funext x
          have : (RegLoc.p x.1.toNat == RegLoc.p n) = (x.1.toNat == n) := by
            rw [Bool.eq_iff_iff]; simp
          exact this
        simp only [this]
        cases e.preds.find? fun x => x.1.toNat == n with
        | none => rfl
        | some x => simp only [Option.map_some, Option.elim_some]; exact predWrite_put _ _ _ _ _ hl
      | _ =>
        rw [List.find?_eq_none.2]
        · rfl
        · intro w hw
          simp only [Effect.predWrites, List.mem_map] at hw
          obtain ⟨y, -, rfl⟩ := hw
          simp [predWrite]
  · intro w hw
    rw [Effect.writes_eq, List.mem_append] at hw
    rcases hw with hw | hw
    · obtain ⟨x, -, loc', hl', rfl⟩ := Effect.mem_regWrites hw
      rw [regWrite_loc]; exact regLoc_real f x.1 loc' hl'
    · simp only [Effect.predWrites, List.mem_map] at hw
      obtain ⟨y, -, rfl⟩ := hw
      simp only [predWrite, RegLoc.real, decide_eq_true_eq]
      exact y.1.isLt
  · intro w hw u n hu'
    rw [Effect.writes_eq, List.mem_append] at hw
    rcases hw with hw | hw
    · obtain ⟨x, -, loc', hl', rfl⟩ := Effect.mem_regWrites hw
      rw [regWrite_loc] at hu'
      rw [regLoc_hs f x.1 u n (hu' ▸ hl')]; exact hu
    · simp only [Effect.predWrites, List.mem_map] at hw
      obtain ⟨y, -, rfl⟩ := hw
      simp [predWrite] at hu'

/-! ### What a word of the lane engine does -/

theorem frameOf_get {s : State} {gid ui : Nat} {f : Frame} (h : s.frameOf gid ui = some f) :
    f.gid = gid ∧ f.ui = ui ∧ FMap.get? s.gangs gid = some f.g ∧ f.g.units[ui]? = some f.u := by
  unfold State.frameOf at h
  split at h
  · cases h
  · split at h
    · cases h
    · cases h; exact ⟨rfl, rfl, by assumption, by assumption⟩

theorem frame_get {s : State} {f : Frame} (h : s.frame = some f) :
    FMap.get? s.gangs f.gid = some f.g ∧ f.g.units[f.ui]? = some f.u := by
  unfold State.frame at h
  split at h
  · cases h
  · obtain ⟨rfl, rfl, h1, h2⟩ := frameOf_get h
    exact ⟨h1, h2⟩

theorem frame_ui_lt {s : State} {f : Frame} (h : s.frame = some f) : f.ui < f.g.units.length := by
  obtain ⟨hlt, -⟩ := List.getElem?_eq_some_iff.1 (frame_get h).2
  exact hlt

theorem onUnit_eq {s : State} {f : Frame} (h : s.frame = some f) (k : Frame → State) : onUnit s k = .next (k f) := by
  simp [onUnit, h]

/-- A gang after register writes of one unit: only its registers have changed. -/
def Gang.Rewritten (g g' : Gang) (ui : Nat) (u : UnitState) : Prop :=
  ∃ hs : Vector Word 4, g' = { g with v := g'.v, hv := g'.hv, s := g'.s, p := g'.p
                                      units := g.units.set ui { u with hs := hs } }

theorem Gang.Rewritten.refl {g : Gang} {ui : Nat} {u : UnitState} (h : g.units[ui]? = some u) : Gang.Rewritten g g ui u := by
  refine ⟨u.hs, ?_⟩
  obtain ⟨hlt, rfl⟩ := List.getElem?_eq_some_iff.1 h
  have : g.units.set ui { g.units[ui] with hs := g.units[ui].hs } = g.units := List.set_getElem_self _
  rw [this]

theorem Gang.Rewritten.write {g g' : Gang} {ui : Nat} {u : UnitState} (h : g.units[ui]? = some u)
    (hr : Gang.Rewritten g g' ui u) (w : LaneWrite) (hw : ∀ k n, w.loc = .hs k n → k = ui) :
    Gang.Rewritten g (g'.write w) ui u := by
  obtain ⟨hs, e⟩ := hr
  obtain ⟨hlt, -⟩ := List.getElem?_eq_some_iff.1 h
  unfold Gang.write
  split
  · exact ⟨hs, by rw [e]⟩
  · exact ⟨hs, by rw [e]⟩
  · split
    · exact ⟨hs, e⟩
    · exact ⟨hs, by rw [e]⟩
  · rename_i k n hk
    split
    · exact ⟨hs, e⟩
    · have := hw k n hk
      subst this
      refine ⟨hs.set (n % 4) (LaneVec.at' w.val 0) (Nat.mod_lt _ (by decide)), ?_⟩
      rw [e]
      simp [List.modify_eq_set_getElem?, hlt, UnitState.setHs]
  · exact ⟨hs, by rw [e]⟩
  · exact ⟨hs, e⟩

theorem Gang.rewritten_writes {g : Gang} {ui : Nat} {u : UnitState} (h : g.units[ui]? = some u) (ws : List LaneWrite)
    (hw : ∀ w ∈ ws, ∀ k n, w.loc = .hs k n → k = ui) : Gang.Rewritten g (g.writes ws) ui u := by
  suffices ∀ g', Gang.Rewritten g g' ui u → Gang.Rewritten g (g'.writes ws) ui u from this g (.refl h)
  induction ws with
  | nil => intro g' hg; exact hg
  | cons w ws ih =>
    intro g' hg
    exact ih (fun x hx => hw x (by simp [hx])) (g'.write w) (hg.write h w (hw w (by simp)))

theorem Effect.writes_hs (e : Effect) (f : Frame) : ∀ w ∈ e.writes f, ∀ k n, w.loc = .hs k n → k = f.ui := by
  intro w hw k n hk
  rw [Effect.writes_eq, List.mem_append] at hw
  rcases hw with hw | hw
  · obtain ⟨x, -, loc', hl', rfl⟩ := Effect.mem_regWrites hw
    rw [regWrite_loc] at hk
    exact regLoc_hs f x.1 k n (hk ▸ hl')
  · simp only [Effect.predWrites, List.mem_map] at hw
    obtain ⟨y, -, rfl⟩ := hw
    simp [predWrite] at hk

/-- A place does not depend on what a word leaves besides registers. -/
theorem placeVal_congr {g g' : Gang} (hv : g.v = g'.v) (hh : g.hv = g'.hv) (hs : g.s = g'.s) (hp : g.p = g'.p)
    (hu : ∀ u : Nat, (g.units[u]?).map (·.hs) = (g'.units[u]?).map (·.hs)) (loc : RegLoc) (l : Nat) : placeVal g loc l = placeVal g' loc l := by
  unfold placeVal Gang.vreg
  rw [hv, hh, hs, hp]
  cases loc with
  | hs u n =>
    have := hu u
    cases h1 : g.units[u]? <;> cases h2 : g'.units[u]? <;> simp_all
  | _ => rfl

/-- WHAT A PLAIN WORD DOES: with the writes of an effect and no fault, the registers hold what the effect says and
nothing else changes. -/
theorem finish_effect {s : State} {f : Frame} (h : s.frame = some f) (i : Info) (e : Effect) (he : e.Ok) (c : Cause) :
    WordRan s (s.finish f i (e.writes f) 0 c) f ∧ Wrote (s.finish f i (e.writes f) 0 c) f e := by
  obtain ⟨hg, hu⟩ := frame_get h
  have hlt := frame_ui_lt h
  obtain ⟨hs, hr⟩ := Gang.rewritten_writes hu (e.writes f) (e.writes_hs f)
  have hfin : (s.finish f i (e.writes f) 0 c) = ((s.apply f.gid (e.writes f)).markPlain f i).advance f := by
    simp [State.finish]
  have hgangs : ∃ ms, ((s.apply f.gid (e.writes f)).markPlain f i |>.advance f).gangs = FMap.set s.gangs f.gid
      { f.g.writes (e.writes f) with
        marks := ms
        units := (f.g.writes (e.writes f)).units.modify f.ui fun u => { u with ipc := f.u.ipc + 8 } } := by
    simp only [State.advance, State.markPlain, State.apply, FMap.adjust, hg, FMap.get?_set_self, FMap.set_set]
    exact ⟨_, rfl⟩
  obtain ⟨ms, hms⟩ := hgangs
  rw [hfin]
  have hunits : (f.g.writes (e.writes f)).units.modify f.ui (fun u => { u with ipc := f.u.ipc + 8 }) =
      f.g.units.set f.ui { f.u with ipc := f.u.ipc + 8, hs := hs } := by
    rw [hr]
    simp [List.modify_eq_set_getElem?, hlt]
  refine ⟨⟨?_, ?_, ?_⟩, ?_⟩
  · simp [State.advance, State.markPlain, State.apply]
  · intro x hx
    simp only [State.advance, State.markPlain, State.apply, List.mem_filter] at hx
    exact hx.1
  · refine ⟨_, hs, hms, ?_⟩
    rw [hunits, hr]
  · intro g hg' loc l hreal hl
    rw [hms, FMap.get?_set_self] at hg'
    cases hg'
    rw [← placeVal_effect e f f.g he hlt loc l hreal hl]
    apply placeVal_congr <;> try rfl
    intro u
    simp only [List.getElem?_modify]
    cases (f.g.writes (e.writes f)).units[u]? with
    | none => rfl
    | some x => simp only [Option.map_some]; split <;> rfl

/-- The lowest lane of a mask is below 64. -/
theorem lowest_lt (m : Mask) : (lowest m).getD 0 < 64 := by
  cases h : lowest m with
  | none => decide
  | some k =>
    unfold lowest at h
    have := List.mem_of_find?_eq_some h
    simpa using this

/-- The writes of a value of `n` registers are those of `spread`. -/
theorem destWrites_spread (f : Frame) (d : Reg) (n : Nat) (hn : n ≤ 8) (m : Mask) (val : LaneVec DWord) (v : Nat → DWord)
    (hv : ∀ l, l < 64 → LaneVec.at' val l = v l) :
    destWrites f d n m val =
      (spread d n v).filterMap fun x => (regLoc f x.1).map fun loc => regWrite m loc x.2 := by
  unfold destWrites spread
  rw [List.filterMap_map]
  simp only [Function.comp_def]
  by_cases hz : d.isZero = true
  · have hd : d = 0xF0 := by simpa [Reg.isZero] using hz
    subst hd
    have : ∀ k ∈ List.range n, regLoc f (Reg.next 0xF0 k) = none := by
      intro k hk
      apply regLoc_none
      have : k < 8 := by have := List.mem_range.1 hk; omega
      simp [Reg.next, BitVec.toNat_add]
      omega
    rw [List.flatMap_eq_nil_iff.2, List.filterMap_eq_nil_iff.2]
    · intro k hk; rw [this k hk]; rfl
    · intro k hk; rw [this k hk]
  · rw [List.filterMap_eq_flatMap_toList]
    congr 1
    funext k
    cases e : regLoc f (Reg.next d k) with
    | none => rfl
    | some loc =>
      simp only [hz, Option.map_some, Option.toList_some]
      have hvec : ∀ l : Fin 64, val[l] = v l.val := fun l => by
        have := hv l.val l.isLt
        simpa [LaneVec.at', Nat.mod_eq_of_lt l.isLt] using this
      unfold regWrite
      cases loc <;> simp [hvec, hv _ (lowest_lt m)]

/-- The effect of a lane-engine word of one destination. -/
def laneEffect (i : Info) (s : State) (f : Frame) (d : Reg) (n : Nat) (val : LaneIn → DWord × Bool)
    (preds : LaneIn → List (PReg × Bool)) : Effect :=
  { mask := Frame.part f i.hdr
    regs := spread d n fun l => (val (s.laneIn f l)).1
    preds := i.pwr.map fun p => (p, fun l => ((preds (s.laneIn f l)).find? fun x => x.1 == p).elim false (·.2))
    traps := fun l => (val (s.laneIn f l)).2 }

theorem maskOf_congr {p q : Nat → Bool} (h : ∀ l, l < 64 → p l = q l) : maskOf p = maskOf q := by
  apply BitVec.eq_of_getLsbD_eq
  intro l hl
  rw [getLsbD_maskOf, getLsbD_maskOf, h l hl]

/-- A destination stays among the scalars, or outside them, over its registers. -/
def Reg.Whole (d : Reg) (n : Nat) : Prop := ∀ k, k < n → (Reg.next d k).isS = d.isS

theorem spread_any_isS (d : Reg) (n : Nat) (v : Nat → DWord) (hn : 0 < n) (hw : Reg.Whole d n) :
    ((spread d n v).any fun x => x.1.isS) = d.isS := by
  rw [Bool.eq_iff_iff]
  simp only [spread, List.any_map, List.any_eq_true, List.mem_range, Function.comp]
  constructor
  · rintro ⟨k, hk, h⟩
    rw [hw k hk] at h; exact h
  · intro h
    exact ⟨0, hn, by rw [hw 0 hn]; exact h⟩

/-- THE LANE-ENGINE WORD by its effect. -/
theorem laneWord_effect {s : State} {f : Frame} (h : s.frame = some f) (i : Info) (d : Reg) (n : Nat) (hn : 0 < n) (hn' : n ≤ 8)
    (hw : Reg.Whole d n) (val : LaneIn → DWord × Bool) (preds : LaneIn → List (PReg × Bool)) :
    let e := laneEffect i s f d n val preds
    laneWord i s d n val preds = .next
      (if i.windowed then
        s.finishWindowed f i (e.writes f) e.faults .overflow (latency (coreKind (s.coreOf f.g)) f.g.width f.g.red i.lat)
       else s.finish f i (e.writes f) e.faults .overflow) := by
  intro e
  unfold laneWord
  rw [onUnit_eq h]
  have ht : (maskOf fun l => (LaneVec.at' (Vector.ofFn fun l : Fin 64 => val (s.laneIn f l.val)) l).2) = maskOf e.traps := by
    apply maskOf_congr
    intro l hl
    simp [Nat.mod_eq_of_lt hl, e, laneEffect]
  have hf : (if (d.isS && Frame.part f i.hdr &&& maskOf e.traps != 0) = true then Frame.part f i.hdr
      else Frame.part f i.hdr &&& maskOf e.traps) = e.faults := by
    unfold Effect.faults
    have : (e.regs.any fun x => x.1.isS) = d.isS := spread_any_isS d n _ hn hw
    rw [this]
    rfl
  simp only [ht, hf]
  have hws : destWrites f d n (Frame.part f i.hdr &&& ~~~e.faults)
      (Vector.map Prod.fst (Vector.ofFn fun l : Fin 64 => val (s.laneIn f l.val))) ++
      i.pwr.map (fun p => predWrite p (Frame.part f i.hdr &&& ~~~e.faults) fun l =>
        ((preds (s.laneIn f l)).find? fun x => x.1 == p).elim false (·.2)) = e.writes f := by
    rw [destWrites_spread f d n hn' _ _ (fun l => (val (s.laneIn f l)).1)]
    · simp [Effect.writes, e, laneEffect, Function.comp_def]
    · intro l hl
      simp [Nat.mod_eq_of_lt hl]
  rw [hws]

/-! ### Completion of a word, from its effect -/

/-- A plain word whose writes are those of an effect completes as the effect says. -/
theorem ran_of_finish {s : State} {f : Frame} (h : s.frame = some f) {i : Instr} {j : Info} {e : Effect} {c : Cause}
    (he : e.Ok) (h0 : e.faults = 0) (hx : exec i s = .next (s.finish f j (e.writes f) e.faults c)) :
    ∃ t, exec i s = .next t ∧ WordRan s t f ∧ Wrote t f e := by
  rw [h0] at hx
  exact ⟨_, hx, finish_effect h j e he _⟩

/-- The registers of a value are different ones. -/
theorem spread_nodup (d : Reg) (n : Nat) (hn : n ≤ 256) (v : Nat → DWord) : ((spread d n v).map (·.1)).Nodup := by
  simp only [spread, List.map_map]
  refine (List.nodup_map_iff_inj_on List.nodup_range).2 ?_
  intro x hx y hy h
  simp only [Function.comp_apply, Reg.next, List.mem_range] at h hx hy
  have := congrArg BitVec.toNat h
  simp only [BitVec.toNat_add, BitVec.toNat_ofNat] at this
  omega

/-- A legal destination of one or two registers stays in its bank. -/
theorem whole_of_dst (d : Reg) (n : Nat) (hn : n ≤ 2) (h : Operand.dst (d, n) = true) : Reg.Whole d n := by
  intro k hk
  have hk2 : k = 0 ∨ k = 1 := by omega
  rcases hk2 with rfl | rfl
  · simp [Reg.next]
  · have hn2 : ¬ n ≤ 1 := by omega
    simp only [Operand.dst, hn2, if_false, Bool.or_eq_true, Bool.and_eq_true] at h
    simp only [Reg.next, Reg.isS, Reg.isV, Reg.isZero, Reg.isEven, beq_iff_eq, decide_eq_true_eq,
      BitVec.toNat_add, BitVec.toNat_ofNat] at h ⊢
    rw [Bool.eq_iff_iff]
    simp only [decide_eq_true_eq]
    rcases h with rfl | h
    · simp
    · omega

/-- A plain lane-engine word that no lane traps completes as its effect says. -/
theorem lane_completes {s : State} {f : Frame} (h : s.frame = some f) {i : Instr} {e : Effect} (j : Info) (d : Reg) (n : Nat)
    (val : LaneIn → DWord × Bool) (preds : LaneIn → List (PReg × Bool))
    (hx : exec i s = laneWord j s d n val preds) (he : laneEffect j s f d n val preds = e)
    (hn : 0 < n) (hn' : n ≤ 2) (hd : Operand.dst (d, n) = true) (hw : j.windowed = false) (hp : j.pwr.Nodup)
    (h0 : e.faults = 0) : ∃ t, exec i s = .next t ∧ WordRan s t f ∧ Wrote t f e := by
  have hl := laneWord_effect h j d n hn (by omega) (whole_of_dst d n hn' hd) val preds
  simp only [he, hw] at hl
  refine ran_of_finish (c := .overflow) h ?_ h0 (j := j) (hx.trans hl)
  subst he
  refine ⟨spread_nodup d n (by omega) _, ?_⟩
  simpa [laneEffect, Function.comp_def] using hp

/-- A plain word that writes one predicate completes as its effect says. -/
theorem pred_completes {s : State} {f : Frame} (h : s.frame = some f) {i : Instr} {e : Effect} (j : Info) (p : PReg)
    (val : LaneIn → Bool) (hx : exec i s = predWord j s p val)
    (he : e = { mask := Frame.part f j.hdr, preds := [(p, fun l => val (s.laneIn f l))] }) :
    ∃ t, exec i s = .next t ∧ WordRan s t f ∧ Wrote t f e := by
  have h0 : e.faults = 0 := by
    subst he
    have : maskOf (fun _ => false) = 0 := by
      apply BitVec.eq_of_getLsbD_eq
      intro l hl
      simp [getLsbD_maskOf]
    simp [Effect.faults, this]
  refine ran_of_finish (c := .overflow) h (j := j) ?_ h0 ?_
  · subst he; exact ⟨by simp, by simp⟩
  · rw [hx, h0]
    unfold predWord
    rw [onUnit_eq h]
    subst he
    have hm (m : Mask) : m &&& ~~~(0 : Mask) = m := by
      rw [show ~~~(0 : Mask) = BitVec.allOnes 64 from rfl, BitVec.and_allOnes]
    simp only [Effect.writes, h0, hm, List.filterMap_nil, List.nil_append, List.map_cons, List.map_nil]

end Sys2Proof.Machine
end

