-- ==== Sys2Proof/Tests/Slice0.lean ====
section
/-! SUPPORT. Tests: what the checks of well-formed words refuse, decoding of words written out from the spec's fields,
single steps, and states that meet the hypotheses of the statements, clause by clause. -/

namespace Sys2Proof.Tests

open Sys2Proof Sys2Proof.Machine

-- one theorem is checked after the other: each holds much memory while the kernel evaluates it
set_option Elab.async false

/-! ### Ill-formed words -/

/-- No guard, LA 0. -/
abbrev al : Hdr := ⟨.always, 0⟩

/-- One term for each check of `wf`, with a term beside it that differs in the one point and is accepted: a type the word
does not take (R32), LA on a plain word (R26), a guard on a word marked U (R25), an odd pair and an identity register as
destination (R34, R35), a lane-varying value for a scalar (R34, R146), an odd BASE and a record as BASE (R28, R104), the
pairs of `cvt` (R169), an immediate beyond 16 bits (R152, R157), a special register that cannot be written (R132), a bin
index (R295), a code of `orr` outside its class (R326), a scope (R123, R290), and the paired-word rules (R42, R44). -/
theorem test_illFormed_refused : [
    (Instr.mulh al .h2 1 2 3, Instr.mulh al .i32 1 2 3),
    (.add ⟨.always, 1⟩ .i32 1 2 3, .div ⟨.always, 1⟩ .i32 1 2 3),
    (.join ⟨.on 0 false, 0⟩, .nop ⟨.on 0 false, 0⟩),
    (.add al .i64 5 2 6, .add al .i64 4 2 6),
    (.add al .i32 0xF1 2 3, .add al .i32 0xF0 2 3),
    (.add al .i32 0xC0 2 0xC1, .add al .i32 0xC0 0xC2 0xC1),
    (.ld32 al 1 ⟨17, 7, 0, ⟨0, 0, .core⟩⟩ false, .ld32 al 1 ⟨18, 7, 0, ⟨0, 0, .core⟩⟩ false),
    (.ldt al 1 ⟨18, 7, 0, ⟨0, 0, .core⟩⟩, .ldt al 1 ⟨15, 7, 0, ⟨0, 0, .core⟩⟩),
    (.cvt al .f32 .f32 .rne .inf 1 2 0, .cvt al .f32 .f16 .rne .inf 1 2 0),
    (.bfxImm al .n32 1 2 0x10000, .bfxImm al .n32 1 2 0xFFFF),
    (.wrsr al 0x0F 0xC0, .wrsr al 0x0E 0xC0),
    (.spawn al 15 8 ⟨0, 0, .core⟩, .spawn al 14 8 ⟨0, 0, .core⟩),
    (.orr al .s 0xBF 1 2, .orr al .s 0xC0 1 2),
    (.launch al 0xC4 ⟨0, 0, .cluster⟩, .launch al 0xC4 ⟨0, 0, .device⟩),
    (.barWt al 1 0xC0 ⟨0, 0, .device⟩, .barWt al 1 0xC0 ⟨0, 0, .core⟩),
    (.pairedWord (.reg .add 8 9) (.imm .shl 8 6 3), .pairedWord (.reg .add 8 9) (.imm .shl 10 6 3)),
    (.pairedWord .empty (.imm .mov 8 6 3), .pairedWord .empty (.reg .mov 8 6)),
    (.handlerEntry, .pairedWord .empty .empty)].all (fun x => !wf x.1 && wf x.2) = true := by decide +kernel

/-- Every check of `wf` refuses a word that fails it alone: not a word, an operand rule, a guard on a U word, LA. -/
theorem test_wellFormed_refuses : ¬WellFormed .handlerEntry ∧ ¬WellFormed (.add al .i64 5 2 6) ∧
    ¬WellFormed (.wpark ⟨.on 1 true, 0⟩) ∧ ¬WellFormed (.nop ⟨.always, 1⟩) := by decide +kernel

/-! ### Decoding -/

/-- A word from the positions and values of its fields. -/
def word (fields : List (Nat × Nat)) : BitVec 64 :=
  BitVec.ofNat 64 (fields.foldl (fun a f => a + f.2 * 2 ^ f.1) 0)

/-- The words the spec prints with their sugar (R32, R44, R46, R121, R123, R183, R190, R261, R275, R276, R290, R295, R296,
R306, R311, R315, R326, R363, and the programs' traces). -/
theorem test_decode_printed : [
    (0x0411C0081FFFFB03, Instr.addImm ⟨.on 3 true, 0⟩ .i32 2 7 0x3FFFB),
    (0x810805008C140C06, .pairedWord (.reg .add 8 5) (.imm .shl 10 6 3)),
    (0x20C0000000000000, .nop al),
    (0x1000000C080401AC, .cvt al .bf16 .f32 .rz .inf 3 2 0),
    (0x214003BBB0000000, .dret al 0xEE 0xEC),
    (0x20B0C00000000000, .exit ⟨.on 1 true, 0⟩),
    (0x326000031C008000, .barWt al 2 0xC7 ⟨0, 0, .core⟩),
    (0x3060000120201010, .fec al ⟨18, 2, 0, ⟨2, 2, .core⟩⟩),
    (0x4000000310000000, .trp al 0xC4),
    (0x40200801020001F0, .mma ⟨.always, 2⟩ .ln6 .flag 0 .sat true 0 64 128 0),
    (0x404000408000000C, .qnt al .ln6 .sat 16 32),
    (0x484003C32B2C0003, .binCfg al 3 0xF0 0xCA 0xCB),
    (0x482000200000C808, .spawn al 3 8 ⟨1, 1, .core⟩),
    (0x4860000000000500, .eqp al 5)].all (fun x => decodeWord x.1 == some x.2) = true := by decide +kernel

/-- More of them. -/
theorem test_decode_printed_system : [
    (0x4880000730004000, Instr.migr al 1 .pennant 0xCC),
    (0x48A0033B28000001, .vqry al 1 0xCE 0xCA),
    (0x19A0006400000000, .pget al 25),
    (0x06C0006464080407, .bfxImm al .n32 25 25 0x804),
    (0x290000652F100000, .st8 al 25 ⟨18, 0xF1, 0, ⟨0, 0, .core⟩⟩),
    (0x2991004220800004, .st128 ⟨.on 2 false, 0⟩ 16 ⟨34, 8, 0, ⟨0, 0, .device⟩⟩),
    (0x5000030B20002100, .trap al 0x21 0xC2 0xC8),
    (0x5020000000100000, .tres al 0 4),
    (0x5040000000000000, .tkill al 0),
    (0x5060002000000014, .orr al .v 20 8 0),
    (0x5080000000240014, .orw al .v 20 0 9),
    (0x50A0031B1C00000C, .copen al 0xC6 0xC7 12),
    (0x50C0000000000000, .cclose al),
    (0x50E00003C0000000, .halt al 0xF0),
    (0x5100002000000000, .ctxrd al 8 0),
    (0x5120000000200000, .ctxwr al 0 8),
    (0x5200000000000500, .brk al 5),
    (0x5220000310007700, .trc al 0x77 0xC4),
    (0x5240032000000000, .clk al 0xC8),
    (0x5260032B0C000010, .pmk al true 0xCA 0xC3)].all (fun x => decodeWord x.1 == some x.2) = true := by decide +kernel

/-- R31, R32, R49: an unused bit, TY 0, an unassigned minor, and the all-zero word are no instruction. -/
theorem test_decode_refused : [0x20C0000000000001, 0x0000000C10140000, 0x03C0000000000003, 0].all
    (fun w => (decodeWord w).isNone) = true := by decide +kernel

/-- R46, major 0x0 (integer): words by the fields of R24 to R30. -/
theorem test_decode_integer_1 : [
    (word [(59, 0), (0, 3), (34, 4), (26, 6), (18, 8)], Instr.add ⟨.always, 0⟩ .i32 4 6 8),
    (word [(59, 0), (53, 0x20), (0, 4), (34, 2), (26, 10), (8, 0x3FFFB)], .addImm ⟨.always, 0⟩ .i64 2 10 262139),
    (word [(59, 0), (53, 1), (52, 1), (47, 2), (46, 1), (0, 7), (34, 4), (26, 6), (18, 8)], .sub ⟨.on 2 true, 0⟩ .n32 4 6 8),
    (word [(59, 0), (53, 0x21), (0, 2), (34, 2), (26, 10), (8, 0x3FFFB)], .subImm ⟨.always, 0⟩ .i16 2 10 262139),
    (word [(59, 0), (53, 2), (0, 4), (34, 4), (26, 6), (18, 8)], .mul ⟨.always, 0⟩ .i64 4 6 8),
    (word [(59, 0), (53, 0x22), (0, 5), (34, 2), (26, 10), (8, 0x3FFFB)], .mulImm ⟨.always, 0⟩ .n8 2 10 262139),
    (word [(59, 0), (53, 3), (0, 3), (34, 4), (26, 6), (18, 8)], .mulh ⟨.always, 0⟩ .i32 4 6 8),
    (word [(59, 0), (53, 0x23), (0, 7), (34, 2), (26, 10), (8, 0x3FFFB)], .mulhImm ⟨.always, 0⟩ .n32 2 10 262139),
    (word [(59, 0), (53, 7), (0, 1), (34, 4), (26, 6), (18, 8)], .min ⟨.always, 0⟩ .i8 4 6 8),
    (word [(59, 0), (53, 0x27), (0, 6), (34, 2), (26, 10), (8, 0x3FFFB)], .minImm ⟨.always, 0⟩ .n16 2 10 262139),
    (word [(59, 0), (53, 8), (0, 8), (34, 4), (26, 6), (18, 8)], .max ⟨.always, 0⟩ .n64 4 6 8),
    (word [(59, 0), (53, 0x28), (0, 3), (34, 2), (26, 10), (8, 0x3FFFB)], .maxImm ⟨.always, 0⟩ .i32 2 10 262139),
    (word [(59, 0), (53, 11), (0, 9), (34, 4), (26, 6), (18, 8)], .and ⟨.always, 0⟩ .b32 4 6 8),
    (word [(59, 0), (53, 0x2B), (0, 8), (34, 2), (26, 10), (8, 0x3FFFB)], .andImm ⟨.always, 0⟩ .n64 2 10 262139),
    (word [(59, 0), (53, 12), (0, 9), (34, 4), (26, 6), (18, 8)], .or ⟨.always, 0⟩ .b32 4 6 8),
    (word [(59, 0), (53, 0x2C), (0, 9), (34, 2), (26, 10), (8, 0x3FFFB)], .orImm ⟨.always, 0⟩ .b32 2 10 262139),
    (word [(59, 0), (53, 13), (52, 1), (47, 2), (46, 1), (0, 4), (34, 4), (26, 6), (18, 8)], .xor ⟨.on 2 true, 0⟩ .i64 4 6 8),
    (word [(59, 0), (53, 0x2D), (0, 9), (34, 2), (26, 10), (8, 0x3FFFB)], .xorImm ⟨.always, 0⟩ .b32 2 10 262139)].all (fun x => decodeWord x.1 == some x.2) = true := by decide +kernel

/-- R46, major 0x0 (integer): words by the fields of R24 to R30. -/
theorem test_decode_integer_2 : [
    (word [(59, 0), (53, 14), (0, 9), (34, 4), (26, 6), (18, 8)], Instr.andn ⟨.always, 0⟩ .b32 4 6 8),
    (word [(59, 0), (53, 0x2E), (0, 9), (34, 2), (26, 10), (8, 0x3FFFB)], .andnImm ⟨.always, 0⟩ .b32 2 10 262139),
    (word [(59, 0), (53, 15), (0, 9), (34, 4), (26, 6), (18, 8)], .shl ⟨.always, 0⟩ .b32 4 6 8),
    (word [(59, 0), (53, 0x2F), (0, 15), (34, 2), (26, 10), (8, 3)], .shlImm ⟨.always, 0⟩ .h2 2 10 3),
    (word [(59, 0), (53, 0x10), (0, 9), (34, 4), (26, 6), (18, 8)], .shr ⟨.always, 0⟩ .b32 4 6 8),
    (word [(59, 0), (53, 0x30), (0, 8), (34, 2), (26, 10), (8, 3)], .shrImm ⟨.always, 0⟩ .n64 2 10 3),
    (word [(59, 0), (53, 0x11), (0, 4), (34, 4), (26, 6), (18, 8)], .sar ⟨.always, 0⟩ .i64 4 6 8),
    (word [(59, 0), (53, 0x31), (0, 9), (34, 2), (26, 10), (8, 3)], .sarImm ⟨.always, 0⟩ .b32 2 10 3),
    (word [(59, 0), (53, 0x12), (0, 9), (34, 4), (26, 6), (18, 8)], .rot ⟨.always, 0⟩ .b32 4 6 8),
    (word [(59, 0), (53, 0x32), (0, 9), (34, 2), (26, 10), (8, 3)], .rotImm ⟨.always, 0⟩ .b32 2 10 3),
    (word [(59, 0), (53, 5), (42, 5), (0, 3), (34, 4), (26, 6), (18, 8)], .div ⟨.always, 5⟩ .i32 4 6 8),
    (word [(59, 0), (53, 0x25), (0, 8), (34, 2), (26, 10), (8, 0x3FFFB)], .divImm ⟨.always, 0⟩ .n64 2 10 262139),
    (word [(59, 0), (53, 6), (0, 6), (34, 4), (26, 6), (18, 8)], .rem ⟨.always, 0⟩ .n16 4 6 8),
    (word [(59, 0), (53, 0x26), (0, 1), (34, 2), (26, 10), (8, 0x3FFFB)], .remImm ⟨.always, 0⟩ .i8 2 10 262139),
    (word [(59, 0), (53, 4), (0, 3), (34, 1), (26, 2), (18, 3), (10, 4)], .mad ⟨.always, 0⟩ .i32 1 2 3 4),
    (word [(59, 0), (53, 0x24), (0, 7), (34, 1), (26, 2), (8, 7)], .madImm ⟨.always, 0⟩ .n32 1 2 7),
    (word [(59, 0), (53, 9), (0, 3), (34, 4), (26, 6)], .abs ⟨.always, 0⟩ .i32 4 6),
    (word [(59, 0), (53, 10), (0, 4), (34, 4), (26, 6)], .neg ⟨.always, 0⟩ .i64 4 6)].all (fun x => decodeWord x.1 == some x.2) = true := by decide +kernel

/-- R46, major 0x0 (integer): words by the fields of R24 to R30. -/
theorem test_decode_integer_3 : [
    (word [(59, 0), (53, 0x13), (0, 9), (34, 4), (26, 6)], Instr.clz ⟨.always, 0⟩ .b32 4 6),
    (word [(59, 0), (53, 0x14), (0, 9), (34, 4), (26, 6)], .popc ⟨.always, 0⟩ .b32 4 6),
    (word [(59, 0), (53, 0x15), (0, 9), (34, 4), (26, 6)], .brev ⟨.always, 0⟩ .b32 4 6),
    (word [(59, 0), (53, 0x16), (0, 7), (34, 1), (26, 2), (18, 3)], .bfx ⟨.always, 0⟩ .n32 1 2 3),
    (word [(59, 0), (53, 0x36), (0, 3), (34, 1), (26, 2), (8, 0x804)], .bfxImm ⟨.always, 0⟩ .i32 1 2 2052),
    (word [(59, 0), (53, 0x17), (0, 9), (34, 1), (26, 2), (18, 3), (10, 4)], .bfi ⟨.always, 0⟩ .b32 1 2 3 4),
    (word [(59, 0), (53, 0x37), (0, 9), (34, 1), (26, 2), (8, 0x804)], .bfiImm ⟨.always, 0⟩ .b32 1 2 2052),
    (word [(59, 0), (53, 0x18), (0, 9), (4, 5), (34, 1), (26, 2), (18, 3)], .sel ⟨.always, 0⟩ .b32 5 1 2 3),
    (word [(59, 0), (53, 0x38), (0, 9), (4, 15), (34, 1), (26, 2), (8, 9)], .selImm ⟨.always, 0⟩ .b32 15 1 2 9),
    (word [(59, 0), (53, 0x19), (0, 7), (4, 5), (34, 0x1F), (26, 2), (18, 3)], .cmp ⟨.always, 0⟩ .ge .n32 31 2 3),
    (word [(59, 0), (53, 0x39), (0, 3), (4, 2), (26, 2), (8, 0x20000)], .cmpImm ⟨.always, 0⟩ .lt .i32 0 2 0x20000),
    (word [(59, 0), (53, 0x1A), (0, 7), (4, 3), (34, 1), (26, 2), (18, 4)], .addc ⟨.always, 0⟩ .n32 3 1 2 4),
    (word [(59, 0), (53, 0x3A), (0, 7), (4, 3), (34, 1), (26, 2), (8, 4)], .addcImm ⟨.always, 0⟩ .n32 3 1 2 4),
    (word [(59, 0), (53, 0x1B), (0, 7), (4, 3), (34, 1), (26, 2), (18, 4)], .subc ⟨.always, 0⟩ .n32 3 1 2 4),
    (word [(59, 0), (53, 0x3B), (0, 7), (4, 3), (34, 1), (26, 2), (8, 4)], .subcImm ⟨.always, 0⟩ .n32 3 1 2 4),
    (word [(59, 0), (53, 0x1C), (0, 7), (4, 2), (34, 4), (26, 6), (18, 9)], .lea ⟨.always, 0⟩ .n32 2 4 6 9),
    (word [(59, 0), (53, 0x3C), (0, 4), (4, 4), (34, 4), (26, 6), (8, 5)], .leaImm ⟨.always, 0⟩ .i64 4 4 6 5),
    (word [(59, 0), (53, 0x1D), (0, 15), (4, 6), (34, 1), (26, 2), (18, 3), (10, 4)], .acs ⟨.always, 0⟩ 6 1 2 3 4)].all (fun x => decodeWord x.1 == some x.2) = true := by decide +kernel

/-- R46, major 0x0 (integer): words by the fields of R24 to R30. -/
theorem test_decode_integer_4 : [
    (word [(59, 0), (53, 0x3D), (0, 15), (4, 6), (34, 1), (26, 2), (8, 5)], Instr.acsImm ⟨.always, 0⟩ 6 1 2 5)].all (fun x => decodeWord x.1 == some x.2) = true := by decide +kernel

/-- R46, major 0x1 (float): words by the fields of R24 to R30. -/
theorem test_decode_float : [
    (word [(59, 1), (0, 10), (4, 1), (6, 2), (34, 1), (26, 2), (18, 3)], Instr.fadd ⟨.always, 0⟩ .f32 .rz .nan 1 2 3),
    (word [(59, 1), (53, 1), (0, 10), (4, 1), (6, 2), (34, 1), (26, 2), (18, 3)], .fsub ⟨.always, 0⟩ .f32 .rz .nan 1 2 3),
    (word [(59, 1), (53, 2), (0, 10), (4, 1), (6, 2), (34, 1), (26, 2), (18, 3)], .fmul ⟨.always, 0⟩ .f32 .rz .nan 1 2 3),
    (word [(59, 1), (53, 3), (0, 14), (34, 1), (26, 2), (18, 3), (10, 4)], .ffma ⟨.always, 0⟩ .bf16x2 .rne .sat 1 2 3 4),
    (word [(59, 1), (53, 4), (0, 11), (34, 1), (26, 2), (18, 3)], .fmin ⟨.always, 0⟩ .f16 1 2 3),
    (word [(59, 1), (53, 5), (0, 11), (34, 1), (26, 2), (18, 3)], .fmax ⟨.always, 0⟩ .f16 1 2 3),
    (word [(59, 1), (53, 6), (0, 10), (4, 6), (34, 7), (26, 2), (18, 3)], .fcmp ⟨.always, 0⟩ .un .f32 7 2 3),
    (word [(59, 1), (53, 7), (42, 15), (0, 10), (4, 3), (6, 3), (34, 1), (26, 2)], .frcp ⟨.always, 15⟩ .f32 .rup .trap 1 2),
    (word [(59, 1), (53, 10), (42, 15), (0, 10), (4, 3), (6, 3), (34, 1), (26, 2)], .fex2 ⟨.always, 15⟩ .f32 .rup .trap 1 2),
    (word [(59, 1), (53, 8), (0, 10), (4, 2), (34, 1), (26, 2)], .frsq ⟨.always, 0⟩ .f32 .rdn 1 2),
    (word [(59, 1), (53, 9), (0, 10), (4, 2), (34, 1), (26, 2)], .fsqrt ⟨.always, 0⟩ .f32 .rdn 1 2),
    (word [(59, 1), (53, 11), (0, 10), (4, 2), (34, 1), (26, 2)], .flg2 ⟨.always, 0⟩ .f32 .rdn 1 2),
    (word [(59, 1), (53, 12), (0, 10), (6, 1), (34, 1), (26, 2), (18, 3)], .fdiv ⟨.always, 0⟩ .f32 .rne .inf 1 2 3),
    (word [(59, 1), (53, 13), (0, 10), (4, 1), (34, 1), (26, 2)], .frnd ⟨.always, 0⟩ .f32 .rz 1 2),
    (word [(59, 1), (53, 14), (0, 12), (34, 1), (26, 2)], .fclass ⟨.always, 0⟩ .bf16 1 2)].all (fun x => decodeWord x.1 == some x.2) = true := by decide +kernel

/-- R46, major 0x2 (convert): words by the fields of R24 to R30. -/
theorem test_decode_convert : [
    (word [(59, 2), (0, 3), (4, 10), (8, 1), (34, 1), (26, 2)], Instr.cvt ⟨.always, 0⟩ .i32 .f32 .rz .sat 1 2 0)].all (fun x => decodeWord x.1 == some x.2) = true := by decide +kernel

/-- R46, major 0x3 (move and predicate): words by the fields of R24 to R30. -/
theorem test_decode_move_predicate : [
    (word [(59, 3), (0, 4), (34, 4), (26, 6)], Instr.mov ⟨.always, 0⟩ .i64 4 6),
    (word [(59, 3), (53, 3), (0, 9), (34, 4), (26, 6), (18, 0xC1)], .bcst ⟨.always, 0⟩ .b32 4 6 0xC1),
    (word [(59, 3), (53, 4), (0, 9), (4, 7), (34, 4), (26, 6), (18, 8)], .shfl ⟨.always, 0⟩ .mirror 1 .b32 4 6 8),
    (word [(59, 3), (53, 5), (34, 5), (0, 14)], .rdsr ⟨.always, 0⟩ 5 0x0E),
    (word [(59, 3), (53, 6), (26, 0xC2), (0, 14)], .wrsr ⟨.always, 0⟩ 0x0E 0xC2),
    (word [(59, 3), (53, 8), (34, 1), (26, 2), (18, 3), (4, 1)], .pand ⟨.always, 0⟩ true false 1 2 3),
    (word [(59, 3), (53, 9), (34, 1), (26, 2), (18, 3), (4, 2)], .por ⟨.always, 0⟩ false true 1 2 3),
    (word [(59, 3), (53, 10), (34, 0x1F), (26, 0x1E), (18, 0x1D)], .pxor ⟨.always, 0⟩ false false 31 30 29),
    (word [(59, 3), (53, 11), (34, 1), (26, 2)], .pnot ⟨.always, 0⟩ 1 2),
    (word [(59, 3), (53, 12), (34, 1), (26, 2)], .pmov ⟨.always, 0⟩ 1 2),
    (word [(59, 3), (53, 12), (34, 1), (26, 0xC8), (0, 0x10)], .pmovNz ⟨.always, 0⟩ 1 200),
    (word [(59, 3), (53, 12), (26, 9), (0, 0x20)], .pmovAll ⟨.always, 0⟩ 9),
    (word [(59, 3), (53, 13), (34, 9)], .pget ⟨.always, 0⟩ 9),
    (word [(59, 3), (53, 14), (34, 1), (26, 2)], .voteOr ⟨.always, 0⟩ false 1 2),
    (word [(59, 3), (53, 14), (34, 1), (26, 2), (0, 0x50)], .voteAnd ⟨.always, 0⟩ true 1 2),
    (word [(59, 3), (53, 14), (34, 1), (26, 2), (0, 0x20)], .voteSame ⟨.always, 0⟩ false 1 2),
    (word [(59, 3), (53, 14), (34, 0xC4), (26, 2), (0, 0x70)], .voteMask ⟨.always, 0⟩ true 0xC4 2)].all (fun x => decodeWord x.1 == some x.2) = true := by decide +kernel

/-- R46, major 0x4 (control): words by the fields of R24 to R30. -/
theorem test_decode_control : [
    (word [(59, 4), (52, 1), (46, 1), (0, 0x3FFFFFE)], Instr.bra ⟨.on 0 true, 0⟩ 0x3FFFFFE),
    (word [(59, 4), (53, 1), (26, 3)], .brx ⟨.always, 0⟩ 3),
    (word [(59, 4), (53, 2), (34, 7), (0, 0x10)], .call ⟨.always, 0⟩ 7 16),
    (word [(59, 4), (53, 3), (34, 7), (26, 3)], .callx ⟨.always, 0⟩ 7 3),
    (word [(59, 4), (53, 4), (26, 7)], .ret ⟨.always, 0⟩ 7),
    (word [(59, 4), (53, 5), (52, 1), (47, 9)], .exit ⟨.on 9 false, 0⟩),
    (word [(59, 4), (53, 6), (52, 1), (47, 9)], .nop ⟨.on 9 false, 0⟩),
    (word [(59, 4), (53, 7)], .join ⟨.always, 0⟩),
    (word [(59, 4), (53, 9)], .wpark ⟨.always, 0⟩),
    (word [(59, 4), (53, 15)], .regang ⟨.always, 0⟩),
    (word [(59, 4), (53, 8), (0, 5)], .park ⟨.always, 0⟩ 5),
    (word [(59, 4), (53, 10), (34, 0xC0), (26, 0xC2)], .dret ⟨.always, 0⟩ 0xC0 0xC2),
    (word [(59, 4), (53, 11), (34, 0xC0), (26, 0xC2)], .dmin ⟨.always, 0⟩ 0xC0 0xC2),
    (word [(59, 4), (53, 12), (34, 0xC0), (26, 0xC2)], .dmaj ⟨.always, 0⟩ 0xC0 0xC2),
    (word [(59, 4), (53, 13), (34, 0xC4), (26, 0xC2), (18, 0xC0)], .dsel ⟨.always, 0⟩ 0xC4 0xC2 0xC0),
    (word [(59, 4), (53, 14), (34, 0xEC), (26, 0xC2)], .split ⟨.always, 0⟩ 0xEC 0xC2)].all (fun x => decodeWord x.1 == some x.2) = true := by decide +kernel

/-- R46, major 0x5 (load and store): words by the fields of R24 to R30. -/
theorem test_decode_load_store_1 : [
    (word [(59, 5), (42, 2), (28, 0x20), (20, 8), (14, 0x3F), (11, 3), (3, 0x81), (1, 2), (34, 4)], Instr.ldN8 ⟨.always, 2⟩ 4 ⟨32, 8, 63, ⟨3, 0x81, .device⟩⟩ false),
    (word [(59, 5), (53, 1), (42, 2), (28, 0x20), (20, 8), (14, 0x3F), (11, 3), (3, 0x81), (1, 2), (34, 4), (0, 1)], .ldN16 ⟨.always, 2⟩ 4 ⟨32, 8, 63, ⟨3, 0x81, .device⟩⟩ true),
    (word [(59, 5), (53, 2), (42, 2), (28, 0x20), (20, 8), (14, 0x3F), (11, 3), (3, 0x81), (1, 2), (34, 4)], .ld32 ⟨.always, 2⟩ 4 ⟨32, 8, 63, ⟨3, 0x81, .device⟩⟩ false),
    (word [(59, 5), (53, 3), (42, 2), (28, 0x20), (20, 8), (14, 0x3F), (11, 3), (3, 0x81), (1, 2), (34, 4), (0, 1)], .ld64 ⟨.always, 2⟩ 4 ⟨32, 8, 63, ⟨3, 0x81, .device⟩⟩ true),
    (word [(59, 5), (53, 4), (42, 2), (28, 0x20), (20, 8), (14, 0x3F), (11, 3), (3, 0x81), (1, 2), (34, 4)], .ld128 ⟨.always, 2⟩ 4 ⟨32, 8, 63, ⟨3, 0x81, .device⟩⟩ false),
    (word [(59, 5), (53, 5), (42, 2), (28, 0x20), (20, 8), (14, 0x3F), (11, 3), (3, 0x81), (1, 2), (34, 4)], .ldI8 ⟨.always, 2⟩ 4 ⟨32, 8, 63, ⟨3, 0x81, .device⟩⟩ false),
    (word [(59, 5), (53, 6), (42, 2), (28, 0x20), (20, 8), (14, 0x3F), (11, 3), (3, 0x81), (1, 2), (34, 4)], .ldI16 ⟨.always, 2⟩ 4 ⟨32, 8, 63, ⟨3, 0x81, .device⟩⟩ false),
    (word [(59, 5), (53, 8), (28, 0x20), (20, 8), (14, 0x3F), (11, 3), (3, 0x81), (1, 2), (34, 8)], .st8 ⟨.always, 0⟩ 8 ⟨32, 8, 63, ⟨3, 0x81, .device⟩⟩),
    (word [(59, 5), (53, 9), (28, 0x20), (20, 8), (14, 0x3F), (11, 3), (3, 0x81), (1, 2), (34, 8)], .st16 ⟨.always, 0⟩ 8 ⟨32, 8, 63, ⟨3, 0x81, .device⟩⟩),
    (word [(59, 5), (53, 10), (28, 0x20), (20, 8), (14, 0x3F), (11, 3), (3, 0x81), (1, 2), (34, 8)], .st32 ⟨.always, 0⟩ 8 ⟨32, 8, 63, ⟨3, 0x81, .device⟩⟩),
    (word [(59, 5), (53, 11), (28, 0x20), (20, 8), (14, 0x3F), (11, 3), (3, 0x81), (1, 2), (34, 8)], .st64 ⟨.always, 0⟩ 8 ⟨32, 8, 63, ⟨3, 0x81, .device⟩⟩),
    (word [(59, 5), (53, 12), (28, 0x20), (20, 8), (14, 0x3F), (11, 3), (3, 0x81), (1, 2), (34, 8)], .st128 ⟨.always, 0⟩ 8 ⟨32, 8, 63, ⟨3, 0x81, .device⟩⟩),
    (word [(59, 5), (53, 0x10), (28, 0x20), (20, 0xF0), (14, 0x3F), (11, 3), (3, 0x81), (1, 2), (34, 0xC4)], .ldc32 ⟨.always, 0⟩ 196 ⟨32, 0xF0, 63, ⟨3, 0x81, .device⟩⟩),
    (word [(59, 5), (53, 0x11), (28, 0x20), (20, 0xF0), (14, 0x3F), (11, 3), (3, 0x81), (1, 2), (34, 0xC4)], .ldc64 ⟨.always, 0⟩ 196 ⟨32, 0xF0, 63, ⟨3, 0x81, .device⟩⟩),
    (word [(59, 5), (53, 0x12), (28, 0x20), (20, 0xF0), (14, 0x3F), (11, 3), (3, 0x81), (1, 2), (34, 0xC4)], .ldc128 ⟨.always, 0⟩ 196 ⟨32, 0xF0, 63, ⟨3, 0x81, .device⟩⟩),
    (word [(59, 5), (53, 0x14), (28, 5), (20, 8), (14, 0x3F), (11, 3), (3, 0x81), (1, 2), (34, 4)], .ldt ⟨.always, 0⟩ 4 ⟨5, 8, 63, ⟨3, 0x81, .device⟩⟩),
    (word [(59, 5), (53, 0x15), (28, 5), (20, 8), (14, 0x3F), (11, 3), (3, 0x81), (1, 2), (34, 4)], .stt ⟨.always, 0⟩ 4 ⟨5, 8, 63, ⟨3, 0x81, .device⟩⟩),
    (word [(59, 5), (53, 0x16), (28, 0x20), (20, 0xF0), (14, 0x3F), (11, 3), (3, 0x81), (1, 2), (34, 11)], .trec ⟨.always, 0⟩ 11 ⟨32, 0xF0, 63, ⟨3, 0x81, .device⟩⟩)].all (fun x => decodeWord x.1 == some x.2) = true := by decide +kernel

/-- R46, major 0x5 (load and store): words by the fields of R24 to R30. -/
theorem test_decode_load_store_2 : [
    (word [(59, 5), (53, 0x18), (28, 0x20), (20, 8), (14, 0x3F), (11, 3), (3, 0x81), (1, 2)], Instr.pf ⟨.always, 0⟩ ⟨32, 8, 63, ⟨3, 0x81, .device⟩⟩)].all (fun x => decodeWord x.1 == some x.2) = true := by decide +kernel

/-- R46, major 0x6 (atomic, barrier and full/empty): words by the fields of R24 to R30. -/
theorem test_decode_atomic_barrier_full_empty_1 : [
    (word [(59, 6), (28, 0x20), (20, 8), (14, 0x3F), (11, 3), (3, 0x81), (1, 2), (34, 4)], Instr.ldk ⟨.always, 0⟩ 4 ⟨32, 8, 63, ⟨3, 0x81, .device⟩⟩),
    (word [(59, 6), (53, 1), (28, 0x20), (20, 8), (14, 0x3F), (11, 3), (3, 0x81), (1, 2), (34, 4)], .stf ⟨.always, 0⟩ 4 ⟨32, 8, 63, ⟨3, 0x81, .device⟩⟩),
    (word [(59, 6), (53, 2), (28, 0x20), (20, 8), (14, 0x3F), (11, 3), (3, 0x81), (1, 2)], .fes ⟨.always, 0⟩ ⟨32, 8, 63, ⟨3, 0x81, .device⟩⟩),
    (word [(59, 6), (53, 3), (28, 0x20), (20, 8), (14, 0x3F), (11, 3), (3, 0x81), (1, 2)], .fec ⟨.always, 0⟩ ⟨32, 8, 63, ⟨3, 0x81, .device⟩⟩),
    (word [(59, 6), (53, 4), (28, 0x20), (20, 8), (14, 0x3F), (11, 3), (3, 0x81), (1, 2), (34, 9)], .fet ⟨.always, 0⟩ 9 ⟨32, 8, 63, ⟨3, 0x81, .device⟩⟩),
    (word [(59, 6), (53, 10), (28, 0x20), (20, 8), (14, 0x3F), (11, 3), (3, 0x81), (1, 2), (34, 4)], .ldr32 ⟨.always, 0⟩ 4 ⟨32, 8, 63, ⟨3, 0x81, .device⟩⟩),
    (word [(59, 6), (53, 11), (28, 0x20), (20, 8), (14, 0x3F), (11, 3), (3, 0x81), (1, 2), (34, 4)], .ldr64 ⟨.always, 0⟩ 4 ⟨32, 8, 63, ⟨3, 0x81, .device⟩⟩),
    (word [(59, 6), (53, 12), (28, 0x20), (20, 8), (14, 0x3F), (11, 3), (3, 0x81), (1, 2), (34, 4)], .stc32 ⟨.always, 0⟩ 4 ⟨32, 8, 63, ⟨3, 0x81, .device⟩⟩),
    (word [(59, 6), (53, 13), (28, 0x20), (20, 8), (14, 0x3F), (11, 3), (3, 0x81), (1, 2), (34, 4)], .stc64 ⟨.always, 0⟩ 4 ⟨32, 8, 63, ⟨3, 0x81, .device⟩⟩),
    (word [(59, 6), (53, 0x10), (26, 0xC1), (14, 3), (11, 7), (3, 0xFF)], .barIni ⟨.always, 0⟩ 3 0xC1 ⟨7, 0xFF, .core⟩),
    (word [(59, 6), (53, 0x11), (34, 0xC5), (26, 0xC1), (14, 3), (11, 7), (3, 0xFF)], .barArv ⟨.always, 0⟩ 0xC5 3 0xC1 ⟨7, 0xFF, .core⟩),
    (word [(59, 6), (53, 0x12), (34, 0xC5), (26, 0xC1), (14, 3), (11, 7), (3, 0xFF)], .barAwt ⟨.always, 0⟩ 0xC5 3 0xC1 ⟨7, 0xFF, .core⟩),
    (word [(59, 6), (53, 0x13), (26, 0xC1), (14, 3), (11, 7), (3, 0xFF)], .barWt ⟨.always, 0⟩ 3 0xC1 ⟨7, 0xFF, .core⟩),
    (word [(59, 6), (53, 0x14), (26, 0xC1), (14, 15), (0, 1), (11, 7), (3, 0xFF)], .barExp ⟨.always, 0⟩ 15 0xC1 true ⟨7, 0xFF, .core⟩),
    (word [(59, 6), (53, 0x15), (34, 0xC4), (14, 3), (11, 7), (3, 0xFF)], .barTst ⟨.always, 0⟩ 0xC4 3 ⟨7, 0xFF, .core⟩),
    (word [(59, 6), (53, 0x18), (34, 4), (14, 5), (11, 7), (3, 0xFF)], .sqry ⟨.always, 0⟩ 4 5 ⟨7, 0xFF, .core⟩),
    (word [(59, 6), (53, 0x20), (28, 0x20), (20, 8), (14, 0x3F), (11, 3), (3, 0x81), (1, 2), (34, 4)], .atmAdd32 ⟨.always, 0⟩ 4 ⟨32, 8, 63, ⟨3, 0x81, .device⟩⟩),
    (word [(59, 6), (53, 0x21), (28, 0x20), (20, 8), (14, 0x3F), (11, 3), (3, 0x81), (1, 2), (34, 4)], .atmSub32 ⟨.always, 0⟩ 4 ⟨32, 8, 63, ⟨3, 0x81, .device⟩⟩)].all (fun x => decodeWord x.1 == some x.2) = true := by decide +kernel

/-- R46, major 0x6 (atomic, barrier and full/empty): words by the fields of R24 to R30. -/
theorem test_decode_atomic_barrier_full_empty_2 : [
    (word [(59, 6), (53, 0x22), (28, 0x20), (20, 8), (14, 0x3F), (11, 3), (3, 0x81), (1, 2), (34, 4)], Instr.atmMin32 ⟨.always, 0⟩ 4 ⟨32, 8, 63, ⟨3, 0x81, .device⟩⟩),
    (word [(59, 6), (53, 0x23), (28, 0x20), (20, 8), (14, 0x3F), (11, 3), (3, 0x81), (1, 2), (34, 4)], .atmMax32 ⟨.always, 0⟩ 4 ⟨32, 8, 63, ⟨3, 0x81, .device⟩⟩),
    (word [(59, 6), (53, 0x24), (28, 0x20), (20, 8), (14, 0x3F), (11, 3), (3, 0x81), (1, 2), (34, 4)], .atmAnd32 ⟨.always, 0⟩ 4 ⟨32, 8, 63, ⟨3, 0x81, .device⟩⟩),
    (word [(59, 6), (53, 0x25), (28, 0x20), (20, 8), (14, 0x3F), (11, 3), (3, 0x81), (1, 2), (34, 4)], .atmOr32 ⟨.always, 0⟩ 4 ⟨32, 8, 63, ⟨3, 0x81, .device⟩⟩),
    (word [(59, 6), (53, 0x26), (28, 0x20), (20, 8), (14, 0x3F), (11, 3), (3, 0x81), (1, 2), (34, 4)], .atmXor32 ⟨.always, 0⟩ 4 ⟨32, 8, 63, ⟨3, 0x81, .device⟩⟩),
    (word [(59, 6), (53, 0x27), (28, 0x20), (20, 8), (14, 0x3F), (11, 3), (3, 0x81), (1, 2), (34, 4)], .atmXchg32 ⟨.always, 0⟩ 4 ⟨32, 8, 63, ⟨3, 0x81, .device⟩⟩),
    (word [(59, 6), (53, 0x28), (28, 0x20), (20, 8), (14, 0x3F), (11, 3), (3, 0x81), (1, 2), (34, 4)], .atmFadd32 ⟨.always, 0⟩ 4 ⟨32, 8, 63, ⟨3, 0x81, .device⟩⟩),
    (word [(59, 6), (53, 0x29), (28, 0x20), (20, 8), (14, 0x3F), (11, 3), (3, 0x81), (1, 2), (34, 4)], .atmCas32 ⟨.always, 0⟩ 4 ⟨32, 8, 63, ⟨3, 0x81, .device⟩⟩),
    (word [(59, 6), (53, 0x2A), (28, 0x20), (20, 8), (14, 0x3F), (11, 3), (3, 0x81), (1, 2), (34, 4)], .atmMinu32 ⟨.always, 0⟩ 4 ⟨32, 8, 63, ⟨3, 0x81, .device⟩⟩),
    (word [(59, 6), (53, 0x2B), (28, 0x20), (20, 8), (14, 0x3F), (11, 3), (3, 0x81), (1, 2), (34, 4)], .atmMaxu32 ⟨.always, 0⟩ 4 ⟨32, 8, 63, ⟨3, 0x81, .device⟩⟩),
    (word [(59, 6), (53, 0x30), (28, 0x20), (20, 8), (14, 0x3F), (11, 3), (3, 0x81), (1, 2), (34, 4)], .atmAdd64 ⟨.always, 0⟩ 4 ⟨32, 8, 63, ⟨3, 0x81, .device⟩⟩),
    (word [(59, 6), (53, 0x31), (28, 0x20), (20, 8), (14, 0x3F), (11, 3), (3, 0x81), (1, 2), (34, 4)], .atmSub64 ⟨.always, 0⟩ 4 ⟨32, 8, 63, ⟨3, 0x81, .device⟩⟩),
    (word [(59, 6), (53, 0x32), (28, 0x20), (20, 8), (14, 0x3F), (11, 3), (3, 0x81), (1, 2), (34, 4)], .atmMin64 ⟨.always, 0⟩ 4 ⟨32, 8, 63, ⟨3, 0x81, .device⟩⟩),
    (word [(59, 6), (53, 0x33), (28, 0x20), (20, 8), (14, 0x3F), (11, 3), (3, 0x81), (1, 2), (34, 4)], .atmMax64 ⟨.always, 0⟩ 4 ⟨32, 8, 63, ⟨3, 0x81, .device⟩⟩),
    (word [(59, 6), (53, 0x34), (28, 0x20), (20, 8), (14, 0x3F), (11, 3), (3, 0x81), (1, 2), (34, 4)], .atmAnd64 ⟨.always, 0⟩ 4 ⟨32, 8, 63, ⟨3, 0x81, .device⟩⟩),
    (word [(59, 6), (53, 0x35), (28, 0x20), (20, 8), (14, 0x3F), (11, 3), (3, 0x81), (1, 2), (34, 4)], .atmOr64 ⟨.always, 0⟩ 4 ⟨32, 8, 63, ⟨3, 0x81, .device⟩⟩),
    (word [(59, 6), (53, 0x36), (28, 0x20), (20, 8), (14, 0x3F), (11, 3), (3, 0x81), (1, 2), (34, 4)], .atmXor64 ⟨.always, 0⟩ 4 ⟨32, 8, 63, ⟨3, 0x81, .device⟩⟩),
    (word [(59, 6), (53, 0x37), (28, 0x20), (20, 8), (14, 0x3F), (11, 3), (3, 0x81), (1, 2), (34, 4)], .atmXchg64 ⟨.always, 0⟩ 4 ⟨32, 8, 63, ⟨3, 0x81, .device⟩⟩)].all (fun x => decodeWord x.1 == some x.2) = true := by decide +kernel

/-- R46, major 0x6 (atomic, barrier and full/empty): words by the fields of R24 to R30. -/
theorem test_decode_atomic_barrier_full_empty_3 : [
    (word [(59, 6), (53, 0x39), (28, 0x20), (20, 8), (14, 0x3F), (11, 3), (3, 0x81), (1, 2), (34, 4)], Instr.atmCas64 ⟨.always, 0⟩ 4 ⟨32, 8, 63, ⟨3, 0x81, .device⟩⟩),
    (word [(59, 6), (53, 0x3A), (28, 0x20), (20, 8), (14, 0x3F), (11, 3), (3, 0x81), (1, 2), (34, 4)], .atmMinu64 ⟨.always, 0⟩ 4 ⟨32, 8, 63, ⟨3, 0x81, .device⟩⟩),
    (word [(59, 6), (53, 0x3B), (28, 0x20), (20, 8), (14, 0x3F), (11, 3), (3, 0x81), (1, 2), (34, 4)], .atmMaxu64 ⟨.always, 0⟩ 4 ⟨32, 8, 63, ⟨3, 0x81, .device⟩⟩)].all (fun x => decodeWord x.1 == some x.2) = true := by decide +kernel

/-- R46, major 0x7 (copy and collective): words by the fields of R24 to R30. -/
theorem test_decode_copy_collective : [
    (word [(59, 7), (34, 4), (26, 6), (18, 9), (0, 1), (11, 2), (3, 0x10), (1, 2)], Instr.cp ⟨.always, 0⟩ .g2s true 4 6 9 ⟨2, 0x10, .device⟩),
    (word [(59, 7), (53, 1), (34, 0xC4), (26, 0xC6), (18, 0xC1), (14, 12), (11, 2), (3, 0x10), (1, 2)], .cpm ⟨.always, 0⟩ 12 0xC4 0xC6 0xC1 ⟨2, 0x10, .device⟩),
    (word [(59, 7), (53, 2), (34, 0xC4), (26, 0xC8), (18, 0xC1), (11, 2), (3, 0x10), (1, 2)], .cpc ⟨.always, 0⟩ 0xC4 0xC8 0xC1 ⟨2, 0x10, .device⟩)].all (fun x => decodeWord x.1 == some x.2) = true := by decide +kernel

/-- R46, major 0x8 (matrix): words by the fields of R24 to R30. -/
theorem test_decode_matrix : [
    (word [(59, 8), (26, 0xC3)], Instr.trp ⟨.always, 0⟩ 0xC3),
    (word [(59, 8), (53, 1), (42, 3), (34, 0x10), (26, 0x20), (18, 0x40), (10, 8), (0, 0xD9)], .mma ⟨.always, 3⟩ .e4m3 .lane 2 .inf true 16 32 64 8),
    (word [(59, 8), (53, 2), (34, 0x10), (26, 0x40), (0, 15)], .qnt ⟨.always, 0⟩ .ln6 .trap 16 64),
    (word [(59, 8), (53, 3), (34, 5), (26, 8)], .cvtn ⟨.always, 0⟩ .i8 .sat 5 8),
    (word [(59, 8), (53, 4), (34, 8), (26, 5), (0, 8)], .cvtw ⟨.always, 0⟩ .e5m2 8 5),
    (word [(59, 8), (53, 5), (34, 0x10), (26, 5)], .flg ⟨.always, 0⟩ 16 5),
    (word [(59, 8), (53, 6), (34, 3), (26, 0x10)], .chk ⟨.always, 0⟩ 3 16)].all (fun x => decodeWord x.1 == some x.2) = true := by decide +kernel

/-- R46, major 0x9 (director): words by the fields of R24 to R30. -/
theorem test_decode_director : [
    (word [(59, 9), (26, 0xC4), (11, 2), (3, 0x10), (1, 2)], Instr.launch ⟨.always, 0⟩ 0xC4 ⟨2, 0x10, .device⟩),
    (word [(59, 9), (53, 1), (34, 8), (14, 14), (11, 2), (3, 0x10)], .spawn ⟨.always, 0⟩ 14 8 ⟨2, 0x10, .core⟩),
    (word [(59, 9), (53, 2), (34, 0xC1), (26, 0xC2), (18, 0xC3), (0, 4)], .binCfg ⟨.always, 0⟩ 4 0xC1 0xC2 0xC3),
    (word [(59, 9), (53, 2), (0, 0x14)], .binFl ⟨.always, 0⟩ 4),
    (word [(59, 9), (53, 2), (0, 0x24)], .binRel ⟨.always, 0⟩ 4),
    (word [(59, 9), (53, 2), (34, 0xC1), (0, 0x3E)], .binQ ⟨.always, 0⟩ 14 0xC1),
    (word [(59, 9), (53, 3), (8, 0xABCD)], .eqp ⟨.always, 0⟩ 0xABCD),
    (word [(59, 9), (53, 4), (34, 3), (26, 0xC1), (14, 1)], .migr ⟨.always, 0⟩ 3 .pennant 0xC1),
    (word [(59, 9), (53, 5), (42, 1), (34, 0xC4), (26, 0xC1), (0, 2)], .vqry ⟨.always, 1⟩ 2 0xC4 0xC1)].all (fun x => decodeWord x.1 == some x.2) = true := by decide +kernel

/-- R46, major 0xA (system): words by the fields of R24 to R30. -/
theorem test_decode_system : [
    (word [(59, 10), (8, 0x1234), (34, 0xC4), (26, 0xC8)], Instr.trap ⟨.always, 0⟩ 0x1234 0xC4 0xC8),
    (word [(59, 10), (53, 1), (26, 4), (18, 9)], .tres ⟨.always, 0⟩ 4 9),
    (word [(59, 10), (53, 2), (26, 4)], .tkill ⟨.always, 0⟩ 4),
    (word [(59, 10), (53, 3), (34, 9), (26, 4), (0, 0x314)], .orr ⟨.always, 0⟩ .sr 0x14 9 4),
    (word [(59, 10), (53, 4), (26, 4), (18, 9), (0, 7)], .orw ⟨.always, 0⟩ .v 7 4 9),
    (word [(59, 10), (53, 5), (34, 0xC1), (26, 0xC2), (0, 0x3FFFFFF)], .copen ⟨.always, 0⟩ 0xC1 0xC2 0x3FFFFFF),
    (word [(59, 10), (53, 6)], .cclose ⟨.always, 0⟩),
    (word [(59, 10), (53, 7), (26, 0xC1)], .halt ⟨.always, 0⟩ 0xC1),
    (word [(59, 10), (53, 8), (34, 8), (26, 4)], .ctxrd ⟨.always, 0⟩ 8 4),
    (word [(59, 10), (53, 9), (26, 4), (18, 8)], .ctxwr ⟨.always, 0⟩ 4 8),
    (word [(59, 10), (53, 0x10), (8, 0xFFFF)], .brk ⟨.always, 0⟩ 0xFFFF),
    (word [(59, 10), (53, 0x11), (8, 7), (26, 0xC1)], .trc ⟨.always, 0⟩ 7 0xC1),
    (word [(59, 10), (53, 0x12), (34, 0xC4)], .clk ⟨.always, 0⟩ 0xC4),
    (word [(59, 10), (53, 0x13), (34, 0xC4), (26, 0xC1), (0, 0x10)], .pmk ⟨.always, 0⟩ true 0xC4 0xC1)].all (fun x => decodeWord x.1 == some x.2) = true := by decide +kernel

/-- R46, major 0xB (long immediate): words by the fields of R24 to R30. -/
theorem test_decode_long_immediate : [
    (word [(59, 11), (34, 3), (0, 0xDEADBEEF)], Instr.movi ⟨.always, 0⟩ 3 0xDEADBEEF),
    (word [(59, 11), (34, 4), (0, 0x80000000), (32, 1)], .moviS64 ⟨.always, 0⟩ 4 0x80000000),
    (word [(59, 11), (34, 4), (0, 0x80000000), (32, 2)], .moviZ64 ⟨.always, 0⟩ 4 0x80000000),
    (word [(59, 11), (53, 1), (34, 4), (0, 7)], .movh ⟨.always, 0⟩ 4 7),
    (word [(59, 11), (53, 2), (34, 3), (0, 0x12345678)], .addL ⟨.always, 0⟩ 3 0x12345678),
    (word [(59, 11), (53, 3), (34, 3), (0, 0x12345678)], .andL ⟨.always, 0⟩ 3 0x12345678),
    (word [(59, 11), (53, 4), (34, 3), (0, 0x12345678)], .orL ⟨.always, 0⟩ 3 0x12345678),
    (word [(59, 11), (53, 5), (34, 3), (0, 0x12345678)], .xorL ⟨.always, 0⟩ 3 0x12345678),
    (word [(59, 11), (53, 6), (34, 3), (0, 0x12345678)], .faddL ⟨.always, 0⟩ 3 0x12345678),
    (word [(59, 11), (53, 7), (34, 3), (0, 0x12345678)], .fmulL ⟨.always, 0⟩ 3 0x12345678)].all (fun x => decodeWord x.1 == some x.2) = true := by decide +kernel
/-! ### Single steps -/

/-- The machine about to execute one word: gang 0 of 8 lanes, alone on core 0, a banner core, at PC 0x1_0000. -/
def bench (i : Instr) : State := { State.reset.withWord (encode i) with cur := some (0, 0) }

/-- The state an outcome goes on in; the reset state where it stops. -/
def next (o : Host.Outcome State Fault Refusal) : State := match o with
  | .next t => t
  | .fault _ | .refused _ => State.reset

/-- A step that changes nothing. -/
def idle (i : Instr) (s : State) : Bool := match exec i s with
  | .next t => decide (t = s)
  | .fault _ | .refused _ => false

/-- A machine with its gang 0 changed. -/
def onGang (f : Gang → Gang) (s : State) : State := { s with gangs := FMap.adjust s.gangs 0 f }

/-- A machine with the first unit of its gang 0 changed. -/
def onUnit (f : UnitState → UnitState) (s : State) : State :=
  onGang (fun g => { g with units := g.units.map f }) s

/-- A machine with team 0 changed. -/
def onTeam (f : Team → Team) (s : State) : State := { s with teams := FMap.adjust s.teams 0 f }

/-- A machine with context 0 changed. -/
def onCtx (f : Ctx → Ctx) (s : State) : State := s.setCtx 0 (f (s.ctx 0))

/-- Vector registers of gang 0, the same in every lane. -/
def regs (l : List (Nat × Word)) (s : State) : State :=
  onGang (fun g => { g with v := l.map fun x => (x.1, uniform x.2) }) s

/-- Scalar registers of gang 0. -/
def scalars (l : List (Nat × Word)) (s : State) : State :=
  onGang (fun g => { g with s := Vector.ofFn fun k : Fin 48 => ((l.find? fun x => x.1 == k.val).map (·.2)).getD 0 }) s

/-- Gang 0. -/
def gang0 (s : State) : Gang := FMap.getD s.gangs 0 default

/-- The unit of gang 0. -/
def unit0 (s : State) : UnitState := (gang0 s).units.headD default

/-- The frame of the executing unit. -/
def fr (s : State) : Frame := s.frame.getD default

/-- The bench, its gang in handler mode. -/
def benchHm (i : Instr) : State := onUnit (fun u => { u with hm := true, am := 0, km := 0xFF }) (bench i)

/-- A vector register of gang 0 in one lane. -/
def vAt (s : State) (r l : Nat) : Word := LaneVec.at' ((gang0 s).vreg r) l

/-- Execute a word with some vector registers set. -/
def run (i : Instr) (l : List (Nat × Word)) : State := next (exec i (regs l (bench i)))

/-- A word leaves a value in v1, for v2, v3, v4 and v1 itself as given. -/
def gives (i : Instr) (a b c d out : Word) : Bool := vAt (run i [(1, d), (2, a), (3, b), (4, c)]) 1 7 == out

/-- A windowed word forms a value for v1 (R165). -/
def forms (i : Instr) (a b out : Word) : Bool :=
  ((gang0 (run i [(2, a), (3, b)])).results.map fun r => r.2.writes.map fun w => LaneVec.at' w.val 7) == [[out]]

/-- R153, R154, R157: values worked out by hand. -/
theorem test_integer : [
    (Instr.add al .i8 1 2 3, (0x7F : Word), (1 : Word), (0 : Word), (0 : Word), (0xFFFFFF80 : Word)),
    (.addImm al .n32 1 2 0x3FFFB, 3, 0, 0, 0, 0xFFFFFFFE),
    (.sub al .i32 1 2 3, 0, 1, 0, 0, 0xFFFFFFFF),
    (.subImm al .n16 1 2 5, 2, 0, 0, 0, 0xFFFD),
    (.mul al .i32 1 2 3, 0x10000, 0x10001, 0, 0, 0x10000),
    (.mulImm al .i16 1 2 0x100, 0x100, 0, 0, 0, 0),
    (.mulh al .i32 1 2 3, 0xFFFFFFFF, 2, 0, 0, 0xFFFFFFFF),
    (.mulhImm al .n32 1 2 0x3FFFF, 2, 0, 0, 0, 1),
    (.mad al .i32 1 2 3 4, 3, 4, 5, 0, 17),
    (.madImm al .i32 1 2 4, 3, 0, 0, 7, 19),
    (.min al .i32 1 2 3, 0xFFFFFFFF, 1, 0, 0, 0xFFFFFFFF),
    (.minImm al .n32 1 2 0x3FFFF, 5, 0, 0, 0, 5),
    (.max al .n32 1 2 3, 0xFFFFFFFF, 1, 0, 0, 0xFFFFFFFF),
    (.maxImm al .i32 1 2 0, 0xFFFFFFFD, 0, 0, 0, 0),
    (.abs al .i32 1 2, 0xFFFFFFFB, 0, 0, 0, 5),
    (.neg al .i16 1 2, 1, 0, 0, 0, 0xFFFFFFFF),
    (.and al .b32 1 2 3, 0xF0F0, 0xFF00, 0, 0, 0xF000),
    (.andImm al .b32 1 2 0x3FFF0, 0x12345678, 0, 0, 0, 0x12345670),
    (.or al .b32 1 2 3, 0xF0, 0x0F, 0, 0, 0xFF),
    (.orImm al .b32 1 2 1, 0x80000000, 0, 0, 0, 0x80000001),
    (.xor al .b32 1 2 3, 0xFF, 0x0F, 0, 0, 0xF0),
    (.xorImm al .b32 1 2 0x3FFFF, 0x0F, 0, 0, 0, 0xFFFFFFF0),
    (.andn al .b32 1 2 3, 0xFF, 0x0F, 0, 0, 0xF0)].all
    (fun (i, a, b, c, d, out) => gives i a b c d out) = true := by decide +kernel

/-- R153, R154, R157, R159: shifts, counts and fields. -/
theorem test_shift_field : [
    (Instr.andnImm al .b32 1 2 0xFF, (0x1234 : Word), (0 : Word), (0 : Word), (0 : Word), (0x1200 : Word)),
    (.shl al .b32 1 2 3, 3, 31, 0, 0, 0x80000000),
    (.shlImm al .b32 1 2 32, 1, 0, 0, 0, 0),
    (.shr al .b32 1 2 3, 0x80000000, 31, 0, 0, 1),
    (.shrImm al .h2 1 2 4, 0x12345678, 0, 0, 0, 0x01230567),
    (.sar al .b32 1 2 3, 0x80000000, 40, 0, 0, 0xFFFFFFFF),
    (.sarImm al .b32 1 2 4, 0x80000000, 0, 0, 0, 0xF8000000),
    (.rot al .b32 1 2 3, 0x80000001, 33, 0, 0, 3),
    (.rotImm al .b32 1 2 4, 0x12345678, 0, 0, 0, 0x23456781),
    (.clz al .b32 1 2, 1, 0, 0, 0, 31),
    (.popc al .b32 1 2, 0xFF01, 0, 0, 0, 9),
    (.brev al .b32 1 2, 0x0000000D, 0, 0, 0, 0xB0000000),
    (.bfx al .i32 1 2 3, 0xABCD, 0x0804, 0, 0, 0xFFFFFFBC),
    (.bfxImm al .n32 1 2 0x0804, 0xABCD, 0, 0, 0, 0xBC),
    (.bfi al .b32 1 2 3 4, 0xFFFFFFFF, 0x5A, 0x0804, 0, 0xFFFFF5AF),
    (.bfiImm al .b32 1 2 0x0804, 0x5A, 0, 0, 0xFFFFFFFF, 0xFFFFF5AF),
    (.sel al .b32 5 1 2 3, 10, 20, 0, 0, 20),
    (.selImm al .b32 5 1 2 7, 10, 0, 0, 0, 7),
    (.addc al .n32 3 1 2 3, 0xFFFFFFFF, 1, 0, 0, 0),
    (.acs al 6 1 2 3 4, 0x00100007, 0x000C0009, 0x02000102, 0, 0x000E0009)].all
    (fun (i, a, b, c, d, out) => gives i a b c d out) = true := by decide +kernel

/-- R160 to R163, R166 to R169: float values, each rounded by hand. -/
theorem test_float : [
    (Instr.fadd al .f32 .rne .inf 1 2 3, (0x3F800000 : Word), (0x33800000 : Word), (0 : Word), (0 : Word), (0x3F800000 : Word)),
    (.fadd al .f32 .rup .inf 1 2 3, 0x3F800000, 0x33800000, 0, 0, 0x3F800001),
    (.fsub al .f32 .rdn .inf 1 2 3, 0x3F800000, 0x3F800000, 0, 0, 0x80000000),
    (.fmul al .f32 .rne .sat 1 2 3, 0x7F7FFFFF, 0x40000000, 0, 0, 0x7F7FFFFF),
    (.fmul al .bf16x2 .rne .inf 1 2 3, 0x40403F80, 0x40404000, 0, 0, 0x41104000),
    (.ffma al .f32 .rne .inf 1 2 3 4, 0x40000000, 0x40400000, 0x3F800000, 0, 0x40E00000),
    (.fmin al .f32 1 2 3, 0, 0x80000000, 0, 0, 0x80000000),
    (.fmax al .f32 1 2 3, 0x7FC00000, 0x3F800000, 0, 0, 0x3F800000),
    (.frnd al .f32 .rne 1 2, 0x40200000, 0, 0, 0, 0x40000000),
    (.fclass al .f32 1 2, 0xFF800000, 0, 0, 0, 1),
    (.cvt al .i32 .f32 .rz .sat 1 2 0, 0x501502F9, 0, 0, 0, 0x7FFFFFFF),
    (.cvt al .i32 .f32 .rne .inf 1 2 0, 0xC0200000, 0, 0, 0, 0xFFFFFFFE),
    (.cvt al .bf16 .f32 .rne .inf 1 2 0, 0x3F808000, 0, 0, 0, 0x3F80),
    (.faddL al 1 0x3F800000, 0, 0, 0, 0x40000000, 0x40400000),
    (.fmulL al 1 0x40000000, 0, 0, 0, 0x40400000, 0x40C00000),
    (.addL al 1 0xFFFFFFFF, 0, 0, 0, 1, 0),
    (.andL al 1 0x0000FFFF, 0, 0, 0, 0x12345678, 0x5678),
    (.orL al 1 0x80000000, 0, 0, 0, 1, 0x80000001),
    (.xorL al 1 0xFFFFFFFF, 0, 0, 0, 0x0F0F0F0F, 0xF0F0F0F0),
    (.movi al 1 0xDEADBEEF, 0, 0, 0, 0, 0xDEADBEEF)].all
    (fun (i, a, b, c, d, out) => gives i a b c d out) = true := by decide +kernel

/-- R155, R161, R162: the words whose result comes later form it at issue. -/
theorem test_windowed : [
    (Instr.div al .i32 1 2 3, (0xFFFFFFF9 : Word), (2 : Word), (0xFFFFFFFD : Word)),
    (.divImm al .n32 1 2 0, 7, 0, 0xFFFFFFFF),
    (.rem al .i32 1 2 3, 0xFFFFFFF9, 2, 0xFFFFFFFF),
    (.remImm al .i8 1 2 0x3FFFF, 0xFFFFFF80, 0, 0),
    (.frcp al .f32 .rne .inf 1 2, 0x40000000, 0, 0x3F000000),
    (.frsq al .f32 .rne 1 2, 0x40800000, 0, 0x3F000000),
    (.fsqrt al .f32 .rne 1 2, 0x40000000, 0, 0x3FB504F3),
    (.fex2 al .f32 .rne .inf 1 2, 0x40400000, 0, 0x41000000),
    (.flg2 al .f32 .rne 1 2, 0x41000000, 0, 0x40400000),
    (.fdiv al .f32 .rne .inf 1 2 3, 0x3F800000, 0x40400000, 0x3EAAAAAB)].all
    (fun (i, a, b, out) => forms i a b out) = true := by decide +kernel

/-- Predicate `n` of gang 0. -/
def pAt (s : State) (n : Nat) : Mask := vget (gang0 s).p (n % 32) (Nat.mod_lt _ (by decide))

/-- A word executed with v2 the lane number, s1 = 3, p2 = 0x0F and p3 = 0x33. -/
def lanes (i : Instr) : State :=
  next (exec i (onGang (fun g => { g with
    v := [(2, Vector.ofFn fun l => BitVec.ofNat 32 l.val), (4, uniform 0x80000000), (5, uniform 1)]
    p := (g.p.set 2 0x0F).set 3 0x33 }) (scalars [(1, 3)] (bench i))))

/-- R153, R156, R164, R170, R171: predicates. -/
theorem test_predicates : [
    (Instr.cmp al .lt .i32 1 4 5, (0xFF : Mask)), (.cmp al .lt .n32 1 4 5, 0),
    (.cmpImm al .ge .n32 1 2 5, 0xE0), (.fcmp al .ge .f32 1 4 0xF0, 0xFF),
    (.pand al true false 1 2 3, 0x30), (.por al false true 1 2 3, 0xCF), (.pxor al false false 1 2 3, 0x3C),
    (.pnot al 1 2, 0xF0), (.pmov al 1 2, 0x0F), (.pmovNz al 1 2, 0xFE), (.pmovAll al 2, 0xCC),
    (.voteOr ⟨.on 2 false, 0⟩ false 1 3, 0x0F), (.voteAnd al false 1 3, 0), (.voteSame ⟨.on 2 false, 0⟩ false 1 2, 0x0F)].all
    (fun x => pAt (lanes x.1) 1 == x.2) = true := by decide +kernel

/-- R171 to R175, R42, R158, R167, R170: values that move between lanes and registers, by register and lane. -/
theorem test_moves : [
    (Instr.mov al .b32 1 2, 1, 6, (6 : Word)), (.bcst al .b32 1 2 0xC1, 1, 6, 3),
    (.shfl al .mirror 0 .b32 1 2 5, 1, 6, 7), (.shfl al .lag 0 .b32 1 2 5, 1, 0, 0), (.rdsr al 1 0x0B, 1, 0, 0),
    (.pget al 1, 1, 4, 0x8), (.voteMask al true 6 3, 6, 0, 0xCC), (.lea al .i32 2 6 4 2, 6, 7, 0x8000001C),
    (.leaImm al .i64 3 6 4 0x3FFFF, 7, 0, 1), (.moviS64 al 6 0x80000000, 7, 0, 0xFFFFFFFF),
    (.moviZ64 al 6 0x80000000, 7, 0, 0), (.movh al 4 9, 5, 0, 9),
    (.pairedWord (.reg .sub 2 5) (.imm .shl 6 2 4), 2, 0, 0xFFFFFFFF),
    (.pairedWord (.reg .sub 2 5) (.imm .shl 6 2 4), 6, 7, 0x70)].all
    (fun (i, r, l, out) => vAt (lanes i) r l == out) = true := by decide +kernel

/-- R180, R182 to R184, R202, R306: where the unit stands and its masks. -/
theorem test_control :
    (unit0 (lanes (.bra al 0x3FFFFFE))).ipc = 0xFFF0 ∧
    ((unit0 (lanes (.bra ⟨.on 2 false, 0⟩ 4))).am, (unit0 (lanes (.bra ⟨.on 2 false, 0⟩ 4))).km) = (0, 0xFF) ∧
    (unit0 (lanes (.bra ⟨.on 2 false, 0⟩ 4))).due = some (.br, 0x10000) ∧
    vAt (lanes (.call al 7 2)) 7 0 = 0x10008 ∧ (unit0 (lanes (.call al 7 2))).ipc = 0x10010 ∧
    (unit0 (lanes (.brx al 5))).ipc = 0x10000 ∧
    (unit0 (lanes (.ret al 4))).ipc = 0x80000000 ∧ (unit0 (lanes (.callx al 7 4))).ipc = 0x80000000 ∧
    ((unit0 (lanes (.exit ⟨.on 2 false, 0⟩))).xm, (unit0 (lanes (.exit ⟨.on 2 false, 0⟩))).am) = (0x0F, 0xF0) ∧
    (unit0 (lanes (.nop al))).ipc = 0x10008 ∧ (unit0 (lanes (.join al))).ipc = 0x10008 ∧
    (unit0 (lanes (.park ⟨.on 2 false, 0⟩ 4))).km = 0x0F ∧ (unit0 (lanes (.wpark al))).ipc = 0x10008 ∧
    (gang0 (lanes (.eqp al 5))).eqid = 5 := by decide +kernel

/-- R128, R325: a misaligned target traps the lanes of the guard. -/
theorem test_misaligned_target : (unit0 (lanes (.ret al 5))).tm = 0xFF ∧ (gang0 (lanes (.ret al 5))).info.cause = 0x12 := by
  decide +kernel

/-- A word whose lane l names the scratchpad of its own team at 4·l, with v4 = 0x2_0000 and v6 = 0x1122_3344. -/
def scratch (i : Instr) : State :=
  let s := onGang (fun g => { g with
    v := [(2, Vector.ofFn fun l => BitVec.ofNat 32 (4 * l.val)), (4, uniform 0x20000), (5, uniform 7), (6, uniform 0x11223344)] })
    (scalars [(1, 0x00FF0000), (2, 0), (3, 0x00FF0000)] (bench i))
  onTeam (fun t => { t with mem := Memory.writeN [] 4 [0xFE, 0xFF, 0xFF, 0xFF] }) s

/-- An address in the scratchpad window at v2. -/
abbrev sp : Addr := ⟨18, 2, 0, ⟨1, 0, .core⟩⟩

/-- R107, R108, R115, R121: what one word makes of the scratchpad, by lane 1's bytes 4..7 and lane 0's bytes 0..3. -/
theorem test_scratchpad : [
    (Instr.st8 al 6 sp, (0xFFFFFF44 : Word), (0x44 : Word)), (.st16 al 6 sp, 0xFFFF3344, 0x3344),
    (.st32 al 6 sp, 0x11223344, 0x11223344), (.st32 al 6 ⟨18, 2, 1, sp.ord⟩, 0x11223344, 0),
    (.atmAdd32 al 5 sp, 5, 7), (.atmSub32 al 5 sp, 0xFFFFFFF7, 0xFFFFFFF9), (.atmMin32 al 5 sp, 0xFFFFFFFE, 0),
    (.atmMax32 al 5 sp, 7, 7), (.atmMinu32 al 5 sp, 7, 0), (.atmMaxu32 al 5 sp, 0xFFFFFFFE, 7),
    (.atmAnd32 al 5 sp, 6, 0), (.atmOr32 al 5 sp, 0xFFFFFFFF, 7), (.atmXor32 al 5 sp, 0xFFFFFFF9, 7),
    (.atmXchg32 al 5 sp, 7, 7), (.atmCas32 al 4 sp, 0xFFFFFFFE, 0), (.ld32 al 5 sp false, 0xFFFFFFFE, 0)].all
    (fun (i, one, zero) => let t := scratch i
      let w (s : State) (k : Nat) : Word := BitVec.ofNat 32 (leNat ((List.range 4).map fun j => s.scratchByte 0 (k + j)))
      w (next (exec i t)) 4 == one && w (next (exec i t)) 0 == zero) = true := by decide +kernel

/-- R107, R111, R115: the bytes a load binds, and what an atomic found, at lane 1. -/
theorem test_bound : [Instr.ld32 al 5 sp false, .ldN8 al 5 sp true, .ldI16 al 5 sp false, .atmAdd32 al 5 sp].all
    (fun i => ((next (exec i (scratch i))).ops.map fun o => (o.2.accs.drop 1).head?.map fun a => a.data.head?) ==
      [some (some (some 0xFE))]) = true := by decide +kernel

/-- R121: `fes` fills its lines, `fec` leaves them empty, and the completed operation is gone. -/
theorem test_lines : ((next (exec (.fes al sp) (scratch (.fes al sp)))).lineOf 0 0).full = true ∧
    ((next (exec (.fec al sp) (scratch (.fec al sp)))).lineOf 0 0).full = false ∧
    (next (exec (.fes al sp) (scratch (.fes al sp)))).ops = [] := by decide +kernel

/-- R105: an address past the kernel's `.scratch`, and one that is not a multiple of the access size. -/
theorem test_window_faults :
    (gang0 (next (exec (.ld32 al 5 ⟨18, 4, 0, sp.ord⟩ false) (scratch (.ld32 al 5 ⟨18, 4, 0, sp.ord⟩ false))))).info.cause = 0x04 ∧
    (gang0 (next (exec (.ld32 al 5 ⟨18, 5, 0, sp.ord⟩ false) (scratch (.ld32 al 5 ⟨18, 5, 0, sp.ord⟩ false))))).info.cause = 0x12 := by
  decide +kernel

/-- R123, R124: four lanes arrive at a barrier of expected count 8 in phase 3: `bar.arv` counts them and its token is 3;
`bar.ini` sets base and expected count. -/
theorem test_barriers :
    let c : BarCounts := { base := 8, exp := 8, ph := 3 }
    let b : Barrier := { now := c, start := c }
    let s (i : Instr) : State := next (exec i (onGang (fun g => { g with p := g.p.set 2 0x0F })
      (onTeam (fun t => { t with bars := [(1, b)] }) (scalars [(1, 5)] (bench i)))))
    let arv : Instr := .barArv ⟨.on 2 false, 0⟩ 0xC2 1 0xF0 ⟨0, 0, .core⟩
    (FMap.get? (s arv).teams 0).map (fun t => (FMap.getD t.bars 1 {}).now) = some { base := 8, exp := 8, arr := 4, ph := 3 } ∧
    (gang0 (s arv)).s[2] = 3 ∧
    (FMap.get? (s (.barIni al 1 0xC1 ⟨0, 0, .core⟩)).teams 0).map (fun t => (FMap.getD t.bars 1 {}).now) =
      some { base := 5, exp := 5, ph := 3 } := by decide +kernel

/-- R123, R124, R127: `bar.exp` posts for the current phase, and `sqry` of an idle stream counts nothing. -/
theorem test_expect_query :
    let e : Instr := .barExp al 1 0xC1 false ⟨0, 0, .core⟩
    let q : Instr := .sqry al 6 4 ⟨0, 0, .core⟩
    (FMap.get? (next (exec e (scalars [(1, 5)] (bench e)))).teams 0).map (fun t => (FMap.getD t.bars 1 {}).now) =
      some { exp := 5 } ∧ vAt (next (exec q (bench q))) 6 0 = 0 := by decide +kernel

/-- R135, R196, R260, R335, R346: special registers, regions and `halt`. -/
theorem test_system :
    let run (i : Instr) : State := next (exec i (scalars [(1, 100), (2, 10)] (bench i)))
    (gang0 (run (.wrsr al 0x0E 0xC1))).aglNext = some (100, 4) ∧ (gang0 (run (.wrsr al 0x0E 0xC2))).aglNext = some (64, 4) ∧
    (gang0 (run (.copen al 0xC3 0xC1 4))).regions = [⟨0x10020, 100, 0xC3⟩] ∧
    (unit0 (run (.cclose al))).tm = 0xFF ∧
    ((run (.halt al 0xC1)).ctx 0).down.map (fun d => (d.cause, d.pc, d.value, d.lanes, d.reason, d.frame.length)) =
      some (0, 0x10000, 100, 0xFF, 1, 512) ∧
    (unit0 (run (.trap al 7 0xF0 0xF0))).tm = 0xFF ∧ ((run (.trap al 7 0xF0 0xF0)).ctx 0).syscall.waiting.length = 1 ∧
    (unit0 (run (.mma al .i8 .unit 0 .sat true 0 64 128 0))).tm = 0xFF ∧
    (gang0 (run (.mma al .i8 .unit 0 .sat true 0 64 128 0))).info.cause = 0x0E ∧
    (unit0 (run (.ctxrd al 8 0))).tm = 0xFF ∧ (unit0 (run (.migr al 1 .banner 0xC1))).tm = 0xFF ∧
    (unit0 (run (.brk al 5))).ipc = 0x10008 := by decide +kernel

/-- R50, R186, R189, R337, R344: steps that are no words. -/
theorem test_events :
    let s := bench (.nop al)
    let d := onGang (fun g => { g with lpc := uniform 0xFFF8 })
      (onUnit (fun u => { u with am := 0x0F, km := 0xF0, due := some (.br, 0x10000) }) s)
    (unit0 (next (exec (.illegalEncoding .reservedMajor) s))).tm = 0xFF ∧
    (gang0 (next (exec (.illegalEncoding .reservedMajor) s))).info.cause = 0x02 ∧
    ((unit0 (next (exec .handlerEntry d))).hm, (unit0 (next (exec .handlerEntry d))).km) = (true, 0xFF) ∧
    (unit0 (next (exec .handlerEntry d))).ev = 0x1000001 ∧
    ((unit0 (next (exec .defaultDecision d))).am, (unit0 (next (exec .defaultDecision d))).ipc) = (0xF0, 0xFFF8) ∧
    ((next (exec (.ctxCreate 1) { s with dev := { s.dev with stat := 1 } })).ctx 1).life = .running ∧
    (next (exec (.uncorrectableError (.sector 1 64)) s)).poison = [2 ^ 39 / 64 + 1] := by decide +kernel

/-! ### States that meet the hypotheses of the statements

Each theorem names a statement and gives a state and operands that meet the hypotheses of each of its clauses. -/

theorem test_met_RoundTrip : WellFormed (.add al .i32 3 4 5) ∧
    decodeWord (encode (.add al .i32 3 4 5)) = some (.add al .i32 3 4 5) := by decide +kernel

/-- The four causes and a word that fails no check, at the ends of their ranges. -/
theorem test_met_FirstFailingCheck :
    let c : DecodeCtx := { core := .pennant, image := .pennant, hm := false, regs := 8, scalars := 4 }
    let low : BitVec 64 := 0x6000000000000000
    let high : BitVec 64 := 0x7FFFFFFFFFFFFFFF
    let mat : BitVec 64 := encode (.trp al 0xC0)
    let odd : BitVec 64 := 0x0000000C10180004
    let minor : BitVec 64 := 0x07E0000000000000
    (low.getLsbD 63 = false ∧ 12 ≤ (low.extractLsb' 59 4).toNat ∧ (low.extractLsb' 59 4).toNat ≤ 12) ∧
    (high.getLsbD 63 = false ∧ 12 ≤ (high.extractLsb' 59 4).toNat) ∧
    (mat.getLsbD 63 = false ∧ mat.extractLsb' 59 4 = 8 ∧ c.core = .pennant) ∧
    (decodeWord odd = none ∧ decodeWord minor = none ∧ decodeWord 0x8000000000000001 = none ∧
      [odd, minor].all (fun w => !w.getLsbD 63 && decide ((w.extractLsb' 59 4).toNat < 12) && w.extractLsb' 59 4 != 8) = true) ∧
    (WellFormed (.mov al .b32 7 7) ∧ (info (.mov al .b32 7 7)).matrix = false ∧ ctxLegal c (.mov al .b32 7 7) = true ∧
      inWindow c (.mov al .b32 7 7) = true) ∧
    (WellFormed (.mov al .b32 8 7) ∧ inWindow c (.mov al .b32 8 7) = false) ∧
    (WellFormed (.dret al 0xC0 0xC0) ∧ ctxLegal c (.dret al 0xC0 0xC0) = false) ∧
    (WellFormed (.trp al 0xC0) ∧ ({ c with core := .banner } : DecodeCtx).core = .banner) := by decide +kernel

/-- A machine whose quadrant 0 decides next. -/
theorem test_met_StepRunsDecoded :
    let i : Instr := .add al .i32 1 2 3
    let s := State.reset.withWord (encode i)
    let s0 : State := { s with agenda := [] }
    let cs := s0.candidates 0 0
    let q := FMap.getD (s0.core 0).quads 0 {}
    let f := (s0.pick 0 (s0.unitsIn 0 0).length q.last cs).getD default
    let s1 : State := { (s0.waitOn cs f).chosen 0 0 f with defer := false }
    let v := (s1.versionOf f.g).getD default
    let x := (v.imageAt f.u.ipc.toNat).getD default
    s.agenda = [.issue 0 0 false] ∧ q.busy ≤ s0.clock 0 ∧ q.redoDue (s0.clock 0) = none ∧ s0.pick 0 (s0.unitsIn 0 0).length q.last cs = some f ∧
    rotates f = false ∧ raises f = false ∧ invocationOver f.u = false ∧ s1.breakpoint f = none ∧
    s1.versionOf f.g = some v ∧ v.imageAt f.u.ipc.toNat = some x ∧ runsImage (coreKind (s1.coreOf f.g)) x.kind = true ∧
    v.codeVa = none ∧ decodeIn (s1.decodeCtx f x) (v.word f.u.ipc.toNat) = i ∧ collCaught f i = false ∧
    s1.asks f i = false ∧ s1.poisonHits f i = 0 ∧ f.g.red = false := by decide +kernel

theorem test_met_StepKeepsForm :
    let s := State.reset.withWord (encode (.nop al))
    (match step s with
      | .next t => t.now == 0
      | _ => false) = true ∧ Memory.wf s.mem = true ∧ Memory.wf s.dev.hostMem = true ∧
    (∀ x ∈ s.teams, Memory.wf x.2.mem = true) ∧ FMap.sorted s.ops = true := by decide +kernel

/-- Two gangs of 8 lanes in quadrant 0 of core 0, in slots 0 and 8, that have waited for some decisions, of some classes. -/
def rivals (w0 w1 : Nat) (c0 c1 : BitVec 2) : State :=
  let s := bench (.nop al)
  let k (w : Nat) (c : BitVec 2) (n : Nat) : Gang := let g := gang0 s
    { g with cls := c, slot := n, grpn := n / 8, units := g.units.map fun u => { u with wait := w } }
  { s with gangs := [(0, k w0 c0 0), (1, k w1 c1 8)] }

/-- Decisions with an overdue candidate, with a higher class, and with equals, the last chosen being slot 0's. -/
theorem test_met_IssueChoice :
    let who (s : State) : Option Nat := (s.pick 0 (s.unitsIn 0 0).length (some 0) (s.candidates 0 0)).map (·.gid)
    let s := rivals 31 64 3 0
    (s.unitsIn 0 0).length = 2 ∧ who s = some 1 ∧ who (rivals 63 0 1 3) = some 1 ∧ who (rivals 5 5 1 1) = some 1 ∧
    who (rivals 6 5 1 1) = some 0 ∧ s.candidates 0 0 ≠ [] ∧ ((s.candidates 0 0).map fun c => (c.gid, c.ui)) = [(0, 0), (1, 0)] ∧
    (s.frameOf 0 0).isSome = true ∧ s.frameOf 0 1 = none := by decide +kernel

theorem test_met_OnlyRunningContextsIssue :
    ((State.reset.withWord (encode (.nop al))).decision 0 0 false).isSome = true ∧
    ((State.reset.withWord (encode (.dret al 0xC0 0xC0))).decision 0 0 false).isSome = true := by decide +kernel

/-- The hypotheses of `LaneWords` and `TrapWords` on a bench state. -/
def meets (table : Instr → State → Frame → Option Effect) (i : Instr) (s : State) (trap : Bool) : Bool :=
  (s.frame == some (fr s)) && Legal i (fr s) && (table i s (fr s)).any fun e => (e.faults != 0) == trap

/-- A vector, a scalar and a discarded destination, a guard that takes some lanes, and the handler registers. -/
theorem test_met_IntegerWords : [Instr.add al .i32 1 2 3, .add al .i32 0xC1 0xC2 0xC3, .add al .i32 0xF0 2 3,
    .subc ⟨.on 2 true, 0⟩ .n64 3 4 6 8, .cmp al .eq .b32 31 2 3, .acsImm al 15 1 2 5].all
    (fun i => meets intEffect i (bench i) false) = true ∧
    meets intEffect (.add al .i32 0xBC 0xEC 0xBF) (benchHm (.add al .i32 0xBC 0xEC 0xBF)) false = true := by decide +kernel

theorem test_met_FloatAndConvertWords : [Instr.fadd al .f32 .rne .trap 1 2 3, .fcmp al .un .bf16 1 2 3].all
    (fun i => meets floatEffect i (bench i) false) = true ∧
    [Instr.cvt al .i8 .f32 .rne .trap 1 2 0, .movi al 0xC1 7, .movh al 190 7, .fmulL al 1 7].all
    (fun i => meets longEffect i (bench i) false) = true := by decide +kernel

theorem test_met_MoveAndPredicateWords : [Instr.bcst al .b32 1 2 0xC1, .shfl al .lead 3 .b32 1 2 3, .rdsr al 2 0x11, .clk al 0xC2].all
    (fun i => meets moveEffect i (bench i) false) = true ∧
    [Instr.pmovAll al 2, .pget al 1, .voteMask al true 2 3].all (fun i => meets predEffect i (bench i) false) = true ∧
    [Instr.pairedWord (.reg .add 8 5) .empty, .dmin al 0xC0 0xC2, .dmaj al 0xC0 0xC2, .dsel al 0xC4 0xC2 0xC0].all
    (fun i => meets otherEffect i (bench i) false) = true ∧
    meets otherEffect (.dmaj al 0xEC 0xC2) (benchHm (.dmaj al 0xEC 0xC2)) false = true := by decide +kernel

theorem test_met_BlockWords : [Instr.cvtn al .e4m3 .trap 1 4, .cvtw al .ln6 4 1, .flg al 16 2, .chk al 1 16].all
    (fun i => meets blockEffect i (regs [(2, 0x11)] (bench i)) false) = true := by decide +kernel

/-- Sums, conversions and blocks that overflow, a flag byte no format has, and a scalar destination. -/
theorem test_met_TrappingWords :
    let big := regs [(2, 0x7F7FFFFF), (4, 0x7F7FFFFF), (5, 0x7F7FFFFF), (6, 0x7F7FFFFF), (7, 0x7F7FFFFF)]
    [Instr.fadd al .f32 .rne .trap 1 2 2].all (fun i => meets floatEffect i (big (bench i)) true) = true ∧
    meets floatEffect (.fadd al .f32 .rne .trap 0xC1 0xC2 0xC2)
      (scalars [(2, 0x7F7FFFFF)] (bench (.fadd al .f32 .rne .trap 0xC1 0xC2 0xC2))) true = true ∧
    meets longEffect (.cvt al .i32 .f32 .rne .trap 1 2 0) (big (bench (.cvt al .i32 .f32 .rne .trap 1 2 0))) true = true ∧
    meets blockEffect (.cvtn al .e4m3 .trap 1 4) (big (bench (.cvtn al .e4m3 .trap 1 4))) true = true ∧
    meets blockEffect (.flg al 16 2) (big (bench (.flg al 16 2))) true = true := by decide +kernel

/-- Windowed words of each table entry, and a result that is due with and without lanes that trapped. -/
theorem test_met_WindowedWords :
    [Instr.div ⟨.always, 15⟩ .i32 1 2 3, .remImm al .n64 2 4 0, .frcp al .f32 .rne .trap 1 2, .qnt al .i8 .sat 0 16].all
    (fun i => (bench i).frame == some (fr (bench i)) && Legal i (fr (bench i)) &&
      (lateEffect i (bench i) (fr (bench i))).isSome) = true ∧
    let r : Result := { pc := 0x10000, unit := 0, due := some 3, writes := [⟨.v 1, 0xFF, uniform 7⟩], faults := 0, cause := .overflow }
    let t (m : Mask) : State := onGang (fun g => { g with results := [(9, { r with faults := m })] })
      ({ bench (.nop al) with now := 225 })
    [(0 : Mask), 1].all (fun m => FMap.get? (t m).gangs 0 == some (gang0 (t m)) &&
      FMap.get? (gang0 (t m)).results 9 == some { r with faults := m } &&
      decide (3 ≤ (t m).clock ((t m).coreOf (gang0 (t m)))) && !(gang0 (t m)).ended) = true ∧ r.ask = none ∧ r.hm = false := by decide +kernel

/-- IntegerArithmetic, ShiftCounts, DivisionCases, ComparisonsFieldsAndSelect: a signed and an unsigned type, the signed minimum by −1, by 0, and counts at the width. -/
theorem test_met_Arithmetic : Ty.isInt .i8 = true ∧ Ty.isSigned .i8 = true ∧ Ty.isInt .n64 = true ∧ Ty.isSigned .n64 = false ∧
    (0x80 : DWord).setWidth (Ty.width .i8) = BitVec.intMin (Ty.width .i8) ∧
    (0xFF : DWord).setWidth (Ty.width .i8) = BitVec.allOnes (Ty.width .i8) ∧
    (lateEffect (.divImm al .i32 1 2 0) (bench (.nop al)) (fr (bench (.nop al)))).isSome = true ∧
    (0 : DWord).setWidth (Ty.width .i8) = 0 ∧ (1 : DWord).setWidth (Ty.width .n64) ≠ 0 ∧
    (Ty.width .b32 ≤ ((32 : DWord).setWidth 32).toNat ∧ ((31 : DWord).setWidth 32).toNat < Ty.width .b32) ∧
    (16 ≤ ((16 : DWord).setWidth 32 |>.extractLsb' 0 16).toNat ∧ ((15 : DWord).setWidth 32 |>.extractLsb' 0 16).toNat < 16) := by
  decide +kernel

/-- RoundedOnce, OverflowAndSpecialCases: in binary32 the largest finite number, a magnitude just above it that rounds
down to it, one that overflows to nearest and toward the infinity of its sign only, and the next power of two. -/
theorem test_met_Rounding :
    (∀ rm, ¬fmt32.overflows rm false (2 ^ 24 - 1) 104) ∧ ¬fmt32.overflows .rne false (2 ^ 26 - 3) 102 ∧
    ¬fmt32.overflows .rz false (2 ^ 25 - 1) 103 ∧ fmt32.overflows .rne false (2 ^ 25 - 1) 103 ∧
    fmt32.overflows .rup false (2 ^ 26 - 3) 102 ∧ ¬fmt32.overflows .rup true (2 ^ 26 - 3) 102 ∧
    (∀ rm, fmt32.overflows rm true 1 128) := by
  refine ⟨fun rm => ?_, ?_, ?_, ?_, ?_, ?_, fun rm => ?_⟩ <;> (try cases rm) <;> norm_num [Fmt.overflows, fmt32]

/-- OverflowAndSpecialCases: an integer just beyond each end of `.i8`, and just inside. -/
theorem test_met_IntegerFit : Ty.maxInt .i8 < 128 ∧ (-129 : Int) < Ty.minInt .i8 ∧ ¬Ty.maxInt .i8 < 127 := by decide +kernel

/-- A NaN, a signalling one, and finite values in order. -/
theorem test_met_MinMaxCompareClassify : 0x7FC00000 < 2 ^ fmt32.width ∧ (fmt32.read 0x7FC00000).isNan = true ∧
    fmt32.read 0x7F800001 = .nan true ∧ (fmt32.read 0x3F800000).isNan = false ∧
    fmt32.holds 0 0 ∧ fmt32.holds 0x3F800000 1 ∧ (0 : ℚ) < 1 := by
  refine ⟨by decide, by decide, by decide, by decide, ⟨by decide, false, 0, -149, by decide, by norm_num⟩,
    ⟨by decide, false, 2 ^ 23, -23, by decide, by norm_num⟩, by norm_num⟩

/-- No lane of a transfer faults, by evaluation. -/
def fineB (x : Transferring) (f : Frame) : Bool :=
  (List.range 64).all fun l => !(Frame.part f x.hdr).getLsbD l || (match x.target l with
    | .ok _ => true
    | .error _ => false)

/-- What `fineB` finds is what the statements ask. -/
theorem fine_of_fineB (x : Transferring) (f : Frame) (h : fineB x f = true) : x.fine f := by
  intro l hl
  have hlt : l < 64 := by
    by_contra hc
    simp [BitVec.getLsbD_of_ge _ l (Nat.le_of_not_lt hc)] at hl
  have := List.all_eq_true.mp h l (List.mem_range.mpr hlt)
  rw [hl] at this
  cases hx : x.target l with
  | ok p => exact ⟨p, rfl⟩
  | error c => rw [hx] at this; simp at this

/-- A transfer whose lanes all go to one PC. -/
def together (i : Instr) (s : State) (p : Word) : Bool :=
  let f := fr s
  s.frame == some f && Legal i f && Frame.base f != 0 && (transferring i s f).any fun x =>
    fineB x f && (List.range 64).all (fun l => !(Frame.base f).getLsbD l || x.next f l == p) &&
    (!f.u.hm || x.event != .br || Frame.part f x.hdr == 0 || Frame.part f x.hdr == Frame.base f)

/-- A transfer two of whose lanes go different ways. -/
def apart (i : Instr) (s : State) : Bool :=
  let f := fr s
  s.frame == some f && Legal i f && !f.u.hm && (transferring i s f).any fun x =>
    fineB x f && (List.range 64).any fun l => (List.range 64).any fun k =>
      f.u.am.getLsbD l && f.u.am.getLsbD k && x.next f l != x.next f k

/-- Gang 0 with v2 the lane number times 8 and p2 = 0x0F. -/
def byLane (s : State) : State :=
  onGang (fun g => { g with
    v := [(2, Vector.ofFn fun l => BitVec.ofNat 32 (8 * l.val)), (3, uniform 1)], p := g.p.set 2 0x0F }) s

/-- The bench with a dispatch table of one entry behind the word. -/
def withTable (i : Instr) : State := onGang (fun g => { g with dtb := 0x10008, dtl := 1 }) (bench i)

theorem test_met_Transfers :
    together (.bra al 1) (bench (.bra al 1)) 0x10008 = true ∧ together (.bra al 0) (bench (.bra al 0)) 0x10000 = true ∧
    together (.call al 7 0x2000000) (bench (.call al 7 0x2000000)) 0xF0010000 = true ∧
    together (.ret al 0xC1) (bench (.ret al 0xC1)) 0 = true ∧ together (.callx al 0xEC 0xC1) (benchHm (.callx al 0xEC 0xC1)) 0 = true ∧
    together (.brx al 0xC1) (withTable (.brx al 0xC1)) 0 = true ∧
    together (.bra ⟨.on 2 true, 0⟩ 9) (benchHm (.bra ⟨.on 2 true, 0⟩ 9)) 0x10048 = true ∧
    apart (.bra ⟨.on 2 false, 0⟩ 9) (byLane (bench (.bra ⟨.on 2 false, 0⟩ 9))) = true ∧
    apart (.ret al 2) (byLane (bench (.ret al 2))) = true := by decide +kernel

/-- Every active lane without a target, for the three causes; a handler's lanes that differ. -/
theorem test_met_TransfersThatFault :
    (let i : Instr := .ret al 3
     let s := byLane (bench i)
     s.frame = some (fr s) ∧ Legal i (fr s) = true ∧ (fr s).u.hm = false ∧ Frame.part (fr s) al = (fr s).u.am ∧
     (transferring i s (fr s)).all (fun x => (List.range 8).all fun l => match x.target l with
       | .ok _ => false
       | .error c => c == .misaligned) = true) ∧
    (let i : Instr := .brx al 0xC1
     let s := bench i
     (transferring i s (fr s)).all (fun x => (List.range 8).all fun l => match x.target l with
       | .ok _ => false
       | .error c => c == .dispatch) = true) ∧
    (let i : Instr := .brx al 0xC1
     let s := onGang (fun g => { g with dtl := 1 }) (bench i)
     (transferring i s (fr s)).all (fun x => (List.range 8).all fun l => match x.target l with
       | .ok _ => false
       | .error c => c == .protection) = true) ∧
    (let i : Instr := .ret al 2
     let s := byLane (benchHm i)
     s.frame = some (fr s) ∧ Legal i (fr s) = true ∧ (fr s).u.hm = true ∧ (transferring i s (fr s)).all (fun x =>
       fineB x (fr s) && (Frame.base (fr s)).getLsbD 0 && (Frame.base (fr s)).getLsbD 7 && x.next (fr s) 0 != x.next (fr s) 7) = true) ∧
    (let i : Instr := .bra ⟨.on 2 false, 0⟩ 1
     let s := byLane (benchHm i)
     (transferring i s (fr s)).all (fun x => fineB x (fr s) && x.event == .br && Frame.part (fr s) x.hdr != 0 &&
       Frame.part (fr s) x.hdr != Frame.base (fr s)) = true) := by decide +kernel

theorem test_met_ControlWords :
    let s := byLane (bench (.exit ⟨.on 2 false, 0⟩))
    let p := onUnit (fun u => { u with am := 0x0F, km := 0x10, fm := 0x20, tm := 0x40, xm := 0x80 }) s
    s.frame = some (fr s) ∧ (fr s).u.km = 0 ∧ (fr s).u.fm = 0 ∧
    ((fr s).g.setUnit 0 { (fr s).u with am := 0xF0, xm := 0x0F }).ended = false ∧
    p.frame = some (fr p) ∧ (fr p).u.km ≠ 0 ∧ (fr p).u.fm ≠ 0 := by decide +kernel

/-- Each kind of event is due somewhere: a branch, `brx`, `join` and COLL as noted, EMPTY, AGE and FREADY. -/
theorem test_met_HandlerEntry :
    let s := bench (.nop al)
    let at' (k : UnitState → UnitState) : State := onGang (fun g => { g with frd := true }) (onUnit k s)
    [EvCode.br, .brx, .join, .coll].all (fun e => dueEvent (fr (at' fun u => { u with due := some (e, 8) })) == some (e, 8)) = true ∧
    dueEvent (fr (at' fun u => { u with am := 0, km := 0xFF, emptyPc := some 0x10000 })) = some (.empty, 0x10000) ∧
    dueEvent (fr (at' fun u => { u with ageFlag := true })) = some (.age, 0x10000) ∧
    dueEvent (fr (at' fun u => { u with fready := true, ageFlag := true })) = some (.fready, 0x10000) ∧
    (at' id).frame = some (fr (at' id)) ∧ (fr (at' id)).u.am ||| (fr (at' id)).u.km ≠ 0 := by decide +kernel

/-- A rotation in handler mode and out of it. -/
theorem test_met_DefaultDecisionAndRotation :
    let s := benchHm (.nop al)
    let t := onUnit (fun u => { u with am := 0x0F, km := 0x30, due := some (.coll, 0x10000) }) (bench (.nop al))
    (s.frame = some (fr s) ∧ (fr s).u.am ||| (fr s).u.km ≠ 0 ∧ (fr s).u.hm = true ∧ (fr s).u.am = 0) ∧
    (t.frame = some (fr t) ∧ dueEvent (fr t) = some (.coll, 0x10000) ∧ (fr t).u.am ||| (fr t).u.km ≠ 0 ∧ (fr t).u.hm = false) := by
  decide +kernel

/-- A handler that chooses lanes 0 to 3 at their PC, and one with no lane left to choose. -/
theorem test_met_HandlerReturn :
    let i : Instr := .dret al 0xC1 0xC2
    let s := scalars [(1, 0x10000), (2, 0x0F)] (benchHm i)
    let e := onUnit (fun u => { u with km := 0, fm := 0xFF }) (scalars [] (benchHm i))
    s.frame = some (fr s) ∧ Legal i (fr s) = true ∧ (s.rdReg (fr s) 0xC1 0).toNat % 8 = 0 ∧
    (s.rd (fr s) 0xC2 2 0 &&& Frame.lanes (fr s)) &&& ~~~(fr s).u.km = 0 ∧
    (List.range 4).all (fun l => LaneVec.at' (fr s).g.lpc l == s.rdReg (fr s) 0xC1 0) = true ∧
    s.rd (fr s) 0xC2 2 0 &&& Frame.lanes (fr s) ≠ 0 ∧
    e.frame = some (fr e) ∧ (fr e).u.km = 0 ∧ e.rd (fr e) 0xC2 2 0 = 0 ∧ (e.rdReg (fr e) 0xC1 0).toNat % 8 = 0 := by decide +kernel

/-- Handler states strict and not, for each way a `dret` or a `split` is refused. -/
theorem test_met_PolicyFaults :
    let s := scalars [(1, 0x10000), (2, 0x1FF), (3, 0x10004), (5, 0x10008)] (benchHm (.nop al))
    let t := onGang (fun g => { g with str := true }) s
    s.frame = some (fr s) ∧ (fr s).u.hm = true ∧ (fr s).g.str = false ∧ t.frame = some (fr t) ∧ (fr t).g.str = true ∧
    (s.rdReg (fr s) 0xC3 0).toNat % 8 ≠ 0 ∧
    (s.rd (fr s) 0xC8 2 0 &&& Frame.lanes (fr s) = 0 ∧ (fr s).u.km ≠ 0 ∧ (s.rdReg (fr s) 0xC1 0).toNat % 8 = 0) ∧
    (LaneVec.at' (fr s).g.lpc 0 ≠ s.rdReg (fr s) 0xC5 0 ∧ (s.rd (fr s) 0xC2 2 0 &&& Frame.lanes (fr s)).getLsbD 0 = true) ∧
    (let u := onUnit (fun u => { u with km := 0x0F }) s
     (u.rd (fr u) 0xC2 2 0 &&& Frame.lanes (fr u)) &&& ~~~(fr u).u.km ≠ 0) ∧
    (∀ n : BitVec 8, n ≠ 0 → n &&& ~~~(fr s).u.groups = 0 → n ≠ (fr s).u.groups → s.rd (fr s) 0xC2 2 0 ≠ groupLanes n 64) := by
  decide +kernel

/-- A 16-lane gang. -/
def pair (i : Instr) : State := onGang (fun g => { g with
  width := 16, units := [{ UnitState.start 16 0xFFFF 0x10000 with hm := (info i).hm == .only, km := 0 }] }) (bench i)

/-- A split of group 1 from a gang of two groups, and its sub-gangs at `regang`, at one word and at two. -/
theorem test_met_SubGangs :
    let i : Instr := .split al 0xEC 0xC2
    let s := onUnit (fun u => { u with am := 0, km := 0xFFFF }) (scalars [(2, 0xFF00)] (pair i))
    let half (k : BitVec 8) (pc : Word) (st : Stop) : UnitState :=
      { UnitState.start 16 0xFFFF pc with groups := k, am := groupLanes k 16, stop := st }
    let two (pc : Word) : State := onGang (fun g => { g with
      width := 16, units := [half 1 0x10000 .run, half 2 pc .regang] }) (bench (.regang al))
    (s.frame = some (fr s) ∧ Legal i (fr s) = true ∧ (2 : BitVec 8) &&& ~~~(fr s).u.groups = 0 ∧ 2 ≠ (fr s).u.groups ∧
      s.rd (fr s) 0xC2 2 0 = groupLanes 2 64) ∧
    (let b := bench (.regang al)
     b.frame = some (fr b) ∧ Legal (.regang al) (fr b) = true ∧ (fr b).g.units = [(fr b).u]) ∧
    [0x10000, 0x10040].all (fun pc => (two pc).frame == some (fr (two pc)) && Legal (.regang al) (fr (two pc)) &&
      (fr (two pc)).ui == 0 && (fr (two pc)).g.units == [(fr (two pc)).u, half 2 pc .regang] &&
      (fr (two pc)).u.live 16 && (half 2 pc .regang).live 16 && decide (lowGroup (fr (two pc)).u < lowGroup (half 2 pc .regang))) = true ∧
    (let w := onGang (fun g => { g with units := g.units.map fun u => { u with stop := .run } }) (two 0x10000)
     (fr w).g.units[1]? = some (half 2 0x10000 .run) ∧ (half 2 0x10000 .run).live 16 = true) := by decide +kernel

theorem test_met_WriteSpecialRegister :
    [(0x0E : BitVec 8), 0x12, 0x14, 0x10, 0x11].all (fun sr =>
      let a : Reg := if sr == 0x12 then 0xC2 else if sr.toNat / 16 == 1 && sr != 0x14 then 2 else 0xC1
      let s := benchHm (.wrsr al sr a)
      let b := bench (.wrsr al sr a)
      s.frame == some (fr s) && Legal (.wrsr al sr a) (fr s) && Frame.part (fr s) al != 0 && (fr s).u.hm &&
      (List.range 8).all (fun l => (s.rdReg (fr s) 2 l).toNat % 8 == 0) &&
      b.frame == some (fr b) && Legal (.wrsr al sr a) (fr b) && !(fr b).u.hm && (fr b).u.am != 0) = true := by decide +kernel

/-- Two gangs of team 0: gang 0 executes, gang 1 (slot 8 on) has trap-parked its lanes at 0x1_0040 with their tags live. -/
def withOrigin (i : Instr) : State :=
  let s := bench i
  let g := gang0 s
  let o : Gang := { g with
    grpn := 1, slot := 1, origins := 0xFF, tagPc := uniform 0x10040, lpc := uniform 0x10040
    v := [(7, uniform 77)], units := [{ UnitState.start 8 0xFF 0x10048 with am := 0, tm := 0xFF }] }
  let tag : DWord := BitVec.ofNat 64 (0x10040 + 3 * 2 ^ 32 + 2 ^ 35)
  { s with gangs := [(0, { g with
      p := g.p.set 2 0x10
      v := [(4, uniform (tag.extractLsb' 0 32)), (5, uniform (tag.extractLsb' 32 32)), (9, uniform 0x20000)] }), (1, o)] }

/-- A tag's guard: lane 4 alone. -/
abbrev l4 : Hdr := ⟨.on 2 false, 0⟩

theorem test_met_IllegalWords :
    let s := bench (.nop al)
    let h := benchHm (.nop al)
    s.frame = some (fr s) ∧ (fr s).u.hm = false ∧ (fr s).u.am ≠ 0 ∧ h.frame = some (fr h) ∧ (fr h).u.hm = true := by decide +kernel

/-- Lane 7 faults: in a trap-handler gang, in a kernel without a trap entry, inside a region that catches the cause below one
that does not, and in a kernel with a trap entry whose core's bin is empty or holds threads of the team. -/
theorem test_met_FaultDelivery :
    let s := bench (.nop al)
    let outer : Region := ⟨0x10040, 0x80, 5⟩
    let r := onGang (fun g => { g with regions := [⟨0x10080, 1, 6⟩, outer, ⟨0x100C0, 0, 7⟩] }) s
    let t := onTeam (fun t => { t with header := { t.header with tentry := 0x10100 } }) s
    let h := ((t.headerOf (gang0 t)).getD benchHeader)
    let th : Thread := ⟨[], 0⟩
    (FMap.get? s.gangs 0 = some (gang0 s) ∧ (gang0 s).units = [unit0 s] ∧ (groupLanes (unit0 s).groups (gang0 s).width).getLsbD 7 = true ∧
      (unit0 s).xm.getLsbD 7 = false ∧ (s.ctx (s.ctxOf (gang0 s))).life = .running ∧ (s.ctx (s.ctxOf (gang0 s))).down = none) ∧
    (onGang (fun g => { g with trap := true }) s).gangs.all (fun g => g.2.trap) = true ∧
    ((gang0 s).trap = false ∧ (gang0 s).regions = [] ∧ s.headerOf (gang0 s) = some benchHeader ∧ benchHeader.tentry = 0) ∧
    ((gang0 r).regions = [⟨0x10080, 1, 6⟩] ++ outer :: [⟨0x100C0, 0, 7⟩] ∧ Region.catches ⟨0x10080, 1, 6⟩ .protection = false ∧
      outer.catches .protection = true ∧ FMap.get? r.teams (gang0 r).team = some (FMap.getD r.teams 0 default) ∧
      (FMap.getD r.teams 0 default).entries = []) ∧
    (t.headerOf (gang0 t) = some h ∧ h.tentry ≠ 0 ∧ (t.core (t.coreOf (gang0 t))).trapBin = none ∧ 0 + 1 < h.gang ∧
      (let b := t.setCore 0 { t.core 0 with trapBin := some ⟨(gang0 t).team, h.tentry, List.replicate 6 th⟩ }
       (b.core (b.coreOf (gang0 b))).trapBin = some ⟨(gang0 b).team, h.tentry, List.replicate 6 th⟩ ∧
         (List.replicate 6 th).length + 1 < h.gang)) := by decide +kernel

/-- Three regions open and four, none, and one to close; the entry of a region with one open inside it. -/
theorem test_met_Regions :
    let i : Instr := .copen al 0xC3 0xC1 0x1FFFFFF
    let r : Region := ⟨0x10040, 0x80, 0xC5⟩
    let s := onGang (fun g => { g with regions := [r, r, r] }) (bench i)
    let q := onGang (fun g => { g with regions := [r, r, r, r] }) (bench i)
    let e := onTeam (fun t => { t with entries := [(r.pc, 1, 7)] })
      (onUnit (fun u => { u with am := 0x0E, tm := 0x01 }) (onGang (fun g => { g with regions := [⟨0x10080, 1, 6⟩, r] }) (bench i)))
    let t := FMap.getD e.teams 0 default
    (s.frame = some (fr s) ∧ Legal i (fr s) = true ∧ Frame.part (fr s) al ≠ 0 ∧ (fr s).g.regions.length < 4 ∧
      ((fr s).u.ipc + 8 * (0x1FFFFFF : BitVec 26).signExtend 32).toNat % 8 = 0) ∧
    (q.frame = some (fr q) ∧ 4 ≤ (fr q).g.regions.length) ∧ (bench i).frame = some (fr (bench i)) ∧
    (fr (bench i)).g.regions = [] ∧ (fr s).g.regions = r :: [r, r] ∧ s.opsOf (fr s).gid = [] ∧
    (FMap.get? e.teams 0 = some t ∧ t.entries = (r.pc, 1, 7) :: [] ∧ (e.ctx t.ctx).life = .running ∧ t.mig = none ∧
      e.teamGangs 0 = [(0, gang0 e)] ∧ FMap.get? e.gangs 0 = some (gang0 e) ∧ (gang0 e).team = 0 ∧ (gang0 e).units = [unit0 e] ∧
      (gang0 e).regions = [⟨0x10080, 1, 6⟩] ++ r :: [] ∧ e.opsOf 0 = [] ∧ (unit0 e).stop = .run) := by decide +kernel

theorem test_met_SystemCall :
    let s := bench (.trap al 7 0xC0 0xC0)
    let g := onGang (fun g => { g with p := g.p.set 2 0 }) s
    s.frame = some (fr s) ∧ Frame.part (fr s) al ≠ 0 ∧ s.opsOf (fr s).gid = [] ∧ (s.core (s.coreOf (fr s).g)).gather = [] ∧
    g.frame = some (fr g) ∧ Frame.part (fr g) ⟨.on 2 false, 0⟩ = 0 := by decide +kernel

/-- A context with a system call of lanes 0 to 3 of gang 0 parked, its answer (of each action) noted or about to be, and
a record that waits for a ring of 4 places, not full and full. -/
def called (act : Nat) (noted : Bool) : State :=
  let call : SysCall := ⟨0, 0x0F, 0xC4, 0x10000⟩
  onCtx (fun x => { x with
      calls := [(1, call)], answers := if noted then [(1, (act, 99))] else [], result := 99 * 2 ^ 64 + act * 2 ^ 32 + 1
      syscall := { x.syscall with n := 2, waiting := [List.replicate 64 1] }
      faults := { x.faults with n := 2, head := 3, waiting := [List.replicate 64 2] } })
    (onUnit (fun u => { u with am := 0xF0, tm := 0x0F }) (bench (.nop al)))

theorem test_met_SyscallAnswersAndRings :
    [0, 1, 2].all (fun k =>
      let s := called k false
      let t := called k true
      let x := t.ctx 0
      ((s.ctx 0).calls.map (·.1)) == [1] && FMap.get? (s.ctx 0).calls 2 == none && (s.ctx 0).result == 99 * 2 ^ 64 + k * 2 ^ 32 + 1 &&
      FMap.get? x.answers 1 == some (k, 99) && FMap.get? x.calls 1 == some ⟨0, 0x0F, 0xC4, 0x10000⟩ &&
      FMap.get? t.gangs 0 == some (gang0 t) && (gang0 t).units == [unit0 t] &&
      (0x0F : Mask) &&& (unit0 t).tm == 0x0F && (0x0F : Mask) &&& ~~~groupLanes (unit0 t).groups (gang0 t).width == 0 &&
      !({ gang0 t with units := [(unit0 t).exited 0x0F 0x10000] } : Gang).ended) = true ∧
    (let x := (called 0 false).ctx 0
     x.syscall.waiting = List.replicate 64 1 :: [] ∧ (List.replicate 64 (1 : Byte)).length = 64 ∧
     1 ≤ (x.syscall.tail + 2 * 2 ^ x.syscall.n - x.syscall.head - 1) % 2 ^ x.syscall.n ∧
     x.faults.waiting = List.replicate 64 2 :: [] ∧
     (x.faults.tail + 2 * 2 ^ x.faults.n - x.faults.head - 1) % 2 ^ x.faults.n = 0) := by decide +kernel

theorem test_met_OriginWords :
    let i : Instr := .orr l4 .v 7 8 4
    let s := withOrigin i
    let f := fr s
    let o := FMap.getD s.gangs 1 default
    let u := o.units.headD default
    s.frame = some f ∧ f.u.hm = false ∧ s.laneOrigin f 4 4 = some (1, 0, 3) ∧ FMap.get? s.gangs 1 = some o ∧ o.units = [u] ∧
    Frame.part f l4 = lane 4 ∧ s.tagWaits f l4 = false ∧ (s.rdReg f 9 4).toNat % 8 = 0 ∧
    ({ o with units := [u.exited (lane 3) 0x10040] } : Gang).ended = false ∧
    Legal i f = true ∧ s.originBusy f l4 .v 7 4 = false ∧ s.outOfWindow f .v 7 = false ∧
    Legal (.orr l4 .p 0 8 4) f = true ∧ Legal (.orr l4 .sr 0x02 8 4) f = true ∧ Legal (.orr l4 .s 0xC5 8 4) f = true := by decide +kernel

theorem test_met_HaltAndFlagDown :
    let s := bench (.halt al 0xF0)
    let d (r : Nat) : State := onCtx (fun x => { x with down := some { cause := 7, gang := 0, reason := r } }) s
    let h := onCtx (fun x => { x with life := .halting }) s
    s.frame = some (fr s) ∧ Frame.part (fr s) al ≠ 0 ∧ (s.ctx (s.ctxOf (fr s).g)).life = .running ∧
    (s.ctx (s.ctxOf (fr s).g)).down = none ∧ ((d 0).ctx 0).down.isSome = true ∧ ((d 2).ctx 0).down.map (·.reason) = some 2 ∧
    (h.ctx 0).life = .halting ∧ h.ops = [] := by decide +kernel

theorem test_met_DebugAndCounterWords :
    let s (ctl : DWord) (i : Instr) : State := onCtx (fun x => { x with ctl := ctl, bp := x.bp.set 2 (2 ^ 63 + 2 ^ 32 + 0x10000) }) (bench i)
    let b := s 0x150 (.brk al 5)
    b.frame = some (fr b) ∧ Frame.part (fr b) al ≠ 0 ∧ (b.ctx (b.ctxOf (fr b).g)).ctl.getLsbD 4 = true ∧
    (b.ctx (b.ctxOf (fr b).g)).life = .running ∧ (b.ctx (b.ctxOf (fr b).g)).down = none ∧
    ((s 0 (.brk al 5)).ctx 0).ctl.getLsbD 4 = false ∧ ((s 0 (.brk al 5)).ctx 0).ctl.getLsbD 6 = false ∧
    b.breakpoint (fr b) = some 2 ∧
    (b.ctx 0).ctl.getLsbD 8 = true ∧ Legal (.pmk al true 0xC4 0xC1) (fr b) = true ∧ ((s 0 (.nop al)).ctx 0).ctl.getLsbD 8 = false ∧
    (fr b).u.am ≠ 0 ∧
    ((onCtx (fun x => { x with samples := [⟨{}, 8, 1, []⟩] }) b).ctx 0).samples = ⟨{}, 8, 1, []⟩ :: [] := by decide +kernel

/-- Context 0 may read and write state; context 1 is halted, its team 1 with one gang. Lane 4 names a piece of class `c`. -/
def system (i : Instr) (ctl : DWord) (c ofs : Nat) : State :=
  let s := onCtx (fun x => { x with ctl := ctl }) (bench i)
  let a : DWord := BitVec.ofNat 64 (2 ^ 58 + 2 ^ 42 + c * 2 ^ 31 + ofs)
  let g := gang0 s
  let t := FMap.getD s.teams 0 default
  { s with
    ctxs := s.ctxs ++ [(1, { life := .halted })]
    teams := s.teams ++ [(1, { t with ctx := 1, core := 1 })]
    gangs := [(0, { g with p := g.p.set 2 0x10, v := [(4, uniform (a.extractLsb' 0 32)), (5, uniform (a.extractLsb' 32 32)), (8, uniform 5)] }),
      (1, { g with team := 1, v := [(0, uniform 3)] })] }

theorem test_met_ContextStateWords :
    [(2, 0), (2, 6128), (3, 176), (4, 16), (6, 0)].all (fun x =>
      let s := system (.ctxrd l4 8 4) 1 x.1 x.2
      let f := fr s
      let p := Piece.of (s.rd f 4 2 4)
      s.frame == some f && !f.u.hm && Frame.part f l4 == lane 4 && (s.ctx (s.ctxOf f.g)).ctl.getLsbD 0 && (s.pieceBytes p).isSome &&
      Legal (.ctxrd l4 8 4) f && Legal (.ctxwr l4 4 8) f && (s.target p).any (fun y => y.gang.all (fun z => z.1 != f.gid) &&
        decide (y.t.header.scalars ≤ 48) && decide (y.base + 8 ≤ 64) &&
        (p.cls == 2 && decide (p.ofs + 16 ≤ 32 * y.t.header.regs) || p.cls == 3 && decide (p.ofs + 16 ≤ 4 * y.t.header.scalars) ||
          p.cls == 4 && decide (p.ofs + 16 ≤ 32) || p.cls == 6 && decide (p.ofs + 16 ≤ y.t.header.scratch)))) = true ∧
    (let s := system (.ctxrd l4 8 4) 0 2 0
     (s.ctx (s.ctxOf (fr s).g)).ctl.getLsbD 0 = false) := by decide +kernel

/-- The bench, its TLB mapping the writable page at 0x2_0000 to itself, the base pair s24 on it, its scratchpad 8 KiB. -/
def paged (i : Instr) : State :=
  let s := onTeam (fun t => { t with header := { t.header with scratch := 8192, barriers := 4 } }) (scalars [(24, 0x20000)] (bench i))
  s.setCore 0 { s.core 0 with tlb := [⟨0, 2, 16, 3 + 4 + 2 * 2 ^ 16⟩] }

/-- An address at the base pair. -/
def at24 : Addr := ⟨40, 4, 0, ⟨3, 0, .core⟩⟩

/-- One word of each kind that accesses memory; a tile record of 8-byte elements with an odd D. -/
theorem test_met_MemoryWords :
    [Instr.ldN8 al 8 at24 false, .ldI16 al 0xC4 at24 true, .ldc128 al 0xC4 at24, .st64 al 8 at24, .trec al 2 at24, .ldk al 8 at24,
      .stf al 8 at24, .fes al at24, .fec al at24, .fet al 3 at24, .ldr64 al 8 at24, .stc32 al 8 at24, .atmCas64 al 8 at24,
      .ldt al 8 { at24 with base := 2 }, .stt al 8 { at24 with base := 2 }].all (fun i =>
        let s := paged i
        s.frame == some (fr s) && (memWord i s (fr s)).isSome) = true ∧
    (let s := onGang (fun g => { g with tile := g.tile.set 2 (3 * 2 ^ 192) }) (paged (.nop al))
     s.frame = some (fr s) ∧ (fr s).u.hm = false ∧ (fr s).u.am ≠ 0 ∧ Reg.isZero 9 = false ∧ Reg.isEven 9 = false ∧
     8 ≤ recordSize ((fr s).g.record (2 : BitVec 6).toNat)) := by decide +kernel

/-- A table at 0x4_0000: a table entry, a leaf of 64 KiB, one out of range, one of software's, and none. -/
def tables (i : Instr) : State :=
  let put (s : State) (k e : Nat) : State :=
    let pa := 0x40000 + 8 * k
    s.writeMem (homeOf (s.plcOf pa) pa) pa (leBytes 8 e)
  [(1, 0x50000 + 1), (2, 3 + 4 + 2 * 2 ^ 16), (3, 2 ^ 63 + 1), (4, 2 ^ 63)].foldl (fun s x => put s x.1 x.2) (bench i)

theorem test_met_AddressChecks :
    (let s := paged (.nop al)
     let t := FMap.getD s.teams 0 default
     (FMap.get? s.grids t.grid).any (fun g => decide (g.lr.cw * g.lr.ch ≤ 1)) = true ∧ t.rank = 0 ∧ s.teamAt t 1 = none ∧
     (let two : State := { s with
        grids := s.grids.map fun (x : Nat × Grid) => (x.1, { x.2 with lr := { x.2.lr with cw := 4, ch := 3 } })
        teams := s.teams ++ [(1, { t with rank := 11, core := 1 })] }
      (FMap.get? two.grids t.grid).any (fun g => decide (11 < g.lr.cw * g.lr.ch)) = true ∧ two.teamAt t 11 = some 1) ∧
     s.translate t.core t.ctx 0x2FFFF = (.leaf (3 + 4 + 2 * 2 ^ 16) 16, s) ∧ (3 + 4 + 2 * 2 ^ 16) / 4 % 2 = 1 ∧
     (s.translate t.core t.ctx 0x30000).1 = .pageFault 0 ∧
     (∃ x ∈ (s.core 0).tlb, x.ctx = 0 ∧ 0x20000 / 2 ^ x.bits = x.page) ∧
     (∀ x ∈ (s.core 0).tlb, x.ctx = 0 → 0x30000 / 2 ^ x.bits ≠ x.page) ∧ (s.die (coreDie 0)).tcache = []) ∧
    (let s := tables (.nop al)
     let e (k : Nat) : Nat := s.pte (0x40000 + 8 * k)
     (e 0 % 2 = 0 ∧ e 0 / 2 ^ 63 % 2 = 0) ∧ (e 1 % 2 = 1 ∧ e 1 / 2 % 2 = 0 ∧ tableOk (e 1) = true) ∧
     (e 2 % 2 = 1 ∧ e 2 / 2 % 2 = 1 ∧ leafOk false (e 2) 16 = true) ∧ e 3 / 2 ^ 63 % 2 = 1 ∧ e 4 / 2 ^ 63 % 2 = 1) ∧
    (let s := paged (.nop al)
     let f := fr s
     let a (l : Nat) : DWord := BitVec.ofNat 64 (0x20000 + 2 * l)
     s.teamOf f.g = some (FMap.getD s.teams 0 default) ∧ (List.range 4).all (fun l =>
       decide ((s.resolve f.g.team (FMap.getD s.teams 0 default) (a l).toNat 4 4 true .any).2 = s)) = true) := by decide +kernel

/-- Lanes 0 and 1 meet a missing page; they then stand parked on it, beside lanes on another. -/
theorem test_met_PageFaults :
    let s := bench (.nop al)
    let p := onCtx (fun x => { x with parked := [⟨0x30000, 0, 3⟩, ⟨0x40000, 0, 4⟩] })
      (onUnit (fun u => { u with am := 0xF8, fm := 7 }) s)
    s.frameOf (fr s).gid (fr s).ui = some (fr s) ∧ (3 : Mask) ≠ 0 ∧
    (p.ctx 0).parked.filter (fun q => q.page == (0x30000 : DWord).toNat) = [⟨0x30000, 0, 3⟩] ∧
    FMap.get? p.gangs 0 = some (gang0 p) ∧ (gang0 p).units = [unit0 p] ∧ 3 &&& (unit0 p).fm ≠ 0 ∧ (unit0 p).stop = .run := by
  decide +kernel

/-- Registers for a copy whose lanes are 4 KiB apart, in a gang of 24 lanes, and in one of 8. -/
def copying (w : Nat) (leave : Bool) (i : Instr) : State :=
  onGang (fun g => { g with
    width := w, v := [(2, Vector.ofFn fun l => BitVec.ofNat 32 (0x20000 + 4096 * l.val)), (4, Vector.ofFn fun l => BitVec.ofNat 32 (0x900000 + 4096 * l.val)), (6, uniform 4)]
    units := [{ UnitState.start w (lowLanes w) 0x10000 with leave := leave }] }) (paged i)

theorem test_met_OtherOperations :
    (let s := paged (.nop al)
     s.frame = some (fr s) ∧ (s.headerOf (fr s).g).any (fun h => h.barriers == 4) = true ∧ Frame.part (fr s) al ≠ 0 ∧
     [Instr.barIni al 3 8 ⟨0, 0, .core⟩, .barArv al 8 4 0xC0 ⟨0, 0, .core⟩, .barAwt al 8 3 0xC0 ⟨0, 0, .core⟩, .barWt al 3 0xC0 ⟨0, 0, .core⟩,
       .barExp al 3 0xC0 true ⟨0, 0, .core⟩, .barTst al 8 4 ⟨0, 0, .core⟩].all (fun i => (barWord? i).isSome) = true) ∧
    (let i : Instr := .nop al
     let n (w : Nat) : Nat := let s := copying w false i; (s.cpPlan (fr s) al .g2g false 4 2 6).units.length
     n 8 = 8 ∧ n 16 = 16 ∧ n 24 = 24 ∧ (fr (copying 24 true i)).u.leave = true ∧ (fr (copying 24 false i)).u.leave = false ∧
     (let s := scalars [(1, 0), (2, 0x20000), (4, 1)] (paged i)
      (s.cpmPlan (fr s) al 0 0xC1 0xC2 0xC4).lanes ≠ 0 ∧ (s.cpmPlan (fr s) al 0 0xC1 0xC2 0xC5).lanes = 0)) ∧
    (let s := scalars [(2, 0x20100), (5, 0x00FE0000)] (paged (.nop al))
     let f := fr s
     let t := FMap.getD s.teams 0 default
     s.teamOf f.g = some t ∧ Frame.part f al ≠ 0 ∧ (s.rdU f 0xC2 2).toNat = 0x20100 ∧
     s.translate t.core t.ctx 0x20100 = (.leaf (3 + 4 + 2 * 2 ^ 16) 16, s) ∧ (s.rdU f 0xC4 2).toNat = 0x00FE000000000000) ∧
    (let s := onTeam (fun t => { t with bins := [(3, ⟨0x10100, 8, 1, [], false⟩)] }) (paged (.nop al))
     let t := FMap.getD s.teams 0 default
     s.teamOf (fr s).g = some t ∧ (FMap.get? t.bins 3).isSome = true ∧ FMap.get? t.bins 4 = none) := by decide +kernel

/-- An operation of gang 0, in stream 3 with number 7. -/
def op0 (k : OpKind) (lanes : Mask) (accs : List Access) (performed : Bool) : Op :=
  { gang := 0, unit := 0, pc := 0x10000, sn := 3, pm := 0, sc := .core, kind := k, lanes := lanes
    parts := [{ grp := 0, seq := 7, performed := performed, completed := false }], accs := accs, units := [], buf := [], pending := [], claimed := false, region := none
    dropped := false, windowed := false, sample := false, tag := 0, tok := 0, at_ := 0 }

/-- An access of a lane to memory, to scratchpad. -/
def acc (l : Nat) (loc : Loc) (sc : Scope) (data : List (Option Byte)) : Access :=
  { lane := l, ofs := 0, loc := loc, size := 4, sc := sc, data := data }

/-- The bench with operations outstanding. -/
def withOps (l : FMap Op) : State := { paged (.nop al) with ops := l, nextId := 100 }

/-- Four bytes to store. -/
def four : List (Option Byte) := [some 1, some 2, some 3, some 4]

/-- An operation whose mask names the stream of an earlier one, and one whose mask does not; one that has performed; a query. -/
theorem test_met_OperationsPerform :
    let a := acc 0 (.mem 0 0x20000) .core four
    let st := op0 .store 1 [a] false
    let q := op0 (.sqry 8 3) 0xFF [] false
    let s := withOps [(5, op0 .store 1 [a] true), (6, { st with pm := 8 }), (7, { op0 (.trec 2) 1 [a] false with pm := 8 }), (8, st), (9, q)]
    (FMap.get? s.ops 6).isSome = true ∧ ({ st with pm := 8 } : Op).kind.gangWide = false ∧
    (∃ x ∈ s.ops, x.1 < 6 ∧ x.2.gang = 0 ∧ (8 : BitVec 8).getLsbD x.2.sn.toNat = true ∧ (x.2.parts.any fun p => p.grp == 0 && !p.completed) = true) ∧
    (OpKind.trec 2).gangWide = true ∧ (FMap.get? s.ops 5).any (fun o => o.parts.all (·.performed)) = true ∧
    (st.parts.any (fun p => p.grp == 0 && !p.performed) && st.accs.any (fun a => a.lane / 8 == 0)) = true ∧
    st.pm = 0 ∧ FMap.get? s.ops 8 = some st ∧
    (FMap.get? s.ops 9 = some q ∧ FMap.get? s.gangs q.gang = some (gang0 s) ∧ (gang0 s).ended = false ∧ q.sample = false ∧
      q.dropped = false ∧ q.parts.all (fun p => q.inStep 0 p && !p.performed && !p.completed) = true ∧
      (List.range 64).all (fun l => !q.lanes.getLsbD l || q.parts.any fun p => p.grp == l / 8) = true ∧ q.accs = []) := by decide +kernel

theorem test_met_AccessesMade :
    let m (sc : Scope) : Access := acc 0 (.mem 0 0x2003C) sc four
    let b := acc 1 (.scratch 0 8188) .core four
    let ld (ro rsv : Bool) : Op := op0 (.load 8 4 false ro false rsv) 3 [m .core, b] true
    let s := withOps [(5, op0 .store 3 [m .core, b] true)]
    let o := op0 .store 3 [m .core, b] true
    let key := memKey 0 0x2003C / 64
    let held : State := { s with
      gangs := s.gangs ++ [(1, { gang0 s with rsv := (gang0 s).rsv.set 4 (some key) })], holds := [(key, ⟨1, 4, 99⟩)] }
    (FMap.get? s.ops 5 = some o ∧ o.parts.any (fun p => o.inStep 0 p && p.performed && !p.completed) = true ∧ o.accs[0]? = some (m .core) ∧
      o.accIn 0 (m .core) = true ∧ o.waitsFor 0 (m .core) = false ∧ s.accReady 5 o (m .core) = true ∧ o.accs[1]? = some b ∧
      o.accIn 0 b = true ∧ b.done = false) ∧
    (o.kind.reserving = false ∧ (FMap.get? s.teams 0).all (fun y => y.life != .moving) = true) ∧
    ((ld false true).kind.reserving = true ∧ FMap.get? held.holds (m .core).loc.granule = some ⟨1, 4, 99⟩ ∧
      (FMap.get? held.gangs 1).any (fun g => g.rsvOf 4 == some (m .core).loc.granule) = true) ∧
    s.liveCore o = some 0 ∧ s.history.all (fun c => decide (c.key ≠ memKey 0 0x2003C / 4)) = true ∧ FMap.get? s.filter key = none ∧
    (s.core 0).gather = [] ∧ s.isPoisoned (m .core).loc 4 = false ∧ 0x2003C % 64 + 4 = 64 ∧ four.length = 4 ∧
    (FMap.get? s.teams 0).any (fun x => Memory.wf x.mem) = true ∧ Memory.wf s.mem = true ∧ (m .core).data[3]? = some (some 4) ∧
    (m .device).sc ≠ .core ∧ FMap.get? s.gangs o.gang = some (gang0 s) ∧ (gang0 s).rsvOf 0 ≠ some key ∧
    (let r := onGang (fun g => { g with rsv := g.rsv.set 0 (some key) }) s
     (gang0 r).rsvOf 0 = some key ∧ (FMap.get? r.filter key = none ∧ (r.core 0).gather = [])) := by decide +kernel

theorem test_met_OperationsComplete :
    let a : Access := { acc 0 (.mem 0 0x20000) .core four with done := true }
    let fits (o : Op) : Bool :=
      let s := withOps [(5, o)]
      FMap.get? s.ops 5 == some o && FMap.get? s.gangs 0 == some (gang0 s) && !(gang0 s).ended && !o.sample && !o.dropped &&
      o.parts.all (fun p => o.inStep 0 p && p.performed && !p.completed) && o.accs.all (fun a => a.done && !a.bad) && o.lanes == 1 &&
      (o.parts.any fun p => p.grp == 0)
    [op0 (.load 8 16 false false false false) 1 [a] true, op0 (.load 8 1 true false true false) 1 [{ a with size := 1, data := [some 0x80] }] true,
      op0 .store 1 [a] true, op0 (.atomic .cas 8) 1 [a] true, op0 (.stc 8) 1 [a] true,
      op0 (.trec 15) 1 [{ a with size := 32, data := List.replicate 32 (some 0) }] true].all fits = true ∧
    (op0 .store 1 [{ a with done := false }] true).accs.any (fun a => !a.done) = true := by decide +kernel

/-- One barrier update of each kind and counts below, at and above what turns the phase; a barrier operation of each kind. -/
theorem test_met_BarrierOperations :
    (let us : List BarUpd := [.arrive 8 1, .expect 2 false, .expect 3 true]
     us.all (fun u => match u with
       | .ini .. => false
       | _ => true) = true ∧ (8 : Nat) < 8 + 1 ∧ 7 + 8 = (14 : Nat) + 1 ∧ 65535 + 8 > (65535 : Nat)) ∧
    [(BarKind.ini, false), (.exp true, false), (.arv, false), (.tst, false), (.awt, false), (.wt, false), (.awt, true), (.wt, true)].all (fun k =>
      let o := op0 (.bar k.1 3 8 7) 0xFF [] k.2
      let s := withOps [(5, o)]
      FMap.get? s.ops 5 == some o && FMap.sorted s.ops && !(gang0 s).ended && !o.sample && !o.dropped && o.accs == [] && o.lanes != 0 &&
      FMap.get? s.teams (gang0 s).team == some (FMap.getD s.teams 0 default) && s.mayPerform 5 o 0 &&
      o.parts.all (fun p => o.inStep 0 p && p.performed == k.2 && !p.completed) &&
      (List.range 64).all (fun l => !o.lanes.getLsbD l || o.parts.any fun p => p.grp == l / 8)) = true ∧
    (let s : State := { withOps [] with now := 10 ^ 6 }
     let t : State := onTeam (fun t => { t with bars := [(3, { now := { ph := 8 } })] }) s
     0 < s.clock 0 ∧ (t.barStart 0 3).ph = 8 ∧ 8 ≠ 7 % 65536 ∧ ((withOps []).barStart 0 3).ph = 0) := by decide +kernel

/-- Line 63 full, line 62 empty; a hold that ends at 99; a gathered line, marked and not. -/
theorem test_met_LinesHoldsAndGatherBuffer :
    [(OpKind.fes, 8188, 4, false), (.fec, 8188, 4, false), (.fet 3, 8188, 4, false), (.ldk 8, 8176, 16, true), (.stf, 7936, 16, true)].all (fun k =>
      let a : Access := { acc 0 (.scratch 0 k.2.1) .core (List.replicate k.2.2.1 (some 1)) with size := k.2.2.1 }
      let o := op0 k.1 1 [a] k.2.2.2
      let s := onTeam (fun t => { t with lines := [(63, { full := true, sfull := true })] }) (withOps [(5, o)])
      FMap.get? s.ops 5 == some o && FMap.sorted s.ops && !(gang0 s).ended && s.mayPerform 5 o 0 && o.accIn 0 a && !a.bad &&
      (FMap.get? s.teams 0).any (fun x => x.life != .moving && Memory.wf x.mem) && (!k.2.2.2 || s.claimServed 5 o) &&
      !s.isPoisoned a.loc a.size && decide (k.2.1 % 128 + a.data.length ≤ 128) &&
      o.parts.all (fun p => o.inStep 0 p && p.performed == k.2.2.2 && !p.completed)) = true ∧
    (let s : State := { withOps [] with holds := [(7, ⟨0, 1, 99⟩)], now := 99 }
     FMap.get? s.holds 7 = some ⟨0, 1, 99⟩ ∧ 99 ≤ s.now ∧ (withOps []).now < 99) ∧
    (∀ m : Bool, let s := (withOps []).gatherStore 0 0 0 0x2003C four m
     (∀ l ∈ (s.core 0).gather, (s.core 0).gather.filter (fun x => x.key == l.key) = [l] ∧ (FMap.get? s.filter l.key).isSome = m ∧
       (s.markOf 0 l.key).isSome = m ∧ s.now < l.alloc + 8192 * 75 ∧ l.alloc + 8192 * 75 ≤ ({ s with now := 10 ^ 6 } : State).now) ∧ (s.core 0).gather ≠ [] ∧
     Memory.wf s.mem = true) := by decide +kernel

/-- A request for leave; a group of a `cp` that fits, that does not, whose line moves; a `cp` of nothing; a multicast about
to perform. -/
theorem test_met_Copies :
    (let s := onUnit (fun u => { u with stop := .leave }) (withOps [])
     let r : LeaveReq := ⟨0, 0, 0, false, 0⟩
     let s := s.setDie 0 { s.die 0 with leave := [r] }
     (s.die 0).leave = r :: [] ∧ s.frameOf 0 0 = some ⟨0, 0, gang0 s, unit0 s⟩ ∧ (unit0 s).stop = .leave ∧ (s.die 1).leave = []) ∧
    (let u : CopyUnit := ⟨0, [⟨0, .scratch 0 0 0, .scratch 0 8188 0, 4, [true]⟩], [(0, 63, 1)], none, false⟩
     let o := { op0 (.cp .s2s true) 1 [] false with units := [u] }
     let s (p : Nat) (life : TeamLife) := onTeam (fun t => { t with lines := [(63, { pend := p })], life := life }) (withOps [(5, o)])
     o.unitsOf 0 = [u] ∧ (s 0 .resident).mayPerform 5 o 0 = true ∧ ((s 1022 .resident).lineOf 0 63).pend + 1 ≤ 1023 ∧
     ((next (exec (.operationPerform 5 0) (s 1022 .resident))).lineOf 0 63).pend = 1023 ∧
     1023 < ((s 1023 .resident).lineOf 0 63).pend + 1 ∧ idle (.operationPerform 5 0) (s 1023 .resident) = true ∧
     idle (.operationPerform 5 0) (s 0 .moving) = true ∧
     (let e := withOps [(5, { o with units := [] })]
      (gang0 e).ended = false ∧ FMap.sorted e.ops = true ∧ (next (exec (.operationPerform 5 0) e)).ops = [])) ∧
    (let o := op0 (.cpm 7936 (.scratch 0 0 0) 2 0x801) 0xFF [] false
     let s := withOps [(5, o)]
     let m := FMap.get? (next (exec (.operationPerform 5 0) s)).ops 5
     o.lanes ≠ 0 ∧ s.mayPerform 5 o 0 = true ∧ (List.range 2).all (fun j => !s.isPoisoned (.scratch 0 (0 + 128 * j)) 128) = true ∧
     m.map (·.buf.length) = some 256 ∧ m.map (·.pending) = some [(0, 0), (0, 1), (11, 0), (11, 1)]) := by decide +kernel

/-- A copy unit that is not the last and one that is; a copy from memory and one to it; a multicast about to claim, and
its lines. -/
theorem test_met_Copies_landings :
    (let q : CopyReq := ⟨0, .scratch 0 0 0, .scratch 0 8188 0, 4, [true, true, false, false]⟩
     let u : CopyUnit := ⟨0, [q], [(0, 63, 1)], none, false⟩
     let o (last : Bool) := { op0 (.cp .s2s true) 3 [] true with units := [u, { u with reqs := [{ q with lane := 1 }], done := last }] }
     let s (last : Bool) := withOps [(5, o last)]
     let t (last : Bool) := next (exec (.transferUnitLand 5 0) (s last))
     FMap.get? (s true).ops 5 = some (o true) ∧ (o true).parts.any (fun p => p.grp == u.grp && p.performed) = true ∧
     (FMap.get? (s true).teams 0).any (fun t => t.life != .moving && Memory.wf t.mem) = true ∧ (s true).isPoisoned (.scratch 0 0) 4 = false ∧
     (o true).parts.all (·.performed) = true ∧ (t true).ops = [] ∧ ((t true).lineOf 0 63).full = true ∧
     ((t false).ops.map fun x => (x.2.units.map (·.done), x.2.tag)) = [([true, false], 0)]) ∧
    (let q (a b : Side) : CopyUnit := ⟨0, [⟨0, a, b, 4, [true, true, true, true]⟩], [], none, false⟩
     let s (u : CopyUnit) := withOps [(5, { op0 (.cp .g2s false) 3 [] true with units := [u, u] })]
     let i := q (.virt 0x2003C) (.scratch 0 8188 0)
     let x := q (.scratch 0 0 0) (.virt 0x2003C)
     (s i).translate 0 0 0x2003C = (.leaf (3 + 4 + 2 * 2 ^ 16) 16, s i) ∧ (3 + 4 + 2 * 2 ^ 16) / 4 % 2 = 1 ∧
     (s x).leafLoc (3 + 4 + 2 * 2 ^ 16) 16 0x2003C = .mem (homeOf 0 0x2003C) 0x2003C ∧ 0x2003C % 64 + 4 ≤ 64 ∧ (s x).filter = [] ∧
     ((s x).core ((s x).opCore (op0 (.cp .g2s false) 3 [] true))).gather = [] ∧ (s x).isPoisoned (.scratch 0 0) 4 = false ∧
     (s i).isPoisoned (.mem (homeOf 0 0x2003C) 0x2003C) 4 = false ∧ Memory.wf (s x).mem = true ∧
     ((next (exec (.transferUnitLand 5 0) (s i))).ops.map fun o => (o.2.units.map (·.done))) = [[true, false]] ∧
     ((next (exec (.transferUnitLand 5 0) (s x))).ops.map fun o => (o.2.units.map (·.done))) = [[true, false]]) ∧
    (let o := { op0 (.cpm 7936 (.scratch 0 0 0) 2 1) 0xFF [] true with pending := [(0, 0), (0, 1)], buf := List.replicate 256 7 }
     let s := withOps [(5, o)]
     let c (l : List (Nat × Nat)) := withOps [(5, { o with claimed := true, pending := l })]
     let t := next (exec (.multicastClaim 5) s)
     FMap.get? s.ops 5 = some o ∧ s.cpmClaimable o = true ∧ (s.ops.map (·.1)) = [5] ∧ s.cpmLines o o.pending = [(0, 62), (0, 63)] ∧
     (FMap.get? s.teams 0).isSome = true ∧ (t.lineOf 0 62).pend = 32 ∧ (t.lineOf 0 63).pend = 32 ∧ (t.lineOf 0 61).pend = 0 ∧
     s.cpmLines o [(0, 1)] = [(0, 63)] ∧ 128 * 1 + 128 ≤ o.buf.length ∧
     ((next (exec (.multicastLineLand 5 0 1) (c [(0, 0), (0, 1)]))).ops.map fun x => x.2.pending) = [[(0, 0)]] ∧
     (next (exec (.multicastLineLand 5 0 1) (c [(0, 1)]))).ops = [] ∧
     ((next (exec (.multicastLineLand 5 0 1) (c [(0, 1)]))).lineOf 0 63).full = true) := by decide +kernel

/-- The bench with firmware, its first 2^30 virtual addresses mapped to themselves, and an engine 1 of die 0. -/
def engined (k : Engine → Engine) : State :=
  let put (s : State) (pa e : Nat) : State := s.writeMem (homeOf (s.plcOf pa) pa) pa (leBytes 8 e)
  let s := onCtx (fun x => { x with
    root := 0x100000
    versions := x.versions.map fun v => (v.1, { v.2 with fw := some ⟨1, 4, 0x100, [1, 2, 3, 0, 0x10, 1, 0, 0, 0, 0, 0, 0]⟩ }) }) (withOps [])
  let s := put (put (put s 0x100000 0x110001) 0x110000 0x120001) 0x120000 7
  s.setEngine 0 1 (k (s.engine 0 1))

/-- A command of operation 5. -/
def command : Command := { op := 5, ctx := 0, version := 0, idx := 0, args := [1, 2, 3, 4], issuer := 9, lseq := 1 }

/-- A command starts, with the image in place and loaded again; an engine changes context; a transfer's two ways to be dropped
and its element. -/
theorem test_met_CollectiveEngines :
    let c := command
    (let s (r : List Nat) := engined fun e => { e with queue := [c], ctx := some 0, streak := 15, reload := r }
     let e := (s []).engine 0 1
     let t := (next (exec (.commandStart 0 1) (s [0, 3]))).engine 0 1
     e.running = none ∧ e.up = true ∧ e.ctx = some c.ctx ∧ e.streak < 16 ∧ e.queue = c :: [] ∧
     ((engined id).firmwareOf c).any (fun w => decide (c.idx < w.ncmd)) = true ∧ t.pc = 0x110 ∧ t.reload = [3] ∧
     FMap.get? t.fw.regs 2 = some 0x40000 ∧ FMap.get? t.fw.regs 13 = some 4 ∧ Memory.read t.fw.mem 0x102 = 3) ∧
    (let e (sv : FMap FwState) := (engined fun e => { e with queue := [c], ctx := some 1, saved := sv }).engine 0 1
     (e []).running = none ∧ (e []).ctx = some 1 ∧ (e []).queue.all (fun q => q.ctx != 1) = true ∧ FMap.get? (e []).saved c.ctx = none ∧
     FMap.get? (e [(0, {})]).saved c.ctx = some {}) ∧
    (let t : Transfer := ⟨0, 5, 3, .addBf16x2, 0x2003C, 0x20080, 8, 0xFF, [1]⟩
     let s := engined fun e => { e with running := some c, inflight := [t] }
     (s.engine 0 1).inflight = [t] ∧ (s.engine 0 1).running.isSome = true ∧ (s.engine 0 1).done = none ∧ (s.engine 0 1).inflight.length < 64 ∧
     64 ≤ (List.replicate 64 t).length ∧ (t.len % 4 = 0 ∧ 4 ≤ t.len ∧ t.len ≤ 2 ^ 24) ∧ ¬(2 ^ 24 + 4 ≤ 2 ^ 24) ∧
     s.linkDown { t with src := 0x0100000000000000, link := 23 } = true ∧ s.linkDown t = false ∧ 0 < t.len / 4 ∧ t.done.contains 0 = false ∧
     s.xLoc t.ctx 0x00FE000000000000 false = .inr (some .protection) ∧
     s.xLoc t.ctx (t.src + 4 * 0) false = .inl (.mem (homeOf 0 0x2003C) 0x2003C) ∧
     s.xLoc t.ctx (t.dst + 4 * 0) true = .inl (.mem (homeOf 0 0x20080) 0x20080) ∧ s.poison = [] ∧ s.filter = [] ∧ Memory.wf s.mem = true ∧
     ((next (exec (.collectiveTransferLand 0 1 3 0) s)).engine 0 1).inflight = []) := by decide +kernel

/-- A command that ends well, is not over, fails in each way; a link that retries. -/
theorem test_met_CollectiveEngines_ends :
    let c := command
    (let o := op0 (.cpc 0 1 [1, 2, 3, 4]) 0xFF [] true
     let t : Transfer := ⟨0, 6, 3, .copy, 0x2003C, 0x20080, 8, 0xFF, []⟩
     let s (d : Option DWord) : State := { engined fun e => { e with running := some c, done := d.map (·.toNat), inflight := [t] } with ops := [(5, o)] }
     let late : State := { s none with now := 47 * (2 ^ 31 + 1) }
     let down (i : Instr) (s : State) := ((next (exec i s)).ctx 0).down.map fun x => (x.cause, x.value)
     FMap.get? (s none).ops c.op = some o ∧ FMap.get? (s none).gangs o.gang = some (gang0 (s none)) ∧ (gang0 (s none)).ended = false ∧
     o.accs = [] ∧ o.region = none ∧ ((s none).ctx 0).life = .running ∧ ((s none).ctx 0).down = none ∧
     ((s none).engine 0 1).running = some c ∧ ((s none).engine 0 1).done = none ∧ ((s (some 0)).engine 0 1).done = some 0 ∧
     t.cmd ≠ c.op ∧ (next (exec (.commandComplete 0 1) (s (some 0)))).ops = [] ∧ idle (.commandComplete 0 1) (s none) = true ∧
     down (.done 0 1 3) (s none) = some (0x16, 3) ∧ down (.firmwareFault 0 1 (.exception 2)) (s none) = some (0x16, 2) ∧
     down (.firmwareFault 0 1 (.access 0x40000)) (s none) = some (0x16, 0) ∧ idle (.firmwareFault 0 1 (.access 0x10000FFF)) (s none) = true ∧
     down (.firmwareFault 0 1 (.badXgo 7)) (s none) = some (0x16, 0) ∧ idle (.firmwareFault 0 1 (.badXgo 6)) (s none) = true ∧
     down (.firmwareTimeout 0 1) late = some (0x16, 0) ∧ idle (.firmwareTimeout 0 1) (s none) = true ∧
     2 ^ 31 < late.now / 47 - c.started ∧ (s none).now / 47 - c.started ≤ 2 ^ 31) ∧ ((withOps []).link 23).tries < 8 ∧
    ((next (exec (.flitCrcFail 23) ((withOps []).setLink 23 { (withOps []).link 23 with tries := 8 }))).link 23).state = 0 := by decide +kernel

/-- An `mma` of int8, unit scales, A at v0, B at v64, C at v128. -/
def mmaWord : Instr := .mma al .i8 .unit 0 .sat false 0 64 128 0

/-- Gangs 0 and 1 of a team of two groups, in a troupe of both. -/
def trouped (st0 st1 : Stop) : State :=
  let s := onTeam (fun t => { t with groups := 2, header := { t.header with team := 2 } }) (bench mmaWord)
  let g (k : Nat) (st : Stop) : Gang := let g := gang0 s
    { g with grpn := k, slot := 8 * k, trp := 0x10002, units := g.units.map fun u => { u with stop := st, leave := st == .mleave } }
  { s with gangs := [(0, g 0 st0), (1, g 1 st1)] }

/-- A released `mma` of the troupe's. -/
def matSlot (step : Nat) : MatSlot :=
  { team := 0, members := [(0, 0), (1, 0)], word := mmaWord, pcs := [(0, 0x10000), (1, 0x10000)], res := 9
    a := List.replicate 16 (List.replicate 64 1), b := List.replicate 16 (List.replicate 64 2), sa := [], sb := []
    acc := List.replicate 16 (List.replicate 16 3), step := step, ready := 0, bad := false, cls := 1, order := 1 }

/-- A core with slots of the matrix unit. -/
def slotted (l : FMap MatSlot) : State := let s := trouped .run .run
  s.setCore 0 { s.core 0 with slots := l }

/-- `trp` takes its value, and refuses a count of 7 and a handler's gang; an `mma` without a troupe, one that waits, one whose
troupe is complete; a release. -/
theorem test_met_MatrixUnit :
    (let s := scalars [(1, 0x10002), (2, 0x10007)] (trouped .run .run)
     let h : State := onGang (fun g => { g with trap := true }) s
     s.frame = some (fr s) ∧ s.trpOk (fr s) ((s.rdU (fr s) 0xC1 1).setWidth 32) = true ∧ (s.rdU (fr s) 0xC1 1).setWidth 32 ≠ (0 : Word) ∧
     s.trpOk (fr s) ((s.rdU (fr s) 0xC2 1).setWidth 32) = false ∧ (fr s).u.am ≠ 0 ∧ (s.headerOf (fr s).g).any (fun x => x.team == 2) = true ∧
     h.trpOk (fr h) 0 = false) ∧
    (let b := bench mmaWord
     b.frame = some (fr b) ∧ (fr b).g.trp = 0) ∧
    (let s := trouped .run .run
     let f := fr s
     let held := s.put { f with u := { f.u with stop := .troupe } }
     s.frame = some f ∧ f.g.trp ≠ 0 ∧ s.atOdds f = [] ∧ held.troupe f.g.team f.g.trp .troupe = none) ∧
    (let s := trouped .run .troupe
     let f := fr s
     let held := s.put { f with u := { f.u with stop := .troupe } }
     s.frame = some f ∧ s.atOdds f = [] ∧ held.troupe f.g.team f.g.trp .troupe = some ((0, 0, 0) :: [(1, 0, 0)]) ∧
     (held.frameOf 0 0).any (fun y => held.instrAt y.g y.u.ipc == some mmaWord) = true ∧
     held.mmaCheck [(0, 0, 0), (1, 0, 0)] mmaWord = none ∧
     (s.core (s.coreOf f.g)).slots.length + (held.awaiting (s.coreOf f.g)).length < 8) ∧
    (let s := trouped .mleave .mleave
     FMap.get? s.gangs 1 = some (FMap.getD s.gangs 1 default) ∧ s.coreOf (FMap.getD s.gangs 1 default) = 0 ∧
     s.troupe 0 0x10002 .mleave = some ((0, 0, 0) :: [(1, 0, 0)]) ∧ (s.frameOf 0 0).any (fun f => f.u.leave) = true ∧
     s.instrAt (gang0 s) 0x10000 = some mmaWord ∧ (s.core 0).freeSlot = some 0) := by decide +kernel

/-- The next slot: of the higher class, unless the first release of that class is not ready; none. A block step with no
mismatch, with one; the fourth step's result. -/
theorem test_met_MatrixUnit_steps :
    (let m := matSlot 3
     let one : MatSlot := { m with members := [(0, 0)], pcs := [(0, 0x10000)] }
     let high : MatSlot := { m with cls := 2, order := 5 }
     let late : MatSlot := { high with order := 4, ready := 10 ^ 9 }
     let g (n : Nat) : State := { slotted [(7, one)] with glitches := [(1, n)] }
     (slotted [(6, m), (7, high)]).nextSlot 0 = some (7, high) ∧ (slotted [(6, m), (7, high), (3, late)]).nextSlot 0 = some (6, m) ∧
     (slotted [(3, late)]).nextSlot 0 = none ∧ ((slotted [(7, m)]).core 0).matBusy ≤ (slotted [(7, m)]).clock 0 ∧ m.checksOk = true ∧
     (List.range 16).all (fun i => (List.range 16).all fun j => !(m.element m.step i j).2) = true ∧
     ((g 1).nextSlot 0 = some (7, one) ∧ FMap.get? (g 1).glitches (2 * 0 + 1) = some 1 ∧
      (FMap.get? ((next (exec (.mmaBlockStep 0) (g 1))).core 0).slots 7).map (·.step) = some 4 ∧
      (next (exec (.mmaBlockStep 0) (g 1))).dev.corrected = [(0x10000, 1)]) ∧
     (let w := matSlot 4
      let s := slotted [(7, w)]
      FMap.get? (s.core 0).slots 7 = some w ∧ w.step = 4 ∧ w.ready ≤ s.clock 0 ∧ w.members.Nodup ∧ (w.pcs.map (·.1)).Nodup ∧
      w.members.all (fun x => decide (x.2 < 8) && w.pcs.any fun p => p.1 == x.1) = true ∧
      s.gangs.all (fun g => !g.2.ended && g.2.units.all fun u => u.stop != .troupe) = true)) := by decide +kernel

/-- Two mismatches; an element of int8 by hand, one whose scale is 255, one whose scales are 2 and 1/2 and whose codes hold
values. -/
theorem test_met_MatrixUnit_elements :
    (let one : MatSlot := { matSlot 3 with members := [(0, 0)], pcs := [(0, 0x10000)] }
     let s : State := { slotted [(7, one)] with glitches := [(1, 2)] }
     s.nextSlot 0 = some (7, one) ∧ one.bad = false ∧ one.checksOk = true ∧ FMap.get? s.glitches 1 = some 2 ∧
     one.pcs = [(0, 0x10000)] ∧ (FMap.get? s.gangs 0).isSome = true ∧ s.failingSlot 0 = none ∧
     (let t := next (exec (.mmaBlockStep 0) s)
      let l : State := { t with now := 10 ^ 6 }
      (t.core 0).slots.map (fun x => x.2.failing) = [true] ∧ (gang0 t).info.cause = 0 ∧ t.dev.corrected = [(0x10000, 1)] ∧
      idle (.mmaBlockStep 0) t = true ∧ (l.failingSlot 0).isSome = true ∧ (l.core 0).matBusy ≤ l.clock 0 ∧
      ((next (exec (.mmaBlockStep 0) l)).core 0).slots = [] ∧ (gang0 (next (exec (.mmaBlockStep 0) l))).info.cause = 0x15)) ∧
    (matSlot 3).element 3 0 0 = (3 + 16 * (1 * 2), false) ∧
    (let m (sa sb : Word) : MatSlot := { matSlot 3 with
       word := .mma al .e4m3 .lane 1 .sat false 0 64 128 0, a := List.replicate 16 (List.replicate 64 0x38383838), b := List.replicate 16 (List.replicate 64 0x40404040), acc := List.replicate 16 (List.replicate 16 0x3F800000)
       sa := List.replicate 16 sa, sb := List.replicate 16 sb }
     (m 0xFF 0x7E).element 3 0 0 = (0x7FC00000, false) ∧ (m 0x80 0x7E).element 3 0 0 = (0x43010000, false)) := by decide +kernel

/-- The codes of the values 1 and 2. -/
theorem test_met_MatrixUnit_holds : Et.holds .e4m3 0x38 1 ∧ Et.holds .e4m3 0x40 2 := by
  simp [Et.holds]
/-- A thread that has come at clock 0. -/
def th0 : Thread := ⟨[1, 2, 3, 4, 5, 6, 7, 8], 0⟩

/-- Team 0 owns a bin 3 of 8 lanes, its timer at 1, with the threads; the machine has run for some ticks. -/
def binned (ts : List Thread) (now : Nat) : State :=
  { onTeam (fun t => { t with bins := [(3, ⟨0x10000, 8, 1, ts, false⟩)] }) (withOps []) with now := now }

/-- A core with no quadrant up takes no gang. -/
def noQuads (s : State) : State := s.setCore 0 { s.core 0 with quadsUp := 0 }

/-- A machine that a partial function takes further. -/
def fitting (o : Option State) : Bool := o.isSome

theorem test_met_SpawnBins :
    (let i (a b : Reg) : Instr := .binCfg al 3 0xC8 a b
     let s := scalars [(1, 0x10000), (2, 0x10004), (3, 0x10008), (4, 0x30003), (5, 4)] (binned [] 0)
     let f := fr s
     let t := FMap.getD s.teams 0 default
     let v := benchVersion (encode (.nop al))
     s.frame = some f ∧ s.teamOf f.g = some t ∧ Frame.part f al ≠ 0 ∧ f.u.am ≠ 0 ∧ Legal (i 0xC1 0xC4) f = true ∧
     (s.versionOf f.g).any (fun v => (v.imageAt f.u.ipc.toNat).any fun x => decide (x.base ≤ 0x10000 ∧ 0x10000 < x.base + x.size)) = true ∧
     ¬(0x10008 < 0x10000 + (v.images.map (·.size)).sum) ∧
     (s.rdU f 0xC1 1).toNat % 8 = 0 ∧ (s.rdU f 0xC2 1).toNat % 8 ≠ 0 ∧ (s.rdU f 0xC3 1) = 0x10008 ∧
     ((s.rdU f 0xC4 1).setWidth 32 : Word).extractLsb' 2 14 = 0 ∧ ((s.rdU f 0xC5 1).setWidth 32 : Word).extractLsb' 2 14 ≠ 0 ∧
     (FMap.get? t.bins 3).any (fun b => b.threads == []) = true ∧ FMap.get? t.bins 4 = none ∧ s.binsOn t.core < 15 ∧
     (let w := onTeam (fun t => { t with bins := (List.range 15).map fun k => (k, ⟨0x10000, 8, 1, [], false⟩) }) s
      FMap.get? (FMap.getD w.teams 0 default).bins 15 = none ∧ 15 ≤ w.binsOn 0) ∧ Legal (.binQ al 3 0xC8) f = true) ∧
    (let s := binned [th0] 0
     let t := FMap.getD s.teams 0 default
     let l := { s with now := 10 ^ 6 }
     FMap.get? t.bins 3 = some ⟨0x10000, 8, 1, [th0], false⟩ ∧ t.life = .resident ∧ fitting (s.formGang 0 8 0x10000 [th0] false) = true ∧
     fitting ((s.put { fr s with u := { (fr s).u with ipc := 0x10008 } }).formGang 0 8 0x10000 [th0] false) = true ∧
     fitting ((noQuads s).formGang 0 8 0x10000 [th0] false) = false ∧ s.clock t.core < 0 + 64 * 1 ∧ 0 + 64 * 1 ≤ l.clock t.core) ∧
    (let b : TrapBin := ⟨0, 0x10000, [th0]⟩
     let s := (withOps []).setCore 0 { (withOps []).core 0 with trapBin := some b }
     let l := { s with now := 10 ^ 6 }
     let gone (s : State) : State := s.setCore 0 { s.core 0 with trapBin := none, trapWait := [b] }
     (s.core 0).trapBin = some b ∧ s.clock 0 < 0 + 1024 ∧ 0 + 1024 ≤ l.clock 0 ∧ (l.core 0).trapWait = [] ∧
     FMap.get? s.teams b.team = some (FMap.getD s.teams 0 default) ∧ (FMap.getD s.teams 0 default).life = .resident ∧
     fitting ((gone s).formGang 0 8 0x10000 [th0] true) = true ∧ fitting ((gone (noQuads s)).formGang 0 8 0x10000 [th0] true) = false) := by
  decide +kernel

/-- The bytes of a launch record of one cluster of Pennants. -/
def recordBytes : List Byte :=
  leBytes 4 0 ++ leBytes 2 1 ++ [1, 0xFF] ++ leBytes 4 0 ++ leBytes 4 1 ++ [1, 1, 0, 0, 1, 0, 0, 0] ++ List.replicate 232 0

/-- The engined bench, the record at 0x2_0000; its grid of Pennants, one cluster more of it in die 0's queue of class 2. -/
def directed : State :=
  let s := (engined id).writeMem (homeOf 0 0x20000) 0x20000 recordBytes
  let g := FMap.getD s.grids 0 default
  let s := { s with grids := [(0, { g with lr := { g.lr with kind := 1, ncl := 2 } })] }
  s.setDie 0 { s.die 0 with queues := [(2, [⟨0, 1⟩])], headAt := [(2, 0)] }

theorem test_met_GridsAndTeams :
    let s := directed
    let g := FMap.getD s.grids 0 default
    let pa := 0x20000
    let bytes := Memory.readN s.mem (memKey (homeOf 0 pa) pa) 256
    ((s.ctx 5).life ≠ .running ∧ (0x20080 : DWord).toNat % 256 ≠ 0 ∧
      ((onCtx (fun x => { x with dirGrid := some 0 }) s).ctx 0).dirGrid.isSome = true ∧ 0x00FE000000000000 ≤ (0x00FE000000000000 : DWord).toNat) ∧
    (s.running 0 = true ∧ (s.ctx 0).dirGrid = none ∧ s.vaLoc 0 pa true = some (.mem (homeOf 0 pa) pa) ∧ s.filter = [] ∧
      bytes = recordBytes ∧ (LaunchRec.parse bytes).kind = 1 ∧ (LaunchRec.parse (List.replicate 256 0)).kind ≠ 1 ∧
      s.versionFor 0 (LaunchRec.parse (leBytes 8 (2 ^ 48))) = none ∧
      (s.versionFor 0 (LaunchRec.parse bytes)).any (fun v => (LaunchRec.parse bytes).ok v.2 && (v.2.chosen .pennant).isNone) = true ∧
      Memory.wf s.mem = true) ∧
    (let o := { s with
        grids := [(0, { g with placed := 2, recLoc := .mem 0 0x20000 })], gangs := []
        teams := s.teams.map fun (x : Nat × Team) => (x.1, { x.2 with life := .exited }) }
     FMap.get? o.grids 0 = some { g with placed := 2, recLoc := .mem 0 0x20000 } ∧ 2 = g.lr.ncl ∧
     o.teams.all (fun t => t.2.grid != 0 || t.2.life == .exited && o.gangs.all fun x => x.2.team != t.1) = true ∧ g.op = none) ∧
    g.placed ≠ g.lr.ncl ∧
    (s.running 5 = false ∧ s.ctxs.all (fun x => x.1 == 0 || !s.running x.1) = true ∧ fitting ((withOps []).decide' 0 0) = false ∧
      s.savedTeams 0 0 = [] ∧ (s.die 0).starved = [] ∧ FMap.getD (s.die 0).queues (4 * 0 + 3) [] = [] ∧
      FMap.getD (s.die 0).queues (4 * 0 + 2) [] = [⟨0, 1⟩] ∧ g.lr.kind = 1 ∧
      (s.firstFit (coresOf 0 .pennant) 0 g.version g.header (gangSizes g.header (g.lr.groups g.header)) 0).isSome = true) ∧
    (let b := onUnit (fun u => { u with stop := .wpark }) s
     let f := b.setCore 0 { b.core 0 with copyUp := false }
     let t := FMap.getD s.teams 0 default
     FMap.get? s.teams 0 = some t ∧ s.savable 0 t = false ∧ b.savable 0 t = true ∧
     (b.evictForClass 0 t || b.evictForGrid 0 t || b.evictForContext 0 t || b.evictForFence 0 t) = false ∧
     f.savable 0 t = true ∧ f.evictForFence 0 t = true) ∧
    (FMap.get? (s.die 0).headAt (4 * 0 + 2) = some 0 ∧ (s.die 0).starved.contains 2 = false ∧ s.now < 0 + 2 ^ 20 * 75) := by decide +kernel

/-- A version in Tamut and both native forms: point 5 with a `migr` behind it in each. -/
def threeForms : Version :=
  let e := encode (.eqp al 5)
  let m (p : PReg) := encode (.migr al p .pennant 0xC1)
  let img (k : ImageKind) (base : Nat) : Image :=
    { kind := k, base := base, size := 16, headers := [benchHeader], equiv := [(5, BitVec.ofNat 32 base, 0)] }
  { benchVersion e with
    code := [(0x2000, e), (0x2001, m 2), (0x4000, e), (0x4001, m 3), (0x6000, e), (0x6001, m 4)]
    images := [img .tamut 0x10000, img .banner 0x20000, img .pennant 0x30000], chosenB := some 1, chosenP := some 2
    maps := [⟨5, .tamut, .banner, [⟨2, 3, 0⟩]⟩, ⟨5, .tamut, .pennant, [⟨2, 3, 0⟩]⟩, ⟨5, .banner, .pennant, [⟨2, 3, 0⟩]⟩] }

/-- Gang 0 at a PC of `threeForms`, the function translated for the core. -/
def formed (pc : Word) : State :=
  let s := onUnit (fun u => { u with ipc := pc }) (onTeam (fun t => { t with header := benchHeader })
    (onCtx (fun x => { x with versions := [(0, { threeForms with ftabVa := 0x30000 })] }) (engined id)))
  let s := s.writeMem (homeOf 0 0x30010) 0x30010 (leBytes 4 0xF)
  s.setCore 0 { s.core 0 with ready := [(0, 0, 0)] }

/-- The team of gang 0 at the rendezvous for a Pennant, its `migr` of 0x2_0008 outstanding. -/
def rendezvous (life : TeamLife) (now : Nat) : State :=
  let m : Migration := { gangs := [0], n := 5, kind := .pennant, deadline := 1000 }
  let s := onTeam (fun t => { t with mig := some m, life := life }) (onUnit (fun u => { u with ipc := 0x20010, stop := .migr }) (formed 0x20008))
  { s with ops := [(5, { op0 (.migr 3) 0xFF [] false with pc := 0x20008 })], now := now }

theorem test_met_EquivalenceAndMigration :
    (let s := bench (.eqp al 5)
     let w := formed 0x10000
     s.frame = some (fr s) ∧ (s.eqpEntry (fr s) 5).isNone = true ∧ (w.eqpEntry (fr w) 5).any (fun x => x.2 == 0) = true ∧
     w.eqpSwap (fr w) 5 = some (0x20000, [⟨2, 3, 0⟩]) ∧ w.writing (fr w).g = false ∧
     (w.core (w.coreOf (fr w).g)).ready.contains (w.readyKey (fr w) 0) = true) ∧
    (let s := bench (.migr al 2 .pennant 0xC1)
     let w := formed 0x20008
     let two := { w with gangs := w.gangs ++ [(1, { gang0 w with grpn := 1, slot := 8 })] }
     s.eqpBefore (fr s) = none ∧ (fr s).u.am ≠ 0 ∧ w.frame = some (fr w) ∧ w.eqpBefore (fr w) = some 5 ∧ coreKind (w.coreOf (fr w).g) = .banner ∧
     (fr w).g.ended = false ∧ w.migrOp (fr w).gid = none ∧ w.ops = [] ∧ (w.ctx 0).ctl.getLsbD 5 = false ∧
     two.eqpBefore (fr two) = some 5 ∧ (two.teamOf (fr two).g).any (fun t => t.mig.isNone) = true ∧
     (FMap.get? two.gangs 1).map (·.team) = some (fr two).g.team) ∧
    (let s := rendezvous .blocked 1000
     let o := { op0 (.migr 3) 0xFF [] false with pc := 0x20008 }
     s.now < 1001 ∧ (rendezvous .blocked 999).now < 1000 ∧ 1000 ≤ s.now ∧ s.migrOp 0 = some (5, o) ∧ FMap.get? s.ops 5 = some o ∧
     FMap.get? s.gangs 0 = some (gang0 s) ∧ (gang0 s).ended = false ∧ o.accs = []) := by decide +kernel

theorem test_met_EquivalenceAndMigration_moves :
    (let s := rendezvous .blocked 999
     let t := FMap.getD s.teams 0 default
     let m : Migration := { gangs := [0], n := 5, kind := .pennant, deadline := 1000 }
     t.mig = some m ∧ s.now < m.deadline ∧ s.allArrived 0 m = true ∧ s.drained 0 = true ∧ t.resumeAt ≤ s.now ∧ s.running t.ctx = true ∧
     s.allArrived 0 { m with gangs := [] } = false ∧
     (let r := s.migrTarget 0 t 5 .pennant
      r.1.any (fun x => x.1.kind == .pennant && x.2.1 == 0x30000 && x.2.2.1 == 4) = true ∧
      (r.2.firstFit (r.2.migrCores t .pennant) t.ctx (r.2.versionKey t) benchHeader (r.2.teamSizes 0) t.bins.length).isSome = true)) ∧
    (let s := rendezvous .moving 999
     let t := FMap.getD s.teams 0 default
     let r := s.migrTarget 0 t 5 .pennant
     let o := { op0 (.migr 3) 0xFF [] false with pc := 0x20008 }
     t.life = .moving ∧ t.resumeAt ≤ s.now ∧ r.1.isSome = true ∧ r.2.migrOp 0 = some (5, o) ∧ FMap.get? r.2.gangs 0 = some (gang0 r.2) ∧
     (gang0 r.2).ended = false ∧ t.bins = [] ∧ t.batches = [] ∧ r.2.teamsOn t.core = [(0, t)] ∧ (r.2.core t.core).trapWait = [] ∧
     FMap.get? r.2.teams 0 = some t) ∧
    (let r : Result := ⟨0x10000, 0, some 0, [], 0, .overflow, some (0, 0, 8), false⟩
     let s := onGang (fun g => { g with results := [(9, r)] }) (withOps [])
     s.frame = some (fr s) ∧ Frame.part (fr s) al ≠ 0 ∧ FMap.get? s.gangs 0 = some (gang0 s) ∧ FMap.get? (gang0 s).results 9 = some r ∧
     0 ≤ s.clock 0 ∧ (gang0 s).ended = false ∧ (s.versionOf (gang0 s)).isSome = true) := by decide +kernel

/-- Context 0 halted, with a translation that its busy `INVAL` names and one that it does not. -/
def invalidating (v : DWord) : State :=
  let s := onCtx (fun x => { x with life := .halted, inval := v }) (withOps [])
  let s := s.setCore 0 { s.core 0 with tlb := [⟨0, 2, 16, 7⟩, ⟨0, 1, 21, 7⟩, ⟨1, 2, 16, 7⟩] }
  s.setDie 0 { s.die 0 with tcache := [⟨0, 2, 16, 7⟩] }

theorem test_met_ContextsAndInvalidation :
    let s := invalidating 0x8000000000020000
    (s.ctx 63).life = .free ∧ (s.ctx 0).life ≠ .free ∧ (s.ctx 0).life = .halted ∧ (s.ctx 0).faulted = false ∧ (s.ctx 63).life ≠ .halted ∧
    ((onCtx (fun x => { x with faulted := true }) s).ctx 0).faulted = true ∧ (s.grids.map (·.1)) = [0] ∧
    (FMap.getD s.grids 0 default).ctx = 0 ∧ (FMap.getD s.grids 0 default).recLoc = .mem 0 0 ∧ Memory.wf s.mem = true ∧
    (let w : State := { s with
        grids := s.grids.map fun (x : Nat × Grid) => (x.1, { x.2 with ctx := 1 })
        teams := s.teams.map fun (x : Nat × Team) => (x.1, { x.2 with ctx := 1 }) }
     w.teams.all (fun t => t.2.ctx == 1) = true) ∧
    (s.ctx 0).inval.getLsbD 63 = true ∧ ((invalidating 0).ctx 0).inval.getLsbD 63 = false := by decide +kernel

/-- The bench, commands of the host busy or not. -/
def commanded (busy : Bool) : State :=
  let v : DWord := if busy then 0x8000000000001000 else 0
  { withOps [] with dev := { (withOps []).dev with resync := v, attest := v, fwbusy := busy } }

theorem test_met_HostCommands :
    (∀ b : Bool, (commanded b).dev.resync.getLsbD 63 = b ∧ (commanded b).dev.attest.getLsbD 63 = b ∧ (commanded b).dev.fwbusy = b ∧
      Memory.wf (commanded b).dev.hostMem = true) ∧
    (let s := commanded false
     Memory.wf s.mem = true ∧ (List.range 4).all (fun k => s.reachable (s.dev.b2base.toNat + (0x3FFFFFFC + k))) = true ∧ s.filter = [] ∧
     ¬(2 ^ 39 ≤ 2 ^ 39 - 1) ∧ (s.die 3).fenced = false ∧ ((s.setDie 3 { s.die 3 with fenced := true }).die 3).fenced = true ∧
     s.isPoisoned (.mem 3 0x20000) 4 = false ∧ 0x10019 % 8 ≠ 0) := by decide +kernel

theorem test_met_ErrorsAndTests :
    let s := withOps []
    (FMap.get? s.teams 0).isSome = true ∧ s.onDie 0 0 = true ∧ (s.ctx 0).life = .running ∧ (FMap.get? s.ctxs 0).isSome = true ∧
    (let l : TestLog := FMap.getD s.dev.tests (unitNum (.lanes 575 7 7)) {}
     l.state ≠ 2 ∧ l.failed = 0 ∧ l.checked = false) ∧
    (let l (k : TestLog) : TestLog :=
       FMap.getD ({ s with dev := { s.dev with tests := [(unitNum (.matrix 0), k)] } } : State).dev.tests (unitNum (.matrix 0)) {}
     (l { state := 2 }).state = 2 ∧ 1 ≤ (l { failed := 1 }).failed ∧ (l { checked := true }).checked = true) := by decide +kernel

/-! ### Further witnesses, clause by clause -/

/-- The unit of a region's entry stands in no troupe and recomputes nothing; a read of the origin's register meets no poison,
and a write of it waits for nothing. -/
theorem test_met_Regions_OriginWords :
    (let s := bench (.nop al)
     s.redoing 0 = false ∧ (unit0 s).stop ≠ .troupe ∧ (unit0 s).stop ≠ .mleave) ∧
    (let s := withOrigin (.orw l4 .v 7 4 9)
     let f := fr s
     s.regPoison.all (fun p => p.1 != 1) = true ∧ (1 : Nat) ≠ f.gid ∧ (3 : Nat) < 64 ∧ Frame.part f l4 = lane 4 ∧
     s.originBusy f l4 .v 7 4 = false ∧ s.outOfWindow f .v 7 = false ∧
     LaneVec.at' ((FMap.getD (next (exec (.orw l4 .v 7 4 9) s)).gangs 1 default).vreg 7) 3 = 0x20000) := by decide +kernel

/-- Operations of a halting context. Waiting: held by its mask, an empty or a full line's claim, a barrier whose phase stands,
a launch that has performed, a multicast on a full line, two parts of which one completed. Not waiting: the same with the line or the phase
turned, a load or a launch that could go on, a claimed multicast, a held part beside one that has performed. -/
theorem test_met_HaltAndFlagDown_waits :
    let life (full : Bool) (ph : Nat) (l : FMap Op) : CtxLife :=
      let s := onTeam (fun t => { t with
        lines := if full then [(62, { full := true, sfull := true })] else [], bars := [(3, { now := { ph := ph } })] }) (withOps l)
      ((next (exec (.contextHalted 0) (onCtx (fun x => { x with life := .halting }) s))).ctx 0).life
    let ld (p : BitVec 8) := { op0 (.load 8 4 false false false false) 1 [acc 0 (.mem 0 0x20000) .core []] false with pm := p }
    let at62 (k : OpKind) := op0 k 1 [acc 0 (.scratch 0 7936) .core (List.replicate 16 (some 1))] true
    let bar (k : BarKind) := op0 (.bar k 3 8 0) 1 [] true
    let cpm (c : Bool) := { op0 (.cpm 7936 (.scratch 0 0 0) 1 1) 1 [] true with pending := [(0, 0)], claimed := c }
    let early := at62 (.ldk 8)
    let two (c : Bool) := { ld 8 with parts := [⟨0, 8, true, c, 0, 0, false⟩, ⟨1, 8, false, false, 0, 0, false⟩] }
    let first := { early with parts := early.parts ++ [⟨1, 7, true, false, 0, 0, false⟩] }
    (life false 0 [(4, at62 (.ldk 8)), (5, ld 8)] = .halted ∧ life true 0 [(4, at62 (.ldk 8))] = .halting) ∧
    (life true 0 [(4, at62 .stf)] = .halted ∧ life false 0 [(4, at62 .stf)] = .halting) ∧
    (life true 0 [(4, cpm false)] = .halted ∧ life false 0 [(4, cpm false)] = .halting ∧ life true 0 [(4, cpm true)] = .halting) ∧
    [BarKind.awt, .wt].all (fun k => decide (life false 0 [(4, bar k)] = .halted ∧ life false 8 [(4, bar k)] = .halting)) = true ∧
    [false, true].all (fun d => decide ((life false 0 [(4, op0 (.launch 0x20000) 1 [] d)] = .halted) = (d = true))) = true ∧
    [ld 0, op0 (.ldk 8) 1 [] false].all (fun o => decide (life false 0 [(4, o)] = .halting)) = true ∧
    (life false 0 [(4, first), (5, two true)] = .halted ∧ life false 0 [(4, first), (5, two false)] = .halting) := by decide +kernel

/-- A trace buffer of 64 KiB on the writable page, empty and full: a record by `trc` and by a sample. -/
theorem test_met_DebugAndCounterWords_trace :
    let s (put : DWord) (i : Instr) : State := onCtx (fun x => { x with
      ctl := 0x40, trBase := 0x20000, trSize := 1, trPut := put, samples := [⟨{}, 8, 1, List.replicate 32 9⟩] }) (paged i)
    let i : Instr := .trc al 0x77 0xC4
    let a := s 64 i
    let k := memKey (homeOf (a.plcOf 0x20040) 0x20040) 0x20040
    (a.ctx 0).trGap = 0 ∧ (a.ctx 0).trPut.toNat < (a.ctx 0).trSize.toNat * 65536 ∧
    a.translate 0 0 0x20040 = (.leaf (3 + 4 + 2 * 2 ^ 16) 16, a) ∧ (3 + 4 + 2 * 2 ^ 16) / 4 % 2 = 1 ∧
    a.leafLoc (3 + 4 + 2 * 2 ^ 16) 16 0x20040 = .mem (homeOf (a.plcOf 0x20040) 0x20040) 0x20040 ∧
    (a.ctx 0).ctl.getLsbD 6 = true ∧ Memory.wf a.mem = true ∧
    (Memory.readN (next (exec i a)).mem k 64).take 16 = leBytes 1 1 ++ leBytes 1 0xFF ++ leBytes 2 0 ++
      leBytes 4 ((a.nameOf (gang0 a)).lpc0.toNat) ++ leBytes 4 (a.nameOf (gang0 a)).lseq.toNat ++ leBytes 4 0x10000 ∧
    (Memory.readN (next (exec (.sampleRecord 0) a)).mem k 64).drop 32 = List.replicate 32 9 ∧
    ((next (exec i a)).ctx 0).trPut = 128 ∧
    (let b := s 65536 i
     (b.ctx 0).trSize.toNat * 65536 ≤ (b.ctx 0).trPut.toNat ∧ ((next (exec i b)).ctx 0).trDrop = 1 ∧
     ((next (exec i b)).ctx 0).trGap = 1) := by decide +kernel

/-- A piece of a halted context that no poison touches. -/
theorem test_met_ContextStateWords_bad :
    [(2, 0), (3, 176), (4, 16), (6, 0)].all (fun x =>
      let s := system (.ctxrd l4 8 4) 1 x.1 x.2
      !s.pieceBad (Piece.of (s.rd (fr s) 4 2 4))) = true := by decide +kernel

/-- An address of the system window whose leaf names the own device, and another; a root beyond the installed memory. -/
theorem test_met_AddressChecks_system :
    let s (dev : Nat) : State := let s := paged (.nop al)
      s.setCore 0 { s.core 0 with tlb := [⟨0, 2 ^ 40 + 2, 16, 3 + 4 + 2 * 2 ^ 16 + dev * 2 ^ 39⟩] }
    let t := FMap.getD (s 0).teams 0 default
    let r (dev : Nat) := ((s dev).resolve 0 t (2 ^ 56 + 0x20040) 4 4 true .any).1
    ((s 0).dev.num = 0 ∧ ((s 0).translate t.core t.ctx (2 ^ 56 + 0x20040)).1 = .leaf (3 + 4 + 2 * 2 ^ 16) 16 ∧
      r 0 = .loc (.mem (homeOf 0 0x20040) 0x20040) ∧ r 9 = .loc (.peer 9 0x20040)) ∧
    (let x := onCtx (fun x => { x with root := 2 ^ 39 }) (bench (.nop al))
     2 ^ 39 ≤ (x.ctx 0).root.toNat ∧ (x.translate 0 0 0x900000).1 = .fatal) := by decide +kernel

/-- Lanes 0 and 1 of a `cp` write one line, lane 1 over a byte of lane 0's; lanes 2 to 5 each fail one check; lane 6 asks for
nothing; lane 7 writes another line. -/
def lanesCopy (fill : Bool) : State :=
  let at_ (l : List Nat) : LaneVec Word := Vector.ofFn fun k => BitVec.ofNat 32 ((l[k.val]?).getD 0)
  onGang (fun g => { g with v := [
    (2, at_ [0, 8, 0, 0, 0, 2, 0, 16]), (3, at_ [0xFF0000, 0xFF0000, 0xFF0000, 0, 0xFF0000, 0xFF0000, 0, 0xFF0000]),
    (4, at_ [256, 256, 256, 256, 8192, 256, 0, 512]), (5, at_ [0xFF0000, 0xFF0000, 0xFF0000, 0xFF0000, 0xFF0000, 0xFF0000, 0, 0xFF0000]),
    (6, at_ [8, 4, 5, 4, 4, 4, 0, 16])] }) (paged (.cp al .s2s fill 4 2 6 ⟨0, 0, .core⟩))

theorem test_met_OtherOperations_cp :
    let s := lanesCopy true
    let f := fr s
    let p := s.cpPlan f al .s2s true 4 2 6
    (s.teamOf f.g).isSome = true ∧ (lanesOf p.lanes) = [0, 1, 7] ∧
    p.hits.map (fun q => (q.lane, q.cause)) = [(2, .misaligned), (3, .protection), (4, .scratch), (5, .misaligned)] ∧
    p.units.map (fun u => (u.reqs.map (·.lane), u.fills)) = [([0, 1], [(0, 2, 2)]), ([7], [(0, 4, 4)])] ∧
    (p.units.headD default).reqs.map (fun r => r.own) =
      [[false, false, false, false, true, true, true, true], [true, true, true, true]] ∧
    (lanesCopy false).cpPlan (fr (lanesCopy false)) al .s2s false 4 2 6 = { p with
      kind := .cp .s2s false, units := p.units.map fun u => { u with fills := [] } } := by decide +kernel

/-- A multicast that passes every check, and one that fails each: an empty mask, a source in a hole, lines beyond the
scratchpad, a destination between lines. -/
theorem test_met_OtherOperations_cpm :
    let s := scalars [(1, 7936), (2, 0x20000), (4, 1), (5, 0), (6, 0xC00000), (7, 0x00FE0000), (8, 8064), (9, 100), (10, 0), (11, 0x00FF0000)]
      (paged (.nop al))
    let f := fr s
    let p (d a b : Reg) : Plan := s.cpmPlan f al 1 d a b
    let bad (d a b : Reg) (c : Cause) : Prop := (p d a b).lanes = 0 ∧ (p d a b).hits = (lanesOf 0xFF).map fun l => ⟨l, c, 0⟩
    (s.teamOf f.g).any (fun t => clusterSize s t == 1) = true ∧ p 0xC1 0xC2 0xC4 = { kind := .cpm 7936 (.virt 0x20000) 2 1, lanes := 0xFF } ∧
    (p 0xC1 0xCA 0xC4).kind = .cpm 7936 (.scratch 0 0 0x00FF000000000000) 2 1 ∧
    bad 0xC1 0xC2 0xC5 .protection ∧ bad 0xC1 0xC6 0xC4 .protection ∧ bad 0xC8 0xC2 0xC4 .scratch ∧ bad 0xC9 0xC2 0xC4 .misaligned := by
  decide +kernel

/-- A store that performs and waits for its access; the bits of a query's answer. -/
theorem test_met_OperationsPerform_next :
    let st := op0 .store 1 [acc 0 (.mem 0 0x20000) .core four] false
    let q := op0 (.sqry 8 3) 0xFF [] false
    let s := withOps [(5, { st with sn := 3 }), (8, st), (9, q)]
    ((FMap.get? (next (exec (.operationPerform 8 0) s)).ops 8).map fun o => (o.parts.map (·.performed), o.accs.map (·.done))) =
      some ([true], [false]) ∧
    vAt (next (exec (.operationPerform 9 0) s)) 8 7 % 65536 = 2 := by decide +kernel

/-- A sector that core 1's second of three gathered lines marks: a load of device scope and an atomic by core 0 bring home the
first two. A hold of another lane of the same gang; a read-only load of a unit without history. -/
def twoCores (mark : Nat) : State :=
  let line (n o : Nat) : GLine := ⟨0, n, Vector.replicate 64 (some (BitVec.ofNat 8 o)), 0, o, [0]⟩
  let s := withOps []
  { s.setCore 1 { s.core 1 with gather := [line 0x805 1, line 0x800 2, line 0x806 3] } with filter := [(memKey 0 0x20000 / 64, [⟨1, mark⟩])] }

theorem test_met_AccessesMade_promoted :
    let key := memKey 0 0x20000 / 64
    let s := twoCores 2
    let a (sc : Scope) : Access := acc 0 (.mem 0 0x20000) sc []
    let ld := op0 (.load 8 4 false false false false) 3 [a .device] true
    let at_ := op0 (.atomic .add 8) 3 [{ a .core with data := four }] true
    let r := s.makeAccess ld (a .device)
    let q := s.makeAccess at_ { a .core with data := four }
    FMap.get? s.filter key = some [⟨1, 2⟩] ∧ 0x20000 % 64 + 4 ≤ 64 ∧ Memory.wf s.mem = true ∧
    ((s.core 1).gather.map GLine.key).Nodup ∧ (s.core 1).gather.all (fun l => l.key == key || (s.markOf 1 l.key).isNone) = true ∧
    s.liveCore ld = some 0 ∧ (s.core 0).gather = [] ∧ s.isPoisoned (.mem 0 0x20000) 4 = false ∧
    r.1.data = List.replicate 4 (some 2) ∧ (r.2.core 1).gather = (s.core 1).gather.filter (fun l => decide (2 < l.order)) ∧
    Memory.read r.2.mem (memKey 0 (0x805 * 64)) = 1 ∧ Memory.read r.2.mem (memKey 0 (0x806 * 64)) = Memory.read s.mem (memKey 0 (0x806 * 64)) ∧
    q.1.data = List.replicate 4 (some 2) ∧ Memory.readN q.2.mem (memKey 0 0x20000) 4 = leBytes 4 (0x02020202 + 0x04030201) ∧
    (let h : State := { (withOps [(5, ld)]) with holds := [(key, ⟨0, 4, 10 ^ 9⟩)], gangs := (onGang (fun g => { g with rsv := g.rsv.set 4 (some key) }) (withOps [])).gangs }
     let o := op0 (.load 8 4 false false false true) 3 [a .core] true
     ¬((0 : Nat) = o.gang ∧ (4 : Nat) = (a .core).lane) ∧ (FMap.get? h.gangs 0).any (fun g => g.rsvOf 4 == some key) = true ∧
     h.accReady 5 o (a .core) = false) ∧
    s.history.all (fun c => c.key != memKey 0 0x20000 / 8) = true ∧ 0x20000 % 8 + 4 ≤ 8 := by decide +kernel

/-- Barriers whose awaited phase is over in a later clock, and is not; a claim whose line is not full, or is full or pending. -/
theorem test_met_Barriers_Lines_waits :
    (let o (k : BarKind) (tok at_ : Nat) := { op0 (.bar k 3 8 0) 1 [] true with tok := tok, at_ := at_ }
     let s (o : Op) : State := { onTeam (fun t => { t with bars := [(3, { now := { ph := 8 } })] }) (withOps [(5, o)]) with now := 10 ^ 6 }
     let z := s (o .awt 7 0)
     0 < z.clock 0 ∧ (z.barStart 0 3).ph = 8 ∧ (next (exec (.operationComplete 5 0 0) z)).ops = [] ∧
     (next (exec (.operationComplete 5 0 0) (s (o .wt 7 0)))).ops = [] ∧ idle (.operationComplete 5 0 0) (s (o .awt 8 0)) = true ∧
     idle (.operationComplete 5 0 0) (s (o .wt 7 (z.clock 0))) = true) ∧
    (let a : Access := acc 0 (.scratch 0 7936) .core (List.replicate 16 (some 1))
     let s (k : OpKind) (l : Line) : State :=
       { onTeam (fun t => { t with lines := [(62, l)] }) (withOps [(5, op0 k 1 [a] true)]) with now := 74 }
     idle (.lineClaim 5) (s (.ldk 8) { full := true, sfull := true }) = false ∧ idle (.lineClaim 5) (s .stf {}) = false ∧
     idle (.lineClaim 5) (s (.ldk 8) {}) = true ∧ idle (.lineClaim 5) (s .stf { full := true, sfull := true }) = true ∧
     idle (.lineClaim 5) (s .stf { pend := 1, spend := 1 }) = true) := by decide +kernel

/-- Timers before and after their end in base ticks. -/
theorem test_met_SpawnBins_timers :
    (let s := binned [th0] (64 * 75 - 1)
     let l := binned [th0] (64 * 75)
     let bin (s : State) := (FMap.getD (next (exec (.binTimerExpiry 0 3) s)).teams 0 default).bins.map fun b => (b.2.threads.length, b.2.flush)
     s.now < th0.at_ + 64 * 1 * 75 ∧ th0.at_ + 64 * 1 * 75 ≤ l.now ∧ idle (.binTimerExpiry 0 3) s = true ∧ bin l = [(0, false)] ∧
     bin (noQuads l) = [(1, true)]) ∧
    (let b : TrapBin := ⟨0, 0x10000, [th0]⟩
     let s (n : Nat) : State := { (withOps []).setCore 0 { (withOps []).core 0 with trapBin := some b } with now := n }
     idle (.trapBinTimer 0) (s (1024 * 75 - 1)) = true ∧ ((next (exec (.trapBinTimer 0) (s (1024 * 75)))).core 0).trapBin = none ∧
     ((next (exec (.trapBinTimer 0) (noQuads (s (1024 * 75))))).core 0).trapWait = [b]) := by decide +kernel

/-- A launch of the host that is held; 65,536 grids of a context. -/
theorem test_met_GridsAndTeams_held :
    (let s := onCtx (fun x => { x with dirHeld := some (.mem 0 0x20000) }) directed
     (s.ctx 0).dirHeld.isSome = true ∧ ((next (exec (.dirstart 0 0x20000) s)).ctx 0).dirStatus = 1) ∧
    (let s := directed
     (s.versionFor 0 (LaunchRec.parse recordBytes)).any (fun v => (LaunchRec.parse recordBytes).ok v.2) = true ∧ (s.ctx 0).dirHeld = none) ∧
    ∀ g : Grid, g.ctx = 0 → 65536 ≤ ((List.replicate 65536 (7, g)).filter fun x : Nat × Grid => x.2.ctx == 0).length := by
  refine ⟨by decide +kernel, by decide +kernel, fun g h => ?_⟩
  rw [List.filter_replicate, if_pos (by simp [h]), List.length_replicate]

/-- The directed machine, team 0 saved, awake or asleep, its grid on every die. -/
def savedTeam (asleep : Bool) : State :=
  let s := { directed with grids := directed.grids.map fun (x : Nat × Grid) => (x.1, { x.2 with lr := { x.2.lr with dmask := 0xFF } }) }
  onUnit (fun u => { u with stop := if asleep then .migr else .run }) (onTeam (fun t => { t with life := .saved }) s)

/-- What a decision places: a saved team that is awake, a banner cluster of 2 sites, a saved team below a starved head and one
that sleeps, a Pennant's cluster. -/
theorem test_met_GridsAndTeams_order :
    (let s := savedTeam false
     let t := FMap.getD s.teams 0 default
     s.running 0 = true ∧ s.savedTeams 0 0 = [] ++ (0, t) :: [] ∧ s.classBlocked 0 (s.teamClass t) = false ∧
     fitting (s.restore 0 0 t) = true ∧ (FMap.getD (next (exec (.placementDecision 0 0) s)).teams 0 default).life = .resident ∧
     (let h := s.setDie 0 { s.die 0 with starved := [3], queues := [] }
      (h.die 0).starved = [3] ∧ s.teamClass t < 3 ∧ (h.headFit 0 0 3).isNone = true ∧ fitting (h.decide' 0 0) = false)) ∧
    (let s := savedTeam true
     let e := s.setDie 0 { s.die 0 with queues := [] }
     (s.sleepers 0 0).map (·.1) = [0] ∧ fitting (e.decide' 0 0) = false ∧ (directed.sleepers 0 0) = []) ∧
    (let s := { directed with grids := directed.grids.map fun (x : Nat × Grid) => (x.1, { x.2 with lr := { x.2.lr with kind := 0, cw := 2, ch := 1 } }) }
     let g := FMap.getD s.grids 0 default
     let t := next (exec (.placementDecision 0 0) s)
     s.savedTeams 0 0 = [] ∧ g.lr.kind ≠ 1 ∧
     (s.firstRect 0 g.lr.cw g.lr.ch 0 g.version g.header (gangSizes g.header (g.lr.groups g.header))).any (fun l => l.map (·.1) == [0, 1]) = true ∧
     (FMap.getD t.grids 0 default).placed = g.placed + 1 ∧
     (t.teams.drop 1).map (fun x => (x.2.core, x.2.rank, x.2.cluster)) = [(0, 0, 1), (1, 1, 1)]) := by decide +kernel

/-- A team that a fence names: there is room in its context's save area, and there is none. A queue head that has waited. -/
theorem test_met_GridsAndTeams_saves :
    (let s (n : Nat) : State := let b := onCtx (fun x => { x with saveArea := n }) (onUnit (fun u => { u with stop := .wpark }) directed)
       b.setCore 0 { b.core 0 with copyUp := false }
     let t := FMap.getD (s 0).teams 0 default
     (s 0).savable 0 t = true ∧ (s 0).evictForFence 0 t = true ∧ (s 0).areaRoom 0 t = false ∧ (s (2 ^ 20)).areaRoom 0 t = true ∧
     idle (.teamSave 0) (s 0) = true ∧ (FMap.getD (next (exec (.teamSave 0) (s (2 ^ 20)))).teams 0 default).life = .saved) ∧
    (let s := { directed with now := 2 ^ 20 * 75 }
     FMap.get? (s.die 0).headAt (4 * 0 + 2) = some 0 ∧ 0 + 2 ^ 20 * 75 ≤ s.now ∧
     ((next (exec (.queueHeadStarvation 0 0 2) s)).die 0).starved = [2]) := by decide +kernel

/-- A rendezvous that no move can end at its deadline, one that ends there, and the goal a move fixes and a resume follows. -/
theorem test_met_EquivalenceAndMigration_goal :
    (let s := rendezvous .blocked 1000
     FMap.sorted s.gangs = true ∧ FMap.sorted s.ops = true ∧ 1000 ≤ s.now ∧
     (let z : State := { s with gangs := s.gangs ++ [(1, { gang0 s with grpn := 1, slot := 8 })] }
      let t := next (exec (.migrationBudgetExpiry 0) z)
      fitting (z.tryMove 0) = false ∧ z.migrOp 0 = s.migrOp 0 ∧ (FMap.getD t.teams 0 default).mig = none ∧ t.ops = [] ∧
      (unit0 t).stop = .run ∧ pAt t 3 = 0)) ∧
    (let s := regs [(2, 77)] (rendezvous .blocked 999)
     let t := next (exec (.migrationMove 0) s)
     let m := FMap.getD t.teams 0 default
     m.life = .moving ∧ (m.mig.bind (·.goal)).any (fun g => g.pc == 0x30000 && g.pd == 4) = true ∧ coreKind m.core = .pennant ∧
     vAt t 3 7 = 77 ∧ vAt t 2 7 = 0 ∧
     (let l := { t with now := m.resumeAt }
      let r := next (exec (.migrationResume 0) l)
      (FMap.getD r.teams 0 default).life = .resident ∧ (unit0 r).ipc = 0x30010 ∧ (unit0 r).stop = .run ∧ pAt r 4 = 0xFF)) := by
  decide +kernel

/-- A device that is ready and one that is not; a second `INVAL` while one is busy; a halted context that ends. -/
theorem test_met_ContextsAndInvalidation_ready :
    let s := withOps []
    let r : State := { s with dev := { s.dev with stat := 1 } }
    s.dev.stat.getLsbD 0 = false ∧ r.dev.stat.getLsbD 0 = true ∧ (r.ctx 63).life = .free ∧
    (let b := invalidating 0x8000000000020000
     (b.ctx 0).inval.getLsbD 63 = true ∧ ((next (exec (.inval 0 0x30001) b)).ctx 0).inval = 0x8000000000030001 ∧
     ((next (exec (.inval 0 0x30001) b)).core 0).tlb.map (·.page) = [1, 2]) ∧
    (let h := onCtx (fun x => { x with life := .halted }) (withOps [])
     ((next (exec (.ctxEnd 0) h)).ctx 0).life = .ended ∧ (next (exec (.ctxEnd 0) h)).teams = []) := by decide +kernel

/-- A read through BAR2, a peer's atomic, and one that fails. -/
theorem test_met_HostCommands_replies :
    (let s := commanded false
     let t := next (exec (.bar2Write 0x20000 [1, 2, 3, 4]) s)
     (next (exec (.bar2Read 0x20001 2) t)).dev.lastRead = [2, 3] ∧
     (next (exec (.systemWindowAccessFromPeer (homeOf 0 0x20000) 0x20000 (.atomic .add false 1 0)) t)).dev.peerReply = some [1, 2, 3, 4] ∧
     (next (exec (.systemWindowAccessFromPeer 0 (2 ^ 39) (.load 4)) t)).dev.peerReply = none) ∧
    ((next (exec (.registerWrite 0x20018 0x123000) (commanded false))).ctx 0).root = 0x123000 := by decide +kernel

/-- A unit that is idle and first, one that is not idle, one that is not first; the units a report counts. -/
theorem test_met_ErrorsAndTests_units :
    let s := withOps []
    let t (l : FMap TestLog) (f : List Nat) : State := { s with dev := { s.dev with tests := l, testFirst := f } }
    let m := unitNum (.matrix 1)
    (t [] []).idle (.matrix 1) = true ∧ (t [] []).testNext = none ∧ (t [] [m]).testNext = some m ∧
    s.idle (.lanes 0 (gang0 s).quad 0) = false ∧ (∃ k, (t [] [m]).testNext = some k ∧ k ≠ unitNum (.matrix 2)) ∧
    ((next (exec (.testSlice (.matrix 1) false) (t [(m, { checked := true })] [m]))).core 1).matrixUp = false ∧
    ((next (exec (.testSlice (.matrix 1) true) (t [(m, { checked := true })] [m]))).core 1).matrixUp = true ∧
    (next (exec (.testSlice (.matrix 1) true) (t [] [m]))).dev.testFirst = [] ∧
    (next (exec (.correctedError (.copy 3)) s)).dev.corrected = [(0x20003, 1)] ∧
    (FMap.get? ((slotted [(7, matSlot 1)]).core 0).slots 7).isSome = true := by decide +kernel

/-- A troupe of both groups is named; a complete troupe's `mma` arrives, is granted leave and released; a block step and the
last step. -/
theorem test_met_SystemFormsComplete_troupes :
    (let s := scalars [(1, 0x10002)] (trouped .run .run)
     let v : Word := (s.rdU (fr s) 0xC1 1).setWidth 32
     s.frame = some (fr s) ∧ (s.headerOf (fr s).g).any (fun x => x.team == 2) = true ∧ (fr s).g.trap = false ∧
     2 ≤ v.toNat % 8 ∧ v.toNat % 8 ≤ 6 ∧ v.toNat / 2 ^ 16 % 128 = 1 ∧ v.toNat < 2 ^ 23 ∧ v.toNat / 2 ^ 14 % 4 = 0 ∧
     v.toNat / 2 ^ 3 % 16 = 0 ∧ v.toNat / 2 ^ 7 % 128 + 1 < 2 ∧ (fr s).groups = [0] ∧ (fr s).g.grpn = 0 ∧
     (gang0 (next (exec (.trp al 0xC1) s))).trp = 0x10002) := by decide +kernel

theorem test_met_SystemFormsComplete_mma :
    (let s := trouped .run .troupe
     let f := fr s
     let held := s.put { f with u := { f.u with stop := .troupe } }
     s.frame = some f ∧ f.g.trp ≠ 0 ∧ s.atOdds f = [] ∧ held.troupe f.g.team f.g.trp .troupe = some ((0, 0, 0) :: [(1, 0, 0)]) ∧
     held.mmaCheck [(0, 0, 0), (1, 0, 0)] mmaWord = none ∧ (s.core 0).slots = [] ∧
     s.gangs.all (fun g => g.2.units.all fun u => u.stop != .mleave) = true ∧ (s.die 0).leave = [] ∧ FMap.sorted s.gangs = true ∧
     (let t := next (exec (.troupeRelease 0 0) (next (exec (.leaveGrant 0) (next (exec mmaWord s)))))
      (t.core 0).slots.map (fun q => (q.1, q.2.step, q.2.members)) = [(0, 0, [(0, 0), (1, 0)])] ∧
      t.gangs.map (fun g => g.2.units.map fun u => (u.ipc, u.stop, u.leave)) = [[(0x10008, .run, false)], [(0x10008, .run, false)]])) ∧
    (let m := matSlot 3
     let s := slotted [(7, m)]
     (s.core 0).matBusy ≤ s.clock 0 ∧ s.nextSlot 0 = some (7, m) ∧ m.bad = false ∧ m.checksOk = true ∧ s.glitches = [] ∧
     (List.range 16).all (fun i => (List.range 16).all fun j => !(m.element 3 i j).2) = true ∧
     ((next (exec (.mmaBlockStep 0) s)).core 0).slots.map (fun q => q.2.step) = [4] ∧
     ((next (exec (.mmaComplete 0 7) (slotted [(7, matSlot 4)]))).core 0).slots = []) := by decide +kernel

theorem test_met_SystemFormsComplete_points :
    (let s := bench (.eqp al 5)
     s.frame = some (fr s) ∧ s.writing (fr s).g = false ∧ (gang0 (next (exec (.eqp al 5) s))).eqid = 5) ∧
    (let w := formed 0x20008
     w.frame = some (fr w) ∧ w.eqpBefore (fr w) = some 5 ∧ coreKind (w.coreOf (fr w).g) = .banner ∧ (fr w).g.ended = false ∧
     w.migrOp (fr w).gid = none ∧ w.ops = [] ∧ (w.ctx (w.ctxOf (fr w).g)).ctl.getLsbD 5 = false ∧
     pAt (next (exec (.migr al 3 .banner 0xC1) w)) 3 &&& 0xFF = 0xFF) ∧
    (let s := bench (.vqry al 1 0xCE 0xCA)
     s.frame = some (fr s) ∧ Frame.part (fr s) al ≠ 0 ∧
     (unit0 (next (exec (.vqry al 1 0xCE 0xCA) s))).ipc = 0x10008) ∧
    (let s (ctl : DWord) (i : Instr) : State := onCtx (fun x => { x with ctl := ctl, bp := x.bp.set 2 (2 ^ 63 + 2 ^ 32 + 0x10000) }) (bench i)
     let b := s 0x150 (.brk al 5)
     let at_ (i : Instr) (ctl : DWord) := (unit0 (next (exec i (s ctl i)))).ipc
     b.frame = some (fr b) ∧ (b.ctx 0).life = .running ∧ (b.ctx 0).down = none ∧ (b.ctx 0).ctl.getLsbD 4 = true ∧
     at_ (.brk al 5) 0x150 = 0x10008 ∧ at_ (.brk al 5) 0 = 0x10008 ∧ at_ (.trc al 5 0xC1) 0x40 = 0x10008 ∧
     Legal (.pmk al true 0xC4 0xC1) (fr b) = true ∧ (b.ctx 0).ctl.getLsbD 8 = true ∧ at_ (.pmk al true 0xC4 0xC1) 0x100 = 0x10008 ∧
     b.breakpoint (fr b) = some 2 ∧ (unit0 (next (exec .breakpointStop b))).bpSkip = some 0x10000) ∧
    (let h := onCtx (fun x => { x with life := .halting }) (bench (.nop al))
     h.ops = [] ∧ h.gangs.all (fun g => g.2.results.isEmpty && !h.redoing g.1) = true ∧
     ((next (exec (.contextHalted 0) h)).ctx 0).life = .halted) ∧
    (let s := bench (.halt al 0xF0)
     let t := next (exec (.halt al 0xF0) s)
     s.frame = some (fr s) ∧ Frame.part (fr s) al ≠ 0 ∧ (s.ctx 0).down = none ∧ (t.ctx 0).down.isSome = true ∧
     ((next (exec (.flagDown 0) t)).ctx 0).life = .halting) := by decide +kernel

/-- Landings, a claim, a retired grid, a decision and a save, from the states of the tests above. -/
theorem test_met_SystemFormsComplete_steps :
    (let u : CopyUnit := ⟨0, [⟨0, .scratch 0 0 0, .scratch 0 8188 0, 4, [true, true, true, true]⟩], [], none, false⟩
     let o := { op0 (.cp .s2s false) 3 [] true with units := [u, u] }
     let s := withOps [(5, o)]
     FMap.get? s.ops 5 = some o ∧ o.parts.any (fun p => p.grp == u.grp && p.performed) = true ∧
     (FMap.get? s.teams 0).any (fun t => t.life != .moving && Memory.wf t.mem) = true ∧ s.isPoisoned (.scratch 0 0) 4 = false ∧
     (FMap.get? (next (exec (.transferUnitLand 5 0) s)).ops 5).map (fun o => o.units.map (·.done)) = some [true, false]) ∧
    (let o := { op0 (.cpm 7936 (.scratch 0 0 0) 2 1) 0xFF [] true with pending := [(0, 0), (0, 1)], buf := List.replicate 256 7 }
     let s := withOps [(5, o)]
     o.claimed = false ∧ s.ops.map (·.1) = [5] ∧ (s.cpmLines o o.pending).all (fun l => s.lineEmpty l.1 l.2 &&
       (FMap.get? s.teams l.1).any fun t => t.life != .moving) = true ∧
     (FMap.get? (next (exec (.multicastClaim 5) s)).ops 5).map (·.claimed) = some true ∧
     (let c := withOps [(5, { o with claimed := true })]
      c.cpmLines o [(0, 1)] = [(0, 63)] ∧ ((next (exec (.multicastLineLand 5 0 1) c)).lineOf 0 63).full = true)) ∧
    (let s := directed
     let g := FMap.getD s.grids 0 default
     let o := { s with
        grids := [(0, { g with placed := 2, recLoc := .mem 0 0x20000 })], gangs := []
        teams := s.teams.map fun (x : Nat × Team) => (x.1, { x.2 with life := .exited }) }
     (s.ctx g.ctx).dirHeld = none ∧ g.op = none ∧ Memory.wf o.mem = true ∧ 0x20000 % 256 = 0 ∧ (next (exec (.gridRetire 0) o)).grids = []) ∧
    (let s := directed
     s.running 0 = true ∧ s.ctxs.all (fun x => x.1 == 0 || !s.running x.1) = true ∧ s.savedTeams 0 0 = [] ∧ (s.die 0).starved = [] ∧
     FMap.getD (s.die 0).queues (4 * 0 + 2) [] = ⟨0, 1⟩ :: [] ∧ FMap.getD (s.die 0).queues (4 * 0 + 3) [] = [] ∧
     (next (exec (.placementDecision 0 0) s)).teams.length = 2) ∧
    (let b := onCtx (fun x => { x with saveArea := 2 ^ 20 }) (onUnit (fun u => { u with stop := .wpark }) directed)
     let s := b.setCore 0 { b.core 0 with copyUp := false }
     let t := FMap.getD s.teams 0 default
     s.savable 0 t = true ∧ s.evictForFence 0 t = true ∧ s.areaRoom 0 t = true ∧
     (FMap.getD (next (exec (.teamSave 0) s)).teams 0 default).life = .saved) := by decide +kernel

/-- FloatValues: the values 0, 1, −1 and 4 of binary32, and what the special cases and conversions give, worked out by hand:
1/0, the root of −1 and of 4, 2 to the 3rd, log2 of 8, 2.5 rounded to even, infinity to an integer, 1.5 and −2.5 to integers. -/
theorem test_met_FloatValues :
    (fmt32.holds 0 0 ∧ fmt32.holds 0x3F800000 1 ∧ fmt32.holds 0xBF800000 (-1) ∧ fmt32.holds 0x40800000 4) ∧
    (fltRcp .f32 .rne .inf 0 = (0x7F800000, false) ∧ fltSqrt .f32 .rne 0xBF800000 = (0x7FC00000, false) ∧
      fltSqrt .f32 .rne 0x40800000 = (0x40000000, false) ∧ fltEx2 .f32 .rne .inf 0x40400000 = (0x41000000, false) ∧
      fltLg2 .f32 .rne 0x41000000 = (0x40400000, false) ∧ fltRnd .f32 .rne 0x40200000 = (0x40000000, false) ∧
      cvtVal .i32 .f32 .rz .sat 0x7F800000 0 = (0x7FFFFFFF, false) ∧ cvtVal .i32 .f32 .rdn .sat 0x3FC00000 0 = (1, false) ∧
      cvtVal .n32 .f32 .rne .sat 0xC0200000 0 = (0, false) ∧ (cvtVal .n32 .f32 .rne .trap 0xC0200000 0).2 = true ∧
      cvtVal .f16x2 .f32 .rne .inf 0x3F800000 0x40000000 = (0x40003C00, false)) := by
  refine ⟨⟨⟨by decide, false, 0, -149, by decide, by norm_num⟩, ⟨by decide, false, 2 ^ 23, -23, by decide, by norm_num⟩,
    ⟨by decide, true, 2 ^ 23, -23, by decide, by norm_num⟩, ⟨by decide, false, 2 ^ 23, -21, by decide, by norm_num⟩⟩, by decide +kernel⟩


/-! ### Forms and clauses beside those above -/

/-- Gang 0's number 5 waits for a recompute of its word. -/
def toRedo (s : State) : State := s.setCore 0 { s.core 0 with quads :=
  [(0, { redo := [{ id := 5, gang := 0, unit := 0, pc := 0x10000, lanes := 1, hm := false, clk := 0, at_ := 0, cost := 1, late := 0, again := false }] })] }

/-- Context 0 has halted. -/
def haltedNow (s : State) : State := onCtx (fun x => { x with life := .halted }) s

/-- Results and operations that no recompute holds, and one that a recompute does. -/
theorem test_met_OperationsPerform_redo :
    let o := op0 .store 1 [acc 0 (.mem 0 0x20000) .core four] false
    let s := withOps [(5, o)]
    s.redoHeld 0 5 = false ∧ (toRedo s).redoHeld 0 5 = true ∧ (toRedo s).redoHeld 0 6 = false ∧ (toRedo s).redoHeld 1 5 = false ∧
    FMap.get? (toRedo s).ops 5 = some o ∧ idle (.operationPerform 5 0) (toRedo s) = true ∧ idle (.operationPerform 5 0) s = false ∧
    (let r : Result := { pc := 0x10000, unit := 0, due := some 3, writes := [⟨.v 1, 0xFF, uniform 7⟩], faults := 0, cause := .overflow }
     let t := onGang (fun g => { g with results := [(5, r)] }) ({ withOps [] with now := 225 })
     t.redoHeld 0 5 = false ∧ vAt (next (exec (.windowedComplete 0 5) t)) 1 7 = 7 ∧ idle (.windowedComplete 0 5) (toRedo t) = true) := by
  decide +kernel

/-- The comparison with infinities and the class bits 1 and 2, at the ends of their ranges; `sar.h2` by 15. -/
theorem test_met_MinMaxCompareClassify_ends :
    (fmt32.infty true = 0xFF800000 ∧ fmt32.cmp .lt 0xFF800000 0xFF7FFFFF = true ∧ fmt32.cmp .ge 0x7F800000 0x7F800000 = true ∧
      fmt32.cmp .ne 0xFF800000 0x7F800000 = true) ∧
    (fmt32.cls 0xFF7FFFFF = 2 ∧ fmt32.cls 0x80800000 = 2 ∧ fmt32.cls 0x807FFFFF = 4 ∧ fmt32.cls 0x80000001 = 4) ∧
    aluSar .h2 0x80004000 0x000F000F = 0xFFFF0000 := by decide +kernel

/-- Handler mode with 256 words counted and with 255; a word that issues. -/
theorem test_met_PolicyFaults_count :
    let s (n : Nat) : State := onUnit (fun u => { u with inv := n }) (benchHm (.nop al))
    [255, 256].all (fun n => (fr (s n)).u.hm && !rotates (fr (s n)) && !raises (fr (s n)) && (fr (s n)).u.inv == n) = true ∧
    [255, 256].all (fun n => (match (s n).act (fr (s n)) with
      | .run .policyFault _ => n == 256
      | _ => n == 255)) = true ∧
    ((s 255).frameOf 0 0).any (fun x => x.u.hm) = true ∧
    (((s 255).spendSlot 0 0 1 0 1).frameOf 0 0).any (fun y => y.u.inv == 256) = true := by decide +kernel

/-- `orw` of a scalar, of predicates, of a special register, and of a lane in the second unit of a split gang. -/
theorem test_met_OriginWords_classes :
    let s (i : Instr) := withOrigin i
    let legal (c : OrClass) (r : Reg) : Bool := let i : Instr := .orw l4 c r 4 9
      Legal i (fr (s i)) && !(s i).originBusy (fr (s i)) l4 c r 4 && !(s i).outOfWindow (fr (s i)) c r
    let after (c : OrClass) (r : Reg) : Gang := FMap.getD (next (exec (.orw l4 c r 4 9) (s (.orw l4 c r 4 9)))).gangs 1 default
    legal .s 0xC5 = true ∧ legal .p 0 = true ∧ Legal (.orw l4 .sr 0x02 4 9) (fr (s (.orw l4 .sr 0x02 4 9))) = false ∧
    placeVal (after .s 0xC5) (.s 5) 0 = 0x20000 ∧ placeVal (after .p 0) (.p 17) 3 = 1 ∧ placeVal (after .p 0) (.p 16) 3 = 0 ∧
    (let i : Instr := .orw l4 .v 7 4 9
     let w : State := { s i with gangs := FMap.adjust (s i).gangs 1 fun g => { g with units := { UnitState.start 8 0 0x10000 with groups := 0 } :: g.units } }
     let o := FMap.getD w.gangs 1 default
     (w.laneOrigin (fr w) 4 4).map (fun o => (o.1, o.2.2)) = some (1, 3) ∧
     (w.laneOrigin (fr w) 4 4).any (fun x => (o.units[x.2.1]?).isSome) = true ∧ w.originBusy (fr w) l4 .v 7 4 = false ∧
     LaneVec.at' ((FMap.getD (next (exec i w)).gangs 1 default).vreg 7) 3 = 0x20000) := by decide +kernel

/-- The holder's own access; an operation of a halted context; a sector that four lanes write whole, the last of them now,
in scratchpad and at device scope, and one of which a lane is still to come. -/
theorem test_met_AccessesMade_held :
    (let a := acc 4 (.mem 0 0x20000) .core four
     let key := memKey 0 0x20000 / 64
     let h : State := { onGang (fun g => { g with rsv := g.rsv.set 4 (some key) }) (withOps []) with holds := [(key, ⟨0, 4, 99⟩)] }
     let o := op0 (.stc 8) 0x10 [a] true
     o.kind.reserving = true ∧ FMap.get? h.holds a.loc.granule = some ⟨0, 4, 99⟩ ∧ (gang0 h).rsvOf 4 = some a.loc.granule ∧
     (0 : Nat) = o.gang ∧ (4 : Nat) = a.lane ∧ h.accReady 5 o a = true) ∧
    (let o := op0 .store 1 [acc 0 (.mem 0 0x20000) .core four] true
     (withOps [(5, o)]).opFrozen o = false ∧ (haltedNow (withOps [(5, o)])).opFrozen o = true ∧
     idle (.operationComplete 5 0 1) (haltedNow (withOps [(5, o)])) = true) ∧
    [true, false].all (fun last =>
      let place (mem : Bool) (l : Nat) : Loc := if mem then .mem 0 (0x20000 + 16 * l) else .scratch 0 (7936 + 16 * l)
      let a (mem : Bool) (l : Nat) : Access :=
        { acc l (place mem l) (if mem then .device else .core) (List.replicate 16 (some 1)) with size := 16, done := l < 2 || (l == 2 && last) }
      let o (mem : Bool) := op0 .store 0xF ((List.range 4).map (a mem)) true
      let s (mem : Bool) : State := { onTeam (fun t => { t with poison := [124] }) (withOps [(5, o mem)]) with poison := [memKey 0 0x20000 / 64] }
      let m := ((s true).makeAccess (o true) (a true 3)).2
      let t := ((s false).makeAccess (o false) (a false 3)).2
      (m.poison.isEmpty == last) && ((FMap.getD t.teams 0 default).poison.isEmpty == last)) = true := by decide +kernel

/-- A clock's updates that turn a phase and overflow, and that do neither, at 65,535 and one beyond; a halted context. -/
theorem test_met_BarrierOperations_held :
    (let b : BarCounts := { base := 8, exp := 65535, arr := 65527, nxt := 65530, ph := 65535 }
     b.clock [.arrive 8 1] = { base := 8, exp := 65535, arr := 0, nxt := 0, ph := 0, ovr := true } ∧
     b.clock [.arrive 7 0] = { b with arr := 65534 } ∧
     (b.clock [.expect 2 false, .arrive 7 0]).ovr = true ∧
     (b.clock [.expect 6 true]) = { b with nxt := 65535, ovr := true } ∧ (b.clock [.expect 5 true]) = { b with nxt := 65535 }) ∧
    (let o := op0 (.bar .wt 3 8 7) 0xFF [] true
     let s := withOps [(5, o)]
     s.opFrozen o = false ∧ (haltedNow s).opFrozen o = true) := by decide +kernel

/-- A claim within a clock of its core, as that clock ends, and in a halted context. -/
theorem test_met_LinesHoldsAndGatherBuffer_claims :
    let o := op0 .stf 1 [acc 0 (.scratch 0 7936) .core (List.replicate 16 (some 1))] true
    let s := withOps [(5, o)]
    let q : State := { s with now := 74 }
    coreKind (s.opCore o) = .banner ∧ (s.now + 1) % 75 ≠ 0 ∧ idle (.lineClaim 5) s = true ∧
    (q.now + 1) % 75 = 0 ∧ q.opFrozen o = false ∧ q.claimServed 5 o = true ∧ (next (exec (.lineClaim 5) q)).ops = [] ∧
    (haltedNow q).opFrozen o = true ∧ idle (.lineClaim 5) (haltedNow q) = true := by decide +kernel

/-- A transfer of `copy` whose destination is poisoned, and one of `add` that is dropped there. -/
theorem test_met_CollectiveEngines_copy :
    let run (op : XgoOp) : State :=
      let t : Transfer := ⟨0, 5, 3, op, 0x2003C, 0x20080, 4, 0xFF, []⟩
      { engined fun e => { e with running := some command, inflight := [t] } with poison := [memKey (homeOf 0 0x20080) 0x20080 / 64] }
    let after (op : XgoOp) : State := next (exec (.collectiveTransferLand 0 1 3 0) (run op))
    ((run .copy).engine 0 1).inflight.map (·.op) = [.copy] ∧ (run .copy).isPoisoned (.mem (homeOf 0 0x2003C) 0x2003C) 4 = false ∧
    (run .copy).isPoisoned (.mem (homeOf 0 0x20080) 0x20080) 4 = true ∧ FMap.get? (run .copy).filter (memKey (homeOf 0 0x2003C) 0x2003C / 64) = none ∧
    [XgoOp.copy, .addBf16x2].map (fun op => ((after op).engine 0 1).inflight.isEmpty && ((after op).engine 0 1).xerr == 0) = [true, false] := by
  decide +kernel

/-- A complete troupe of a context that halts is not released. -/
theorem test_met_MatrixUnit_halting :
    let s := onCtx (fun x => { x with life := .halting }) (trouped .mleave .mleave)
    (s.ctx (s.ctxOf (gang0 s))).life ≠ .running ∧ idle (.troupeRelease 0 0) s = true ∧
    ((trouped .mleave .mleave).ctx ((trouped .mleave .mleave).ctxOf (gang0 (trouped .mleave .mleave)))).life = .running := by decide +kernel

/-- Timers whose end has come, in a halted context and in one that runs. -/
theorem test_met_SpawnBins_frozen :
    let b : TrapBin := ⟨0, 0x10000, [th0]⟩
    let s := binned [th0] (1024 * 75)
    let s := s.setCore 0 { s.core 0 with trapBin := some b }
    s.frozen 0 = false ∧ s.teamFrozen 0 = false ∧ (haltedNow s).frozen 0 = true ∧ (haltedNow s).teamFrozen 0 = true ∧
    idle (.binTimerExpiry 0 3) (haltedNow s) = true ∧ idle (.trapBinTimer 0) (haltedNow s) = true ∧
    idle (.binTimerExpiry 0 3) s = false ∧ idle (.trapBinTimer 0) s = false := by decide +kernel

/-- A record that `DIRSTART` accepts: the grid's clusters go to die 0's queue of the header's class; no image serves it, no
die, no core; the grid of a halted context. -/
theorem test_met_GridsAndTeams_dirstart :
    let s := { directed with nextId := 100 }
    let r := LaunchRec.parse recordBytes
    let x := benchHeader
    let native (k : Option Nat) : State := onCtx (fun y => { y with versions := y.versions.map fun v => (v.1, { v.2 with
      images := v.2.images ++ [{ (v.2.images.headD default) with kind := .pennant }], chosenP := k }) }) s
    let n := native (some 1)
    let t := next (exec (.dirstart 0 0x20000) n)
    (r.kind = 1 ∧ (n.versionFor 0 r).any (fun v => r.ok v.2 && (v.2.chosen .pennant).bind (fun i => i.header r.func) == some x) = true ∧
      n.diesOf r.dmask ≠ [] ∧ canEver .pennant x (gangSizes x (r.groups x)) = true ∧ (n.grids.map (·.1)) = [0] ∧
      (n.ctx 0).dirGrid = none ∧ (n.ctx 0).dirHeld = none ∧ n.vaLoc 0 0x20000 true = some (.mem (homeOf 0 0x20000) 0x20000) ∧ n.filter = []) ∧
    (t.ctx 0).dirGrid = some 100 ∧ (FMap.get? t.grids 100).map (fun g => (g.lr, g.placed)) = some (r, 0) ∧
    FMap.getD (t.die 0).queues 1 [] = [⟨100, 0⟩] ∧ FMap.getD (t.die 0).queues 2 [] = [⟨0, 1⟩] ∧
    (((native none).versionFor 0 r).any (fun v => ((v.2.chosen .pennant).bind fun i => i.header r.func).isNone) = true ∧
      n.diesOf 0 = [] ∧ canEver .pennant x (List.replicate 16 8) = false) ∧
    ((haltedNow n).frozen 0 = true ∧ n.frozen 0 = false ∧ idle (.gridRetire 0) (haltedNow n) = true) := by decide +kernel

/-- `migr` in a team one of whose gangs has a region open. -/
theorem test_met_EquivalenceAndMigration_region :
    let b := formed 0x20008
    let w := onGang (fun g => { g with regions := [default] }) b
    w.frame = some (fr w) ∧ w.eqpBefore (fr w) = some 5 ∧ coreKind (w.coreOf (fr w).g) = .banner ∧ w.regionOpen 0 = true ∧
    (fr w).g.ended = false ∧ w.migrOp (fr w).gid = none ∧ w.ops = [] ∧ b.regionOpen 0 = false ∧
    pAt (next (exec (.migr al 3 .pennant 0xC1) w)) 3 &&& 0xFF = 0 ∧ (next (exec (.migr al 3 .pennant 0xC1) w)).ops = [] := by decide +kernel

/-- A bin with room for two more threads and one that is full; a `cpc` to a named engine, to the least laden one, and to a
full queue. -/
theorem test_met_OperationsPerform_spawn_cpc :
    (let o := op0 (.spawn 3 [List.replicate 8 7, List.replicate 8 9]) 3 [] false
     let s (n : Nat) : State := { onTeam (fun t => { t with bins := [(3, ⟨0x10000, 8, 0, List.replicate n th0, false⟩)] }) (withOps [(5, o)]) with now := 9 }
     let bin (s : State) := (FMap.get? (FMap.getD s.teams 0 default).bins 3).map fun b => b.threads.drop 5
     (s 5).opFrozen o = false ∧ (s 5).redoHeld 0 5 = false ∧ bin (next (exec (.operationPerform 5 0) (s 5))) =
       some [⟨List.replicate 8 7, 9⟩, ⟨List.replicate 8 9, 9⟩] ∧ (next (exec (.operationPerform 5 0) (s 5))).ops = [] ∧
     idle (.operationPerform 5 0) (s 64) = true) ∧
    (let o (sel : Nat) := op0 (.cpc 2 sel [1, 2, 3, 4]) 1 [] false
     let s (sel n1 : Nat) : State :=
       let s := withOps [(5, o sel)]
       [0, 1, 2, 3].foldl (fun s k => s.setEngine 0 k { s.engine 0 k with up := k != 0, queue := List.replicate (if k = 1 then n1 else k - 1) command }) s
     let t (sel n1 : Nat) : State := next (exec (.operationPerform 5 0) (s sel n1))
     [(1, 5), (2, 5), (3, 5), (4, 0), (4, 1), (4, 5)].map (fun x => [1, 2, 3].filter fun k =>
       ((t x.1 x.2).engine 0 k).queue.length != ((s x.1 x.2).engine 0 k).queue.length) = [[1], [2], [3], [1], [1], [2]] ∧
     (((t 1 5).engine 0 1).queue.drop 5).map (fun c => (c.op, c.idx, c.args, c.issuer)) = [(5, 2, [1, 2, 3, 4], 3 * 2 ^ 19)] ∧
     (FMap.get? (t 1 5).ops 5).map (fun o => o.parts.map (·.performed)) = some [true] ∧
     idle (.operationPerform 5 0) (s 1 64) = true) := by decide +kernel

/-- A `launch` of the record in memory: without an image for its kind, with one, of a version the context does not hold; the
grid that it starts, retired. -/
theorem test_met_OperationsPerform_launch :
    let o := op0 (.launch 0x20000) 1 [acc 0 (.mem (homeOf 0 0x20000) 0x20000) .device []] false
    let s (ver : Nat) (native : Bool) : State := onCtx (fun y => { y with versions := y.versions.map fun v => (v.1, { v.2 with
        ver := ver
        images := v.2.images ++ [{ (v.2.images.headD default) with kind := .pennant }], chosenP := if native then some 1 else none }) })
      { directed with nextId := 100, ops := [(5, o)] }
    let t (ver : Nat) (native : Bool) : State := next (exec (.operationPerform 5 0) (s ver native))
    let at_ (s : State) (ofs : Nat) : Nat := leNat (Memory.readN s.mem (memKey (homeOf 0 0x20000) 0x20000 + ofs) 8)
    let b := s 1 true
    b.opFrozen o = false ∧ b.redoHeld 0 5 = false ∧ (b.teamOf (gang0 b)).isSome = true ∧ (b.gridOf (gang0 b)).any (fun g => g.launches == 0) = true ∧
    FMap.sorted b.ops = true ∧ b.filter = [] ∧ (b.core 0).gather = [] ∧ Memory.wf b.mem = true ∧
    (b.versionFor 0 (LaunchRec.parse recordBytes)).any (fun v => (LaunchRec.parse recordBytes).ok v.2) = true ∧
    ((s 2 true).versionFor 0 (LaunchRec.parse recordBytes)).isNone = true ∧
    [(2, true, 1), (1, false, 2)].all (fun x => let t := t x.1 x.2.1
      at_ t 240 == 1 && at_ t 248 == x.2.2 && t.ops.isEmpty && t.grids.map (·.1) == [0] && (FMap.getD t.grids 0 default).launches == 1) = true ∧
    (let r := t 1 true
     at_ r 240 = 1 ∧ at_ r 248 = 0 ∧ (FMap.get? r.ops 5).map (fun o => o.parts.map (·.performed)) = some [true] ∧
     (FMap.get? r.grids 100).map (fun g => (g.op, g.lpc0, g.lseq, g.placed)) = some (some 5, 0x10000, 1, 0) ∧
     FMap.getD (r.die 0).queues 1 [] = [⟨100, 0⟩] ∧
     (let e : State := { r with grids := FMap.adjust r.grids 100 fun g => { g with placed := 1 } }
      let x := next (exec (.gridRetire 100) e)
      x.grids.map (·.1) = [0] ∧ x.ops = [] ∧ at_ x 248 = 0)) := by decide +kernel

/-- R237: a unit of the scratchpad held two values since a wait began; a load behind the wait binds one of them. A place on a
fenced die. -/
theorem test_met_AccessesMade_early :
    let a := acc 0 (.scratch 0 8) .core []
    let o := { op0 (.load 8 4 false false false false) 1 [a] true with early := some 1 }
    let w : Access := { acc 0 (.scratch 0 12) .core four with size := 4 }
    let s := onTeam (fun t => { t with past := [(0, 3)], mem := Memory.writeN [] 8 [9, 9, 9, 9] }) (withOps [(5, o)])
    let t := (s.makeAccess (op0 .store 1 [w] true) w).2
    let p := (FMap.getD t.teams 0 default).past
    let r := t.makeAccess o { a with loc := .scratch 0 12 }
    s.gangs.map (fun g => g.2.team) = [0] ∧ 8 % 8 + 4 ≤ 16 ∧ p = [(1, 0x09090909), (0, 3)] ∧
    (FMap.getD t.teams 0 default).valuesSince 1 1 = [0x0403020109090909, 0x09090909] ∧
    (FMap.getD t.teams 0 default).valuesSince 0 1 = [0] ∧
    (r.2 = { t with fresh := t.fresh + 1 }) ∧ (s.makeAccess o a).1.data = List.replicate 4 (some 9) ∧
    [OpKind.load 8 4 false false false true, .atomic .add 8, .stc 8, .store].all (fun k =>
      let o := op0 k 1 [acc 0 (.lost 0x20000) .core four] true
      let s := withOps [(5, o)]
      let r := s.makeAccess o (acc 0 (.lost 0x20000) .core four)
      r.1.done && r.1.bad && decide (r.2.mem = s.mem ∧ r.2.teams = s.teams)) = true := by decide +kernel

/-- Two requests for leave, the first of a context that has halted. -/
theorem test_met_Copies_leave :
    let s := system (.nop al) 0 0 0
    let s : State := { s with gangs := s.gangs.map fun x => (x.1, { x.2 with units := x.2.units.map fun u => { u with stop := .leave } }) }
    let s := s.setDie 0 { s.die 0 with leave := [⟨1, 1, 0, false, 0⟩, ⟨0, 0, 0, false, 0⟩] }
    let t := next (exec (.leaveGrant 0) s)
    s.gangFrozen 1 = true ∧ s.gangFrozen 0 = false ∧ (s.frameOf 0 0).any (fun f => f.u.stop == .leave) = true ∧
    (t.die 0).leave = [⟨1, 1, 0, false, 0⟩] ∧ (unit0 t).leave = true ∧ idle (.leaveGrant 0) t = true := by decide +kernel

/-- A single step that names one of a troupe's two units; one that names the unit that is all of its troupe. -/
theorem test_met_MatrixUnit_step :
    let s := onCtx (fun x => { x with stepping := true }) (trouped .mleave .mleave)
    let one : State := onGang (fun g => { g with units := g.units.map fun u => { u with stop := .mleave, leave := true } })
      { onTeam (fun t => { t with groups := 2, header := { t.header with team := 2 } }) (bench mmaWord) with nextId := 50 }
    let two := onCtx (fun x => { x with stepping := true }) (onGang (fun g => { g with width := 16, trp := 0x10002, units := g.units.map fun u =>
      { u with groups := 3 } }) one)
    let y := two.ctx 0
    idle (.troupeRelease 0 0) s = true ∧ (two.troupe 0 0x10002 .mleave) = some [(0, 0, 0), (0, 0, 1)] ∧ y.down = none ∧
    two.stepNames ((two.frameOf 0 0).getD default) 0 y = true ∧
    (let t := next (exec (.troupeRelease 0 0) two)
     (t.core 0).slots.map (fun x => x.1) = [0] ∧ (unit0 t).ipc = 0x10008 ∧ (t.ctx 0).down.isSome = true) := by decide +kernel

/-- A save whose core has gathered bytes; a banner cluster's gangs. -/
theorem test_met_GridsAndTeams_gathered :
    (let b := onCtx (fun x => { x with saveArea := 2 ^ 20 }) (onUnit (fun u => { u with stop := .wpark }) directed)
     let l : GLine := ⟨0, 0x805, (Vector.replicate 64 none).set 7 (some 0xAB), 0, 1, [0]⟩
     let s := b.setCore 0 { b.core 0 with copyUp := false, gather := [l] }
     let t := next (exec (.teamSave 0) s)
     Memory.wf s.mem = true ∧ ((s.core 0).gather.map GLine.key).Nodup ∧ (t.core 0).gather = [] ∧
     Memory.read t.mem (64 * l.key + 7) = 0xAB ∧ Memory.read t.mem (64 * l.key + 6) = Memory.read s.mem (64 * l.key + 6)) ∧
    (let s := { directed with nextId := 100, grids := directed.grids.map fun (x : Nat × Grid) => (x.1, { x.2 with lr := { x.2.lr with kind := 0, cw := 2, ch := 1 } }) }
     let t := next (exec (.placementDecision 0 0) s)
     (t.teams.drop 1).map (fun x => (x.1, x.2.core)) = [(100, 0), (102, 1)] ∧
     (t.gangs.drop 1).map (fun x => (x.1, x.2.team, x.2.grpn, x.2.units.map (·.ipc))) = [(101, 100, 0, [0x10000]), (103, 102, 0, [0x10000])]) := by
  decide +kernel

/-- `migr` in a team with a region open, one of whose gangs waits at the rendezvous. -/
theorem test_met_EquivalenceAndMigration_fails :
    let b := formed 0x20008
    let y : Gang := { gang0 b with grpn := 1, slot := 8, p := (gang0 b).p.set 3 0xFF, units := (gang0 b).units.map fun u => { u with stop := .migr } }
    let s : State := { onTeam (fun t => { t with mig := some { gangs := [1], n := 5, kind := .pennant, deadline := 1000 } })
      (onGang (fun g => { g with regions := [default] }) b) with
        gangs := [(0, { gang0 b with regions := [default] }), (1, y)], ops := [(5, { op0 (.migr 3) 0xFF [] false with gang := 1 })] }
    let t := next (exec (.migr al 3 .pennant 0xC1) s)
    let g := FMap.getD t.gangs 1 default
    s.migrOp 1 = s.ops.head? ∧ s.regionOpen 0 = true ∧ (∀ o ∈ s.ops, o.1 < s.nextId) ∧ t.ops = [] ∧
    (FMap.getD t.teams 0 default).mig = none ∧ vget g.p 3 (by decide) = 0 ∧ g.units.map (·.stop) = [.run] ∧
    (unit0 t).ipc = 0x20010 ∧ pAt t 3 &&& 0xFF = 0 := by decide +kernel

/-- R332: the tag of a lane in a spawned thread, and a word pair that is none, as the team moves. -/
theorem test_bins_move :
    let s := regs [(2, 77)] (rendezvous .blocked 999)
    let tag : Nat := 0x10040 + 3 * 2 ^ 32
    let th : Thread := ⟨[5, 6, BitVec.ofNat 32 tag, BitVec.ofNat 32 (tag / 2 ^ 32), 7, 8, 9, 10], 4⟩
    let s := onTeam (fun t => { t with bins := [(3, ⟨0x20000, 8, 0, [th], false⟩)] }) (onGang (fun g => { g with
      origins := 8, tagPc := uniform 0x10040, units := g.units.map fun u => { u with am := u.am &&& ~~~8, tm := 8 } }) s)
    let t := next (exec (.migrationMove 0) s)
    let m := FMap.getD t.teams 0 default
    let new : Nat := tag + 2 ^ 35 * ((t.gslot (gang0 t) 0)) + 2 ^ 44 * m.core
    (s.originOf 0 0 (BitVec.ofNat 64 tag)).isSome = true ∧ m.life = .moving ∧ coreKind m.core = .pennant ∧
    m.bins.map (fun b => b.2.threads) = [[⟨[5, 6, BitVec.ofNat 32 new, BitVec.ofNat 32 (new / 2 ^ 32), 7, 8, 9, 10], 4⟩]] := by decide +kernel

/-- R77: the five images of the spec's example; then feature 12 enabled; then without the Pennant image. -/
theorem test_image_choice :
    let i (k : ImageKind) (gm : BitVec 16) (tune : Nat) (req opt : DWord) : Image :=
      { kind := k, base := 0, size := 0, headers := [], equiv := [], genmask := gm, tune := tune, req := req, opt := opt }
    let is : List Image := [i .banner 1 0 8 0x200, i .banner 1 0 0x1008 0, i .tamut 1 0 0 0, i .pennant 1 0 0 0, i .banner 2 1 8 0]
    let on (enabled : DWord) : DWord := ({ (default : Dev) with featPresent := 0x1208, featEnabled := enabled } : Dev).features
    let pick (e : DWord) (is : List Image) := (chooseImage (on e) .banner is, chooseImage (on e) .pennant is)
    pick 0x208 is = (some 0, some 3) ∧ pick 0x1208 is = (some 0, some 3) ∧ pick 0x208 (is.eraseIdx 3) = (some 0, some 2) ∧
    pick 0 (is.drop 4) = (none, none) ∧ pick 0x1208 (is.eraseIdx 0) = (some 0, some 2) := by decide +kernel

/-- R66, R70, R71: what the loader writes of a function whose banner image is chosen and whose Tamut image is placed; headers
and maps that it refuses. -/
theorem test_loader :
    let i (k : ImageKind) (base : Nat) : Image := { kind := k, base := base, size := 8, headers := [], equiv := [] }
    let v : Version := { (default : Version) with
      ver := 1, images := [i .banner 0x10000, i .tamut 0x20000], chosenB := some 0, chosenP := some 1, ftabVa := 0x20000
      funcs := [⟨5, 0x10, 0x18, 0x20, 64, 7, 2⟩, ⟨0, 0xFFFFFFFF, 0xFFFFFFFF, 0, 0, 0, 0⟩] }
    let s := engined id
    let t := (onCtx (fun x => { x with versions := [] }) s).loadVersion 0 0 v
    let w (n : Nat) : Nat := leNat (Memory.readN t.mem (memKey (homeOf 0 0x20000) 0x20000 + 4 * n) 4)
    (t.ctx 0).versions.map (·.1) = [0] ∧
    (List.range 16).map w = [5, 0x20010, 0x10018, 0, 3, 64, 7, 2, 0, 0, 0, 0, 0, 0, 0, 0] ∧
    (let h := benchHeader
     Header.inLimits .banner h = true ∧ [{ h with regs := 0 }, { h with regs := 193 }, { h with gang := 12 }, { h with scalars := 49 },
       { h with scratch := 100 }, { h with team := 0 }, { h with barriers := 17 }].all (fun h => !Header.inLimits .banner h) = true) ∧
    (let m (es : List MapEntry) : Bool := StateMap.ok { (default : StateMap) with entries := es }
     m [⟨2, 3, 0⟩, ⟨2, 3, 1⟩] = true ∧ m [⟨2, 3, 0⟩, ⟨4, 3, 0⟩] = false ∧ m [⟨2, 3, 3⟩] = false) := by decide +kernel

/-- A page named while the context was halted, and its resume; a record of a held host launch and one of a held `launch` get
status 3. -/
theorem test_met_ContextsAndInvalidation_held :
    (let s := onUnit (fun u => { u with am := 0xFE, fm := 1 }) (onCtx (fun x => { x with life := .halted, parked := [⟨0x20000, 0, 1⟩] }) (withOps []))
     let h := next (exec (.pgres 0 0x20000) s)
     let t := next (exec (.ctxResume 0) h)
     (h.ctx 0).resident = [0x20000] ∧ (unit0 h).fm = 1 ∧ (h.ctx 0).faulted = false ∧ (t.ctx 0).life = .running ∧ (t.ctx 0).resident = [] ∧
     (t.ctx 0).parked = [] ∧ (unit0 t).fm = 0 ∧ (unit0 t).km &&& 1 = 1) ∧
    (let o := op0 (.launch 0x30000) 1 [acc 0 (.mem 0 0x30000) .device []] false
     let s := onCtx (fun x => { x with life := .halted, dirHeld := some (.mem 0 0x20000) }) (withOps [(5, o)])
     let t := next (exec (.ctxEnd 0) s)
     Memory.wf s.mem = true ∧ [0x20000, 0x30000].all (fun pa => decide (leNat (Memory.readN t.mem (memKey 0 pa + 248) 8) = 3)) = true) := by
  decide +kernel

/-- A ring's record of 576 bytes with nine entries free and with eight; an answer in a halted context. -/
theorem test_met_SyscallAnswersAndRings_frame :
    let r : List Byte := List.replicate 64 7 ++ List.replicate 512 9
    let s (tail : Nat) : State := onCtx (fun x => { x with faults := { x.faults with n := 4, head := 10, tail := tail, waiting := [r] } }) (withOps [])
    let t := next (exec (.faultRingRecord 0) (s 4))
    let b := ((s 4).ctx 0).faults.base.toNat
    r.length = 576 ∧ ((s 4).ctx 0).faults.waiting = [r] ∧ (4 + 2 * 2 ^ 4 - 10 - 1) % 2 ^ 4 = 9 ∧ (3 + 2 * 2 ^ 4 - 10 - 1) % 2 ^ 4 < 9 ∧
    Memory.wf (s 4).dev.hostMem = true ∧ (t.ctx 0).faults.head = 3 ∧ Memory.read t.dev.hostMem (b + 64 * 10 + 63) = 7 ∧
    Memory.read t.dev.hostMem (b + 64 * 11) = 9 ∧ Memory.read t.dev.hostMem (b + 64 * 2 + 63) = 9 ∧
    Memory.read t.dev.hostMem (b + 64 * 3) = Memory.read (s 4).dev.hostMem (b + 64 * 3) ∧ idle (.faultRingRecord 0) (s 3) = true ∧
    (let h := haltedNow (called 0 true)
     (h.ctx 0).life = .halted ∧ idle (.syscallReturn 0 1) h = true) := by decide +kernel

/-- Three lanes that meet pages P, Q, P; entries that a walk finds fatal; a place and a table on a fenced die. -/
theorem test_met_PageFaults_AddressChecks :
    (let s := paged (.nop al)
     let t := s.parkPages 0 0 0x10000 [(0, 0x30000, 4), (1, 0x40000, 4), (2, 0x30000, 4)]
     (t.ctx 0).parked.map (fun p => (p.page, p.lanes)) = [(0x30000, 5), (0x40000, 2)] ∧ (0x30000 : Nat) ≠ 0x40000) ∧
    ([3 + 2 ^ 4, 3 + 2 ^ 60, 3 + 2 ^ 12, 3 + 2 ^ 51, 3 + 2 ^ 52, 3 + 2 ^ 63].all (fun e => !leafOk false e 16) = true ∧
      leafOk false (3 + 2 ^ 16 + 2 ^ 62) 16 = true ∧ leafOk true (3 + 2 ^ 16 + 5 * 2 ^ 39) 16 = true ∧
      [1 + 2 ^ 4, 1 + 2 ^ 62, 1 + 2 ^ 51, 1 + 2 ^ 52].all (fun e => !tableOk e) = true ∧ tableOk (1 + 2 ^ 16) = true) ∧
    (let s := (paged (.nop al)).setDie (homeOf 0 0x20000) { (paged (.nop al)).die (homeOf 0 0x20000) with fenced := true }
     let t := FMap.getD s.teams 0 default
     (s.resolve 0 t 0x20040 4 4 true .any).1 = .loc (.lost 0x20040) ∧ s.pte 0x20000 = 2 ^ 63) := by decide +kernel

/-- Marks, results and poison on hs1 as a gang splits and forms again; a value of `agl` that is due and one that is not. -/
theorem test_met_SubGangs_WriteSpecialRegister :
    (let g : Gang := { gang0 (bench (.nop al)) with
       marks := [{ loc := .hs 0 1, till := .clock 9 }, { loc := .v 1, till := .clock 9 }]
       results := [(5, { pc := 0, unit := 1, due := some 9, writes := [⟨.hs 0 1, 1, uniform 7⟩], faults := 0, cause := .overflow })] }
     let c := g.copyHs 0 1
     let m := c.mergeHs 1
     (c.marks.map (·.loc)).length = 3 ∧ (c.marks.map (·.loc)).contains (.hs 1 1) = true ∧
     c.results.map (fun r => r.2.writes.map (·.loc)) = [[.hs 0 1, .hs 1 1]] ∧
     m.results.map (fun r => (r.2.unit, r.2.writes.map (·.loc))) = [(0, [.hs 0 1])] ∧ (m.marks.map (·.loc)).contains (.hs 0 1) = true) ∧
    (let s (n : Nat) : State := onGang (fun g => { g with aglNext := some (70, n) }) (bench (.nop al))
     let d (n : Nat) : State := next (State.aglDue 0 (s n))
     (gang0 (d 0)).agl = 70 ∧ (gang0 (d 0)).aglNext = none ∧ (gang0 (d 4)).aglNext = some (70, 4) ∧
     (fr (s 0)).g = gang0 (s 0) ∧ ((s 0).stall (fr (s 0))).isSome = true) := by decide +kernel

/-- A held launch of a halting context whose context has 65,536 grids; a value of `agl` that is still to come. -/
theorem test_met_HaltAndFlagDown_full :
    (∀ g : Grid, g.ctx = 0 → 65536 ≤ ((List.replicate 65536 (7, g)).filter fun x : Nat × Grid => x.2.ctx == 0).length) ∧
    (let s (n : Option (Word × Nat)) : State := onGang (fun g => { g with aglNext := n }) (onCtx (fun x => { x with life := .halting }) (withOps []))
     idle (.contextHalted 0) (s (some (70, 4))) = true ∧ ((next (exec (.contextHalted 0) (s none))).ctx 0).life = .halted) := by
  refine ⟨fun g h => ?_, by decide +kernel⟩
  rw [List.filter_replicate, if_pos (by simp [h]), List.length_replicate]

end Sys2Proof.Tests
end

section
/-! SUPPORT. The choice of a unit at an issue decision (R139): which candidates form the pool, which of the pool has waited
longest and stands first in slot order, and what a decision and an issue leave in the units' wait counts. -/

namespace Sys2Proof.Machine

/-! ### The candidates -/

theorem State.mem_candidates (s : State) (core quad : Nat) (f : Frame) :
    f ∈ s.candidates core quad ↔ f ∈ s.unitsIn core quad ∧ s.mayIssue f = true ∧ s.stall f = none := by
  simp only [State.candidates, List.mem_filter, Bool.and_eq_true, Option.isNone_iff_eq_none]

/-! ### The elements of a list that are largest by a key -/

theorem largest_eq_max? (l : List Nat) : largest l = l.max?.getD 0 := by
  rw [largest, List.foldl_max, Nat.zero_max]

theorem le_largest {l : List Nat} {a : Nat} (h : a ∈ l) : a ≤ largest l := by
  rw [largest_eq_max?]
  exact List.le_max?_getD_of_mem h

theorem largest_mem {l : List Nat} (h : l ≠ []) : largest l ∈ l := by
  obtain ⟨m, hm⟩ := Option.ne_none_iff_exists'.1 (mt List.max?_eq_none_iff.1 h)
  rw [largest_eq_max?, hm]
  exact List.max?_mem hm

/-- The elements at which a key is largest, as `State.pick` takes them twice: by class, and by the count waited. -/
def topBy {α : Type} (key : α → Nat) (l : List α) : List α := l.filter fun a => key a == largest (l.map key)

theorem mem_topBy {α : Type} {key : α → Nat} {l : List α} {a : α} :
    a ∈ topBy key l ↔ a ∈ l ∧ ∀ b ∈ l, key b ≤ key a := by
  have upper : ∀ b ∈ l, key b ≤ largest (l.map key) := fun b hb => le_largest (List.mem_map_of_mem hb)
  simp only [topBy, List.mem_filter, beq_iff_eq]
  constructor
  · rintro ⟨ha, hkey⟩
    exact ⟨ha, hkey ▸ upper⟩
  · rintro ⟨ha, hmax⟩
    obtain ⟨b, hb, hkey⟩ := List.mem_map.1 (largest_mem (List.ne_nil_of_mem (List.mem_map_of_mem (f := key) ha)))
    exact ⟨ha, (upper a ha).antisymm (hkey ▸ hmax b hb)⟩

theorem topBy_ne_nil {α : Type} (key : α → Nat) {l : List α} (h : l ≠ []) : topBy key l ≠ [] := by
  obtain ⟨a, ha, hkey⟩ := List.mem_map.1 (largest_mem (mt List.map_eq_nil_iff.1 h : l.map key ≠ []))
  exact List.ne_nil_of_mem (List.mem_filter.2 ⟨ha, beq_iff_eq.2 hkey⟩)

/-! ### The pool and the unit chosen of it -/

/-- The overdue candidates of a quadrant in which n units are resident. -/
def overdue (n : Nat) (cs : List Frame) : List Frame := cs.filter fun f => decide (32 * n ≤ f.u.wait)

theorem mem_overdue {n : Nat} {cs : List Frame} {f : Frame} : f ∈ overdue n cs ↔ f ∈ cs ∧ 32 * n ≤ f.u.wait := by
  simp only [overdue, List.mem_filter, decide_eq_true_eq]

theorem overdue_eq_nil {n : Nat} {cs : List Frame} : overdue n cs = [] ↔ ∀ c ∈ cs, c.u.wait < 32 * n := by
  simp only [overdue, List.filter_eq_nil_iff, decide_eq_true_eq, Nat.not_le]

/-- The pool of R139: the overdue candidates, or else those of the highest class. -/
def issuePool (n : Nat) (cs : List Frame) : List Frame :=
  if (overdue n cs).isEmpty then topBy (fun f => f.g.cls.toNat) cs else overdue n cs

/-- What `State.pick` orders units by: their slots, counted from after the last chosen. -/
def State.slotKey (s : State) (core : Nat) (last : Option Nat) (f : Frame) : Nat :=
  slotAfter (quadSlots (coreKind core)) last (s.unitSlot f.g f.u)

/-- The choice of R139 is the first in slot order among those of the pool that have waited longest. -/
theorem State.pick_eq_argmin (s : State) (core n : Nat) (last : Option Nat) (cs : List Frame) :
    s.pick core n last cs = (topBy (fun f => f.u.wait) (issuePool n cs)).argmin (s.slotKey core last) := by
  rw [State.pick, List.argmin]
  refine congrArg (List.foldl · none _) (funext fun best => funext fun f => ?_)
  cases best <;> rfl

theorem issuePool_of_overdue {n : Nat} {cs : List Frame} (h : ∃ c ∈ cs, 32 * n ≤ c.u.wait) :
    issuePool n cs = overdue n cs := by
  obtain ⟨c, hc, hwait⟩ := h
  rw [issuePool, if_neg (by simpa using List.ne_nil_of_mem (mem_overdue.2 ⟨hc, hwait⟩))]

theorem issuePool_of_not_overdue {n : Nat} {cs : List Frame} (h : ∀ c ∈ cs, c.u.wait < 32 * n) :
    issuePool n cs = topBy (fun f => f.g.cls.toNat) cs := by
  rw [issuePool, if_pos (by simpa using overdue_eq_nil.2 h)]

/-- Either some candidate is overdue and the pool is the overdue ones, or none is and the pool is the highest class. -/
theorem issuePool_cases (n : Nat) (cs : List Frame) :
    ((∃ c ∈ cs, 32 * n ≤ c.u.wait) ∧ issuePool n cs = overdue n cs) ∨
      ((∀ c ∈ cs, c.u.wait < 32 * n) ∧ issuePool n cs = topBy (fun f => f.g.cls.toNat) cs) := by
  by_cases h : ∃ c ∈ cs, 32 * n ≤ c.u.wait
  · exact .inl ⟨h, issuePool_of_overdue h⟩
  · have none_late : ∀ c ∈ cs, c.u.wait < 32 * n := by simpa using h
    exact .inr ⟨none_late, issuePool_of_not_overdue none_late⟩

theorem issuePool_subset {n : Nat} {cs : List Frame} {f : Frame} (h : f ∈ issuePool n cs) : f ∈ cs := by
  obtain ⟨-, hpool⟩ | ⟨-, hpool⟩ := issuePool_cases n cs <;> rw [hpool] at h
  · exact (mem_overdue.1 h).1
  · exact (mem_topBy.1 h).1

theorem issuePool_ne_nil (n : Nat) {cs : List Frame} (h : cs ≠ []) : issuePool n cs ≠ [] := by
  obtain ⟨⟨c, hc, hwait⟩, hpool⟩ | ⟨-, hpool⟩ := issuePool_cases n cs <;> rw [hpool]
  · exact List.ne_nil_of_mem (mem_overdue.2 ⟨hc, hwait⟩)
  · exact topBy_ne_nil _ h

/-- A candidate that is overdue, or of the class of one of the pool where none is overdue, is of the pool. -/
theorem mem_issuePool_of_rival {n : Nat} {cs : List Frame} {f c : Frame} (hf : f ∈ issuePool n cs) (hc : c ∈ cs)
    (h : 32 * n ≤ c.u.wait ∨ (∀ d ∈ cs, d.u.wait < 32 * n) ∧ c.g.cls = f.g.cls) : c ∈ issuePool n cs := by
  obtain hwait | ⟨none_late, hcls⟩ := h
  · rw [issuePool_of_overdue ⟨c, hc, hwait⟩]
    exact mem_overdue.2 ⟨hc, hwait⟩
  · rw [issuePool_of_not_overdue none_late] at hf ⊢
    exact mem_topBy.2 ⟨hc, fun d hd => hcls ▸ (mem_topBy.1 hf).2 d hd⟩

/-- What the choice says of the unit chosen: it is of the pool, none of the pool has waited longer, and none that has waited
as long stands before it. -/
theorem State.pick_some {s : State} {core n : Nat} {last : Option Nat} {cs : List Frame} {f : Frame}
    (h : s.pick core n last cs = some f) :
    f ∈ issuePool n cs ∧ ∀ c ∈ issuePool n cs, c.u.wait ≤ f.u.wait ∧
      (c.u.wait = f.u.wait → s.slotKey core last f ≤ s.slotKey core last c) := by
  rw [State.pick_eq_argmin] at h
  obtain ⟨hf, longest⟩ := mem_topBy.1 (List.argmin_mem h)
  refine ⟨hf, fun c hc => ⟨longest c hc, fun equal => ?_⟩⟩
  exact List.le_of_mem_argmin (mem_topBy.2 ⟨hc, fun d hd => equal ▸ longest d hd⟩) h

theorem State.pick_isSome (s : State) (core n : Nat) (last : Option Nat) {cs : List Frame} (h : cs ≠ []) :
    (s.pick core n last cs).isSome = true := by
  rw [State.pick_eq_argmin, Option.isSome_iff_ne_none, ne_eq, List.argmin_eq_none]
  exact topBy_ne_nil _ (issuePool_ne_nil n h)

/-! ### Reading a unit after a write -/

/-- A unit of a gang, without the frame around it. -/
def State.unitAt (s : State) (gid ui : Nat) : Option UnitState := (FMap.get? s.gangs gid).bind fun g => g.units[ui]?

theorem State.unitAt_of_frameOf {s : State} {gid ui : Nat} {f : Frame} (h : s.frameOf gid ui = some f) :
    s.unitAt gid ui = some f.u := by
  obtain ⟨-, -, hg, hu⟩ := frameOf_get h
  rw [State.unitAt, hg, Option.bind_some, hu]

theorem State.frameOf_of_unitAt {s : State} {gid ui : Nat} {u : UnitState} (h : s.unitAt gid ui = some u) :
    ∃ f, s.frameOf gid ui = some f ∧ f.u = u := by
  obtain ⟨g, hg, hu⟩ := Option.bind_eq_some_iff.1 h
  exact ⟨⟨gid, ui, g, u⟩, by simp only [State.frameOf, hg, hu], rfl⟩

theorem State.unitAt_of_frameOf_none {s : State} {gid ui : Nat} (h : s.frameOf gid ui = none) : s.unitAt gid ui = none :=
  Option.eq_none_iff_forall_ne_some.2 fun u hu => by
    obtain ⟨f, hf, -⟩ := State.frameOf_of_unitAt hu
    rw [h] at hf
    cases hf

@[simp] theorem State.unitAt_setCore (s : State) (n : Nat) (c : CoreState) (gid ui : Nat) :
    (s.setCore n c).unitAt gid ui = s.unitAt gid ui := rfl

/-- A unit after a frame is put back whose gang has the units it had: the frame's unit is the one written, every other unit
stays. -/
theorem State.unitAt_put {s : State} {f : Frame} {g : Gang} (hg : FMap.get? s.gangs f.gid = some g)
    (hunits : f.g.units = g.units) (hui : f.ui < g.units.length) (gid ui : Nat) :
    (s.put f).unitAt gid ui = if (gid, ui) = (f.gid, f.ui) then some f.u else s.unitAt gid ui := by
  simp only [State.unitAt, State.put, State.setGang_gangs, FMap.get?_set, Prod.mk.injEq]
  by_cases hgid : gid = f.gid
  · subst hgid
    simp only [if_true, true_and, Option.bind_some, hg, Gang.setUnit, hunits, List.getElem?_set, if_pos hui, eq_comm]
  · simp only [hgid, false_and, if_false]

/-! ### The wait counts that a decision leaves -/

/-- A unit that has waited one decision longer. -/
def UnitState.waited (u : UnitState) : UnitState := { u with wait := u.wait + 1 }

/-- What a decision that chooses f does to one of its candidates, c. -/
def State.waitStep (f : Frame) (s : State) (c : Frame) : State :=
  if c.gid == f.gid && c.ui == f.ui then s
  else match s.frameOf c.gid c.ui with
    | none => s
    | some c => s.put { c with u := c.u.waited }

theorem State.waitOn_nil (s : State) (f : Frame) : s.waitOn [] f = s := rfl

theorem State.waitOn_cons (s : State) (c : Frame) (cs : List Frame) (f : Frame) :
    s.waitOn (c :: cs) f = (s.waitStep f c).waitOn cs f := rfl

theorem State.waitStep_chosen {s : State} {f c : Frame} (h : (c.gid, c.ui) = (f.gid, f.ui)) : s.waitStep f c = s := by
  obtain ⟨hgid, hui⟩ := Prod.mk.inj h
  rw [State.waitStep, if_pos (by simp [hgid, hui])]

/-- A candidate that is not chosen waits one decision longer, and no other unit changes. -/
theorem State.unitAt_waitStep {s : State} {f c : Frame} (h : (c.gid, c.ui) ≠ (f.gid, f.ui)) (gid ui : Nat) :
    (s.waitStep f c).unitAt gid ui =
      if (gid, ui) = (c.gid, c.ui) then (s.unitAt gid ui).map UnitState.waited else s.unitAt gid ui := by
  rw [State.waitStep, if_neg (by simpa using h)]
  split
  next hnone =>
    split
    next here =>
      obtain ⟨rfl, rfl⟩ := Prod.mk.inj here
      simp only [State.unitAt_of_frameOf_none hnone, Option.map_none]
    next => rfl
  next x hx =>
    have hunit := State.unitAt_of_frameOf hx
    obtain ⟨hgid, hui, hg, hu⟩ := frameOf_get hx
    obtain ⟨hlt, -⟩ := List.getElem?_eq_some_iff.1 hu
    rw [State.unitAt_put (f := { x with u := x.u.waited }) (hgid ▸ hg) rfl (hui ▸ hlt), hgid, hui]
    split
    next here =>
      obtain ⟨rfl, rfl⟩ := Prod.mk.inj here
      rw [hunit, Option.map_some]
    next => rfl

/-- After a decision the candidates that were not chosen have waited one decision longer, and every other unit is as it
was. -/
theorem State.unitAt_waitOn {f : Frame} {gid ui : Nat} (cs : List Frame) (s : State)
    (hcs : (cs.map fun c => (c.gid, c.ui)).Nodup) :
    (s.waitOn cs f).unitAt gid ui =
      if (gid, ui) ∈ cs.map (fun c => (c.gid, c.ui)) ∧ (gid, ui) ≠ (f.gid, f.ui)
      then (s.unitAt gid ui).map UnitState.waited else s.unitAt gid ui := by
  induction cs generalizing s with
  | nil => simp [State.waitOn_nil]
  | cons c cs ih =>
    rw [List.map_cons, List.nodup_cons] at hcs
    obtain ⟨fresh, nodup⟩ := hcs
    rw [State.waitOn_cons, ih _ nodup]
    simp only [List.map_cons, List.mem_cons]
    by_cases hchosen : (c.gid, c.ui) = (f.gid, f.ui)
    · rw [State.waitStep_chosen hchosen, hchosen]
      by_cases hf : (gid, ui) = (f.gid, f.ui) <;> simp [hf]
    · rw [State.unitAt_waitStep hchosen]
      by_cases hc : (gid, ui) = (c.gid, c.ui)
      · simp [hc, hchosen, fresh]
      · simp [hc]

/-- A unit that occupies its quadrant has waited 0. -/
theorem State.unitAt_occupy {s : State} {gid ui : Nat} (clk busy : Nat) {u : UnitState} (h : s.unitAt gid ui = some u) :
    (s.occupy gid ui clk busy).unitAt gid ui = some { u with wait := 0 } := by
  obtain ⟨f, hf, rfl⟩ := State.frameOf_of_unitAt h
  obtain ⟨rfl, rfl, hg, hu⟩ := frameOf_get hf
  obtain ⟨hlt, -⟩ := List.getElem?_eq_some_iff.1 hu
  simp only [State.occupy, hf, State.unitAt_setCore]
  rw [State.unitAt_put (f := { f with u := { f.u with wait := 0 } }) hg rfl hlt, if_pos rfl]

/-- The frame that `State.spendSlot` puts back for a unit whose word takes n slots, before it occupies its quadrant. -/
def Frame.spent (f : Frame) (n : Nat) : Frame :=
  let f' := f.slots n
  let u := { f'.u with
    pass := none
    rotated := false
    bpSkip := if f'.u.bpSkip == some f'.u.ipc then none else f'.u.bpSkip
    fifth := none
    inv := if f'.u.hm then f'.u.inv + 1 else f'.u.inv }
  { f' with u := u }

@[simp] theorem Frame.spent_gid (f : Frame) (n : Nat) : (f.spent n).gid = f.gid := by simp only [Frame.spent, Frame.slots]
@[simp] theorem Frame.spent_ui (f : Frame) (n : Nat) : (f.spent n).ui = f.ui := by simp only [Frame.spent, Frame.slots]
@[simp] theorem Frame.spent_units (f : Frame) (n : Nat) : (f.spent n).g.units = f.g.units := by
  simp only [Frame.spent, Frame.slots]

theorem State.spendSlot_eq {s : State} {gid ui : Nat} {f : Frame} (n clk busy : Nat) (h : s.frameOf gid ui = some f) :
    s.spendSlot gid ui n clk busy = (s.put (f.spent n)).occupy gid ui clk busy := by
  simp only [State.spendSlot, h, Frame.spent]

/-- A unit whose word takes its slots has waited 0. -/
theorem State.unitAt_spendSlot {s : State} {gid ui : Nat} {f : Frame} (n clk busy : Nat) (h : s.frameOf gid ui = some f) :
    (s.spendSlot gid ui n clk busy).unitAt gid ui = some { (f.spent n).u with wait := 0 } := by
  obtain ⟨rfl, rfl, hg, hu⟩ := frameOf_get h
  obtain ⟨hlt, -⟩ := List.getElem?_eq_some_iff.1 hu
  rw [State.spendSlot_eq n clk busy h]
  refine State.unitAt_occupy clk busy ?_
  rw [State.unitAt_put (g := f.g) (by rw [Frame.spent_gid, hg]) (f.spent_units n) (by rwa [Frame.spent_ui]),
    Frame.spent_gid, Frame.spent_ui, if_pos rfl]

/-! ### The statement -/

/-- Settles O8: the choice is the first in slot order among the longest waiting of the pool (`State.pick_eq_argmin`), and the
wait counts follow the candidates one by one (`State.unitAt_waitOn`). -/
theorem issueChoice : Obligations.IssueChoice := by
  unfold Obligations.IssueChoice
  refine ⟨State.mem_candidates, ?chosen, fun s core quad last => s.pick_isSome core _ last, ?waits, ?issues⟩
  case chosen =>
    intro s core quad last f cs n h
    obtain ⟨hf, first⟩ := State.pick_some h
    refine ⟨issuePool_subset hf, fun late => ?_, fun none_late => ?_, fun c hc rival => ?_⟩
    · rw [issuePool_of_overdue late] at hf
      exact (mem_overdue.1 hf).2
    · rw [issuePool_of_not_overdue none_late] at hf
      exact (mem_topBy.1 hf).2
    · exact first c (mem_issuePool_of_rival hf hc rival)
  case waits =>
    intro s core quad f gid ui x cs nodup hx
    have after := State.unitAt_waitOn (f := f) (gid := gid) (ui := ui) (s.candidates core quad) s nodup
    rw [State.unitAt_of_frameOf hx] at after
    by_cases hwaits : (gid, ui) ∈ cs ∧ (gid, ui) ≠ (f.gid, f.ui)
    · rw [if_pos hwaits] at after
      obtain ⟨y, hy, hyu⟩ := State.frameOf_of_unitAt after
      exact ⟨y, hy, fun _ _ => hyu ▸ rfl, fun stays => absurd hwaits (not_and_or.2 (stays.imp_right not_not_intro))⟩
    · rw [if_neg hwaits] at after
      obtain ⟨y, hy, hyu⟩ := State.frameOf_of_unitAt after
      exact ⟨y, hy, fun hin hne => absurd ⟨hin, hne⟩ hwaits, fun _ => hyu ▸ rfl⟩
  case issues =>
    intro s gid ui n clk busy x hx
    obtain ⟨y, hy, hyu⟩ := State.frameOf_of_unitAt (State.unitAt_spendSlot n clk busy hx)
    exact ⟨y, hy, by rw [hyu]⟩

end Sys2Proof.Machine
end

section
/-! SUPPORT. Shifts and division of the integer words (R147, R154, R155): the functions of the model as operations on bit
vectors of the type's width, their values at and beyond the width, and their special cases. -/

namespace Sys2Proof.Machine

/-! ### Halves -/

theorem half_halves (g : Nat → DWord) {k : Nat} (hk : k < 2) : half (halves g) k = ((g k).setWidth 16).setWidth 64 := by
  rw [half, halves, BitVec.setWidth_setWidth_of_le _ (by decide), BitVec.setWidth_eq]
  congr 1
  obtain rfl | rfl : k = 0 ∨ k = 1 := by omega
  · exact BitVec.extractLsb'_append_eq_right
  · exact BitVec.extractLsb'_append_eq_left

theorem half_perHalf2 (g : DWord → DWord → DWord) (a b : DWord) {k : Nat} (hk : k < 2) :
    half (perHalf2 .h2 g a b) k = ((g (half a k) (half b k)).setWidth 16).setWidth 64 := by
  rw [perHalf2, if_pos (beq_self_eq_true _), half_halves _ hk]

theorem perHalf2_of_ne {ty : Ty} (h : ty ≠ .h2) (g : DWord → DWord → DWord) (a b : DWord) : perHalf2 ty g a b = g a b :=
  if_neg (by simpa using h)

/-! ### Shifts of a bit vector -/

section
variable {w : Nat} (x : BitVec w) (c : Nat)

theorem sshiftRight_of_width_le {c : Nat} (h : w ≤ c) :
    x.sshiftRight c = if x.msb then BitVec.allOnes w else 0 := by
  cases hx : x.msb
  · simp [BitVec.sshiftRight_eq_of_msb_false hx, BitVec.ushiftRight_eq_zero h]
  · simp [BitVec.sshiftRight_eq_of_msb_true hx, BitVec.ushiftRight_eq_zero h]

theorem shiftLeft_eq_ofNat : x <<< c = BitVec.ofNat w (x.toNat * 2 ^ c) :=
  BitVec.eq_of_toNat_eq (by rw [BitVec.toNat_shiftLeft, BitVec.toNat_ofNat, Nat.shiftLeft_eq])

theorem ushiftRight_eq_ofNat : x >>> c = BitVec.ofNat w (x.toNat / 2 ^ c) := by
  rw [← Nat.shiftRight_eq_div_pow, ← BitVec.toNat_ushiftRight, BitVec.ofNat_toNat, BitVec.setWidth_eq]

theorem sshiftRight_eq_ofInt : x.sshiftRight c = BitVec.ofInt w (x.toInt / 2 ^ c) := by
  rw [← BitVec.ofInt_toInt (x := x.sshiftRight c), BitVec.toInt_sshiftRight, Int.shiftRight_eq_div_pow]
  norm_cast

/-- The bits that go left and those that come round stand in different places, so the rotated vector is their sum. -/
theorem rotateLeft_eq_ofNat {c : Nat} (h : c < w) :
    x.rotateLeft c = BitVec.ofNat w (x.toNat * 2 ^ c + x.toNat / 2 ^ (w - c)) := by
  have disjoint : x <<< c &&& x >>> (w - c) = 0#w := by
    ext i hi
    simp only [BitVec.getElem_and, BitVec.getElem_shiftLeft, BitVec.getElem_ushiftRight, BitVec.getElem_zero]
    rcases Nat.lt_or_ge i c with hic | hci
    · simp [hic]
    · simp [BitVec.getLsbD_of_ge x (w - c + i) (by omega)]
  rw [BitVec.rotateLeft_def, Nat.mod_eq_of_lt h, ← BitVec.add_eq_or_of_and_eq_zero _ _ disjoint, BitVec.ofNat_add,
    ← shiftLeft_eq_ofNat, ← ushiftRight_eq_ofNat]

/-- The three shifts of R154, of a vector of at most 64 bits in a register: at the width and beyond, and below it. -/
theorem shifts_by_count (hw : w ≤ 64) :
    (w ≤ c → (x <<< c).setWidth 64 = 0 ∧ (x >>> c).setWidth 64 = 0 ∧
      (x.sshiftRight c).setWidth 64 = (if x.msb then BitVec.allOnes w else 0).setWidth 64) ∧
    (c < w → (x <<< c).setWidth 64 = (BitVec.ofNat w (x.toNat * 2 ^ c)).setWidth 64 ∧
      (x >>> c).setWidth 64 = BitVec.ofNat 64 (x.toNat / 2 ^ c) ∧
      (x.sshiftRight c).setWidth 64 = (BitVec.ofInt w (x.toInt / 2 ^ c)).setWidth 64) := by
  refine ⟨fun beyond => ⟨?_, ?_, ?_⟩, fun _ => ⟨?_, ?_, ?_⟩⟩
  · rw [BitVec.shiftLeft_eq_zero beyond]; exact BitVec.setWidth_zero ..
  · rw [BitVec.ushiftRight_eq_zero beyond]; exact BitVec.setWidth_zero ..
  · rw [sshiftRight_of_width_le x beyond]
  · rw [shiftLeft_eq_ofNat]
  · rw [ushiftRight_eq_ofNat, BitVec.setWidth_ofNat_of_le_of_lt hw ((Nat.div_le_self ..).trans_lt x.isLt)]
  · rw [sshiftRight_eq_ofInt]

end

/-! ### The shifts of the model -/

theorem Ty.width_le (ty : Ty) : Ty.width ty ≤ 64 := by cases ty <;> decide

theorem Ty.width_pos (ty : Ty) : 0 < Ty.width ty := by cases ty <;> decide

theorem setWidth_half (a : DWord) (k : Nat) : (half a k).setWidth 16 = (a.setWidth 32).extractLsb' (16 * k) 16 := by
  rw [half, BitVec.setWidth_setWidth_of_le _ (by decide), BitVec.setWidth_eq]

theorem toNat_setWidth_half (b : DWord) (k : Nat) :
    ((half b k).setWidth 32).toNat = ((b.setWidth 32).extractLsb' (16 * k) 16).toNat := by
  rw [half, BitVec.setWidth_setWidth_of_le _ (by decide : 32 ≤ 64), BitVec.toNat_setWidth_of_le (by decide : 16 ≤ 32)]

/-- A shift in each half, from the shift `g` by a count of a vector of 16 bits. -/
theorem half_perHalf2_shift (g : BitVec 16 → Nat → BitVec 16) (a b : DWord) {k : Nat} (hk : k < 2) :
    half (perHalf2 .h2 (fun x c => (g (x.setWidth 16) (c.setWidth 32).toNat).setWidth 64) a b) k =
      (g ((a.setWidth 32).extractLsb' (16 * k) 16) ((b.setWidth 32).extractLsb' (16 * k) 16).toNat).setWidth 64 := by
  rw [half_perHalf2 _ a b hk, setWidth_half, toNat_setWidth_half,
    BitVec.setWidth_setWidth_of_le _ (by decide : 16 ≤ 64), BitVec.setWidth_eq]

/-- Settles O17: each shift of the model is one of a vector of the type's width, or of 16 bits in each half, and the values
are those of `shifts_by_count` and `rotateLeft_eq_ofNat`. -/
theorem shiftCounts : Obligations.ShiftCounts := by
  unfold Obligations.ShiftCounts
  refine ⟨fun ty hty a b => ?whole, fun a b k hk => ?halves⟩
  case whole =>
    have hne : ty ≠ .h2 := by rintro rfl; simp at hty
    have shifts := shifts_by_count (a.setWidth (Ty.width ty)) (b.setWidth 32).toNat (Ty.width_le ty)
    refine ⟨?_, ?_, ?_⟩
    · simpa only [aluShl, aluShr, aluSar, perHalf2_of_ne hne] using shifts.1
    · simpa only [aluShl, aluShr, aluSar, perHalf2_of_ne hne] using shifts.2
    · rw [aluRot, rotateLeft_eq_ofNat _ (Nat.mod_lt _ (Ty.width_pos ty))]
  case halves =>
    have hl : half (aluShl .h2 a b) k = _ := half_perHalf2_shift (fun x c => x <<< c) a b hk
    have hr : half (aluShr .h2 a b) k = _ := half_perHalf2_shift (fun x c => x >>> c) a b hk
    have hs : half (aluSar .h2 a b) k = _ := half_perHalf2_shift BitVec.sshiftRight a b hk
    rw [hl, hr, hs]
    exact shifts_by_count _ _ (by decide)

/-! ### Division -/

/-- An effect none of whose lanes traps faults in no lane. -/
theorem Effect.faults_eq_zero {e : Effect} (h : ∀ l, e.traps l = false) : e.faults = 0 := by
  have none_traps : e.mask &&& maskOf e.traps = 0 := by
    ext l hl
    simp [← BitVec.getLsbD_eq_getElem, getLsbD_maskOf, h]
  simp [Effect.faults, none_traps]

theorem setWidth_ofInt (ty : Ty) (i : Int) :
    (ofInt ty i).setWidth (Ty.width ty) = BitVec.ofInt (Ty.width ty) i := by
  simp only [ofInt]
  split
  next narrow =>
    have : Ty.width ty ≤ 32 := by simp at narrow; omega
    ext k hk
    simp [BitVec.getElem_signExtend, hk, show k < 32 by omega]
  next => rw [BitVec.setWidth_setWidth_of_le _ (Ty.width_le ty), BitVec.setWidth_eq]

theorem srcInt_signed {ty : Ty} (h : ty.isSigned = true) (x : DWord) : srcInt ty x = (x.setWidth (Ty.width ty)).toInt := by
  simp [srcInt, h]

theorem srcInt_unsigned {ty : Ty} (h : ty.isInt = true) (hs : ty.isSigned = false) (x : DWord) :
    srcInt ty x = (x.setWidth (Ty.width ty)).toNat := by
  have : ty ≠ .h2 := by rintro rfl; cases h
  simp [srcInt, hs, this]

section
variable {w : Nat} (x y : BitVec w)

theorem ofInt_tdiv_toInt : BitVec.ofInt w (x.toInt.tdiv y.toInt) = x.sdiv y :=
  BitVec.eq_of_toInt_eq (by rw [BitVec.toInt_ofInt, BitVec.toInt_sdiv])

theorem ofInt_tmod_toInt : BitVec.ofInt w (x.toInt.tmod y.toInt) = x.srem y := by
  rw [← BitVec.toInt_srem, BitVec.ofInt_toInt]

theorem ofInt_tdiv_toNat : BitVec.ofInt w ((x.toNat : Int).tdiv y.toNat) = x / y := by
  rw [← Int.ofNat_tdiv, ← BitVec.toNat_udiv, BitVec.ofInt_natCast, BitVec.ofNat_toNat, BitVec.setWidth_eq]

theorem ofInt_tmod_toNat : BitVec.ofInt w ((x.toNat : Int).tmod y.toNat) = x % y := by
  rw [← Int.ofNat_tmod, ← BitVec.toNat_umod, BitVec.ofInt_natCast, BitVec.ofNat_toNat, BitVec.setWidth_eq]

end

section
variable {ty : Ty} (hint : ty.isInt = true) (a b : DWord)
include hint

theorem setWidth_int2 (g : Int → Int → Int) :
    (int2 g ty a b).setWidth (Ty.width ty) = BitVec.ofInt (Ty.width ty) (g (srcInt ty a) (srcInt ty b)) := by
  have : ty ≠ .h2 := by rintro rfl; cases hint
  rw [int2, perHalf2_of_ne this, setWidth_ofInt]

theorem srcInt_eq_zero : srcInt ty b = 0 ↔ b.setWidth (Ty.width ty) = 0 := by
  cases hs : ty.isSigned
  · rw [srcInt_unsigned hint hs, Int.natCast_eq_zero, BitVec.toNat_eq]; rfl
  · rw [srcInt_signed hs, ← BitVec.toInt_inj]; simp

theorem ofInt_srcInt : BitVec.ofInt (Ty.width ty) (srcInt ty a) = a.setWidth (Ty.width ty) := by
  cases hs : ty.isSigned
  · rw [srcInt_unsigned hint hs, BitVec.ofInt_natCast, BitVec.ofNat_toNat, BitVec.setWidth_eq]
  · rw [srcInt_signed hs, BitVec.ofInt_toInt]

theorem setWidth_aluDiv :
    (aluDiv ty a b).setWidth (Ty.width ty) =
      if b.setWidth (Ty.width ty) = 0 then BitVec.allOnes (Ty.width ty)
      else if ty.isSigned then (a.setWidth (Ty.width ty)).sdiv (b.setWidth (Ty.width ty))
      else a.setWidth (Ty.width ty) / b.setWidth (Ty.width ty) := by
  rw [aluDiv, setWidth_int2 hint]
  by_cases zero : b.setWidth (Ty.width ty) = 0
  · rw [if_pos zero, if_pos ((srcInt_eq_zero hint b).2 zero), BitVec.ofInt_neg, ← BitVec.neg_one_eq_allOnes]
    rfl
  · rw [if_neg zero, if_neg (mt (srcInt_eq_zero hint b).1 zero)]
    cases hs : ty.isSigned
    · rw [srcInt_unsigned hint hs, srcInt_unsigned hint hs, ofInt_tdiv_toNat]; rfl
    · rw [srcInt_signed hs, srcInt_signed hs, ofInt_tdiv_toInt]; rfl

theorem setWidth_aluRem :
    (aluRem ty a b).setWidth (Ty.width ty) =
      if b.setWidth (Ty.width ty) = 0 then a.setWidth (Ty.width ty)
      else if ty.isSigned then (a.setWidth (Ty.width ty)).srem (b.setWidth (Ty.width ty))
      else a.setWidth (Ty.width ty) % b.setWidth (Ty.width ty) := by
  rw [aluRem, setWidth_int2 hint]
  by_cases zero : b.setWidth (Ty.width ty) = 0
  · rw [if_pos zero, if_pos ((srcInt_eq_zero hint b).2 zero), ofInt_srcInt hint]
  · rw [if_neg zero, if_neg (mt (srcInt_eq_zero hint b).1 zero)]
    cases hs : ty.isSigned
    · rw [srcInt_unsigned hint hs, srcInt_unsigned hint hs, ofInt_tmod_toNat]; rfl
    · rw [srcInt_signed hs, srcInt_signed hs, ofInt_tmod_toInt]; rfl

end

theorem allOnes_ne_zero {w : Nat} (h : 0 < w) : BitVec.allOnes w ≠ 0 := by
  simpa [← BitVec.toInt_inj, BitVec.toInt_allOnes] using h.ne'

theorem srem_allOnes {w : Nat} (h : 0 < w) (x : BitVec w) : x.srem (BitVec.allOnes w) = 0 := by
  refine BitVec.eq_of_toInt_eq ?_
  rw [BitVec.toInt_srem, BitVec.toInt_allOnes, if_pos h, Int.tmod_neg, Int.tmod_one]
  exact BitVec.toInt_zero.symm

/-- Settles O18: a lane of `div` or `rem` never traps, and with a divisor other than 0 the functions are the signed or the
unsigned division of vectors of the type's width, of which only the signed minimum by −1 wraps. -/
theorem divisionCases : Obligations.DivisionCases := by
  unfold Obligations.DivisionCases
  refine ⟨fun h ty d a b imm s f e he => ?no_fault, fun ty hint a b => ?values⟩
  case no_fault =>
    refine Effect.faults_eq_zero fun l => ?_
    rcases he with he | he | he | he <;> cases he <;> rfl
  case values =>
    dsimp only
    rw [setWidth_aluDiv hint, setWidth_aluRem hint]
    refine ⟨fun zero => ?_, fun hs hx hy => ?minimum, fun hs nonzero no_wrap => ?signed, fun hs nonzero => ?unsigned⟩
    · exact ⟨if_pos zero, if_pos zero⟩
    case minimum =>
      have nonzero := hy.trans_ne (allOnes_ne_zero (Ty.width_pos ty))
      rw [if_neg nonzero, if_neg nonzero, if_pos hs, if_pos hs, hx, hy, srem_allOnes (Ty.width_pos ty),
        ← BitVec.neg_one_eq_allOnes, BitVec.intMin_sdiv_neg_one]
      exact ⟨rfl, rfl⟩
    case signed =>
      rw [if_neg nonzero, if_neg nonzero, if_pos hs, if_pos hs, BitVec.toInt_srem]
      refine ⟨BitVec.toInt_sdiv_of_ne_or_ne _ _ ?_, rfl⟩
      rw [BitVec.neg_one_eq_allOnes]
      exact not_or_of_imp no_wrap
    case unsigned =>
      rw [if_neg nonzero, if_neg nonzero, hs]
      exact ⟨BitVec.toNat_udiv, BitVec.toNat_umod⟩

end Sys2Proof.Machine
end

section
/-! SUPPORT. Finite values, infinities and NaNs of a float format (R148): what a word of sign and magnitude reads as, that
the model's order is that of the values, and `fmin`, `fmax`, `fcmp` and `fclass` (R163, R164, R166) by what their sources
read as. -/

namespace Sys2Proof.Machine

/-! ### Reading a word of sign and magnitude -/

/-- What a format needs for its words to be told apart: a fraction with a quiet bit, and an exponent field. -/
structure Fmt.Ok (f : Fmt) : Prop where
  precision : 2 ≤ f.p
  exponent : 0 < f.ebits

theorem Fmt.ok_of_mem {f : Fmt} (h : f ∈ [fmt32, fmt16, fmtB16]) : f.Ok := by
  simp only [List.mem_cons, List.not_mem_nil, or_false] at h
  rcases h with rfl | rfl | rfl <;> constructor <;> decide

/-- What a magnitude reads as: below the infinity a number, above it a NaN, quiet in the upper half. -/
def Fmt.ofMag (f : Fmt) (neg : Bool) (mag : Nat) : FVal :=
  if f.infty false ≤ mag then
    if mag = f.infty false then .inf neg else .nan (decide (mag < f.infty false + 2 ^ (f.p - 2)))
  else if mag < 2 ^ (f.p - 1) then .num neg mag (f.emin - (f.p - 1))
  else .num neg (mag % 2 ^ (f.p - 1) + 2 ^ (f.p - 1)) (f.emin + (mag / 2 ^ (f.p - 1) : Nat) - 1 - (f.p - 1))

section
variable (f : Fmt)

@[simp] theorem Fmt.sign_false : f.sign false = 0 := rfl

theorem Fmt.sign_true : f.sign true = 2 ^ (f.p - 1 + f.ebits) := rfl

theorem Fmt.sign_eq_mul (neg : Bool) : f.sign neg = neg.toNat * 2 ^ f.ebits * 2 ^ (f.p - 1) := by
  cases neg <;> simp [Fmt.sign_true, pow_add, Nat.mul_comm]

theorem Fmt.infty_eq_mul : f.infty false = (2 ^ f.ebits - 1) * 2 ^ (f.p - 1) := by simp [Fmt.infty]

theorem Fmt.infty_eq_add (neg : Bool) : f.infty neg = f.sign neg + f.infty false := by simp [Fmt.infty]

theorem Fmt.hidden_pos : 0 < 2 ^ (f.p - 1) := Nat.two_pow_pos _

theorem Fmt.infty_add_hidden : f.infty false + 2 ^ (f.p - 1) = f.sign true := by
  rw [Fmt.infty_eq_mul, ← Nat.succ_mul, Nat.succ_eq_add_one, Nat.sub_add_cancel Nat.one_le_two_pow, Fmt.sign_eq_mul,
    Bool.toNat_true, Nat.one_mul]

theorem Fmt.infty_lt_sign : f.infty false < f.sign true := by
  rw [← Fmt.infty_add_hidden]; exact Nat.lt_add_of_pos_right f.hidden_pos

end

section
variable {f : Fmt} (neg : Bool) {mag : Nat}

theorem Fmt.frac_mag : (f.sign neg + mag) % 2 ^ (f.p - 1) = mag % 2 ^ (f.p - 1) := by
  rw [Fmt.sign_eq_mul, Nat.mul_add_mod']

theorem Fmt.exponent_lt (h : mag < f.sign true) : mag / 2 ^ (f.p - 1) < 2 ^ f.ebits := by
  rwa [Nat.div_lt_iff_lt_mul f.hidden_pos, Nat.mul_comm, ← pow_add]

theorem Fmt.exponent_mag (h : mag < f.sign true) :
    (f.sign neg + mag) / 2 ^ (f.p - 1) % 2 ^ f.ebits = mag / 2 ^ (f.p - 1) := by
  rw [Fmt.sign_eq_mul, Nat.mul_comm _ (2 ^ (f.p - 1)), Nat.mul_add_div f.hidden_pos, Nat.mul_add_mod',
    Nat.mod_eq_of_lt (Fmt.exponent_lt h)]

theorem Fmt.sign_mag (h : mag < f.sign true) : ((f.sign neg + mag) / 2 ^ (f.p - 1 + f.ebits) % 2 == 1) = neg := by
  rw [← Fmt.sign_true]
  cases neg
  · simp [Nat.div_eq_of_lt h]
  · simp [Nat.add_div_left mag (Nat.zero_lt_of_lt h), Nat.div_eq_of_lt h]

theorem Fmt.exponent_eq_top (h : mag < f.sign true) :
    mag / 2 ^ (f.p - 1) = 2 ^ f.ebits - 1 ↔ f.infty false ≤ mag := by
  have := Fmt.exponent_lt h
  rw [Fmt.infty_eq_mul, ← Nat.le_div_iff_mul_le f.hidden_pos]
  omega

theorem Fmt.read_mag (h : mag < f.sign true) : f.read (f.sign neg + mag) = f.ofMag neg mag := by
  simp only [Fmt.read, Fmt.ofMag, Fmt.frac_mag, Fmt.exponent_mag neg h, Fmt.sign_mag neg h, Fmt.exponent_eq_top h,
    Nat.div_eq_zero_iff_lt f.hidden_pos]
  by_cases big : f.infty false ≤ mag
  · have above : mag = f.infty false + mag % 2 ^ (f.p - 1) := by
      conv_lhs => rw [← Nat.div_add_mod' mag (2 ^ (f.p - 1)), (Fmt.exponent_eq_top h).2 big, ← Fmt.infty_eq_mul]
    have is_inf : mag % 2 ^ (f.p - 1) = 0 ↔ mag = f.infty false := by omega
    have signalling : mag % 2 ^ (f.p - 1) < 2 ^ (f.p - 2) ↔ mag < f.infty false + 2 ^ (f.p - 2) := by omega
    simp only [if_pos big, is_inf, signalling]
  · rw [if_neg big, if_neg big]
    split
    next small => rw [Nat.mod_eq_of_lt small]
    next => rfl

theorem Fmt.read_infty : f.read (f.infty neg) = .inf neg := by
  rw [Fmt.infty_eq_add, Fmt.read_mag neg f.infty_lt_sign, Fmt.ofMag, if_pos le_rfl, if_pos rfl]

theorem Fmt.read_nan (low : f.infty false < mag) (h : mag < f.sign true) :
    f.read (f.sign neg + mag) = .nan (decide (mag < f.infty false + 2 ^ (f.p - 2))) := by
  rw [Fmt.read_mag neg h, Fmt.ofMag, if_pos low.le, if_neg low.ne']

theorem Fmt.read_normal (low : 2 ^ (f.p - 1) ≤ mag) (h : mag < f.infty false) :
    f.read (f.sign neg + mag) =
      .num neg (mag % 2 ^ (f.p - 1) + 2 ^ (f.p - 1)) (f.emin + (mag / 2 ^ (f.p - 1) : Nat) - 1 - (f.p - 1)) := by
  rw [Fmt.read_mag neg (h.trans f.infty_lt_sign), Fmt.ofMag, if_neg h.not_ge, if_neg low.not_gt]

end

section
variable {f : Fmt} (ok : f.Ok)
include ok

theorem Fmt.Ok.hidden_le_infty : 2 ^ (f.p - 1) ≤ f.infty false := by
  have : 2 ^ 1 ≤ 2 ^ f.ebits := Nat.pow_le_pow_right (by decide) ok.exponent
  rw [Fmt.infty_eq_mul]
  exact Nat.le_mul_of_pos_left _ (by omega)

theorem Fmt.Ok.read_subnormal (neg : Bool) {mag : Nat} (h : mag < 2 ^ (f.p - 1)) :
    f.read (f.sign neg + mag) = .num neg mag (f.emin - (f.p - 1)) := by
  have below := h.trans_le ok.hidden_le_infty
  rw [Fmt.read_mag neg (below.trans f.infty_lt_sign), Fmt.ofMag, if_neg below.not_ge, if_pos h]

theorem Fmt.Ok.read_sign (neg : Bool) : f.read (f.sign neg) = .num neg 0 (f.emin - (f.p - 1)) :=
  ok.read_subnormal neg f.hidden_pos

theorem Fmt.Ok.exists_mag {x : Nat} (hx : x < 2 ^ f.width) : ∃ neg mag, mag < f.sign true ∧ x = f.sign neg + mag := by
  have width : 2 ^ f.width = f.sign true + f.sign true := by
    have : f.width = (f.p - 1 + f.ebits) + 1 := by have := ok.precision; simp only [Fmt.width]; omega
    rw [this, Nat.two_pow_succ, Fmt.sign_true]
  rcases Nat.lt_or_ge x (f.sign true) with low | high
  · exact ⟨false, x, low, by simp⟩
  · exact ⟨true, x - f.sign true, by omega, by omega⟩

/-- A word that is no infinity's and reads as no NaN reads as a number. -/
theorem Fmt.Ok.read_num {x : Nat} (hx : x < 2 ^ f.width) (not_nan : (f.read x).isNan = false)
    (not_inf : ∀ r, x ≠ f.infty r) : ∃ s m e, f.read x = .num s m e := by
  obtain ⟨neg, mag, h, rfl⟩ := ok.exists_mag hx
  cases hr : f.read (f.sign neg + mag) with
  | nan s => rw [hr] at not_nan; cases not_nan
  | num s m e => exact ⟨s, m, e, rfl⟩
  | inf s =>
    have : mag = f.infty false := by
      rw [Fmt.read_mag neg h, Fmt.ofMag] at hr
      split at hr
      · split at hr
        · assumption
        · cases hr
      · split at hr <;> cases hr
    exact absurd (this ▸ Fmt.infty_eq_add f neg).symm (not_inf neg)

/-- The quiet bit is the top one of the fraction. -/
theorem Fmt.Ok.signalling_of_read_nan {x : Nat} {s : Bool} (h : f.read x = .nan s) :
    s = decide (x / 2 ^ (f.p - 2) % 2 ≠ 1) := by
  have frac : x / 2 ^ (f.p - 2) % 2 = x % 2 ^ (f.p - 1) / 2 ^ (f.p - 2) := by
    have : f.p - 1 = (f.p - 2) + 1 := by have := ok.precision; omega
    rw [this, pow_succ, Nat.mod_mul_right_div_self]
  have quiet : x / 2 ^ (f.p - 2) % 2 ≠ 1 ↔ x % 2 ^ (f.p - 1) < 2 ^ (f.p - 2) := by
    rw [← Nat.div_eq_zero_iff_lt (Nat.two_pow_pos _), ← frac]; omega
  simp only [Fmt.read] at h
  split at h
  · split at h
    · cases h
    · cases h; simp only [quiet]
  · split at h <;> cases h

end

/-! ### The order of the values -/

/-- The value of a sign and a magnitude (R148). -/
def dyadic (neg : Bool) (m : Nat) (e : Int) : ℚ := (if neg then -1 else 1) * m * 2 ^ e

theorem dyadic_not (neg : Bool) (m : Nat) (e : Int) : dyadic (!neg) m e = -dyadic neg m e := by
  cases neg <;> simp [dyadic]

/-- The sum of two values, as a multiple of the smaller power of 2. -/
theorem sumDyadic_value (s t : Bool) (m n : Nat) (e k : Int) :
    ((sumDyadic s m e t n k).1 : ℚ) * 2 ^ min e k = dyadic s m e + dyadic t n k := by
  have scale (a b : Int) (h : b ≤ a) : (2 : ℚ) ^ a = 2 ^ (a - b).toNat * 2 ^ b := by
    rw [← zpow_natCast, Int.toNat_of_nonneg (by omega), ← zpow_add₀ two_ne_zero, sub_add_cancel]
  simp only [sumDyadic, dyadic, scale e _ (min_le_left e k), scale k _ (min_le_right e k)]
  cases s <;> cases t <;> simp <;> ring

theorem ltV_num (s t : Bool) (m n : Nat) (e k : Int) :
    ltV (.num s m e) (.num t n k) = decide (dyadic s m e < dyadic t n k) := by
  have value := sumDyadic_value s (!t) m n e k
  rw [dyadic_not, ← sub_eq_add_neg] at value
  have power : (0 : ℚ) < 2 ^ min e k := zpow_pos two_pos _
  have negative : (sumDyadic s m e (!t) n k).1 < 0 ↔ dyadic s m e < dyadic t n k := by
    rw [← Int.cast_lt_zero (R := ℚ), ← mul_lt_mul_iff_left₀ power, zero_mul, value, sub_neg]
  simp only [ltV, negative]

theorem Fmt.holds.read {f : Fmt} {x : Nat} {v : ℚ} (h : f.holds x v) :
    ∃ s m e, f.read x = .num s m e ∧ v = dyadic s m e := h.2

theorem Fmt.holds.not_nan {f : Fmt} {x : Nat} {v : ℚ} (h : f.holds x v) : (f.read x).isNan = false := by
  obtain ⟨s, m, e, hr, -⟩ := h.read
  rw [hr]; rfl

theorem ltV_of_holds {f : Fmt} {x y : Nat} {v w : ℚ} (hx : f.holds x v) (hy : f.holds y w) :
    ltV (f.read x) (f.read y) = decide (v < w) := by
  obtain ⟨s, m, e, hrx, rfl⟩ := hx.read
  obtain ⟨t, n, k, hry, rfl⟩ := hy.read
  rw [hrx, hry, ltV_num]

theorem ltV_asymm {a b : FVal} (h : ltV a b = true) : ltV b a = false := by
  match a, b with
  | .nan _, b => cases b <;> cases h
  | a, .nan _ => cases a <;> rfl
  | .inf r, .inf q =>
    simp only [ltV, Bool.and_eq_true, Bool.not_eq_true'] at h
    rw [h.1, h.2]; rfl
  | .inf r, .num .. => simpa [ltV] using h
  | .num .., .inf r => simpa [ltV] using h
  | .num s m e, .num t n k =>
    rw [ltV_num, decide_eq_true_eq] at h
    rw [ltV_num, decide_eq_false_iff_not]
    exact h.asymm

/-! ### `fmin` and `fmax` -/

section
variable {f : Fmt} {x y : Nat}

theorem Fmt.minmax_of_nans (hx : (f.read x).isNan = true) (hy : (f.read y).isNan = true) (max : Bool) :
    f.minmax max x y = f.canon := by
  simp [Fmt.minmax, hx, hy]

theorem Fmt.minmax_of_nan_left (hx : (f.read x).isNan = true) (hy : (f.read y).isNan = false) (max : Bool) :
    f.minmax max x y = y := by
  simp [Fmt.minmax, hx, hy]

theorem Fmt.minmax_of_nan_right (hx : (f.read x).isNan = false) (hy : (f.read y).isNan = true) (max : Bool) :
    f.minmax max x y = x := by
  simp [Fmt.minmax, hx, hy]

theorem Fmt.minmax_self (hx : (f.read x).isNan = false) (max : Bool) : f.minmax max x x = x := by
  simp [Fmt.minmax, hx]

/-- A source that is less than the other is the smaller, wherever it stands, and the other is the larger. -/
theorem Fmt.minmax_of_ltV (hx : (f.read x).isNan = false) (hy : (f.read y).isNan = false)
    (lt : ltV (f.read x) (f.read y) = true) :
    (f.minmax false x y = x ∧ f.minmax true x y = y) ∧ f.minmax false y x = x ∧ f.minmax true y x = y := by
  simp [Fmt.minmax, hx, hy, lt, ltV_asymm lt]

/-- −0 is the smaller of two zeros, and +0 the larger. -/
theorem Fmt.Ok.minmax_zeros (ok : f.Ok) :
    f.minmax false 0 (f.sign true) = f.sign true ∧ f.minmax false (f.sign true) 0 = f.sign true ∧
      f.minmax true 0 (f.sign true) = 0 ∧ f.minmax true (f.sign true) 0 = 0 := by
  have plus := ok.read_sign false
  have minus := ok.read_sign true
  rw [Fmt.sign_false] at plus
  simp [Fmt.minmax, plus, minus, FVal.isNan, FVal.neg, ltV_num, dyadic]

/-- −∞ is less than every other word that is no NaN's, and every other is less than +∞. -/
theorem Fmt.Ok.ltV_infty (ok : f.Ok) (hx : x < 2 ^ f.width) (not_nan : (f.read x).isNan = false) :
    (x ≠ f.infty true → ltV (f.read (f.infty true)) (f.read x) = true) ∧
    (x ≠ f.infty false → ltV (f.read x) (f.read (f.infty false)) = true) := by
  by_cases inf : ∃ r, x = f.infty r
  · obtain ⟨r, rfl⟩ := inf
    simp only [Fmt.read_infty]
    cases r
    · exact ⟨fun _ => rfl, fun h => absurd rfl h⟩
    · exact ⟨fun h => absurd rfl h, fun _ => rfl⟩
  · obtain ⟨s, m, e, hr⟩ := ok.read_num hx not_nan (not_exists.1 inf)
    rw [hr, Fmt.read_infty, Fmt.read_infty]
    exact ⟨fun _ => rfl, fun _ => rfl⟩

theorem Fmt.infty_not_nan (f : Fmt) (r : Bool) : (f.read (f.infty r)).isNan = false := by rw [Fmt.read_infty]; rfl

theorem Fmt.Ok.minmax_neg_infty (ok : f.Ok) (hx : x < 2 ^ f.width) (not_nan : (f.read x).isNan = false) :
    (f.minmax false (f.infty true) x = f.infty true ∧ f.minmax true (f.infty true) x = x) ∧
    f.minmax false x (f.infty true) = f.infty true ∧ f.minmax true x (f.infty true) = x := by
  by_cases same : x = f.infty true
  · simp only [same, Fmt.minmax_self (f.infty_not_nan true), and_self]
  · exact Fmt.minmax_of_ltV (f.infty_not_nan true) not_nan ((ok.ltV_infty hx not_nan).1 same)

theorem Fmt.Ok.minmax_pos_infty (ok : f.Ok) (hx : x < 2 ^ f.width) (not_nan : (f.read x).isNan = false) :
    (f.minmax false x (f.infty false) = x ∧ f.minmax true x (f.infty false) = f.infty false) ∧
    f.minmax false (f.infty false) x = x ∧ f.minmax true (f.infty false) x = f.infty false := by
  by_cases same : x = f.infty false
  · simp only [same, Fmt.minmax_self (f.infty_not_nan false), and_self]
  · exact Fmt.minmax_of_ltV not_nan (f.infty_not_nan false) ((ok.ltV_infty hx not_nan).2 same)

/-! ### `fcmp` -/

theorem Fmt.cmp_of_nan (h : (f.read x).isNan = true ∨ (f.read y).isNan = true) (cc : Fcc) :
    f.cmp cc x y = decide (cc = .ne ∨ cc = .un) := by
  have un : ((f.read x).isNan || (f.read y).isNan) = true := by simpa using h
  cases cc <;> simp [Fmt.cmp, un]

/-- Two sources neither of which is a NaN are compared by the order alone. -/
theorem Fmt.cmp_of_not_nan (hx : (f.read x).isNan = false) (hy : (f.read y).isNan = false) (cc : Fcc) :
    f.cmp cc x y = match cc with
      | .eq => !ltV (f.read x) (f.read y) && !ltV (f.read y) (f.read x)
      | .ne => ltV (f.read x) (f.read y) || ltV (f.read y) (f.read x)
      | .lt => ltV (f.read x) (f.read y)
      | .le => !ltV (f.read y) (f.read x)
      | .gt => ltV (f.read y) (f.read x)
      | .ge => !ltV (f.read x) (f.read y)
      | .un => false
      | .ord => true := by
  cases cc <;> simp [Fmt.cmp, hx, hy]

theorem Fmt.cmp_of_holds {v w : ℚ} (hx : f.holds x v) (hy : f.holds y w) :
    f.cmp .eq x y = decide (v = w) ∧ f.cmp .lt x y = decide (v < w) ∧ f.cmp .le x y = decide (v ≤ w) ∧
    f.cmp .ne x y = decide (v ≠ w) ∧ f.cmp .gt x y = decide (w < v) ∧ f.cmp .ge x y = decide (w ≤ v) ∧
    f.cmp .ord x y = true ∧ f.cmp .un x y = false := by
  have eq : (decide (w ≤ v) && decide (v ≤ w)) = decide (v = w) := by
    rw [← Bool.decide_and, decide_eq_decide, le_antisymm_iff, and_comm]
  have ne : (decide (v < w) || decide (w < v)) = decide (v ≠ w) := by
    rw [← Bool.decide_or, decide_eq_decide]; exact lt_or_lt_iff_ne
  simp only [Fmt.cmp_of_not_nan hx.not_nan hy.not_nan, ltV_of_holds hx hy, ltV_of_holds hy hx, ← decide_not,
    not_lt, eq, ne, and_self]

/-- A finite value is above −∞ and below +∞. -/
theorem Fmt.cmp_holds_infty {v : ℚ} (hx : f.holds x v) (r : Bool) :
    f.cmp .eq x (f.infty r) = false ∧ f.cmp .ne x (f.infty r) = true ∧ f.cmp .lt x (f.infty r) = !r ∧
    f.cmp .le x (f.infty r) = !r ∧ f.cmp .gt x (f.infty r) = r ∧ f.cmp .ge x (f.infty r) = r ∧
    f.cmp .ord x (f.infty r) = true ∧ f.cmp .un x (f.infty r) = false ∧
    f.cmp .eq (f.infty r) x = false ∧ f.cmp .ne (f.infty r) x = true ∧ f.cmp .lt (f.infty r) x = r ∧
    f.cmp .le (f.infty r) x = r ∧ f.cmp .gt (f.infty r) x = !r ∧ f.cmp .ge (f.infty r) x = !r ∧
    f.cmp .ord (f.infty r) x = true ∧ f.cmp .un (f.infty r) x = false := by
  obtain ⟨s, m, e, hr, -⟩ := hx.read
  have above : ltV (f.read (f.infty r)) (f.read x) = r := by rw [hr, Fmt.read_infty]; rfl
  have below : ltV (f.read x) (f.read (f.infty r)) = !r := by rw [hr, Fmt.read_infty]; rfl
  simp [Fmt.cmp_of_not_nan hx.not_nan (f.infty_not_nan r), Fmt.cmp_of_not_nan (f.infty_not_nan r) hx.not_nan, above, below]

theorem Fmt.cmp_infty (f : Fmt) (r q : Bool) :
    f.cmp .eq (f.infty r) (f.infty q) = decide (r = q) ∧ f.cmp .ne (f.infty r) (f.infty q) = decide (r ≠ q) ∧
    f.cmp .lt (f.infty r) (f.infty q) = (r && !q) ∧ f.cmp .le (f.infty r) (f.infty q) = (r || !q) ∧
    f.cmp .gt (f.infty r) (f.infty q) = (!r && q) ∧ f.cmp .ge (f.infty r) (f.infty q) = (!r || q) ∧
    f.cmp .ord (f.infty r) (f.infty q) = true ∧ f.cmp .un (f.infty r) (f.infty q) = false := by
  simp only [Fmt.cmp_of_not_nan (f.infty_not_nan r) (f.infty_not_nan q), Fmt.read_infty, ltV]
  revert r q
  decide

/-! ### `fclass` -/

/-- The ten classes of R166, as ranges of words but for the NaNs. -/
def Fmt.InClass (f : Fmt) (x : Nat) : Nat → Prop
  | 0 => x = f.infty true
  | 1 => f.sign true + 2 ^ (f.p - 1) ≤ x ∧ x < f.infty true
  | 2 => f.sign true < x ∧ x < f.sign true + 2 ^ (f.p - 1)
  | 3 => x = f.sign true
  | 4 => x = 0
  | 5 => 0 < x ∧ x < 2 ^ (f.p - 1)
  | 6 => 2 ^ (f.p - 1) ≤ x ∧ x < f.infty false
  | 7 => x = f.infty false
  | 8 => f.read x = .nan true
  | 9 => (f.read x).isNan = true ∧ x / 2 ^ (f.p - 2) % 2 = 1
  | _ => False

theorem Fmt.cls_infty (f : Fmt) (r : Bool) : f.cls (f.infty r) = if r then 2 ^ 0 else 2 ^ 7 := by
  rw [Fmt.cls, Fmt.read_infty]

theorem Fmt.Ok.cls_sign (ok : f.Ok) (r : Bool) : f.cls (f.sign r) = if r then 2 ^ 3 else 2 ^ 4 := by
  simp only [Fmt.cls, ok.read_sign r, if_true]

theorem Fmt.Ok.cls_subnormal (ok : f.Ok) (neg : Bool) {mag : Nat} (pos : 0 < mag) (h : mag < 2 ^ (f.p - 1)) :
    f.cls (f.sign neg + mag) = if neg then 2 ^ 2 else 2 ^ 5 := by
  simp only [Fmt.cls, ok.read_subnormal neg h, if_neg pos.ne', if_pos h]

theorem Fmt.cls_normal (neg : Bool) {mag : Nat} (low : 2 ^ (f.p - 1) ≤ mag) (h : mag < f.infty false) :
    f.cls (f.sign neg + mag) = if neg then 2 ^ 1 else 2 ^ 6 := by
  have hidden := f.hidden_pos
  simp only [Fmt.cls, Fmt.read_normal neg low h]
  rw [if_neg (by omega), if_neg (by omega)]

/-- The mask of a word has the bit of its class. -/
theorem Fmt.Ok.cls_of_inClass (ok : f.Ok) : ∀ {n : Nat}, f.InClass x n → f.cls x = 2 ^ n
  | 0, h => by rw [h, Fmt.cls_infty]; rfl
  | 1, ⟨low, high⟩ => by
    obtain ⟨mag, rfl⟩ := Nat.exists_eq_add_of_le ((Nat.le_add_right ..).trans low)
    rw [Fmt.infty_eq_add] at high
    exact Fmt.cls_normal true (by omega) (by omega)
  | 2, ⟨low, high⟩ => by
    obtain ⟨mag, rfl⟩ := Nat.exists_eq_add_of_le low.le
    exact ok.cls_subnormal true (by omega) (by omega)
  | 3, h => by rw [h, ok.cls_sign]; rfl
  | 4, h => by rw [h, ← f.sign_false, ok.cls_sign]; rfl
  | 5, ⟨low, high⟩ => by simpa using ok.cls_subnormal false low high
  | 6, ⟨low, high⟩ => by simpa using Fmt.cls_normal false low high
  | 7, h => by rw [h, Fmt.cls_infty]; rfl
  | 8, h => by rw [Fmt.cls, show f.read x = .nan true from h]; rfl
  | 9, ⟨nan, quiet⟩ => by
    cases hr : f.read x with
    | nan s =>
      have : s = false := by rw [ok.signalling_of_read_nan hr]; simpa using quiet
      rw [Fmt.cls, hr, this]; rfl
    | inf r => rw [hr] at nan; cases nan
    | num s m e => rw [hr] at nan; cases nan
  | _ + 10, h => h.elim

/-- Every word is in a class. -/
theorem Fmt.Ok.exists_inClass (ok : f.Ok) (hx : x < 2 ^ f.width) : ∃ n < 10, f.InClass x n := by
  obtain ⟨neg, mag, h, rfl⟩ := ok.exists_mag hx
  have hidden := ok.hidden_le_infty
  have infty := f.infty_eq_add neg
  rcases Nat.lt_trichotomy mag (f.infty false) with finite | inf | nan
  · rcases Nat.eq_zero_or_pos mag with rfl | pos
    · cases neg
      · exact ⟨4, by decide, rfl⟩
      · exact ⟨3, by decide, rfl⟩
    · rcases Nat.lt_or_ge mag (2 ^ (f.p - 1)) with small | large
      · cases neg
        · exact ⟨5, by decide, by simpa [Fmt.InClass] using ⟨pos, small⟩⟩
        · exact ⟨2, by decide, by omega, by omega⟩
      · cases neg
        · exact ⟨6, by decide, by simpa [Fmt.InClass] using ⟨large, finite⟩⟩
        · exact ⟨1, by decide, by omega, by omega⟩
  · rw [inf, ← infty]
    cases neg
    · exact ⟨7, by decide, rfl⟩
    · exact ⟨0, by decide, rfl⟩
  · have hr := Fmt.read_nan neg nan h
    generalize decide (mag < f.infty false + 2 ^ (f.p - 2)) = signalling at hr
    cases signalling
    · exact ⟨9, by decide, by rw [hr]; rfl, by simpa using ok.signalling_of_read_nan hr⟩
    · exact ⟨8, by decide, hr⟩

/-- A word is in one class only: its mask is a power of 2. -/
theorem Fmt.Ok.eq_iff_inClass (ok : f.Ok) {n k : Nat} (h : f.InClass x n) : n = k ↔ f.InClass x k :=
  ⟨fun e => e ▸ h, fun hk => Nat.pow_right_injective le_rfl ((ok.cls_of_inClass h).symm.trans (ok.cls_of_inClass hk))⟩

end

/-- Settles O22: the sources of `fmin`, `fmax` and `fcmp` are ordered as their values are (`ltV_of_holds`,
`Fmt.Ok.ltV_infty`), and a word is in exactly one of the ten classes. -/
theorem minMaxCompareClassify : Obligations.MinMaxCompareClassify := by
  unfold Obligations.MinMaxCompareClassify
  intro f hf x y hx hy
  have ok := Fmt.ok_of_mem hf
  refine ⟨fun nx ny => ⟨Fmt.minmax_of_nans nx ny _, Fmt.minmax_of_nans nx ny _⟩,
    fun nx ny => ⟨Fmt.minmax_of_nan_left nx ny _, Fmt.minmax_of_nan_left nx ny _⟩,
    fun nx ny => ⟨Fmt.minmax_of_nan_right nx ny _, Fmt.minmax_of_nan_right nx ny _⟩,
    fun v w hv hw => ⟨fun lt => ?smaller, fun gt => ?larger⟩, ok.minmax_zeros, fun not_nan => ?infinities,
    Fmt.cmp_of_nan, fun v w => Fmt.cmp_of_holds, fun v r hv => Fmt.cmp_holds_infty hv r, f.cmp_infty, ?classes⟩
  case smaller =>
    exact (Fmt.minmax_of_ltV hv.not_nan hw.not_nan (by rwa [ltV_of_holds hv hw, decide_eq_true_eq])).1
  case larger =>
    exact (Fmt.minmax_of_ltV hw.not_nan hv.not_nan (by rwa [ltV_of_holds hw hv, decide_eq_true_eq])).2
  case infinities =>
    obtain ⟨⟨min_left, max_left⟩, min_right, max_right⟩ := ok.minmax_neg_infty hx not_nan
    obtain ⟨⟨min_right', max_right'⟩, min_left', max_left'⟩ := ok.minmax_pos_infty hx not_nan
    exact ⟨Fmt.minmax_self not_nan _, Fmt.minmax_self not_nan _, min_left, min_right, min_left', min_right', max_left',
      max_right', max_left, max_right⟩
  case classes =>
    obtain ⟨n, hn, h⟩ := ok.exists_inClass hx
    have only (k : Nat) : n = k ↔ f.InClass x k := ok.eq_iff_inClass h
    exact ⟨n, hn, ok.cls_of_inClass h, only 9, only 8, only 7, only 0, only 4, only 3, only 1, only 2, only 5, only 6⟩

end Sys2Proof.Machine
end
